-- ==== Sys2Proof/Word.lean ====
section
/-!
DEFINITION. The word types of the NS32CG16 (00_scope.md R9, 10_state.md R21, R23).
-/
namespace Sys2Proof

/-- A Byte, 8 bits (R9). -/
abbrev Byte := BitVec 8

/-- A Word, 16 bits (R9). -/
abbrev Half := BitVec 16

/-- A Double-Word, 32 bits (R9). -/
abbrev DWord := BitVec 32

/-- A Quad-Word, 64 bits (R9). -/
abbrev Quad := BitVec 64

/-- A byte address: 24 bits are implemented (R23, R71). -/
abbrev Addr := BitVec 24

end Sys2Proof
end

