-- ==== Sys2Proof/Config.lean ====
section
/-!
DEFINITION. What an NS32CG16 system fixes from outside and what the spec leaves open: the vocabulary of the bus, the
slave protocol's messages, and the free values. A free value has no body: nothing can be proved of it.
-/
namespace Sys2Proof

/-- The bus status codes ST3..ST0 that the model's bus cycles carry (20_memory.md R90). Idle states are no cycles
(assumption 10). -/
inductive BusStatus where
  /-- 0100 Interrupt Acknowledge, Master. -/
  | intAckMaster
  /-- 0101 Interrupt Acknowledge, Cascaded. -/
  | intAckCascaded
  /-- 0110 End of Interrupt, Master. -/
  | endIntMaster
  /-- 0111 End of Interrupt, Cascaded. -/
  | endIntCascaded
  /-- 1000 Sequential Instruction Fetch. -/
  | fetch
  /-- 1001 Non-Sequential Instruction Fetch. -/
  | fetchBreak
  /-- 1010 Data Transfer. -/
  | data
  /-- 1011 Read RMW Operand. -/
  | readRmw
  /-- 1100 Read for Effective Address Calculation. -/
  | readEa
  /-- 1101 Transfer Slave Processor Operand. -/
  | slaveOperand
  /-- 1110 Read Slave Processor Status. -/
  | slaveStatus
  /-- 1111 Broadcast Slave ID. -/
  | slaveId
deriving DecidableEq, Repr

/-- The four-bit code of a status (R90). -/
def BusStatus.code : BusStatus → BitVec 4
  | .intAckMaster => 0b0100
  | .intAckCascaded => 0b0101
  | .endIntMaster => 0b0110
  | .endIntCascaded => 0b0111
  | .fetch => 0b1000
  | .fetchBreak => 0b1001
  | .data => 0b1010
  | .readRmw => 0b1011
  | .readEa => 0b1100
  | .slaveOperand => 0b1101
  | .slaveStatus => 0b1110
  | .slaveId => 0b1111

/-- One bus cycle (R84, R104). A slave cycle presents no address: its `addr` is 0. -/
structure BusEvent where
  /-- the status code on ST0-ST3 -/
  status : BusStatus
  /-- the CPU drives the data -/
  write : Bool
  /-- the address presented -/
  addr : Addr
  /-- 1 (Even Byte, Odd Byte) or 2 (Even Word) bytes -/
  bytes : Nat
  /-- the data, the byte at the lower address in the low bits -/
  data : Half
  /-- the ILO pin is active (R98) -/
  interlocked : Bool
  /-- the BPU pin is active: an operand of EXTBLT, or an instruction fetch with PSR.B = 1 (R45, R456) -/
  bpu : Bool
  /-- the U/S pin shows User Mode, that is PSR.U = 1 (R45, R540) -/
  user : Bool
deriving DecidableEq, Repr

/-- What an observer of the pins sees, in order (10_state.md R45). -/
inductive PinEvent where
  /-- a bus cycle -/
  | cycle (e : BusEvent)
  /-- a pulse on PFS: an instruction begins to execute (R45, 60_exceptions.md R545) -/
  | pfs
deriving DecidableEq, Repr

/-- Whether a BITBLT Processing Unit is attached: the parameter BPU (00_scope.md R7, 49_graphics.md R454). -/
inductive BpuKind where
  /-- no BPU (the default) -/
  | absent
  /-- a DP8510 or DP8511 -/
  | attached
deriving DecidableEq, Repr

/-- Which Floating-Point Unit is attached: the parameter FPU (00_scope.md R7, 47_floating_point.md R390). -/
inductive FpuKind where
  /-- no FPU -/
  | absent
  /-- an NS32081: Formats 9 and 11 -/
  | ns32081
  /-- an NS32381: Formats 9, 11 and 12 -/
  | ns32381
deriving DecidableEq, Repr

/-- The parameter UNDEFINED_OPCODE_POLICY (30_encoding.md R164, D28). -/
inductive UndPolicy where
  /-- refuse the unassigned encodings (the default) -/
  | refuse
  /-- they raise Trap(UND) -/
  | trapUnd
deriving DecidableEq, Repr

/-- What becomes of an instruction with operand values for which the spec declines to define it
(70_reset_and_hazards.md R600, D17, D18, D20, D46). DESIGN CHOICE (assumptions 15 to 20): the model's own parameter. -/
inductive OperandPolicy where
  /-- the instruction is refused, as the spec decides (the default) -/
  | refuse
  /-- it runs, and what the spec does not state is free -/
  | free
deriving DecidableEq, Repr

/-- What the CPU sends an FPU and what the FPU holds when it starts (47_floating_point.md R391). -/
structure FpuRequest where
  /-- which FPU it is -/
  kind : FpuKind
  /-- the ID Byte -/
  id : Byte
  /-- the Operation Word, instruction bytes 2 (low) and 3 (high) -/
  opWord : Half
  /-- the operands issued, operand 1 first -/
  operands : List Quad
  /-- the floating registers as values of type L -/
  fregs : Vector Quad 8
  /-- the floating registers of an NS32081 as values of type F -/
  fsingles : Vector DWord 8
  /-- the FSR -/
  fsr : DWord
deriving DecidableEq, Repr

/-- What an FPU answers (R391 steps 6 and 7), and the FSR it holds afterwards. -/
structure FpuReply where
  /-- the Status Word: Q bit 0, L bit 2, Z bit 6, N bit 7 (R397); its other bits are ignored -/
  status : Half
  /-- the result -/
  result : Quad
  /-- the FSR -/
  fsr : DWord
deriving DecidableEq, Repr, Inhabited

namespace Config

/-- FREE VALUE (assumption 9): the n-th value the spec does not state. A narrower value takes its low bits. -/
opaque freeBits : Nat → Quad

/-- FREE VALUE (assumption 21): INDEX_EXT, whether INDEXB and INDEXW extend with the sign
(43_bits_fields_arrays.md R296). -/
opaque indexSigned : Bool

/-- FREE VALUE (assumption 19): whether the BB width word at 0(SP) is a double-word or a word, where the OperandPolicy
lets one of 2^16 or more run (49_graphics.md R445, D17). -/
opaque bbWidthIsLong : Bool

/-- FREE VALUE (assumption 20): whether a TBITS that no interrupt has suspended adds to the R2 it finds or clears it,
where the OperandPolicy lets it run (49_graphics.md R465, D20). -/
opaque tbitsAccumulates : Bool

/-- FREE VALUE (assumption 20): whether TBITS compares its offsets signed, where the OperandPolicy lets an offset with
bit 31 set run (49_graphics.md R465, D20). -/
opaque tbitsSigned : Bool

/-- FREE VALUE (assumption 16): how many words EXTBLT moves per scan line, for an R4 other than +2 and -2, from
R2 and R4, where the OperandPolicy lets it run (49_graphics.md R454, D18). Any number. -/
opaque extbltWords : DWord → DWord → Nat

/-- FREE VALUE (assumption 15): the word the BPU drives on an EXTBLT write, `BPU.result()`, from all it can have seen on
the pins: `BPU.source` and `BPU.dest` are the read cycles of EXTBLT among them (49_graphics.md R454). -/
opaque bpuData : List PinEvent → Half

/-- FREE VALUE (assumption 12): the attached FPU's answer, when State lists none (47_floating_point.md R393). The number
tells one request from another. -/
opaque fpuExecute : Nat → FpuRequest → FpuReply

end Config

end Sys2Proof
end

