-- ==== Sys2Proof/Syntax.lean ====
section
/-!
DEFINITION. The instructions of the NS32CG16: one constructor per row of opcode_table.json, with the operands the
formats of 30_encoding.md give them. A displacement keeps the length it is encoded with (R124 allows all three), so
that encoding and decoding are inverse.
-/
namespace Sys2Proof

/-- The integer type field i (30_encoding.md R127). -/
inductive Size where
  | b | w | d
deriving DecidableEq, Repr

/-- size(i) in bytes (00_scope.md R9). -/
abbrev Size.bytes : Size → Nat
  | .b => 1
  | .w => 2
  | .d => 4

/-- The floating type field f: F is 32 bits, L is 64 bits (30_encoding.md R128). -/
inductive FSize where
  | f | l
deriving DecidableEq, Repr

/-- The bytes of a floating operand (R129). -/
abbrev FSize.bytes : FSize → Nat
  | .f => 4
  | .l => 8

/-- A 3-bit register number: R0 to R7, or F0 to F7 (10_state.md R39). -/
abbrev RegNo := BitVec 3

/-- A displacement in its one-, two- or four-byte form (R124). -/
inductive Disp where
  | d1 (v : BitVec 7)
  | d2 (v : BitVec 14)
  | d4 (v : BitVec 30)
deriving DecidableEq, Repr

/-- An immediate operand of 1, 2, 4 or 8 bytes (R125). -/
inductive Imm where
  | b (v : Byte)
  | w (v : Half)
  | d (v : DWord)
  | q (v : Quad)
deriving DecidableEq, Repr

/-- The registers a Memory Relative mode starts from (R134). -/
inductive RelReg where
  | fp | sp | sb
deriving DecidableEq, Repr

/-- The registers a Memory Space mode starts from (R133, R139). -/
inductive SpaceReg where
  | fp | sp | sb | pc
deriving DecidableEq, Repr

/-- The addressing modes that Scaled Index may stand on, and the rest but Scaled Index itself (R130). -/
inductive Base where
  /-- 00nnn: Register (R131). -/
  | reg (r : RegNo)
  /-- 01nnn: Register Relative (R132). -/
  | regRel (r : RegNo) (d : Disp)
  /-- 10000, 10001, 10010: Memory Relative (R134). -/
  | memRel (a : RelReg) (d1 d2 : Disp)
  /-- 10100: Immediate (R135). -/
  | imm (v : Imm)
  /-- 10101: Absolute (R137). -/
  | abs (d : Disp)
  /-- 10110: External (R136). -/
  | ext (d1 d2 : Disp)
  /-- 10111: Top of Stack (R138). -/
  | tos
  /-- 11000 to 11011: Memory Space and Program memory (R133, R139). -/
  | mem (a : SpaceReg) (d : Disp)
deriving DecidableEq, Repr

/-- The scale factor of Scaled Index: 1, 2, 4 or 8 (R140). -/
inductive Scale where
  | b | w | d | q
deriving DecidableEq, Repr

/-- A general operand (R130). -/
inductive Gen where
  /-- one of the modes that are not Scaled Index -/
  | base (m : Base)
  /-- 111ss: Scaled Index over a base mode, with index register `x` (R140) -/
  | scaled (m : Base) (x : RegNo) (s : Scale)
deriving DecidableEq, Repr

/-- The condition codes (R165). -/
inductive Cond where
  | eq | ne | cs | cc | hi | ls | gt | le | fs | fc | lo | hs | lt | ge | always | never
deriving DecidableEq, Repr

/-- The assigned dedicated-register codes of LPR and SPR (R167). -/
inductive Areg where
  | us | fp | sp | sb | psr | intbase | modReg
deriving DecidableEq, Repr

/-- The U/W option of a string instruction (R169). -/
inductive StrTest where
  | none | while | until
deriving DecidableEq, Repr

/-- The options of a string instruction but T (R169, R310). -/
structure StrOpts where
  /-- option B: decrement the pointers -/
  backward : Bool
  /-- option W or U -/
  test : StrTest
deriving DecidableEq, Repr

/-- The options of a BB instruction (49_graphics.md R441, R444). -/
structure BbOpts where
  /-- option DA: decreasing address -/
  decreasing : Bool
  /-- option -S: inverted source -/
  inverted : Bool
deriving DecidableEq, Repr

/-- The instructions, one constructor per row of opcode_table.json. -/
inductive Instr where
  -- Format 0
  | bcond (c : Cond) (d : Disp)
  | br (d : Disp)
  -- Format 1
  | bsr (d : Disp)
  | ret (d : Disp)
  | cxp (d : Disp)
  | rxp (d : Disp)
  | rett (d : Disp)
  | reti
  | save (l : Byte)
  | restore (l : Byte)
  | enter (l : Byte) (d : Disp)
  | exit (l : Byte)
  | nop
  | wait
  | dia
  | flag
  | svc
  | bpt
  -- Format 2
  | addqi (i : Size) (q : BitVec 4) (g : Gen)
  | cmpqi (i : Size) (q : BitVec 4) (g : Gen)
  | spri (i : Size) (a : Areg) (g : Gen)
  | scondi (i : Size) (c : Cond) (g : Gen)
  | acbi (i : Size) (q : BitVec 4) (g : Gen) (d : Disp)
  | movqi (i : Size) (q : BitVec 4) (g : Gen)
  | lpri (i : Size) (a : Areg) (g : Gen)
  -- Format 3
  | cxpd (g : Gen)
  | bicpsri (i : Size) (g : Gen)
  | jump (g : Gen)
  | bispsri (i : Size) (g : Gen)
  | adjspi (i : Size) (g : Gen)
  | jsr (g : Gen)
  | casei (i : Size) (g : Gen)
  | undefFormat3 (g : BitVec 5) (o : BitVec 3) (i : Size)
  | undefFormat3Op1000 (g : BitVec 5) (i : Size)
  -- Format 4
  | addi (i : Size) (src dst : Gen)
  | cmpi (i : Size) (src1 src2 : Gen)
  | bici (i : Size) (src dst : Gen)
  | addci (i : Size) (src dst : Gen)
  | movi (i : Size) (src dst : Gen)
  | ori (i : Size) (src dst : Gen)
  | subi (i : Size) (src dst : Gen)
  | addr (src dst : Gen)
  | andi (i : Size) (src dst : Gen)
  | subci (i : Size) (src dst : Gen)
  | tbiti (i : Size) (off base : Gen)
  | xori (i : Size) (src dst : Gen)
  -- Format 5
  | movsi (i : Size) (o : StrOpts)
  | movst (o : StrOpts)
  | cmpsi (i : Size) (o : StrOpts)
  | cmpst (o : StrOpts)
  | setcfg (o : BitVec 4)
  | skpsi (i : Size) (o : StrOpts)
  | skpst (o : StrOpts)
  | bbstod (o : BbOpts)
  | extblt
  | bbor (o : BbOpts)
  | movmpi (i : Size)
  | bitwt
  | tbits (o : Bool)
  | bband (o : BbOpts)
  | sbitps
  | bbfor
  | sbits
  | bbxor (o : BbOpts)
  -- Format 6
  | roti (i : Size) (count dst : Gen)
  | ashi (i : Size) (count dst : Gen)
  | cbiti (i : Size) (off base : Gen)
  | cbitii (i : Size) (off base : Gen)
  | lshi (i : Size) (count dst : Gen)
  | sbiti (i : Size) (off base : Gen)
  | sbitii (i : Size) (off base : Gen)
  | negi (i : Size) (src dst : Gen)
  | noti (i : Size) (src dst : Gen)
  | subpi (i : Size) (src dst : Gen)
  | absi (i : Size) (src dst : Gen)
  | comi (i : Size) (src dst : Gen)
  | ibiti (i : Size) (off base : Gen)
  | addpi (i : Size) (src dst : Gen)
  -- Format 7
  | movmi (i : Size) (b1 b2 : Gen) (d : Disp)
  | cmpmi (i : Size) (b1 b2 : Gen) (d : Disp)
  | inssi (i : Size) (src base : Gen) (off : BitVec 3) (len : BitVec 5)
  | extsi (i : Size) (base dst : Gen) (off : BitVec 3) (len : BitVec 5)
  | movxbw (src dst : Gen)
  | movzbw (src dst : Gen)
  | movzid (i : Size) (src dst : Gen)
  | movxid (i : Size) (src dst : Gen)
  | muli (i : Size) (src dst : Gen)
  | meii (i : Size) (src dst : Gen)
  | deii (i : Size) (src dst : Gen)
  | quoi (i : Size) (src dst : Gen)
  | remi (i : Size) (src dst : Gen)
  | modi (i : Size) (src dst : Gen)
  | divi (i : Size) (src dst : Gen)
  -- Format 8
  | exti (i : Size) (r : RegNo) (base dst : Gen) (len : Disp)
  | cvtp (r : RegNo) (base dst : Gen)
  | insi (i : Size) (r : RegNo) (src base : Gen) (len : Disp)
  | checki (i : Size) (r : RegNo) (bounds src : Gen)
  | indexi (i : Size) (r : RegNo) (len idx : Gen)
  | ffsi (i : Size) (base off : Gen)
  -- Format 9
  | movif (i : Size) (t : FSize) (src dst : Gen)
  | lfsr (src : Gen)
  | movlf (src dst : Gen)
  | movfl (src dst : Gen)
  | roundfi (t : FSize) (i : Size) (src dst : Gen)
  | truncfi (t : FSize) (i : Size) (src dst : Gen)
  | sfsr (dst : Gen)
  | floorfi (t : FSize) (i : Size) (src dst : Gen)
  -- Format 11
  | addf (t : FSize) (src dst : Gen)
  | movf (t : FSize) (src dst : Gen)
  | cmpf (t : FSize) (src1 src2 : Gen)
  | subf (t : FSize) (src dst : Gen)
  | negf (t : FSize) (src dst : Gen)
  | divf (t : FSize) (src dst : Gen)
  | mulf (t : FSize) (src dst : Gen)
  | absf (t : FSize) (src dst : Gen)
  -- Format 12
  | polyf (t : FSize) (src1 src2 : Gen)
  | dotf (t : FSize) (src1 src2 : Gen)
  | scalbf (t : FSize) (src dst : Gen)
  | logbf (t : FSize) (src dst : Gen)
deriving DecidableEq, Repr

end Sys2Proof
end

