-- ==== Sys2Proof/WellFormed.lean ====
section
/-!
DEFINITION. Which instructions are well formed: what the instruction's own bytes decide, by the spec's decisions D9,
D36, D37, D44, D45, D48 and rules R143, R203, R288, R290. `check` names the first thing that is wrong.
-/
namespace Sys2Proof

/-- The decoded displacement (30_encoding.md R124). -/
def Disp.val : Disp → Int
  | .d1 v => v.toInt
  | .d2 v => v.toInt
  | .d4 v => v.toInt

/-- The decoded displacement as the 32-bit signed number of R124. -/
def Disp.word : Disp → DWord
  | .d1 v => v.signExtend 32
  | .d2 v => v.signExtend 32
  | .d4 v => v.signExtend 32

/-- How many bytes an immediate occupies (R125). -/
def Imm.bytes : Imm → Nat
  | .b _ => 1
  | .w _ => 2
  | .d _ => 4
  | .q _ => 8

/-- The access classes of general operands (R143). -/
inductive OpClass where
  | read | write | rmw | addr | regaddr
deriving DecidableEq, Repr

/-- One general operand of an instruction: the mode, its access class, its size in bytes (R129). -/
structure Operand where
  gen : Gen
  cls : OpClass
  bytes : Nat
deriving DecidableEq, Repr

/-- The general operands of an instruction with their classes and sizes (R129, R143 and the instruction's rule). DESIGN
CHOICE (assumption 42): CASEi's operand is of class read (R335), though R129 counts CASEi among the address operands. -/
def Instr.operands : Instr → List Operand
  | .bcond _ _ | .br _ | .bsr _ | .ret _ | .cxp _ | .rxp _ | .rett _ | .reti | .save _ | .restore _ => []
  | .enter _ _ | .exit _ | .nop | .wait | .dia | .flag | .svc | .bpt => []
  | .addqi i _ g => [⟨g, .rmw, i.bytes⟩]
  | .cmpqi i _ g => [⟨g, .read, i.bytes⟩]
  | .spri i _ g => [⟨g, .write, i.bytes⟩]
  | .scondi i _ g => [⟨g, .write, i.bytes⟩]
  | .acbi i _ g _ => [⟨g, .rmw, i.bytes⟩]
  | .movqi i _ g => [⟨g, .write, i.bytes⟩]
  | .lpri i _ g => [⟨g, .read, i.bytes⟩]
  | .cxpd g => [⟨g, .addr, 4⟩]
  | .bicpsri i g => [⟨g, .read, i.bytes⟩]
  | .jump g => [⟨g, .addr, 4⟩]
  | .bispsri i g => [⟨g, .read, i.bytes⟩]
  | .adjspi i g => [⟨g, .read, i.bytes⟩]
  | .jsr g => [⟨g, .addr, 4⟩]
  | .casei i g => [⟨g, .read, i.bytes⟩]
  | .undefFormat3 _ _ _ | .undefFormat3Op1000 _ _ => []
  | .addi i a b | .bici i a b | .addci i a b | .ori i a b | .subi i a b | .andi i a b | .subci i a b
  | .xori i a b | .subpi i a b | .addpi i a b | .muli i a b | .quoi i a b | .remi i a b | .modi i a b
  | .divi i a b => [⟨a, .read, i.bytes⟩, ⟨b, .rmw, i.bytes⟩]
  | .cmpi i a b => [⟨a, .read, i.bytes⟩, ⟨b, .read, i.bytes⟩]
  | .movi i a b | .negi i a b | .noti i a b | .absi i a b | .comi i a b =>
    [⟨a, .read, i.bytes⟩, ⟨b, .write, i.bytes⟩]
  | .addr a b => [⟨a, .addr, 4⟩, ⟨b, .write, 4⟩]
  | .tbiti i a b | .cbiti i a b | .cbitii i a b | .sbiti i a b | .sbitii i a b | .ibiti i a b =>
    [⟨a, .read, i.bytes⟩, ⟨b, .regaddr, 1⟩]
  | .movsi _ _ | .movst _ | .cmpsi _ _ | .cmpst _ | .setcfg _ | .skpsi _ _ | .skpst _ | .bbstod _ => []
  | .extblt | .bbor _ | .movmpi _ | .bitwt | .tbits _ | .bband _ | .sbitps | .bbfor | .sbits | .bbxor _ => []
  | .roti i a b | .ashi i a b | .lshi i a b => [⟨a, .read, 1⟩, ⟨b, .rmw, i.bytes⟩]
  | .movmi i a b _ | .cmpmi i a b _ => [⟨a, .addr, i.bytes⟩, ⟨b, .addr, i.bytes⟩]
  | .inssi i a b _ _ => [⟨a, .read, i.bytes⟩, ⟨b, .regaddr, 4⟩]
  | .extsi i a b _ _ => [⟨a, .regaddr, 4⟩, ⟨b, .write, i.bytes⟩]
  | .movxbw a b | .movzbw a b => [⟨a, .read, 1⟩, ⟨b, .write, 2⟩]
  | .movzid i a b | .movxid i a b => [⟨a, .read, i.bytes⟩, ⟨b, .write, 4⟩]
  | .meii i a b | .deii i a b => [⟨a, .read, i.bytes⟩, ⟨b, .rmw, 2 * i.bytes⟩]
  | .exti i _ a b _ => [⟨a, .regaddr, 4⟩, ⟨b, .write, i.bytes⟩]
  | .cvtp _ a b => [⟨a, .addr, 4⟩, ⟨b, .write, 4⟩]
  | .insi i _ a b _ => [⟨a, .read, i.bytes⟩, ⟨b, .regaddr, 4⟩]
  | .checki i _ a b => [⟨a, .addr, i.bytes⟩, ⟨b, .read, i.bytes⟩]
  | .indexi i _ a b => [⟨a, .read, i.bytes⟩, ⟨b, .read, i.bytes⟩]
  | .ffsi i a b => [⟨a, .read, i.bytes⟩, ⟨b, .rmw, 1⟩]
  | .movif i t a b => [⟨a, .read, i.bytes⟩, ⟨b, .write, t.bytes⟩]
  | .lfsr a => [⟨a, .read, 4⟩]
  | .movlf a b => [⟨a, .read, 8⟩, ⟨b, .write, 4⟩]
  | .movfl a b => [⟨a, .read, 4⟩, ⟨b, .write, 8⟩]
  | .roundfi t i a b | .truncfi t i a b | .floorfi t i a b => [⟨a, .read, t.bytes⟩, ⟨b, .write, i.bytes⟩]
  | .sfsr b => [⟨b, .write, 4⟩]
  | .addf t a b | .subf t a b | .divf t a b | .mulf t a b | .scalbf t a b =>
    [⟨a, .read, t.bytes⟩, ⟨b, .rmw, t.bytes⟩]
  | .movf t a b | .negf t a b | .absf t a b | .logbf t a b => [⟨a, .read, t.bytes⟩, ⟨b, .write, t.bytes⟩]
  | .cmpf t a b | .polyf t a b | .dotf t a b => [⟨a, .read, t.bytes⟩, ⟨b, .read, t.bytes⟩]

/-- Why an instruction is ill formed. -/
inductive IllFormed where
  /-- an Immediate operand that is written, or whose address is needed (R135, R143, D9) -/
  | immediateOperand
  /-- a Register operand whose address is needed (R131, R143, D9) -/
  | registerOperand
  /-- an immediate whose length is not the operand's size (R125) -/
  | immediateLength
  /-- Scaled Index over Immediate or Top of Stack (R140, D37) -/
  | scaledBase
  /-- Bcond with the condition of BR (R150): the row of BR stands for it -/
  | conditionOfBr
  /-- an integer size the instruction does not have (R157, R376, R377, D36) -/
  | size
  /-- LPR or SPR with a size smaller than the register (R372, D48) -/
  | registerSize
  /-- a MOVM or CMPM displacement outside the 1-to-16-byte block (R203, D44) -/
  | blockLength
  /-- MEI or DEI with an odd destination register (R233, D45) -/
  | oddPair
  /-- a bit-field length outside 1 to 32 (R290, D46) -/
  | fieldLength
  /-- a constant offset and length that pass bit 31 (R288, D46) -/
  | fieldEnd
deriving DecidableEq, Repr

/-- The mode under a general operand, Scaled Index taken off. -/
def Gen.mode : Gen → Base
  | .base m => m
  | .scaled m _ _ => m

/-- What is wrong with one operand, if anything. -/
def Operand.check (o : Operand) : Option IllFormed :=
  match o.gen with
  | .scaled (.imm _) _ _ | .scaled .tos _ _ => some .scaledBase
  | .base (.imm v) =>
    if o.cls ≠ .read then some .immediateOperand
    else if v.bytes ≠ o.bytes then some .immediateLength
    else none
  | .base (.reg _) => if o.cls = .addr then some .registerOperand else none
  | _ => none

/-- The sizes LPR and SPR have for a dedicated register: its own and the larger ones, and a byte for the PSR
(R372, R373, D48). -/
def Areg.sizeOk : Areg → Size → Bool
  | .us, _ => true
  | .psr, _ => true
  | .modReg, i => i ≠ .b
  | .fp, i | .sp, i | .sb, i | .intbase, i => i = .d

/-- A block displacement: a multiple of the size, with 1 to 16 bytes in the block (R203, D44). -/
def blockOk (i : Size) (d : Disp) : Bool :=
  0 ≤ d.val && d.val % i.bytes = 0 && d.val + i.bytes ≤ 16

/-- A register-pair destination is an even register (R233, D45). -/
def pairOk : Gen → Bool
  | .base (.reg r) => !r.getLsbD 0
  | _ => true

/-- A constant bit field stays within 32 bits (R288, R292): offset 0 to 7 and length `len` + 1. -/
def shortFieldOk (off : BitVec 3) (len : BitVec 5) : Bool :=
  off.toNat + (len.toNat + 1) ≤ 32

/-- `some e` unless the condition holds. -/
def IllFormed.unless (e : IllFormed) (c : Bool) : Option IllFormed := if c then none else some e

/-- What is wrong with an instruction beside its operands, if anything. -/
def Instr.checkForm : Instr → Option IllFormed
  | .bcond c _ => IllFormed.conditionOfBr.unless (c ≠ .always)
  | .bicpsri i _ | .bispsri i _ | .movzid i _ _ | .movxid i _ _ => IllFormed.size.unless (i ≠ .d)
  | .lpri i a _ | .spri i a _ => IllFormed.registerSize.unless (a.sizeOk i)
  | .movmi i _ _ d | .cmpmi i _ _ d => IllFormed.blockLength.unless (blockOk i d)
  | .meii _ _ b | .deii _ _ b => IllFormed.oddPair.unless (pairOk b)
  | .exti _ _ _ _ d | .insi _ _ _ _ d => IllFormed.fieldLength.unless (1 ≤ d.val && d.val ≤ 32)
  | .extsi _ _ _ o l | .inssi _ _ _ o l => IllFormed.fieldEnd.unless (shortFieldOk o l)
  | _ => none

/-- The first thing that is wrong with an instruction, if anything: its operands in order, then the rest. -/
def Instr.check (i : Instr) : Option IllFormed :=
  (i.operands.findSome? Operand.check).or i.checkForm

/-- An instruction is well formed when nothing is wrong with it. -/
abbrev Instr.WF (i : Instr) : Prop := i.check = none

end Sys2Proof
end

