-- ==== Sys2Proof/Decode.lean ====
section
/-!
DEFINITION. The decoder (30_encoding.md R120 to R169, 49_graphics.md R441): total on any bytes, rejecting by name; and
the encoder, written from the same tables. `W` is the Basic Instruction read as a little-endian number (R120).
-/
namespace Sys2Proof

/-- Why the bytes at the program counter are no instruction of the model. -/
inductive DecodeError where
  /-- the bytes end inside the instruction -/
  | outOfBytes
  /-- the first byte belongs to no format: Trap(UND) (R163, R164, D28) -/
  | undefinedFirstByte
  /-- a pattern with no instruction assigned: the parameter UNDEFINED_OPCODE_POLICY decides (R164, D28) -/
  | unassigned
  /-- an i or f field outside the instruction's documented set (D36) -/
  | refusedSize
  /-- the gen code 10011, reserved for future use (R141, D8) -/
  | reservedGen
  /-- Scaled Index over Immediate, Top of Stack, Scaled Index or the reserved code (R140, D37) -/
  | scaledBase
  /-- a reserved dedicated-register code (R167, D30) -/
  | reservedAreg
  /-- the string option U/W = 10, or T with a size other than byte (R169) -/
  | stringOption
deriving DecidableEq, Repr

/-- A reader of instruction bytes. -/
abbrev Parse := StateT (List Byte) (Except DecodeError)

/-- Reject the bytes by name. -/
def Parse.reject {α : Type} (e : DecodeError) : Parse α := fun _ => .error e

/-- The next instruction byte. -/
def Parse.byte : Parse Byte := fun bs =>
  match bs with
  | [] => .error .outOfBytes
  | b :: bs => .ok (b, bs)

/-- Two bytes, most significant first (R125). -/
def Parse.half : Parse Half := do
  let b1 ← Parse.byte
  let b0 ← Parse.byte
  return b1 ++ b0

/-- Four bytes, most significant first (R125). -/
def Parse.dword : Parse DWord := do
  let h1 ← Parse.half
  let h0 ← Parse.half
  return h1 ++ h0

/-- Eight bytes, most significant first (R125). -/
def Parse.quad : Parse Quad := do
  let d1 ← Parse.dword
  let d0 ← Parse.dword
  return d1 ++ d0

/-- A displacement (R124). -/
def Parse.disp : Parse Disp := do
  let b0 ← Parse.byte
  if b0.getLsbD 7 = false then return .d1 (b0.setWidth 7)
  else if b0.getLsbD 6 = false then
    let b1 ← Parse.byte
    return .d2 (b0.setWidth 6 ++ b1)
  else
    let b1 ← Parse.byte
    let h ← Parse.half
    return .d4 (b0.setWidth 6 ++ b1 ++ h)

/-- An immediate of `n` bytes (R125). -/
def Parse.imm (n : Nat) : Parse Imm :=
  match n with
  | 1 => return .b (← Parse.byte)
  | 2 => return .w (← Parse.half)
  | 4 => return .d (← Parse.dword)
  | _ => return .q (← Parse.quad)

/-- A gen code of Scaled Index, 111ss (R130). -/
def isScaled (g : BitVec 5) : Bool := g.extractLsb' 2 3 = 0b111

/-- The scale of a Scaled Index code (R130). -/
def scaleOf (g : BitVec 5) : Scale :=
  match (g.extractLsb' 0 2).toNat with
  | 0 => .b
  | 1 => .w
  | 2 => .d
  | _ => .q

/-- The Index Byte of a gen code, if it has one (R121, R123). -/
def Parse.index (g : BitVec 5) : Parse Byte :=
  if isScaled g then Parse.byte else return 0

/-- A mode other than Scaled Index with its displacements or its immediate of `n` bytes (R126, R130). -/
def Parse.base (g : BitVec 5) (n : Nat) : Parse Base :=
  match (g.extractLsb' 3 2).toNat with
  | 0 => return .reg (g.setWidth 3)
  | 1 => return .regRel (g.setWidth 3) (← Parse.disp)
  | 2 =>
    match (g.setWidth 3).toNat with
    | 0 => return .memRel .fp (← Parse.disp) (← Parse.disp)
    | 1 => return .memRel .sp (← Parse.disp) (← Parse.disp)
    | 2 => return .memRel .sb (← Parse.disp) (← Parse.disp)
    | 3 => Parse.reject .reservedGen
    | 4 => return .imm (← Parse.imm n)
    | 5 => return .abs (← Parse.disp)
    | 6 => return .ext (← Parse.disp) (← Parse.disp)
    | _ => return .tos
  | _ =>
    match (g.setWidth 3).toNat with
    | 0 => return .mem .fp (← Parse.disp)
    | 1 => return .mem .sp (← Parse.disp)
    | 2 => return .mem .sb (← Parse.disp)
    | 3 => return .mem .pc (← Parse.disp)
    | _ => Parse.reject .scaledBase

/-- The base codes Scaled Index may not stand on: Immediate, Top of Stack (R140, D37). -/
def badScaledBase (m : BitVec 5) : Bool := m = 0b10100 || m = 0b10111

/-- A general operand of `n` bytes from its gen code and Index Byte (R121, R123). -/
def Parse.gen (g : BitVec 5) (ix : Byte) (n : Nat) : Parse Gen :=
  if isScaled g then
    if badScaledBase (ix.extractLsb' 3 5) then Parse.reject .scaledBase
    else return .scaled (← Parse.base (ix.extractLsb' 3 5) n) (ix.setWidth 3) (scaleOf g)
  else return .base (← Parse.base g n)

/-- One general operand with its extensions. -/
def Parse.gen1 (g : BitVec 5) (n : Nat) : Parse Gen := do
  let ix ← Parse.index g
  Parse.gen g ix n

/-- Two general operands: both Index Bytes, then the extensions of gen1, then those of gen2 (R121). -/
def Parse.gen2 (g1 g2 : BitVec 5) (n1 n2 : Nat) : Parse (Gen × Gen) := do
  let x1 ← Parse.index g1
  let x2 ← Parse.index g2
  let a ← Parse.gen g1 x1 n1
  let b ← Parse.gen g2 x2 n2
  return (a, b)

/-- The integer type field (R127). -/
def sizeOf? (i : BitVec 2) : Option Size :=
  match i.toNat with
  | 0 => some .b
  | 1 => some .w
  | 3 => some .d
  | _ => none

/-- The integer type field, or rejection: i = 10 is an undefined encoding (R127). DESIGN CHOICE (assumption 11): in
Formats 6 to 8 and in MOVMP it follows UNDEFINED_OPCODE_POLICY, as R164 and R441 say; D36 refuses it in any case. -/
def Parse.size (i : BitVec 2) : Parse Size :=
  match sizeOf? i with
  | some z => return z
  | none => Parse.reject .unassigned

/-- The integer type field where D36 refuses i = 10 (R420). -/
def Parse.sizeOrRefuse (i : BitVec 2) : Parse Size :=
  match sizeOf? i with
  | some z => return z
  | none => Parse.reject .refusedSize

/-- The floating type field (R128). -/
def fsizeOf (f : BitVec 1) : FSize := if f = 1 then .f else .l

/-- The condition code (R165). -/
def condOf (c : BitVec 4) : Cond :=
  match c.toNat with
  | 0 => .eq
  | 1 => .ne
  | 2 => .cs
  | 3 => .cc
  | 4 => .hi
  | 5 => .ls
  | 6 => .gt
  | 7 => .le
  | 8 => .fs
  | 9 => .fc
  | 10 => .lo
  | 11 => .hs
  | 12 => .lt
  | 13 => .ge
  | 14 => .always
  | _ => .never

/-- The dedicated register of LPR and SPR (R167). -/
def Parse.areg (a : BitVec 4) : Parse Areg :=
  match a.toNat with
  | 0 => return .us
  | 8 => return .fp
  | 9 => return .sp
  | 10 => return .sb
  | 13 => return .psr
  | 14 => return .intbase
  | 15 => return .modReg
  | _ => Parse.reject .reservedAreg

/-- Format 0 (R150): BR is Bcond with the condition 1110. -/
def Parse.format0 (w : Byte) : Parse Instr := do
  let d ← Parse.disp
  match condOf (w.extractLsb' 4 4) with
  | .always => return .br d
  | c => return .bcond c d

/-- Format 1 (R151). -/
def Parse.format1 (w : Byte) : Parse Instr :=
  match (w.extractLsb' 4 4).toNat with
  | 0 => return .bsr (← Parse.disp)
  | 1 => return .ret (← Parse.disp)
  | 2 => return .cxp (← Parse.disp)
  | 3 => return .rxp (← Parse.disp)
  | 4 => return .rett (← Parse.disp)
  | 5 => return .reti
  | 6 => return .save (← Parse.byte)
  | 7 => return .restore (← Parse.byte)
  | 8 => return .enter (← Parse.byte) (← Parse.disp)
  | 9 => return .exit (← Parse.byte)
  | 10 => return .nop
  | 11 => return .wait
  | 12 => return .dia
  | 13 => return .flag
  | 14 => return .svc
  | _ => return .bpt

/-- Format 2 (R152): gen5 short4 op3 11 i2. -/
def Parse.format2 (w : Half) (z : Size) : Parse Instr := do
  let g := w.extractLsb' 11 5
  let q := w.extractLsb' 7 4
  match (w.extractLsb' 4 3).toNat with
  | 0 => return .addqi z q (← Parse.gen1 g z.bytes)
  | 1 => return .cmpqi z q (← Parse.gen1 g z.bytes)
  | 2 =>
    let a ← Parse.areg q
    return .spri z a (← Parse.gen1 g z.bytes)
  | 3 => return .scondi z (condOf q) (← Parse.gen1 g z.bytes)
  | 4 => return .acbi z q (← Parse.gen1 g z.bytes) (← Parse.disp)
  | 5 => return .movqi z q (← Parse.gen1 g z.bytes)
  | _ =>
    let a ← Parse.areg q
    return .lpri z a (← Parse.gen1 g z.bytes)

/-- A Format 3 instruction without a size: i must be 11 (R153, D36). -/
def Parse.noSize (z : Size) : Parse Unit :=
  if z = .d then return () else Parse.reject .refusedSize

/-- Format 3 (R153): gen5 op4 11111 i2. -/
def Parse.format3 (w : Half) (z : Size) : Parse Instr := do
  let g := w.extractLsb' 11 5
  match (w.extractLsb' 7 4).toNat with
  | 0 =>
    Parse.noSize z
    return .cxpd (← Parse.gen1 g 4)
  | 2 => return .bicpsri z (← Parse.gen1 g z.bytes)
  | 4 =>
    Parse.noSize z
    return .jump (← Parse.gen1 g 4)
  | 6 => return .bispsri z (← Parse.gen1 g z.bytes)
  | 8 => return .undefFormat3Op1000 g z
  | 10 => return .adjspi z (← Parse.gen1 g z.bytes)
  | 12 =>
    Parse.noSize z
    return .jsr (← Parse.gen1 g 4)
  | 14 => return .casei z (← Parse.gen1 g z.bytes)
  | _ => return .undefFormat3 g (w.extractLsb' 8 3) z

/-- Format 4 (R154): gen1 gen2 op4 i2. -/
def Parse.format4 (w : Half) (z : Size) : Parse Instr := do
  let g1 := w.extractLsb' 11 5
  let g2 := w.extractLsb' 6 5
  let n := z.bytes
  match (w.extractLsb' 2 4).toNat with
  | 0 => let (a, b) ← Parse.gen2 g1 g2 n n; return .addi z a b
  | 1 => let (a, b) ← Parse.gen2 g1 g2 n n; return .cmpi z a b
  | 2 => let (a, b) ← Parse.gen2 g1 g2 n n; return .bici z a b
  | 4 => let (a, b) ← Parse.gen2 g1 g2 n n; return .addci z a b
  | 5 => let (a, b) ← Parse.gen2 g1 g2 n n; return .movi z a b
  | 6 => let (a, b) ← Parse.gen2 g1 g2 n n; return .ori z a b
  | 8 => let (a, b) ← Parse.gen2 g1 g2 n n; return .subi z a b
  | 9 =>
    Parse.noSize z
    let (a, b) ← Parse.gen2 g1 g2 4 4; return .addr a b
  | 10 => let (a, b) ← Parse.gen2 g1 g2 n n; return .andi z a b
  | 12 => let (a, b) ← Parse.gen2 g1 g2 n n; return .subci z a b
  | 13 => let (a, b) ← Parse.gen2 g1 g2 n 1; return .tbiti z a b
  | 14 => let (a, b) ← Parse.gen2 g1 g2 n n; return .xori z a b
  | _ => Parse.reject .unassigned

/-- The string options U/W, B of W[18:16] (R169). DESIGN CHOICE (assumption 11): U/W = 10 is refused under both values of
UNDEFINED_OPCODE_POLICY, as R169 says of it, while R164, D28 and 93_implementation_defined.md A7 have the other unassigned
patterns follow that parameter. -/
def Parse.strOpts (w : BitVec 24) : Parse StrOpts :=
  match (w.extractLsb' 17 2).toNat with
  | 0 => return ⟨w.getLsbD 16, .none⟩
  | 1 => return ⟨w.getLsbD 16, .while⟩
  | 3 => return ⟨w.getLsbD 16, .until⟩
  | _ => Parse.reject .stringOption

/-- A string instruction: `plain` for T = 0, `translated` for T = 1, which is a byte instruction (R155, R169). -/
def Parse.string (w : BitVec 24) (plain : Size → StrOpts → Instr) (translated : StrOpts → Instr) :
    Parse Instr := do
  let o ← Parse.strOpts w
  if w.getLsbD 15 then
    if w.extractLsb' 8 2 = 0 then return translated o else Parse.reject .stringOption
  else
    let z ← Parse.sizeOrRefuse (w.extractLsb' 8 2)
    return plain z o

/-- An instruction whose option and size fields have one legal setting (R441). DESIGN CHOICE (assumption 11): any other
setting, a size field that D36 refuses in any case among them, follows UNDEFINED_OPCODE_POLICY, as R441 says. -/
def Parse.exactly (c : Bool) (i : Instr) : Parse Instr :=
  if c then return i else Parse.reject .unassigned

/-- The BB options D and S̄ (R441). -/
def bbOptsOf (w : BitVec 24) : BbOpts := ⟨w.getLsbD 17, w.getLsbD 15⟩

/-- Format 5 (R155, R441): 00000 short4 0 op4 i2 0E. DESIGN CHOICE (assumption 11): the graphics patterns with another i
field than the listed one, MOVMP with i = 10 among them, follow UNDEFINED_OPCODE_POLICY (R441, D28), though D36 refuses
them in any case. -/
def Parse.format5 (w : BitVec 24) : Parse Instr := do
  let i := w.extractLsb' 8 2
  let short := w.extractLsb' 15 4
  if w.extractLsb' 19 5 ≠ 0 ∨ w.getLsbD 14 = true then Parse.reject .unassigned
  else
    match (w.extractLsb' 10 4).toNat with
    | 0 => Parse.string w .movsi .movst
    | 1 => Parse.string w .cmpsi .cmpst
    | 2 => if i = 3 then return .setcfg short else Parse.reject .refusedSize
    | 3 => Parse.string w .skpsi .skpst
    | 4 => Parse.exactly (i = 1 && !w.getLsbD 18 && !w.getLsbD 16) (.bbstod (bbOptsOf w))
    | 5 => Parse.exactly (i = 3 && short = 0) .extblt
    | 6 => Parse.exactly (i = 1 && !w.getLsbD 18 && !w.getLsbD 16) (.bbor (bbOptsOf w))
    | 7 =>
      let z ← Parse.size i
      Parse.exactly (short = 0) (.movmpi z)
    | 8 => Parse.exactly (i = 1 && short = 0) .bitwt
    | 9 => Parse.exactly (i = 3 && w.extractLsb' 16 3 = 0) (.tbits (w.getLsbD 15))
    | 10 => Parse.exactly (i = 3 && !w.getLsbD 18 && w.getLsbD 16) (.bband (bbOptsOf w))
    | 11 => Parse.exactly (i = 3 && short = 0) .sbitps
    | 12 => Parse.exactly (i = 1 && short = 0) .bbfor
    | 13 => Parse.exactly (i = 3 && short = 0) .sbits
    | 14 => Parse.exactly (i = 1 && !w.getLsbD 18 && !w.getLsbD 16) (.bbxor (bbOptsOf w))
    | _ => Parse.reject .unassigned

/-- Format 6 (R156): gen1 gen2 op4 i2 4E. -/
def Parse.format6 (w : BitVec 24) : Parse Instr := do
  let g1 := w.extractLsb' 19 5
  let g2 := w.extractLsb' 14 5
  let z ← Parse.size (w.extractLsb' 8 2)
  let n := z.bytes
  match (w.extractLsb' 10 4).toNat with
  | 0 => let (a, b) ← Parse.gen2 g1 g2 1 n; return .roti z a b
  | 1 => let (a, b) ← Parse.gen2 g1 g2 1 n; return .ashi z a b
  | 2 => let (a, b) ← Parse.gen2 g1 g2 n 1; return .cbiti z a b
  | 3 => let (a, b) ← Parse.gen2 g1 g2 n 1; return .cbitii z a b
  | 5 => let (a, b) ← Parse.gen2 g1 g2 1 n; return .lshi z a b
  | 6 => let (a, b) ← Parse.gen2 g1 g2 n 1; return .sbiti z a b
  | 7 => let (a, b) ← Parse.gen2 g1 g2 n 1; return .sbitii z a b
  | 8 => let (a, b) ← Parse.gen2 g1 g2 n n; return .negi z a b
  | 9 => let (a, b) ← Parse.gen2 g1 g2 n n; return .noti z a b
  | 11 => let (a, b) ← Parse.gen2 g1 g2 n n; return .subpi z a b
  | 12 => let (a, b) ← Parse.gen2 g1 g2 n n; return .absi z a b
  | 13 => let (a, b) ← Parse.gen2 g1 g2 n n; return .comi z a b
  | 14 => let (a, b) ← Parse.gen2 g1 g2 n 1; return .ibiti z a b
  | 15 => let (a, b) ← Parse.gen2 g1 g2 n n; return .addpi z a b
  | _ => Parse.reject .unassigned

/-- MOVXBW and MOVZBW have i = 00 (R157, D36). -/
def Parse.byteOnly (z : Size) : Parse Unit :=
  if z = .b then return () else Parse.reject .refusedSize

/-- The short bit-field operand `(offset << 5) | (length - 1)` (R292). -/
def Parse.shortField : Parse (BitVec 3 × BitVec 5) := do
  let b ← Parse.byte
  return (b.extractLsb' 5 3, b.setWidth 5)

/-- Format 7 (R157): gen1 gen2 op4 i2 CE. -/
def Parse.format7 (w : BitVec 24) : Parse Instr := do
  let g1 := w.extractLsb' 19 5
  let g2 := w.extractLsb' 14 5
  let z ← Parse.size (w.extractLsb' 8 2)
  let n := z.bytes
  match (w.extractLsb' 10 4).toNat with
  | 0 => let (a, b) ← Parse.gen2 g1 g2 n n; return .movmi z a b (← Parse.disp)
  | 1 => let (a, b) ← Parse.gen2 g1 g2 n n; return .cmpmi z a b (← Parse.disp)
  | 2 =>
    let (a, b) ← Parse.gen2 g1 g2 n 4
    let (o, l) ← Parse.shortField
    return .inssi z a b o l
  | 3 =>
    let (a, b) ← Parse.gen2 g1 g2 4 n
    let (o, l) ← Parse.shortField
    return .extsi z a b o l
  | 4 =>
    Parse.byteOnly z
    let (a, b) ← Parse.gen2 g1 g2 1 2; return .movxbw a b
  | 5 =>
    Parse.byteOnly z
    let (a, b) ← Parse.gen2 g1 g2 1 2; return .movzbw a b
  | 6 => let (a, b) ← Parse.gen2 g1 g2 n 4; return .movzid z a b
  | 7 => let (a, b) ← Parse.gen2 g1 g2 n 4; return .movxid z a b
  | 8 => let (a, b) ← Parse.gen2 g1 g2 n n; return .muli z a b
  | 9 => let (a, b) ← Parse.gen2 g1 g2 n (2 * n); return .meii z a b
  | 11 => let (a, b) ← Parse.gen2 g1 g2 n (2 * n); return .deii z a b
  | 12 => let (a, b) ← Parse.gen2 g1 g2 n n; return .quoi z a b
  | 13 => let (a, b) ← Parse.gen2 g1 g2 n n; return .remi z a b
  | 14 => let (a, b) ← Parse.gen2 g1 g2 n n; return .modi z a b
  | 15 => let (a, b) ← Parse.gen2 g1 g2 n n; return .divi z a b
  | _ => Parse.reject .unassigned

/-- Format 8 (R158): gen1 gen2 reg3 op2 i2 op1..0 101110. -/
def Parse.format8 (w : BitVec 24) : Parse Instr := do
  let g1 := w.extractLsb' 19 5
  let g2 := w.extractLsb' 14 5
  let r := w.extractLsb' 11 3
  let z ← Parse.size (w.extractLsb' 8 2)
  let n := z.bytes
  match (w.extractLsb' 10 1 ++ w.extractLsb' 6 2).toNat with
  | 0 => let (a, b) ← Parse.gen2 g1 g2 4 n; return .exti z r a b (← Parse.disp)
  | 1 =>
    Parse.noSize z
    let (a, b) ← Parse.gen2 g1 g2 4 4; return .cvtp r a b
  | 2 => let (a, b) ← Parse.gen2 g1 g2 n 4; return .insi z r a b (← Parse.disp)
  | 3 => let (a, b) ← Parse.gen2 g1 g2 n n; return .checki z r a b
  | 4 => let (a, b) ← Parse.gen2 g1 g2 n n; return .indexi z r a b
  | 5 =>
    if r = 0 then
      let (a, b) ← Parse.gen2 g1 g2 n 1
      return .ffsi z a b
    else Parse.reject .unassigned
  | _ => Parse.reject .unassigned

/-- The fixed f and i fields of MOVFL, MOVLF, LFSR and SFSR (R159, R420). -/
def Parse.canonical (c : Bool) : Parse Unit :=
  if c then return () else Parse.reject .refusedSize

/-- The unused gen field of LFSR and SFSR is zero (R159, R164). -/
def Parse.zeroGen (g : BitVec 5) : Parse Unit :=
  if g = 0 then return () else Parse.reject .unassigned

/-- Format 9 (R159): gen1 gen2 op3 f i2 3E. -/
def Parse.format9 (w : BitVec 24) : Parse Instr := do
  let g1 := w.extractLsb' 19 5
  let g2 := w.extractLsb' 14 5
  let fb := w.extractLsb' 10 1
  let ib := w.extractLsb' 8 2
  let t := fsizeOf fb
  match (w.extractLsb' 11 3).toNat with
  | 0 =>
    let z ← Parse.sizeOrRefuse ib
    let (a, b) ← Parse.gen2 g1 g2 z.bytes t.bytes; return .movif z t a b
  | 1 =>
    Parse.canonical (fb = 1 && ib = 3)
    Parse.zeroGen g2
    return .lfsr (← Parse.gen1 g1 4)
  | 2 =>
    Parse.canonical (fb = 1 && ib = 2)
    let (a, b) ← Parse.gen2 g1 g2 8 4; return .movlf a b
  | 3 =>
    Parse.canonical (fb = 0 && ib = 3)
    let (a, b) ← Parse.gen2 g1 g2 4 8; return .movfl a b
  | 4 =>
    let z ← Parse.sizeOrRefuse ib
    let (a, b) ← Parse.gen2 g1 g2 t.bytes z.bytes; return .roundfi t z a b
  | 5 =>
    let z ← Parse.sizeOrRefuse ib
    let (a, b) ← Parse.gen2 g1 g2 t.bytes z.bytes; return .truncfi t z a b
  | 6 =>
    Parse.canonical (fb = 1 && ib = 3)
    Parse.zeroGen g1
    return .sfsr (← Parse.gen1 g2 4)
  | _ =>
    let z ← Parse.sizeOrRefuse ib
    let (a, b) ← Parse.gen2 g1 g2 t.bytes z.bytes; return .floorfi t z a b

/-- Format 11 (R161): gen1 gen2 op4 0 f BE. -/
def Parse.format11 (w : BitVec 24) : Parse Instr := do
  let t := fsizeOf (w.extractLsb' 8 1)
  let n := t.bytes
  let g1 := w.extractLsb' 19 5
  let g2 := w.extractLsb' 14 5
  if w.getLsbD 9 then Parse.reject .unassigned
  else
    match (w.extractLsb' 10 4).toNat with
    | 0 => let (a, b) ← Parse.gen2 g1 g2 n n; return .addf t a b
    | 1 => let (a, b) ← Parse.gen2 g1 g2 n n; return .movf t a b
    | 2 => let (a, b) ← Parse.gen2 g1 g2 n n; return .cmpf t a b
    | 4 => let (a, b) ← Parse.gen2 g1 g2 n n; return .subf t a b
    | 5 => let (a, b) ← Parse.gen2 g1 g2 n n; return .negf t a b
    | 8 => let (a, b) ← Parse.gen2 g1 g2 n n; return .divf t a b
    | 12 => let (a, b) ← Parse.gen2 g1 g2 n n; return .mulf t a b
    | 13 => let (a, b) ← Parse.gen2 g1 g2 n n; return .absf t a b
    | _ => Parse.reject .unassigned

/-- Format 12 (R162): gen1 gen2 op4 0 f FE. -/
def Parse.format12 (w : BitVec 24) : Parse Instr := do
  let t := fsizeOf (w.extractLsb' 8 1)
  let n := t.bytes
  let g1 := w.extractLsb' 19 5
  let g2 := w.extractLsb' 14 5
  if w.getLsbD 9 then Parse.reject .unassigned
  else
    match (w.extractLsb' 10 4).toNat with
    | 2 => let (a, b) ← Parse.gen2 g1 g2 n n; return .polyf t a b
    | 3 => let (a, b) ← Parse.gen2 g1 g2 n n; return .dotf t a b
    | 4 => let (a, b) ← Parse.gen2 g1 g2 n n; return .scalbf t a b
    | 5 => let (a, b) ← Parse.gen2 g1 g2 n n; return .logbf t a b
    | _ => Parse.reject .unassigned

/-- The second and third bytes of a three-byte Basic Instruction, with the first (R120). -/
def Parse.word24 (b0 : Byte) : Parse (BitVec 24) := do
  let b1 ← Parse.byte
  let b2 ← Parse.byte
  return b2 ++ b1 ++ b0

/-- A two-byte Basic Instruction: Format 3, 2 or 4 by its first byte (R163). -/
def Parse.twoByte (b0 : Byte) : Parse Instr := do
  let b1 ← Parse.byte
  let w : Half := b1 ++ b0
  let z ← Parse.size (b0.setWidth 2)
  if b0.extractLsb' 2 2 = 0b11 then
    if b0.extractLsb' 4 3 = 0b111 then Parse.format3 w z else Parse.format2 w z
  else Parse.format4 w z

/-- The instruction that begins with the byte `b0` (R163). -/
def Parse.instr (b0 : Byte) : Parse Instr :=
  match (b0.setWidth 4).toNat with
  | 2 => Parse.format1 b0
  | 6 => Parse.reject .undefinedFirstByte
  | 10 => Parse.format0 b0
  | 14 =>
    match (b0.extractLsb' 4 4).toNat with
    | 0 => do Parse.format5 (← Parse.word24 b0)
    | 4 => do Parse.format6 (← Parse.word24 b0)
    | 12 => do Parse.format7 (← Parse.word24 b0)
    | 2 | 6 | 10 | 14 => do Parse.format8 (← Parse.word24 b0)
    | 3 => do Parse.format9 (← Parse.word24 b0)
    | 11 => do Parse.format11 (← Parse.word24 b0)
    | 15 => do Parse.format12 (← Parse.word24 b0)
    | _ => Parse.reject .undefinedFirstByte
  | _ => Parse.twoByte b0

/-- The first instruction of a byte string and the bytes after it. -/
def decode (bs : List Byte) : Except DecodeError (Instr × List Byte) :=
  (Parse.byte >>= Parse.instr).run bs

/-! ## The encoder -/

/-- The bytes of a displacement, most significant first (R124). -/
def Disp.encode : Disp → List Byte
  | .d1 v => [(0 : BitVec 1) ++ v]
  | .d2 v => [(0b10 : BitVec 2) ++ v.extractLsb' 8 6, v.setWidth 8]
  | .d4 v => [(0b11 : BitVec 2) ++ v.extractLsb' 24 6, v.extractLsb' 16 8, v.extractLsb' 8 8, v.setWidth 8]

/-- The bytes of a 16-bit value, most significant first. -/
def beHalf (v : Half) : List Byte := [v.extractLsb' 8 8, v.setWidth 8]

/-- The bytes of a 32-bit value, most significant first. -/
def beDWord (v : DWord) : List Byte := beHalf (v.extractLsb' 16 16) ++ beHalf (v.setWidth 16)

/-- The bytes of an immediate, most significant first (R125). -/
def Imm.encode : Imm → List Byte
  | .b v => [v]
  | .w v => beHalf v
  | .d v => beDWord v
  | .q v => beDWord (v.extractLsb' 32 32) ++ beDWord (v.setWidth 32)

/-- The gen code of a mode (R130). -/
def Base.code : Base → BitVec 5
  | .reg r => (0b00 : BitVec 2) ++ r
  | .regRel r _ => (0b01 : BitVec 2) ++ r
  | .memRel .fp _ _ => 0b10000
  | .memRel .sp _ _ => 0b10001
  | .memRel .sb _ _ => 0b10010
  | .imm _ => 0b10100
  | .abs _ => 0b10101
  | .ext _ _ => 0b10110
  | .tos => 0b10111
  | .mem .fp _ => 0b11000
  | .mem .sp _ => 0b11001
  | .mem .sb _ => 0b11010
  | .mem .pc _ => 0b11011

/-- The Disp/Imm field of a mode (R126). -/
def Base.extension : Base → List Byte
  | .reg _ | .tos => []
  | .regRel _ d | .abs d | .mem _ d => d.encode
  | .memRel _ d1 d2 | .ext d1 d2 => d1.encode ++ d2.encode
  | .imm v => v.encode

/-- The two bits ss of a scale (R130). -/
def Scale.code : Scale → BitVec 2
  | .b => 0
  | .w => 1
  | .d => 2
  | .q => 3

/-- The gen code of an operand (R130). -/
def Gen.code : Gen → BitVec 5
  | .base m => m.code
  | .scaled _ _ s => (0b111 : BitVec 3) ++ s.code

/-- The Index Byte of an operand (R123). -/
def Gen.index : Gen → List Byte
  | .base _ => []
  | .scaled m x _ => [m.code ++ x]

/-- The displacements or the immediate of an operand (R126). -/
def Gen.extension (g : Gen) : List Byte := g.mode.extension

/-- The i field (R127). -/
def Size.code : Size → BitVec 2
  | .b => 0
  | .w => 1
  | .d => 3

/-- The f field (R128). -/
def FSize.code : FSize → BitVec 1
  | .f => 1
  | .l => 0

/-- The cond field (R165). -/
def Cond.code : Cond → BitVec 4
  | .eq => 0
  | .ne => 1
  | .cs => 2
  | .cc => 3
  | .hi => 4
  | .ls => 5
  | .gt => 6
  | .le => 7
  | .fs => 8
  | .fc => 9
  | .lo => 10
  | .hs => 11
  | .lt => 12
  | .ge => 13
  | .always => 14
  | .never => 15

/-- The areg field (R167). -/
def Areg.code : Areg → BitVec 4
  | .us => 0
  | .fp => 8
  | .sp => 9
  | .sb => 10
  | .psr => 13
  | .intbase => 14
  | .modReg => 15

/-- The U/W field (R169). -/
def StrTest.code : StrTest → BitVec 2
  | .none => 0b00
  | .while => 0b01
  | .until => 0b11

/-- A Format 1 byte (R151). -/
def fmt1 (op : BitVec 4) : List Byte := [op ++ (0b0010 : BitVec 4)]

/-- The two bytes of a Basic Instruction, the low one first (R120). -/
def le16 (w : Half) : List Byte := [w.setWidth 8, w.extractLsb' 8 8]

/-- The three bytes of a Basic Instruction, the low one first (R120). -/
def le24 (w : BitVec 24) : List Byte := [w.setWidth 8, w.extractLsb' 8 8, w.extractLsb' 16 8]

/-- Format 2 (R152). -/
def fmt2 (g : Gen) (short : BitVec 4) (op : BitVec 3) (i : Size) : List Byte :=
  le16 (g.code ++ short ++ op ++ (0b11 : BitVec 2) ++ i.code) ++ g.index ++ g.extension

/-- Format 3 from a raw gen code (R153). -/
def fmt3Word (g : BitVec 5) (op : BitVec 4) (i : Size) : List Byte :=
  le16 (g ++ op ++ (0b11111 : BitVec 5) ++ i.code)

/-- Format 3 (R153). -/
def fmt3 (g : Gen) (op : BitVec 4) (i : Size) : List Byte := fmt3Word g.code op i ++ g.index ++ g.extension

/-- The extensions of two operands (R121). -/
def ext2 (a b : Gen) : List Byte := a.index ++ b.index ++ a.extension ++ b.extension

/-- Format 4 (R154). -/
def fmt4 (a b : Gen) (op : BitVec 4) (i : Size) : List Byte :=
  le16 (a.code ++ b.code ++ op ++ i.code) ++ ext2 a b

/-- Format 5 (R155). -/
def fmt5 (short op : BitVec 4) (i : BitVec 2) : List Byte :=
  le24 ((0 : BitVec 5) ++ short ++ (0 : BitVec 1) ++ op ++ i ++ (0x0E : BitVec 8))

/-- A string instruction's short field U/W, B, T (R169). -/
def strShort (o : StrOpts) (t : Bool) : BitVec 4 := o.test.code ++ BitVec.ofBool o.backward ++ BitVec.ofBool t

/-- A BB instruction's short field 0, D, X, S̄ (R155). -/
def bbShort (o : BbOpts) (x : Bool) : BitVec 4 :=
  (0 : BitVec 1) ++ BitVec.ofBool o.decreasing ++ BitVec.ofBool x ++ BitVec.ofBool o.inverted

/-- Formats 6 and 7 (R156, R157): the last byte selects. -/
def fmt67 (a b : Gen) (op : BitVec 4) (i : Size) (last : Byte) : List Byte :=
  le24 (a.code ++ b.code ++ op ++ i.code ++ last) ++ ext2 a b

/-- Format 8 (R158). -/
def fmt8 (a b : Gen) (r : BitVec 3) (op2 : BitVec 1) (op : BitVec 2) (i : Size) : List Byte :=
  le24 (a.code ++ b.code ++ r ++ op2 ++ i.code ++ op ++ (0b101110 : BitVec 6)) ++ ext2 a b

/-- Format 9's Basic Instruction (R159). -/
def fmt9Word (a b : BitVec 5) (op : BitVec 3) (f : BitVec 1) (i : BitVec 2) : List Byte :=
  le24 (a ++ b ++ op ++ f ++ i ++ (0x3E : BitVec 8))

/-- Format 9 (R159). -/
def fmt9 (a b : Gen) (op : BitVec 3) (f : BitVec 1) (i : BitVec 2) : List Byte :=
  fmt9Word a.code b.code op f i ++ ext2 a b

/-- Formats 11 and 12 (R161, R162): the last byte selects. -/
def fmt11 (a b : Gen) (op : BitVec 4) (t : FSize) (last : Byte) : List Byte :=
  le24 (a.code ++ b.code ++ op ++ (0 : BitVec 1) ++ t.code ++ last) ++ ext2 a b

/-- The short bit-field byte (R292). -/
def shortFieldByte (o : BitVec 3) (l : BitVec 5) : List Byte := [o ++ l]

/-- The bytes of an instruction, the one at the lowest address first (R120 to R162, R441). -/
def encode : Instr → List Byte
  | .bcond c d => [c.code ++ (0b1010 : BitVec 4)] ++ d.encode
  | .br d => [(0b1110 : BitVec 4) ++ (0b1010 : BitVec 4)] ++ d.encode
  | .bsr d => fmt1 0 ++ d.encode
  | .ret d => fmt1 1 ++ d.encode
  | .cxp d => fmt1 2 ++ d.encode
  | .rxp d => fmt1 3 ++ d.encode
  | .rett d => fmt1 4 ++ d.encode
  | .reti => fmt1 5
  | .save l => fmt1 6 ++ [l]
  | .restore l => fmt1 7 ++ [l]
  | .enter l d => fmt1 8 ++ [l] ++ d.encode
  | .exit l => fmt1 9 ++ [l]
  | .nop => fmt1 10
  | .wait => fmt1 11
  | .dia => fmt1 12
  | .flag => fmt1 13
  | .svc => fmt1 14
  | .bpt => fmt1 15
  | .addqi i q g => fmt2 g q 0 i
  | .cmpqi i q g => fmt2 g q 1 i
  | .spri i a g => fmt2 g a.code 2 i
  | .scondi i c g => fmt2 g c.code 3 i
  | .acbi i q g d => fmt2 g q 4 i ++ d.encode
  | .movqi i q g => fmt2 g q 5 i
  | .lpri i a g => fmt2 g a.code 6 i
  | .cxpd g => fmt3 g 0 .d
  | .bicpsri i g => fmt3 g 2 i
  | .jump g => fmt3 g 4 .d
  | .bispsri i g => fmt3 g 6 i
  | .adjspi i g => fmt3 g 10 i
  | .jsr g => fmt3 g 12 .d
  | .casei i g => fmt3 g 14 i
  | .undefFormat3 g o i => fmt3Word g (o ++ (1 : BitVec 1)) i
  | .undefFormat3Op1000 g i => fmt3Word g 8 i
  | .addi i a b => fmt4 a b 0 i
  | .cmpi i a b => fmt4 a b 1 i
  | .bici i a b => fmt4 a b 2 i
  | .addci i a b => fmt4 a b 4 i
  | .movi i a b => fmt4 a b 5 i
  | .ori i a b => fmt4 a b 6 i
  | .subi i a b => fmt4 a b 8 i
  | .addr a b => fmt4 a b 9 .d
  | .andi i a b => fmt4 a b 10 i
  | .subci i a b => fmt4 a b 12 i
  | .tbiti i a b => fmt4 a b 13 i
  | .xori i a b => fmt4 a b 14 i
  | .movsi i o => fmt5 (strShort o false) 0 i.code
  | .movst o => fmt5 (strShort o true) 0 0
  | .cmpsi i o => fmt5 (strShort o false) 1 i.code
  | .cmpst o => fmt5 (strShort o true) 1 0
  | .setcfg o => fmt5 o 2 3
  | .skpsi i o => fmt5 (strShort o false) 3 i.code
  | .skpst o => fmt5 (strShort o true) 3 0
  | .bbstod o => fmt5 (bbShort o false) 4 1
  | .extblt => fmt5 0 5 3
  | .bbor o => fmt5 (bbShort o false) 6 1
  | .movmpi i => fmt5 0 7 i.code
  | .bitwt => fmt5 0 8 1
  | .tbits s => fmt5 ((0 : BitVec 3) ++ BitVec.ofBool s) 9 3
  | .bband o => fmt5 (bbShort o true) 10 3
  | .sbitps => fmt5 0 11 3
  | .bbfor => fmt5 0 12 1
  | .sbits => fmt5 0 13 3
  | .bbxor o => fmt5 (bbShort o false) 14 1
  | .roti i a b => fmt67 a b 0 i 0x4E
  | .ashi i a b => fmt67 a b 1 i 0x4E
  | .cbiti i a b => fmt67 a b 2 i 0x4E
  | .cbitii i a b => fmt67 a b 3 i 0x4E
  | .lshi i a b => fmt67 a b 5 i 0x4E
  | .sbiti i a b => fmt67 a b 6 i 0x4E
  | .sbitii i a b => fmt67 a b 7 i 0x4E
  | .negi i a b => fmt67 a b 8 i 0x4E
  | .noti i a b => fmt67 a b 9 i 0x4E
  | .subpi i a b => fmt67 a b 11 i 0x4E
  | .absi i a b => fmt67 a b 12 i 0x4E
  | .comi i a b => fmt67 a b 13 i 0x4E
  | .ibiti i a b => fmt67 a b 14 i 0x4E
  | .addpi i a b => fmt67 a b 15 i 0x4E
  | .movmi i a b d => fmt67 a b 0 i 0xCE ++ d.encode
  | .cmpmi i a b d => fmt67 a b 1 i 0xCE ++ d.encode
  | .inssi i a b o l => fmt67 a b 2 i 0xCE ++ shortFieldByte o l
  | .extsi i a b o l => fmt67 a b 3 i 0xCE ++ shortFieldByte o l
  | .movxbw a b => fmt67 a b 4 .b 0xCE
  | .movzbw a b => fmt67 a b 5 .b 0xCE
  | .movzid i a b => fmt67 a b 6 i 0xCE
  | .movxid i a b => fmt67 a b 7 i 0xCE
  | .muli i a b => fmt67 a b 8 i 0xCE
  | .meii i a b => fmt67 a b 9 i 0xCE
  | .deii i a b => fmt67 a b 11 i 0xCE
  | .quoi i a b => fmt67 a b 12 i 0xCE
  | .remi i a b => fmt67 a b 13 i 0xCE
  | .modi i a b => fmt67 a b 14 i 0xCE
  | .divi i a b => fmt67 a b 15 i 0xCE
  | .exti i r a b d => fmt8 a b r 0 0 i ++ d.encode
  | .cvtp r a b => fmt8 a b r 0 1 .d
  | .insi i r a b d => fmt8 a b r 0 2 i ++ d.encode
  | .checki i r a b => fmt8 a b r 0 3 i
  | .indexi i r a b => fmt8 a b r 1 0 i
  | .ffsi i a b => fmt8 a b 0 1 1 i
  | .movif i t a b => fmt9 a b 0 t.code i.code
  | .lfsr a => fmt9Word a.code 0 1 1 3 ++ a.index ++ a.extension
  | .movlf a b => fmt9 a b 2 1 2
  | .movfl a b => fmt9 a b 3 0 3
  | .roundfi t i a b => fmt9 a b 4 t.code i.code
  | .truncfi t i a b => fmt9 a b 5 t.code i.code
  | .sfsr b => fmt9Word 0 b.code 6 1 3 ++ b.index ++ b.extension
  | .floorfi t i a b => fmt9 a b 7 t.code i.code
  | .addf t a b => fmt11 a b 0 t 0xBE
  | .movf t a b => fmt11 a b 1 t 0xBE
  | .cmpf t a b => fmt11 a b 2 t 0xBE
  | .subf t a b => fmt11 a b 4 t 0xBE
  | .negf t a b => fmt11 a b 5 t 0xBE
  | .divf t a b => fmt11 a b 8 t 0xBE
  | .mulf t a b => fmt11 a b 12 t 0xBE
  | .absf t a b => fmt11 a b 13 t 0xBE
  | .polyf t a b => fmt11 a b 2 t 0xFE
  | .dotf t a b => fmt11 a b 3 t 0xFE
  | .scalbf t a b => fmt11 a b 4 t 0xFE
  | .logbf t a b => fmt11 a b 5 t 0xFE

/-- The length of an instruction in bytes, all extensions included (R121). -/
def Instr.length (i : Instr) : Nat := (encode i).length

/-- The longest instruction (R121). -/
def maxLength : Nat := 25

/-- The bytes of an instruction word numbered as opcode_table.json numbers its bits: the first byte in bits 7..0; every
bit above `nbits` is 0. -/
def wordBytes (nbits w : Nat) : List Byte :=
  (List.range maxLength).map fun k => BitVec.ofNat 8 ((w % 2 ^ nbits) >>> (8 * k))

/-- The instruction the decoder reads from an instruction word of the opcode table. -/
def decodeTableWord (nbits w : Nat) : Option Instr :=
  match decode (wordBytes nbits w) with
  | .ok (i, _) => some i
  | .error _ => none

end Sys2Proof
end

