-- ==== Sys2Proof/Machine/State.lean ====
section
/-!
DEFINITION. The state of the machine (10_state.md R20 to R46, 20_memory.md R70), the reasons a step can stop, and the
state after reset. Every field is plain data.
-/
namespace Sys2Proof.Machine

/-- Why the machine stops with a fault. -/
inductive Fault where
  /-- Raised by every memory access and every fetch of an instruction's bytes: MEM_MAP has nothing at the address
  (20_memory.md R77, D26). Safe: the model stops where a bus without an answer would go on. -/
  | accessOutsideMemMap (a : Addr)
  /-- Raised by the floating-point instructions: CFG.F = 1 and no FPU is attached, so that the CPU waits for ever
  (47_floating_point.md R392, D33). Safe. -/
  | stuckOnSlave
deriving DecidableEq, Repr

/-- Why the model declines to go on. -/
inductive Refusal where
  /-- Raised by an arm of `exec` whose instruction has no meaning yet. Safe. -/
  | notModelled (mnemonic : String)
  /-- Raised by every instruction: the spec refuses this form of it (D9, D36, D37, D44, D45, D46, D48). Safe. -/
  | illegalForm (e : IllFormed)
  /-- Raised by `step`: the spec refuses the bytes at the program counter (R141, R164, R167, R169, D36, D37). Safe. -/
  | undefinedEncoding (e : DecodeError)
  /-- Raised by BBOR, BBAND, BBXOR, BBFOR, BBSTOD: PSR.K or PSR.J is set (49_graphics.md R446, D31). Safe. -/
  | bbStateBits
  /-- Raised by interrupts and RETI: the ICU's byte is reserved for future use (60_exceptions.md R515, D53; R349,
  D47). Safe. -/
  | icuReserved (b : Byte)
  /-- Raised by TBITi, SBITi, SBITIi, CBITi, CBITIi, IBITi, EXTi, INSi with the field operandPolicy at its default: the
  bit or the field does not lie inside its 32 bits (43_bits_fields_arrays.md R281, R288, D46). Safe. -/
  | outsideField
  /-- Raised by BBOR, BBAND, BBXOR, BBFOR, BBSTOD, BITWT with the field operandPolicy at its default: the shift is above
  15, or the width is 2^16 or more (49_graphics.md R445, R452, D17). Safe. -/
  | bbRange
  /-- Raised by EXTBLT with the field operandPolicy at its default: no BPU is attached (49_graphics.md R454, D18). Safe.
  -/
  | bpuAbsent
  /-- Raised by EXTBLT with the field operandPolicy at its default: R4 is neither +2 nor -2 (49_graphics.md R454, D18).
  Safe. -/
  | extbltStep
  /-- Raised by TBITS with the field operandPolicy at its default: R2 is not 0 and no interrupt has suspended this TBITS,
  or bit 31 of R1 or of R4 is set (49_graphics.md R465, D20). Safe. -/
  | tbitsEntry
  /-- Raised by POLYf, DOTf, SCALBf, LOGBf: an NS32081 is attached (47_floating_point.md R394, D33). Safe. -/
  | format12OnNs32081
deriving DecidableEq, Repr

/-- What a region of the address space is, if it is not RAM (20_memory.md R77: the parameter MEM_MAP). -/
inductive RegionKind where
  /-- no memory answers -/
  | nothing
  /-- reads as memory; stores leave it unchanged -/
  | rom
  /-- a device of the platform: its reads answer what the platform says, its writes reach it over the bus -/
  | device
deriving DecidableEq, Repr

/-- A region of MEM_MAP: `size` bytes from `base`. -/
structure Region where
  base : Nat
  size : Nat
  kind : RegionKind
deriving DecidableEq, Repr

/-- A TBITS that an interrupt has suspended: where it stands, and its offset and run length so far (49_graphics.md R465).
-/
structure TbitsMark where
  pc : Addr
  r1 : DWord
  r2 : DWord
deriving DecidableEq, Repr

/-- One thing that happens on the bus between two cycles of an instruction (20_memory.md R94, R97). -/
inductive Turn where
  /-- another bus master or a device stores a byte (R97) -/
  | store (c : Host.Cell)
  /-- the prefetcher makes a fetch cycle, if it may and the queue has room (R94) -/
  | fetch
deriving DecidableEq, Repr

/-- What happens between two bus cycles of an instruction, in order (R94, R97; assumptions 5 and 8). -/
abbrev Gap := List Turn

/-- What the outside world does during one step (60_exceptions.md R514, 70_reset_and_hazards.md R570; assumption 5). -/
structure Input where
  /-- RSTI is active at the boundary before the step (R570) -/
  reset : Bool
  /-- RSTI becomes active inside the step, after that many of its bus cycles, or at its end if it has fewer (R571) -/
  resetAfter : Option Nat
  /-- a falling edge on NMI (R514) -/
  nmi : Bool
  /-- INT is active at the boundary (R514) -/
  int : Bool
  /-- stores of other bus masters and of devices at the boundary (20_memory.md R97) -/
  writes : List Host.Cell
  /-- if the next step takes an interrupt: the passes an interruptible instruction makes before it is suspended
  (R516); a graphics instruction makes one where this is 0 (49_graphics.md R480) -/
  suspendAfter : Option Nat
  /-- what happens before each bus cycle of the step in turn, and after the last (R94, R97) -/
  gaps : List Gap
deriving DecidableEq, Repr

/-- The machine. Field by field as INVENTORY.md lists them. -/
structure State where
  /-- R0 to R7 (10_state.md R21) -/
  regs : Vector DWord 8
  /-- PC (R24) -/
  pc : Addr
  /-- SP0, the interrupt stack pointer (R25) -/
  sp0 : Addr
  /-- SP1, the user stack pointer (R25) -/
  sp1 : Addr
  /-- FP (R26) -/
  fp : Addr
  /-- SB (R27) -/
  sb : Addr
  /-- INTBASE (R28) -/
  intbase : Addr
  /-- MOD (R29) -/
  modReg : Half
  /-- PSR (R30); bits 13 to 15 are kept zero by every write -/
  psr : Half
  /-- CFG, the four implemented bits: I 0, F 1, M 2, C 3 (R35) -/
  cfg : BitVec 4
  /-- memory: the bytes that are not 00, by address (20_memory.md R70) -/
  mem : List Host.Cell
  /-- the instruction bytes already fetched, the next one to execute first (R41) -/
  queue : List Byte
  /-- the address that the next instruction fetch reads, the input end of the queue (R41, 20_memory.md R94) -/
  fetchPc : Addr
  /-- a break has discarded the queue: the next instruction fetch is Non-Sequential (20_memory.md R95) -/
  broken : Bool
  /-- the NMI latch (R42) -/
  nmiLatch : Bool
  /-- a WAIT is in progress (48_misc.md R432) -/
  waiting : Bool
  /-- which FPU is attached (parameter FPU) -/
  fpu : FpuKind
  /-- F0 to F7 on the FPU, 64 bits each (R40); of an NS32081, what reading Fn as a value of type L gives (assumption
  36) -/
  fregs : Vector Quad 8
  /-- of an NS32081, what reading Fn as a value of type F gives (R40, assumption 36) -/
  fsingles : Vector DWord 8
  /-- the FSR on the FPU (R40) -/
  fsr : DWord
  /-- what the outside world will do, one entry a step -/
  inputs : List Input
  /-- what happens before each further bus cycle of this step (20_memory.md R94, R97) -/
  gaps : List Gap
  /-- after how many further bus cycles of this step RSTI becomes active, 0 if it is (70_reset_and_hazards.md R571) -/
  resetIn : Option Nat
  /-- the bytes the ICU will answer (60_exceptions.md R551) -/
  icuReplies : List Byte
  /-- the bytes that reads of device addresses will answer (20_memory.md R91, 70_reset_and_hazards.md R601) -/
  deviceReplies : List Byte
  /-- what the FPU will answer (47_floating_point.md R391) -/
  fpuReplies : List FpuReply
  /-- the passes an interruptible instruction may make in this step, if an interrupt suspends it (R516); a graphics
  instruction makes one where this is 0 (49_graphics.md R480) -/
  suspend : Option Nat
  /-- MODEL: the TBITS instructions that an interrupt has suspended and that have not been entered again: R465 refuses an
  R2 that is not 0 at a first entry only (assumption 20) -/
  heldTbits : List TbitsMark
  /-- the parameter UNDEFINED_OPCODE_POLICY (R164) -/
  undPolicy : UndPolicy
  /-- the parameter MEM_MAP: what is not RAM (R77) -/
  memMap : List Region
  /-- the parameter PREFETCH_COHERENT: stores reach the bytes in the queue (20_memory.md R108, D25) -/
  coherent : Bool
  /-- the parameter BPU: whether one is attached (49_graphics.md R454) -/
  bpu : BpuKind
  /-- the bus arbiter keeps other masters off between the cycles of an interlocked operation (20_memory.md R98) -/
  honoursIlo : Bool
  /-- MODEL: what becomes of operand values for which the spec declines to define an instruction
  (70_reset_and_hazards.md R600, D17, D18, D20, D46; assumptions 15 to 20) -/
  operandPolicy : OperandPolicy
  /-- MODEL: the bus cycles and PFS pulses so far, oldest first (assumption 10) -/
  bus : List PinEvent
  /-- MODEL: how many free values have been taken (assumption 9) -/
  draws : Nat
deriving DecidableEq, Repr

/-- The machine right after reset (10_state.md R46, 70_reset_and_hazards.md R570): PC, PSR, CFG.C, CFG.M, the NMI latch
and the queue as the spec says; every register the spec leaves unspecified is 0 (assumptions 1 and 2), memory lists
nothing (assumption 3), and the parameters have their defaults (93_implementation_defined.md C, assumptions 4, 8, 11,
12, 15 to 20, 40). -/
def State.reset : State where
  regs := Vector.replicate 8 0
  pc := 0
  sp0 := 0
  sp1 := 0
  fp := 0
  sb := 0
  intbase := 0
  modReg := 0
  psr := 0
  cfg := 0
  mem := []
  queue := []
  fetchPc := 0
  broken := true
  nmiLatch := false
  waiting := false
  fpu := .absent
  fregs := Vector.replicate 8 0
  fsingles := Vector.replicate 8 0
  fsr := 0
  inputs := []
  gaps := []
  resetIn := none
  icuReplies := []
  deviceReplies := []
  fpuReplies := []
  suspend := none
  heldTbits := []
  undPolicy := .refuse
  memMap := []
  coherent := true
  bpu := .absent
  honoursIlo := true
  operandPolicy := .refuse
  bus := []
  draws := 0

end Sys2Proof.Machine
end

