-- ==== Sys2Proof/Machine/Flags.lean ====
section
/-!
DEFINITION. The Processor Status Register's bits (10_state.md R30, R31) and every flag computation of the spec.
-/
namespace Sys2Proof.Machine

/-- The named bits of the PSR (R30). -/
inductive PsrBit where
  | c | t | l | k | j | f | z | n | u | s | p | i | b
deriving DecidableEq, Repr

/-- Where a PSR bit stands (R30, D1). -/
def PsrBit.pos : PsrBit → Nat
  | .c => 0
  | .t => 1
  | .l => 2
  | .k => 3
  | .j => 4
  | .f => 5
  | .z => 6
  | .n => 7
  | .u => 8
  | .s => 9
  | .p => 10
  | .i => 11
  | .b => 12

/-- The implemented bits of the PSR: bits 13 to 15 read as zero (R30, D1). -/
def psrMask : Half := 0x1FFF

/-- Write one bit of a PSR value. -/
def psrPut (v : Half) (bit : PsrBit) (x : Bool) : Half :=
  if x then v ||| ((1 : Half) <<< bit.pos) else v &&& ~~~((1 : Half) <<< bit.pos)

/-- Clear several bits of a PSR value. -/
def psrClear (v : Half) (bits : List PsrBit) : Half := bits.foldl (fun v bit => psrPut v bit false) v

/-- One bit of the PSR. -/
def State.flag (s : State) (bit : PsrBit) : Bool := s.psr.getLsbD bit.pos

/-- Write the whole PSR: bits 13 to 15 are ignored (R30). -/
def State.setPsr (s : State) (v : Half) : State := { s with psr := v &&& psrMask }

/-- Write one bit of the PSR. -/
def State.putFlag (s : State) (bit : PsrBit) (x : Bool) : State := { s with psr := psrPut s.psr bit x }

/-- Write the low byte of the PSR (R32). -/
def State.setPsrLow (s : State) (v : Byte) : State :=
  { s with psr := (s.psr &&& 0xFF00) ||| v.setWidth 16 }

/-- CFG bit I: vectored maskable interrupts (10_state.md R36). -/
def State.cfgI (s : State) : Bool := s.cfg.getLsbD 0

/-- CFG bit F: the floating-point instructions are valid (10_state.md R37). -/
def State.cfgF (s : State) : Bool := s.cfg.getLsbD 1

/-- A result with the carry or borrow and the overflow it sets (41_integer_arithmetic.md R221). -/
structure Arith (w : Nat) where
  result : BitVec w
  carry : Bool
  overflow : Bool
deriving DecidableEq, Repr

/-- The signed range of `w` bits (R221). -/
def inSigned (w : Nat) (x : Int) : Bool := -(2 ^ (w - 1) : Int) ≤ x && x < (2 ^ (w - 1) : Int)

/-- `add(a, b, c)` of R221. -/
def addC {w : Nat} (a b : BitVec w) (c : Bool) : Arith w :=
  let s := a.toNat + b.toNat + c.toNat
  { result := BitVec.ofNat w s
    carry := 2 ^ w ≤ s
    overflow := !inSigned w (a.toInt + b.toInt + c.toNat) }

/-- `sub(a, b, c)` of R221: a minus b minus c. -/
def subC {w : Nat} (a b : BitVec w) (c : Bool) : Arith w :=
  { result := BitVec.ofInt w ((a.toNat : Int) - b.toNat - c.toNat)
    carry := a.toNat < b.toNat + c.toNat
    overflow := !inSigned w (a.toInt - b.toInt - c.toNat) }

/-- Write C and F as an addition or a subtraction does (R222 to R227). -/
def State.putCF (s : State) (c f : Bool) : State := (s.putFlag .c c).putFlag .f f

/-- `cmpflags(a, b)` of 42_compare_logical_shift.md R251: `a` is the first operand, `b` the second. -/
def State.putCompare {w : Nat} (s : State) (a b : BitVec w) : State :=
  ((s.putFlag .z (b == a)).putFlag .n (b.slt a)).putFlag .l (b.ult a)

/-- Set Z and clear N and L: a comparison that found no difference (R254, 44_strings.md R313). -/
def State.putEqual (s : State) : State := ((s.putFlag .z true).putFlag .n false).putFlag .l false

/-- Whether a condition holds (30_encoding.md R165). -/
def State.holds (s : State) : Cond → Bool
  | .eq => s.flag .z
  | .ne => !s.flag .z
  | .cs => s.flag .c
  | .cc => !s.flag .c
  | .hi => s.flag .l
  | .ls => !s.flag .l
  | .gt => s.flag .n
  | .le => !s.flag .n
  | .fs => s.flag .f
  | .fc => !s.flag .f
  | .lo => !s.flag .l && !s.flag .z
  | .hs => s.flag .l || s.flag .z
  | .lt => !s.flag .n && !s.flag .z
  | .ge => s.flag .n || s.flag .z
  | .always => true
  | .never => false

end Sys2Proof.Machine
end

