-- ==== Sys2Proof/Machine/Ops.lean ====
section
/-!
DEFINITION. The named operations over memory, the bus, the registers, the stacks and the input devices; taking an
exception and returning from one; and the frame every meaning runs in.
-/
namespace Sys2Proof.Machine

/-! ## Bytes -/

/-- A little-endian byte string as a number (20_memory.md R73). -/
def bytesNat : List Byte → Nat
  | [] => 0
  | x :: xs => x.toNat + 256 * bytesNat xs

/-- The little-endian value of `n` bytes (R73). -/
def ofBytes (n : Nat) (bs : List Byte) : BitVec (8 * n) := BitVec.ofNat (8 * n) (bytesNat bs)

/-- The `n` low bytes of a value, the least significant first (R73). -/
def toBytes {w : Nat} (n : Nat) (v : BitVec w) : List Byte :=
  (List.range n).map fun k => v.extractLsb' (8 * k) 8

/-! ## Memory -/

/-- What an address that is not listed reads as (assumption 3). -/
def unlisted : Byte := 0

/-- One byte of memory. -/
def memGet : List Host.Cell → Nat → Byte
  | [], _ => unlisted
  | (k, v) :: m, a => if k = a then v else memGet m a

/-- Store one byte of memory, keeping the canonical form. -/
def memSet : List Host.Cell → Nat → Byte → List Host.Cell
  | [], a, x => if x = unlisted then [] else [(a, x)]
  | (k, v) :: m, a, x =>
    if a < k then if x = unlisted then (k, v) :: m else (a, x) :: (k, v) :: m
    else if a = k then if x = unlisted then m else (a, x) :: m
    else (k, v) :: memSet m a x

/-- The canonical form: addresses strictly rising and below 2^24, no entry that reads as an unlisted one. -/
def Memory.wf (m : List Host.Cell) : Bool :=
  m.all (fun c => decide (c.1 < 2 ^ 24) && c.2 != unlisted) && decide ((m.map Prod.fst).Pairwise (· < ·))

/-- The byte at an address (20_memory.md R70). -/
def State.byteAt (s : State) (a : Addr) : Byte := memGet s.mem a.toNat

/-- `n` bytes from an address on, modulo 2^24 byte by byte (R71). -/
def loadBytes (m : List Host.Cell) (a : Addr) : Nat → List Byte
  | 0 => []
  | n + 1 => memGet m a.toNat :: loadBytes m (a + 1) n

/-- Store a byte string from an address on, where `ok` allows it. -/
def storeBytes (ok : Addr → Bool) (m : List Host.Cell) (a : Addr) : List Byte → List Host.Cell
  | [] => m
  | x :: xs => storeBytes ok (if ok a then memSet m a.toNat x else m) (a + 1) xs

/-- `MemRead(a, n)` as a value (R73), without its bus cycles. -/
def State.peek (s : State) (a : Addr) (n : Nat) : BitVec (8 * n) := ofBytes n (loadBytes s.mem a n)

/-- The double-word at an address. -/
def State.peek32 (s : State) (a : Addr) : DWord := s.peek a 4

/-- The word at an address. -/
def State.peek16 (s : State) (a : Addr) : Half := s.peek a 2

/-- Whether a region covers an address. -/
def Region.covers (r : Region) (a : Addr) : Bool := r.base ≤ a.toNat && a.toNat < r.base + r.size

/-- What is at an address; `none` is RAM (R77, MEM_MAP). -/
def State.kindAt (s : State) (a : Addr) : Option RegionKind :=
  (s.memMap.find? fun r => r.covers a).map Region.kind

/-- A store changes the byte of memory at the address: it is RAM, not ROM, not a device's and not absent (assumption
4). -/
def State.storable (s : State) (a : Addr) : Bool := s.kindAt a = none

/-- `MemWrite(a, n, v)` on memory (R73), without its bus cycles. -/
def State.poke {w : Nat} (s : State) (a : Addr) (n : Nat) (v : BitVec w) : State :=
  { s with mem := storeBytes s.storable s.mem a (toBytes n v) }

/-! ## Steps of an instruction -/

/-- The traps but TRC (60_exceptions.md R510). -/
inductive Trap where
  | slave | ill | svc | dvz | flg | bpt | und
deriving DecidableEq, Repr

/-- The vector of a trap (R510). -/
def Trap.vector : Trap → Nat
  | .slave => 3
  | .ill => 4
  | .svc => 5
  | .dvz => 6
  | .flg => 7
  | .bpt => 8
  | .und => 10

/-- What ends an instruction before its last step. -/
inductive Abort where
  /-- a trap is raised (00_scope.md R11) -/
  | trap (t : Trap)
  | fault (f : Fault)
  | refused (r : Refusal)
  /-- RSTI becomes active (70_reset_and_hazards.md R571) -/
  | reset
deriving DecidableEq, Repr

/-- A part of an instruction: it answers a value or aborts, and either way there is a state. -/
abbrev M := EStateM Abort State

/-- A value of the state. -/
def look {α : Type} (f : State → α) : M α := fun s => .ok (f s) s

/-- Change the state. -/
def change (f : State → State) : M Unit := fun s => .ok () (f s)

/-- Abort the instruction. -/
def abort {α : Type} (e : Abort) : M α := fun s => .error e s

/-- A value the spec does not state: 64 free bits (assumption 9). -/
def draw : M Quad := fun s => .ok (Config.freeBits s.draws) { s with draws := s.draws + 1 }

/-- A free value of any width up to 64 (assumption 9). -/
def drawBits (w : Nat) : M (BitVec w) := do
  let v ← draw
  return v.setWidth w

/-- A free bit (assumption 9). -/
def drawBool : M Bool := do
  let v ← draw
  return v.getLsbD 0

/-- The value itself, evaluated before what comes after it: an evaluation of the machine computes it once. -/
def settled {w : Nat} (v : BitVec w) : M (BitVec w) := fun s =>
  match v.toNat with
  | 0 => .ok (BitVec.ofNat w 0) s
  | k + 1 => .ok (BitVec.ofNat w (k + 1)) s

/-- The operands are such that the spec declines to define the instruction (70_reset_and_hazards.md R600): it is refused,
or goes on with free values, as the field operandPolicy says (assumptions 15 to 20). -/
def refusable (r : Refusal) : M Unit := do
  match ← look State.operandPolicy with
  | .refuse => abort (.refused r)
  | .free => pure ()

/-! ## The bus -/

/-- The bus cycles of an operand of up to four bytes as addresses and widths, in order: Odd Byte, Even Word, Even Byte
(20_memory.md R84, R85). -/
def cyclesFrom : Addr → Nat → List (Addr × Nat)
  | _, 0 => []
  | a, 1 => [(a, 1)]
  | a, n + 2 => if a.getLsbD 0 then (a, 1) :: cyclesFrom (a + 1) (n + 1) else (a, 2) :: cyclesFrom (a + 2) n

/-- The outputs that one bus cycle shows beside its status, address and data (10_state.md R45). -/
structure Pins where
  /-- ILO -/
  lock : Bool := false
  /-- BPU -/
  bpu : Bool := false
deriving DecidableEq, Repr

/-- Log a bus cycle of some bytes (R84), and count it for RSTI (70_reset_and_hazards.md R571). -/
def State.logCycle (s : State) (st : BusStatus) (wr : Bool) (p : Pins) (a : Addr) (bs : List Byte) : State :=
  { s with
    bus := s.bus ++ [.cycle ⟨st, wr, a, bs.length, BitVec.ofNat 16 (bytesNat bs), p.lock, p.bpu, s.flag .u⟩]
    resetIn := s.resetIn.map Nat.pred }

/-- Why an access to one byte cannot be made, if it cannot (R77, D26). -/
def State.blockedAt (s : State) (a : Addr) : Option Fault :=
  if s.kindAt a = some .nothing then some (.accessOutsideMemMap a) else none

/-- Why an access to `n` bytes cannot be made: the first byte of them that is blocked. -/
def State.blocked (s : State) (a : Addr) : Nat → Option Fault
  | 0 => none
  | n + 1 => (s.blockedAt a).or (s.blocked (a + 1) n)

/-- The answer of a device to a read: what the platform lists next, a free value when it lists nothing (R91,
70_reset_and_hazards.md R601; assumption 4). -/
def State.deviceByte (s : State) : Byte × State :=
  match s.deviceReplies with
  | b :: bs => (b, { s with deviceReplies := bs })
  | [] => ((Config.freeBits s.draws).setWidth 8, { s with draws := s.draws + 1 })

/-- The bytes that a read cycle returns: memory's or a device's (R77, R91). -/
def State.answer (s : State) (a : Addr) : Nat → List Byte × State
  | 0 => ([], s)
  | n + 1 =>
    match if s.kindAt a = some .device then s.deviceByte else (s.byteAt a, s) with
    | (x, t) =>
      match t.answer (a + 1) n with
      | (xs, u) => (x :: xs, u)

/-- Stores of other bus masters and of devices (R97), at addresses modulo 2^24; only RAM changes. DESIGN CHOICE
(assumption 4): a store of another master changes neither ROM nor a device region; the spec does not say. -/
def State.othersStore (s : State) (ws : List Host.Cell) : State :=
  { s with mem := ws.foldl (fun m c => storeBytes s.storable m (BitVec.ofNat 24 c.1) [c.2]) s.mem }

/-! ### Instruction fetch cycles -/

/-- The bytes of the next fetch cycle: an Odd Byte after a break to an odd address, else an Even Word (R94, R95). -/
def State.fetchWidth (s : State) : Nat := if s.fetchPc.getLsbD 0 then 1 else 2

/-- The bytes of an instruction fetch cycle enter the queue: it is Non-Sequential if it is the first after a break (R94,
R95). -/
def State.enqueue (s : State) (bs : List Byte) : State :=
  { s.logCycle (if s.broken then .fetchBreak else .fetch) false { bpu := s.flag .b } s.fetchPc bs with
    queue := s.queue ++ bs
    fetchPc := s.fetchPc + BitVec.ofNat 24 s.fetchWidth
    broken := false }

/-- One instruction fetch cycle (R94, R95). -/
def State.fetchCycle (s : State) : State :=
  match s.answer s.fetchPc s.fetchWidth with
  | (bs, t) => t.enqueue bs

/-- The prefetcher can make a fetch cycle: the queue of 8 bytes has room (R93, R94), memory answers, the CPU is not in a
WAIT (48_misc.md R432), and RSTI is not active. -/
def State.canPrefetch (s : State) : Bool :=
  s.queue.length + s.fetchWidth ≤ 8 && (s.blocked s.fetchPc s.fetchWidth).isNone && !s.waiting && s.resetIn != some 0

/-- The prefetcher makes a fetch cycle, if it can (R94). -/
def State.prefetch (s : State) : State := if s.canPrefetch then s.fetchCycle else s

/-! ### Between bus cycles -/

/-- Where a bus cycle of the CPU begins. -/
inductive Seam where
  /-- at the beginning of an operand's access, or of its second double-word (R85): other masters and the prefetcher may
  take the bus before it -/
  | apart
  /-- within an operand's access: other masters only (R85, R97) -/
  | within
  /-- between the cycles of an interlocked operation: no one, if the arbiter honours ILO (R98, D24); if it does not, other
  masters only. DESIGN CHOICE (assumption 40): the prefetcher does not take the bus there; the spec does not say -/
  | interlocked
deriving DecidableEq, Repr

/-- One turn happens: another master stores (R97), or the prefetcher makes a fetch cycle if it may (R94). -/
def State.turn (fetching : Bool) (s : State) : Turn → State
  | .store c => s.othersStore [c]
  | .fetch => if fetching then s.prefetch else s

/-- The next gap happens, turn by turn (R94, R97). -/
def State.gap (s : State) (fetching : Bool) : State :=
  match s.gaps with
  | [] => s
  | g :: gs => g.foldl (State.turn fetching) { s with gaps := gs }

/-- If RSTI is active, the instruction ends (70_reset_and_hazards.md R571). -/
def unlessReset : M Unit := fun s => if s.resetIn = some 0 then .error .reset s else .ok () s

/-- What happens on the bus before a cycle of the CPU: the next gap, unless an interlocked operation holds the bus (R98);
the prefetcher takes part where an operand's access begins (assumptions 8 and 40). -/
def between (m : Seam) : M Unit := do
  if ← look fun s => s.gaps.isEmpty || (m = .interlocked && s.honoursIlo) then pure ()
  else change fun s => s.gap (m = .apart)
  unlessReset

/-- One read cycle. -/
def readCycle (st : BusStatus) (p : Pins) (m : Seam) (a : Addr) (n : Nat) : M (List Byte) := do
  between m
  match ← look fun s => s.blocked a n with
  | some f => abort (.fault f)
  | none =>
    let (bs, t) ← look fun s => s.answer a n
    change fun _ => t.logCycle st false p a bs
    return bs

/-- The read cycles of an operand, the first at the seam `m`. The recursion is List's own recursor, which an evaluation of
the machine unfolds much faster than a function by structural recursion; readCycles_nil and readCycles_cons say what it
does. -/
def readCycles (st : BusStatus) (p : Pins) (m : Seam) (cs : List (Addr × Nat)) : M (List Byte) :=
  List.rec (motive := fun _ => Seam → M (List Byte)) (fun _ => return [])
    (fun c _ rest m => do
      let x ← readCycle st p m c.1 c.2
      let xs ← rest .within
      return x ++ xs) cs m

/-- One write cycle. A write carries the data status (R89). -/
def writeCycle (p : Pins) (m : Seam) (a : Addr) (bs : List Byte) : M Unit := do
  between m
  match ← look fun s => s.blocked a bs.length with
  | some f => abort (.fault f)
  | none =>
    change fun s => ({ s with mem := storeBytes s.storable s.mem a bs } : State).logCycle .data true p a bs

/-- The write cycles of an operand, the first at the seam `m`; writeCycles_nil and writeCycles_cons say what it does. -/
def writeCycles (p : Pins) (m : Seam) (cs : List (Addr × Nat)) (bs : List Byte) : M Unit :=
  List.rec (motive := fun _ => Seam → List Byte → M Unit) (fun _ _ => return ())
    (fun c _ rest m bs => do
      writeCycle p m c.1 (bs.take c.2)
      rest .within (bs.drop c.2)) cs m bs

/-- `MemRead(a, n)` with a bus status (00_scope.md R11, 20_memory.md R90): a quad-word as its two double-words (R85). -/
def readMem (st : BusStatus) (a : Addr) (n : Nat) (p : Pins := {}) : M (BitVec (8 * n)) := do
  let a ← settled a
  let x ← readCycles st p .apart (cyclesFrom a (min n 4))
  let y ← readCycles st p .apart (cyclesFrom (a + 4) (n - 4))
  settled (ofBytes n (x ++ y))

/-- `MemWrite(a, n, v)` (00_scope.md R11, 20_memory.md R85). -/
def writeMem {w : Nat} (a : Addr) (n : Nat) (v : BitVec w) (p : Pins := {}) : M Unit := do
  let a ← settled a
  let v ← settled v
  writeCycles p (if p.lock then .interlocked else .apart) (cyclesFrom a (min n 4)) ((toBytes n v).take 4)
  writeCycles p .apart (cyclesFrom (a + 4) (n - 4)) ((toBytes n v).drop 4)

/-- A fetch cycle that the CPU waits for (20_memory.md R94, R95). -/
def demandFetch : M Unit := do
  between .within
  match ← look fun s => s.blocked s.fetchPc s.fetchWidth with
  | some f => abort (.fault f)
  | none =>
    let (bs, t) ← look fun s => s.answer s.fetchPc s.fetchWidth
    change fun _ => t.enqueue bs

/-! ## Registers -/

/-- A general register (10_state.md R21). -/
def State.reg (s : State) (r : RegNo) : DWord := s.regs[r.toNat]'r.isLt

/-- Write a general register whole. -/
def State.setReg (s : State) (r : RegNo) (v : DWord) : State := { s with regs := s.regs.set r.toNat v r.isLt }

/-- Replace the low part of a double-word and leave the high part (10_state.md R21). -/
def mergeLow {w : Nat} (old : DWord) (v : BitVec w) : DWord :=
  (old &&& ~~~((BitVec.allOnes w).setWidth 32)) ||| v.setWidth 32

/-- Write the low part of a general register (R21). -/
def State.setRegLow {w : Nat} (s : State) (r : RegNo) (v : BitVec w) : State :=
  s.setReg r (mergeLow (s.reg r) v)

/-- A floating-point register (10_state.md R40). -/
def State.freg (s : State) (r : RegNo) : Quad := s.fregs[r.toNat]'r.isLt

/-- Write a floating-point register whole. -/
def State.setFreg (s : State) (r : RegNo) (v : Quad) : State := { s with fregs := s.fregs.set r.toNat v r.isLt }

/-- The selected stack pointer (10_state.md R25). -/
def State.sp (s : State) : Addr := if s.flag .s then s.sp1 else s.sp0

/-- Write the selected stack pointer (R25). -/
def State.setSp (s : State) (a : Addr) : State := if s.flag .s then { s with sp1 := a } else { s with sp0 := a }

/-- A 32-bit register of an NS32081 (10_state.md R40, assumption 36). -/
def State.fsingle (s : State) (r : RegNo) : DWord := s.fsingles[r.toNat]'r.isLt

/-- Write the program counter by a transfer of control: the queue is discarded, and the next fetch is Non-Sequential
(20_memory.md R95). -/
def State.jump (s : State) (a : Addr) : State := { s with pc := a, queue := [], fetchPc := a, broken := true }

/-! ## Stacks -/

/-- `push_n(v)` on the selected stack (00_scope.md R11). -/
def push {w : Nat} (n : Nat) (v : BitVec w) : M Unit := do
  change fun s => s.setSp (s.sp - BitVec.ofNat 24 n)
  let a ← look State.sp
  writeMem a n v

/-- `pop_n()` from the selected stack (00_scope.md R11). -/
def pop (n : Nat) (p : Pins := {}) : M (BitVec (8 * n)) := do
  let a ← look State.sp
  let v ← readMem .data a n p
  change fun s => s.setSp (s.sp + BitVec.ofNat 24 n)
  return v

/-! ## Exceptions -/

/-- The address of a module descriptor's entry (20_memory.md R78). -/
def State.modAddr (s : State) (k : Nat) : Addr := s.modReg.setWidth 24 + BitVec.ofNat 24 k

/-- Load SB through the module descriptor that MOD names, and find the new PC: `offset` is added to the Program Base
(60_exceptions.md R512 steps 3 and 4, 45_jumps_linkage.md R340). -/
def moduleEntry (offset : Half) : M Addr := do
  let b ← readMem .data (← look fun s => s.modAddr 0) 4
  change fun s => { s with sb := b.setWidth 24 }
  let p ← readMem .data (← look fun s => s.modAddr 8) 4
  settled ((p.setWidth 32 + offset.setWidth 32).setWidth 24)

/-- Load SB and PC through the module descriptor that MOD names (R340). -/
def enterModule (offset : Half) : M Unit := do
  let a ← moduleEntry offset
  change fun s => s.jump a

/-- Load PC, flush the queue, and fetch non-sequentially at the new PC (R512 step 5): one fetch cycle, before anything
else. DEDUCED (assumption 43): one cycle, an Even Word or an Odd Byte, is what the CPU waits for here. -/
def flushAndFetch (a : Addr) : M Unit := do
  change fun s => s.jump a
  demandFetch

/-- The Service sequence (R512). PSR.S is 0 already, so that the pushes are on the interrupt stack. -/
def service (vector : Nat) (ra : Addr) : M Unit := do
  let old ← look State.modReg
  let desc ← readMem .data (← look fun s => s.intbase + BitVec.ofNat 24 (4 * vector)) 4
  change fun s => { s with modReg := desc.setWidth 16 }
  flushAndFetch (← moduleEntry (desc.extractLsb' 16 16))
  push 2 old
  push 4 ra

/-- Taking a trap other than TRC (R520). `s0` is the state at the start of the instruction, before T was copied to P
(D51). -/
def takeTrap (t : Trap) (s0 : State) : M Unit := do
  change fun s => ({ s with psr := s0.psr }).setSp s0.sp
  let copy := s0.psr
  change fun s => { s with psr := psrClear copy [.s, .u, .p, .t] }
  push 2 copy
  service t.vector s0.pc

/-- Taking the trace trap at an instruction boundary (R521): PC is that of the next instruction. -/
def takeTrace : M Unit := do
  change fun s => s.putFlag .p false
  let copy ← look State.psr
  change fun s => { s with psr := psrClear copy [.s, .u, .t] }
  push 2 copy
  service 9 (← look State.pc)

/-- One byte read by an interrupt-control cycle (20_memory.md R100, 60_exceptions.md R551): the ICU's next answer, a free
value when none is left (assumption 6). -/
def icuRead (st : BusStatus) (a : Addr) : M Byte := do
  between .apart
  let b ← (do
    match ← look State.icuReplies with
    | r :: rs =>
      change fun s => { s with icuReplies := rs }
      return r
    | [] => drawBits 8)
  change fun s => s.logCycle st false {} a [b]
  return b

/-- The Cascade Table entry of a cascade index, a negative byte (R517). -/
def cascadeEntry (s : State) (b : Byte) : Addr := s.intbase + 4 * b.signExtend 24

/-- The vector of a maskable interrupt (R515 steps 4 to 7). -/
def intVector : M Nat := do
  let b ← icuRead .intAckMaster 0xFFFE00
  if !(← look State.cfgI) then return 0
  else if 0 ≤ b.toInt then return b.toNat
  else if -16 ≤ b.toInt then
    let ca ← readMem .data (← look fun s => cascadeEntry s b) 4
    let v ← icuRead .intAckCascaded (ca.setWidth 24)
    return v.toNat
  else abort (.refused (.icuReserved b))

/-- The interrupt sequence (R515). PC is the return address: that of the next instruction, or of a suspended one. -/
def takeInterrupt (nmi : Bool) : M Unit := do
  let ra ← look State.pc
  let copy ← look State.psr
  change fun s => { s with psr := psrClear copy [.s, .u, .t, .p, .i, .b] }
  let v ← (do
    if nmi then
      let _ ← icuRead .intAckMaster 0xFFFF00
      change fun s => { s with nmiLatch := false }
      return 1
    else intVector)
  push 2 copy
  service v ra

/-- Returning from an exception: pop PC, MOD, PSR, reload SB (45_jumps_linkage.md R343, R349). -/
def returnFromException : M Unit := do
  let p ← pop 4
  change fun s => s.jump (p.setWidth 24)
  let m ← pop 2
  change fun s => { s with modReg := m }
  let v ← pop 2
  change fun s => s.setPsr v
  let b ← readMem .data (← look fun s => s.modAddr 0) 4
  change fun s => { s with sb := b.setWidth 24 }

/-- End of Interrupt, as RETI signals it (R349, D47). -/
def endOfInterrupt : M Unit := do
  let b ← icuRead .endIntMaster 0xFFFE00
  if 0 ≤ b.toInt then pure ()
  else if b.toInt < -16 || !(← look State.cfgI) then abort (.refused (.icuReserved b))
  else
    let ca ← readMem .data (← look fun s => cascadeEntry s b) 4
    let _ ← icuRead .endIntCascaded (ca.setWidth 24)
    return ()

/-- A privileged instruction in User Mode raises Trap(ILL) before anything else (46_cpu_register.md R370). -/
def privileged : M Unit := do
  if ← look fun s => s.flag .u then abort (.trap .ill) else pure ()

/-! ## Reset -/

/-- Reset by RSTI (70_reset_and_hazards.md R570): PC, PSR, CFG.C, CFG.M, the NMI latch and the queue are cleared, a WAIT
ends, every register that reset does not set is a free value (D27), memory is unchanged (10_state.md R46), and nothing
else happens in this step. -/
def State.hardReset (s : State) : State :=
  let d := fun k => Config.freeBits (s.draws + k)
  { s with
    regs := Vector.ofFn fun k => (d k.val).setWidth 32
    pc := 0
    sp0 := (d 8).setWidth 24
    sp1 := (d 9).setWidth 24
    fp := (d 10).setWidth 24
    sb := (d 11).setWidth 24
    intbase := (d 12).setWidth 24
    modReg := (d 13).setWidth 16
    psr := 0
    cfg := ((d 14).setWidth 2).setWidth 4
    queue := []
    fetchPc := 0
    broken := true
    nmiLatch := false
    waiting := false
    fregs := Vector.ofFn fun k => d (15 + k.val)
    fsingles := Vector.ofFn fun k => (d (23 + k.val)).setWidth 32
    fsr := (d 31).setWidth 32
    gaps := []
    resetIn := none
    suspend := none
    heldTbits := []
    draws := s.draws + 32 }

/-! ## The frame of an instruction -/

/-- The machine stops, unless RSTI is active already (R571). -/
def State.stop (s : State) (o : Host.Outcome State Fault Refusal) : Host.Outcome State Fault Refusal :=
  if s.resetIn = some 0 then .next s.hardReset else o

/-- What a sequence that no trap can leave answers as a step. -/
def settle : EStateM.Result Abort State Unit → Host.Outcome State Fault Refusal
  | .ok _ t => .next t
  | .error (.fault f) t => t.stop (.fault f)
  | .error (.refused r) t => t.stop (.refused r)
  | .error .reset t => .next t.hardReset
  | .error (.trap _) t => .next t

/-- The end of an instruction that started in `s0`: a trap is taken (R520). -/
def finish (s0 : State) : EStateM.Result Abort State Unit → Host.Outcome State Fault Refusal
  | .error (.trap t) s => settle (takeTrap t s0 s)
  | r => settle r

/-- The beginning of an instruction: PFS is pulsed (10_state.md R45), and T is copied to P (R521). -/
def State.begin (s : State) : State := { s.putFlag .p (s.flag .t) with bus := s.bus ++ [.pfs] }

/-- Run an instruction: a form the spec refuses is refused (R531); else its steps run, and a trap is taken. -/
def perform (i : Instr) (body : M Unit) (s : State) : Host.Outcome State Fault Refusal :=
  match i.check with
  | some e => s.stop (.refused (.illegalForm e))
  | none => finish s (body s.begin)

/-- The address after the instruction at PC (10_state.md R24). -/
def State.next (s : State) (i : Instr) : Addr := s.pc + BitVec.ofNat 24 i.length

/-- PC moves past the instruction (00_scope.md R11). -/
def advance (i : Instr) : M Unit := change fun s => { s with pc := s.next i }

/-- Run an instruction that does not transfer control (00_scope.md R11). -/
def performSeq (i : Instr) (body : M Unit) (s : State) : Host.Outcome State Fault Refusal :=
  perform i (do body; advance i) s

/-- Run a floating-point instruction: with CFG.F = 0 it raises Trap(UND) (47_floating_point.md R392). -/
def performFpu (i : Instr) (body : M Unit) (s : State) : Host.Outcome State Fault Refusal :=
  if s.cfgF then performSeq i body s else finish s (.error (.trap .und) s.begin)

/-! ## Interruptible instructions -/

/-- Passes of an interruptible instruction (60_exceptions.md R516): at most `n`, until `done` holds before a pass or a
pass says it was the last. Answers whether the instruction is complete. -/
def passes (done : State → Bool) (pass : M Bool) : Nat → M Bool
  | 0 => look done
  | n + 1 => do
    if ← look done then return true
    else if ← pass then return true
    else passes done pass n

/-- Run an interruptible instruction of at most `count` passes: it goes on to the next instruction when complete; when
an interrupt suspends it, PC stays at its first byte (R516), and `leave` says what else the suspension does. `least` is
the number of passes before its first suspension point: 0 for a string instruction, which R317 lets be suspended before
any pass; 1 for a graphics instruction, whose suspension points are between passes (49_graphics.md R446, R454, R460, R465,
R475, R480). -/
def interruptible (i : Instr) (leave : State → State) (least count : Nat) (done : State → Bool) (pass : M Bool)
    (complete : M Unit) : M Unit := do
  let budget ← look State.suspend
  let n := match budget with
    | some b => min (max b least) count
    | none => count
  if ← passes done pass n then
    complete
    advance i
  else
    change fun s => (leave s).jump s.pc

end Sys2Proof.Machine
end

