-- ==== Sys2Proof/Machine/Operands.lean ====
section
/-!
DEFINITION. General operands: effective addresses, and reading, writing and rewriting an operand in every addressing
mode (30_encoding.md R130 to R143). Bits and bit fields on a register or in memory (43_bits_fields_arrays.md R281, R288).
-/
namespace Sys2Proof.Machine

/-! ## Effective addresses -/

/-- The dedicated register of Memory Relative (R134). -/
def State.relReg (s : State) : RelReg → Addr
  | .fp => s.fp
  | .sp => s.sp
  | .sb => s.sb

/-- The dedicated register of Memory Space (R133, R139): PC is the address of the instruction itself. -/
def State.spaceReg (s : State) : SpaceReg → Addr
  | .fp => s.fp
  | .sp => s.sp
  | .sb => s.sb
  | .pc => s.pc

/-- A read of a pointer for an effective address, status 1100 (20_memory.md R90). -/
def readPointer (a : Addr) : M DWord := readMem .readEa a 4

/-- The address of a Memory Relative pointer (R134). -/
def State.pointerAddr (s : State) (a : RelReg) (d1 : Disp) : Addr :=
  s.relReg a + d1.word.setWidth 24

/-- The address of the Link Table Address of the current module (R136). -/
def State.linkAddr (s : State) : Addr := s.modAddr 4

/-- The address of a Link Table entry (20_memory.md R79). -/
def linkEntry (lt : DWord) (d : Disp) : Addr := (lt + 4 * d.word).setWidth 24

/-- The effective address of a mode that is not Scaled Index (R131 to R139), by the pointers that memory holds. Register
is a base of Scaled Index only (R140). -/
def State.baseEa (s : State) : Base → DWord
  | .reg r => s.reg r
  | .regRel r d => s.reg r + d.word
  | .memRel a d1 d2 => s.peek32 (s.pointerAddr a d1) + d2.word
  | .imm _ => 0
  | .abs d => d.word
  | .ext d1 d2 => s.peek32 (linkEntry (s.peek32 s.linkAddr) d1) + d2.word
  | .tos => s.sp.setWidth 32
  | .mem a d => (s.spaceReg a).setWidth 32 + d.word

/-- The factor of a scale as a shift (R140). -/
def scaleShift : Scale → Nat
  | .b => 0
  | .w => 1
  | .d => 2
  | .q => 3

/-- `EA(gen)`: the full 32-bit sum (R130, R140), by the pointers that memory holds. -/
def State.ea (s : State) : Gen → DWord
  | .base m => s.baseEa m
  | .scaled m x sc => s.baseEa m + (s.reg x <<< scaleShift sc)

/-- The effective address of a mode that is not Scaled Index, with the reads of pointers it takes, in order (R134,
R136). -/
def effBase : Base → M DWord
  | .memRel a d1 d2 => do
    let p ← readPointer (← look fun s => s.pointerAddr a d1)
    return p + d2.word
  | .ext d1 d2 => do
    let lt ← readPointer (← look State.linkAddr)
    let p ← readPointer (linkEntry lt d1)
    return p + d2.word
  | m => look fun s => s.baseEa m

/-- `EA(gen)` with its pointer reads (R130 to R140). -/
def effAddr : Gen → M DWord
  | .base m => effBase m
  | .scaled m x sc => do
    let b ← effBase m
    return b + ((← look fun s => s.reg x) <<< scaleShift sc)

/-- The low 24 bits of an effective address (20_memory.md R71). -/
def effAddr24 (g : Gen) : M Addr := do
  let a ← effAddr g
  return a.setWidth 24

/-! ## Where an operand is -/

/-- Where an operand is found or stored. -/
inductive Place where
  /-- a general register (a floating-point register for an operand of type f) -/
  | reg (r : RegNo)
  /-- memory -/
  | mem (a : Addr)
  /-- pushed on the selected stack when it is written (R138) -/
  | push
deriving DecidableEq, Repr

/-- The place of an operand of class rmw (R138: Top of Stack is the item at SP, in place). -/
def placeRmw (g : Gen) : M Place :=
  match g with
  | .base (.reg r) => return .reg r
  | _ => return .mem (← effAddr24 g)

/-- The place of an operand of class write (R138: Top of Stack is pushed). -/
def placeWrite (g : Gen) : M Place :=
  match g with
  | .base (.reg r) => return .reg r
  | .base .tos => return .push
  | _ => return .mem (← effAddr24 g)

/-- An immediate at the size of its operand (R125). -/
def immValue (v : Imm) (n : Nat) : BitVec (8 * n) :=
  match v with
  | .b x => x.setWidth (8 * n)
  | .w x => x.setWidth (8 * n)
  | .d x => x.setWidth (8 * n)
  | .q x => x.setWidth (8 * n)

/-- `read_i(gen)`: an operand of class read, of `n` bytes (R131, R135, R138, R143). Reads of pointers that its address
takes are no accesses to the operand: they do not carry the pins `p`. -/
def readGen (g : Gen) (n : Nat) (p : Pins := {}) : M (BitVec (8 * n)) :=
  match g with
  | .base (.reg r) => look fun s => (s.reg r).setWidth (8 * n)
  | .base (.imm v) => return immValue v n
  | .base .tos => pop n p
  | _ => do readMem .data (← effAddr24 g) n p

/-- Read the operand at a place, with a bus status. -/
def readPlace (st : BusStatus) (p : Place) (n : Nat) : M (BitVec (8 * n)) :=
  match p with
  | .reg r => look fun s => (s.reg r).setWidth (8 * n)
  | .mem a => readMem st a n
  | .push => do readMem st (← look State.sp) n

/-- Write an operand of `n` bytes at a place (R131: the high part of a register is kept). -/
def writePlace (p : Place) (n : Nat) (v : BitVec (8 * n)) : M Unit :=
  match p with
  | .reg r => change fun s => s.setRegLow r v
  | .mem a => writeMem a n v
  | .push => push n v

/-- `src` of class read, `dst` of class write, both evaluated in that order, then the result written (R142). -/
def moveOp (n m : Nat) (src dst : Gen) (f : BitVec (8 * n) → M (BitVec (8 * m))) : M Unit := do
  let a ← readGen src n
  let p ← placeWrite dst
  writePlace p m (← f a)

/-- `dst` of class rmw: read with status 1011, then rewritten at the same place (R89, R143). -/
def rmwOp (m : Nat) (dst : Gen) (f : BitVec (8 * m) → M (BitVec (8 * m))) : M Unit := do
  let p ← placeRmw dst
  let b ← readPlace .readRmw p m
  writePlace p m (← f b)

/-- `src` of class read, then `dst` of class rmw (R142). -/
def binaryOp (n m : Nat) (src dst : Gen) (f : BitVec (8 * n) → BitVec (8 * m) → M (BitVec (8 * m))) : M Unit := do
  let a ← readGen src n
  rmwOp m dst (f a)

/-- Two operands of class read, in order (R142). -/
def readOp2 (n m : Nat) (g1 g2 : Gen) : M (BitVec (8 * n) × BitVec (8 * m)) := do
  let a ← readGen g1 n
  let b ← readGen g2 m
  return (a, b)

/-! ## Bits (43_bits_fields_arrays.md R281)

A base of a bit or of a bit field has the class regaddr. R143 lets it be Top of Stack; R138 gives Top of Stack for read,
write, rmw and addr only. DESIGN CHOICE (assumption 46): it is taken as for the class addr: the base address is SP, and SP
is left unchanged.
-/

/-- The byte address and the bit number of a bit in memory: floor division of the signed offset (R281). -/
def bitAddr (base : DWord) (off : DWord) : Addr × Nat :=
  ((base + off.sshiftRight 3).setWidth 24, (off.setWidth 3).toNat)

/-- A bit offset of size i as a signed number (R281). -/
def bitOffset {w : Nat} (off : BitVec w) : DWord := off.signExtend 32

/-- Test a bit, on a register or in memory, without changing it (R282): one byte read, status 1010. A register offset
outside 0 to 31 is refused, or gives a free value (assumption 17). DESIGN CHOICE (assumption 46): the base address of Top
of Stack is SP, left unchanged. -/
def testBit (g : Gen) (off : DWord) : M Bool := do
  match g with
  | .base (.reg r) =>
    let v ← look fun s => s.reg r
    if off.ult 32 then return v.getLsbD off.toNat
    else
      refusable .outsideField
      drawBool
  | _ =>
    let e ← effAddr g
    let (a, k) := bitAddr e off
    let x ← readMem .data a 1
    return x.getLsbD k

/-- Set bit `k` of a value to `x`. -/
def putBit {w : Nat} (v : BitVec w) (k : Nat) (x : Bool) : BitVec w :=
  if x then v ||| (BitVec.ofNat w 1 <<< k) else v &&& ~~~(BitVec.ofNat w 1 <<< k)

/-- Test a bit and replace it by `f` of its old value (R283 to R287): a byte read with status 1011 and rewritten,
interlocked or not (20_memory.md R86, R98). A register offset outside 0 to 31 is refused, or makes the bit and the
register free values (assumption 17). DESIGN CHOICE (assumption 46): the base address of Top of Stack is SP, left
unchanged, though the byte is read and stored. -/
def changeBit (g : Gen) (off : DWord) (lock : Bool) (f : Bool → Bool) : M Bool := do
  match g with
  | .base (.reg r) =>
    let v ← look fun s => s.reg r
    if off.ult 32 then
      let x := v.getLsbD off.toNat
      change fun s => s.setReg r (putBit v off.toNat (f x))
      return x
    else
      refusable .outsideField
      let v' ← drawBits 32
      change fun s => s.setReg r v'
      drawBool
  | _ =>
    let e ← effAddr g
    let (a, k) := bitAddr e off
    let y ← readMem .readRmw a 1 { lock := lock }
    let x := y.getLsbD k
    writeMem a 1 (putBit y k (f x)) { lock := lock }
    return x

/-! ## Bit fields (R288) -/

/-- A mask of `len` ones from bit `k` on, in 32 bits. -/
def fieldMask (k len : Nat) : DWord := BitVec.ofNat 32 ((2 ^ len - 1) * 2 ^ k)

/-- The field of `len` bits from bit `k` on, right-aligned (R290). -/
def fieldGet (d : DWord) (k len : Nat) : DWord := (d >>> k) &&& fieldMask 0 len

/-- A double-word with the field of `len` bits from bit `k` on replaced by the low bits of `v` (R291). -/
def fieldPut (d : DWord) (k len : Nat) (v : DWord) : DWord :=
  (d &&& ~~~fieldMask k len) ||| ((v &&& fieldMask 0 len) <<< k)

/-- Extract a field (R288, R290): from a register, or from the double-word at the byte that holds its first bit. A field
that passes bit 31 is refused, or is a free value (assumption 18). DESIGN CHOICE (assumption 46): the base address of Top
of Stack is SP, left unchanged. -/
def extractField (g : Gen) (off : DWord) (len : Nat) : M DWord := do
  match g with
  | .base (.reg r) =>
    let v ← look fun s => s.reg r
    if off.ult 32 && off.toNat + len ≤ 32 then return fieldGet v off.toNat len
    else
      refusable .outsideField
      drawBits 32
  | _ =>
    let e ← effAddr g
    let (a, k) := bitAddr e off
    let d ← readMem .data a 4
    if k + len ≤ 32 then return fieldGet d k len
    else
      refusable .outsideField
      drawBits 32

/-- Insert a field (R288, R291): the double-word is read with status 1011 and rewritten. A field
that passes bit 31 is refused, or makes free values of the bits of the double-word in memory from the field's first one
on, or of the register (assumption 18). DESIGN CHOICE (assumption 46): the base address of Top of Stack is SP, left
unchanged, though the double-word is read and stored. -/
def insertField (g : Gen) (off : DWord) (len : Nat) (v : DWord) : M Unit := do
  match g with
  | .base (.reg r) =>
    let d ← look fun s => s.reg r
    let d' ← (do
      if off.ult 32 && off.toNat + len ≤ 32 then return fieldPut d off.toNat len v
      else
        refusable .outsideField
        drawBits 32)
    change fun s => s.setReg r d'
  | _ =>
    let e ← effAddr g
    let (a, k) := bitAddr e off
    let d ← readMem .readRmw a 4
    let d' ← (do
      if k + len ≤ 32 then return fieldPut d k len v
      else
        refusable .outsideField
        return fieldPut d k (32 - k) (← drawBits 32))
    writeMem a 4 d'

end Sys2Proof.Machine
end

