-- ==== Sys2Proof/Machine/Bits.lean ====
section
/-! DEFINITION. Bit, bit-field and array instructions (43_bits_fields_arrays.md). -/
namespace Sys2Proof.Machine

/-- TBITi (R282). -/
def execTbiti (i : Size) (off base : Gen) (s : State) : Host.Outcome State Fault Refusal :=
  performSeq (.tbiti i off base) (do
    let o ← readGen off i.bytes
    let x ← testBit base (bitOffset o)
    change fun s => s.putFlag .f x) s

/-- A test-and-change bit instruction: F is the old bit (R283). With `lock`, ILO is active on its operand accesses: the read
of an offset operand in memory, the read and the write of the bit's byte (10_state.md R45, 20_memory.md R98, R284). DEDUCED
(assumption 40): reads of pointers are no operand accesses. -/
def bitOp (n : Nat) (off base : Gen) (lock : Bool) (f : Bool → Bool) : M Unit := do
  let o ← readGen off n { lock := lock }
  let x ← changeBit base (bitOffset o) lock f
  change fun s => s.putFlag .f x

/-- SBITi (R283). -/
def execSbiti (i : Size) (off base : Gen) (s : State) : Host.Outcome State Fault Refusal :=
  performSeq (.sbiti i off base) (bitOp i.bytes off base false fun _ => true) s

/-- SBITIi (R284): interlocked. -/
def execSbitii (i : Size) (off base : Gen) (s : State) : Host.Outcome State Fault Refusal :=
  performSeq (.sbitii i off base) (bitOp i.bytes off base true fun _ => true) s

/-- CBITi (R285). -/
def execCbiti (i : Size) (off base : Gen) (s : State) : Host.Outcome State Fault Refusal :=
  performSeq (.cbiti i off base) (bitOp i.bytes off base false fun _ => false) s

/-- CBITIi (R286): interlocked. -/
def execCbitii (i : Size) (off base : Gen) (s : State) : Host.Outcome State Fault Refusal :=
  performSeq (.cbitii i off base) (bitOp i.bytes off base true fun _ => false) s

/-- IBITi (R287). -/
def execIbiti (i : Size) (off base : Gen) (s : State) : Host.Outcome State Fault Refusal :=
  performSeq (.ibiti i off base) (bitOp i.bytes off base false fun x => !x) s

/-- The first set bit of `v` from bit `o` on (R289). -/
def firstSet {w : Nat} (v : BitVec w) (o : Nat) : Option Nat :=
  (List.range w).find? fun k => o ≤ k && v.getLsbD k

/-- FFSi (R289). -/
def execFfsi (i : Size) (base off : Gen) (s : State) : Host.Outcome State Fault Refusal :=
  performSeq (.ffsi i base off) (do
    let v ← readGen base i.bytes
    rmwOp 1 off fun o => do
      match firstSet v o.toNat with
      | some k =>
        change fun s => s.putFlag .f false
        return BitVec.ofNat _ k
      | none =>
        change fun s => s.putFlag .f true
        return 0) s

/-- EXTi (R290). DESIGN CHOICE (assumption 45): the double-word of the field is read before the pointers that the address of
`dst` takes; R142 does not say. -/
def execExti (i : Size) (r : RegNo) (base dst : Gen) (len : Disp) (s : State) :
    Host.Outcome State Fault Refusal :=
  performSeq (.exti i r base dst len) (do
    let x ← extractField base (← look fun s => s.reg r) len.val.toNat
    writePlace (← placeWrite dst) i.bytes (x.setWidth _)) s

/-- INSi (R291). -/
def execInsi (i : Size) (r : RegNo) (src base : Gen) (len : Disp) (s : State) :
    Host.Outcome State Fault Refusal :=
  performSeq (.insi i r src base len) (do
    let v ← readGen src i.bytes
    insertField base (← look fun s => s.reg r) len.val.toNat (v.setWidth 32)) s

/-- EXTSi (R292): `len` is the length less one. The order of the reads is that of EXTi (assumption 45). -/
def execExtsi (i : Size) (base dst : Gen) (off : BitVec 3) (len : BitVec 5) (s : State) :
    Host.Outcome State Fault Refusal :=
  performSeq (.extsi i base dst off len) (do
    let x ← extractField base (off.setWidth 32) (len.toNat + 1)
    writePlace (← placeWrite dst) i.bytes (x.setWidth _)) s

/-- INSSi (R293). -/
def execInssi (i : Size) (src base : Gen) (off : BitVec 3) (len : BitVec 5) (s : State) :
    Host.Outcome State Fault Refusal :=
  performSeq (.inssi i src base off len) (do
    let v ← readGen src i.bytes
    insertField base (off.setWidth 32) (len.toNat + 1) (v.setWidth 32)) s

/-- CVTP (R294). -/
def execCvtp (r : RegNo) (base dst : Gen) (s : State) : Host.Outcome State Fault Refusal :=
  performSeq (.cvtp r base dst) (do
    let o ← look fun s => s.reg r
    let e ← effAddr base
    writePlace (← placeWrite dst) 4 (8 * e + o : DWord)) s

/-- CHECKi (R295): the upper bound is at the effective address, the lower bound after it. Out of bounds the register is
a free value (D14, assumption 23). -/
def execChecki (i : Size) (r : RegNo) (bounds src : Gen) (s : State) : Host.Outcome State Fault Refusal :=
  performSeq (.checki i r bounds src) (do
    let n := i.bytes
    let e ← effAddr24 bounds
    let u ← readMem .data e n
    let l ← readMem .data (e + BitVec.ofNat 24 n) n
    let x ← readGen src n
    if l.toInt ≤ x.toInt ∧ x.toInt ≤ u.toInt then
      change fun s => (s.putFlag .f false).setReg r (BitVec.ofInt 32 (x.toInt - l.toInt))
    else
      let v ← drawBits 32
      change fun s => (s.putFlag .f true).setReg r v) s

/-- A byte or word operand of INDEX at 32 bits: the parameter INDEX_EXT decides (R296, assumption 21). -/
def indexExtend {w : Nat} (v : BitVec w) : DWord :=
  if w = 32 || !v.msb then v.setWidth 32
  else if Config.indexSigned then v.signExtend 32 else v.setWidth 32

/-- INDEXi (R296). -/
def execIndexi (i : Size) (r : RegNo) (len idx : Gen) (s : State) : Host.Outcome State Fault Refusal :=
  performSeq (.indexi i r len idx) (do
    let (a, b) ← readOp2 i.bytes i.bytes len idx
    change fun s => s.setReg r (s.reg r * (indexExtend a + 1) + indexExtend b)) s

end Sys2Proof.Machine
end

