-- ==== Sys2Proof/Machine/CpuRegs.lean ====
section
/-! DEFINITION. CPU register manipulation (46_cpu_register.md). -/
namespace Sys2Proof.Machine

/-- Push the listed registers: bit n of the list is Rn, in the order of the given bit numbers (R371). -/
def saveRegs (l : Byte) : List Nat → M Unit
  | [] => return ()
  | n :: ns => do
    if l.getLsbD n then push 4 (← look fun s => s.reg (BitVec.ofNat 3 n)) else pure ()
    saveRegs l ns

/-- Pop the listed registers: bit n of the list is R(7-n), in the order of the given bit numbers (R374). -/
def restoreRegs (l : Byte) : List Nat → M Unit
  | [] => return ()
  | n :: ns => do
    if l.getLsbD n then
      let v ← pop 4
      change fun s => s.setReg (BitVec.ofNat 3 (7 - n)) v
    else pure ()
    restoreRegs l ns

/-- The bit numbers of a register list, in order (R168). -/
def listBits : List Nat := [0, 1, 2, 3, 4, 5, 6, 7]

/-- SAVE (R371). -/
def execSave (l : Byte) (s : State) : Host.Outcome State Fault Refusal :=
  performSeq (.save l) (saveRegs l listBits) s

/-- RESTORE (R374). -/
def execRestore (l : Byte) (s : State) : Host.Outcome State Fault Refusal :=
  performSeq (.restore l) (restoreRegs l listBits) s

/-- LPR and SPR of PSR and INTBASE are privileged (R372, R373). -/
def aregPrivileged : Areg → Bool
  | .psr | .intbase => true
  | _ => false

/-- Load a dedicated register from an operand of size i (R372). -/
def State.loadAreg {w : Nat} (s : State) (i : Size) (a : Areg) (v : BitVec w) : State :=
  match a with
  | .us => s.setPsrLow (v.setWidth 8)
  | .fp => { s with fp := v.setWidth 24 }
  | .sp => s.setSp (v.setWidth 24)
  | .sb => { s with sb := v.setWidth 24 }
  | .psr => if i = .b then s.setPsrLow (v.setWidth 8) else s.setPsr (v.setWidth 16)
  | .intbase => { s with intbase := v.setWidth 24 }
  | .modReg => { s with modReg := v.setWidth 16 }

/-- A dedicated register as a double-word, zero-extended (R373). -/
def State.aregValue (s : State) : Areg → DWord
  | .us => (s.psr.setWidth 8).setWidth 32
  | .fp => s.fp.setWidth 32
  | .sp => s.sp.setWidth 32
  | .sb => s.sb.setWidth 32
  | .psr => s.psr.setWidth 32
  | .intbase => s.intbase.setWidth 32
  | .modReg => s.modReg.setWidth 32

/-- The privilege check of LPR and SPR (R370). -/
def aregCheck (a : Areg) : M Unit := if aregPrivileged a then privileged else pure ()

/-- LPRi (R372). -/
def execLpri (i : Size) (a : Areg) (g : Gen) (s : State) : Host.Outcome State Fault Refusal :=
  performSeq (.lpri i a g) (do
    aregCheck a
    let v ← readGen g i.bytes
    change fun s => s.loadAreg i a v) s

/-- SPRi (R373): the value is the one before a push. -/
def execSpri (i : Size) (a : Areg) (g : Gen) (s : State) : Host.Outcome State Fault Refusal :=
  performSeq (.spri i a g) (do
    aregCheck a
    let v ← look fun s => s.aregValue a
    writePlace (← placeWrite g) i.bytes (v.setWidth _)) s

/-- ADJSPi (R375). -/
def execAdjspi (i : Size) (g : Gen) (s : State) : Host.Outcome State Fault Refusal :=
  performSeq (.adjspi i g) (do
    let v ← readGen g i.bytes
    change fun s => s.setSp (s.sp - (v.signExtend 32).setWidth 24)) s

/-- Change the PSR by an operand: the low byte for size B, all of it, privileged, else (R376, R377). -/
def psrBits (i : Size) (g : Gen) (f : Half → Half → Half) : M Unit := do
  if i = .b then
    let v ← readGen g i.bytes
    change fun s => s.setPsrLow ((f s.psr (v.setWidth 16)).setWidth 8)
  else
    privileged
    let v ← readGen g i.bytes
    change fun s => s.setPsr (f s.psr (v.setWidth 16))

/-- BISPSRi (R376). -/
def execBispsri (i : Size) (g : Gen) (s : State) : Host.Outcome State Fault Refusal :=
  performSeq (.bispsri i g) (psrBits i g fun p v => p ||| v) s

/-- BICPSRi (R377). -/
def execBicpsri (i : Size) (g : Gen) (s : State) : Host.Outcome State Fault Refusal :=
  performSeq (.bicpsri i g) (psrBits i g fun p v => p &&& ~~~v) s

/-- SETCFG (R378). -/
def execSetcfg (o : BitVec 4) (s : State) : Host.Outcome State Fault Refusal :=
  performSeq (.setcfg o) (do
    privileged
    change fun s => { s with cfg := o }) s

end Sys2Proof.Machine
end

