-- ==== Sys2Proof/Machine/Float.lean ====
section
/-!
DEFINITION. Floating values: IEEE binary32 and binary64 (47_floating_point.md R393) as exact dyadic numbers. The spec fixes
an operation's result only where operands and result are finite, normalised and exactly representable: `none` is every
other case.
-/
namespace Sys2Proof.Machine

/-- The number `num * 2^exp`. -/
structure Dyadic where
  num : Int
  exp : Int
deriving DecidableEq, Repr

/-- Fraction bits of a format (R393). -/
def fracBits : FSize → Nat
  | .f => 23
  | .l => 52

/-- Exponent bits of a format (R393). -/
def expBits : FSize → Nat
  | .f => 8
  | .l => 11

/-- Exponent bias of a format (R393). -/
def expBias : FSize → Nat
  | .f => 127
  | .l => 1023

/-- The value of a normalised bit pattern (R393); an F is in the low 32 bits. -/
def dyadicOf (t : FSize) (v : Quad) : Option Dyadic :=
  let m := fracBits t
  let k := expBits t
  let x := v.toNat
  let e := x / 2 ^ m % 2 ^ k
  let a : Nat := 2 ^ m + x % 2 ^ m
  if e = 0 ∨ e = 2 ^ k - 1 then none
  else some ⟨if x / 2 ^ (m + k) % 2 = 1 then -(a : Int) else a, (e : Int) - expBias t - m⟩

/-- The bit pattern of a number that the format represents exactly and normalised (R393). -/
def ofDyadic (t : FSize) (d : Dyadic) : Option Quad :=
  let m := fracBits t
  let a := d.num.natAbs
  let k := a.log2
  let e := d.exp + k + expBias t
  let sign : Nat := if d.num < 0 then 2 ^ (m + expBits t) else 0
  if a = 0 ∨ e < 1 ∨ (2 ^ expBits t - 1 : Int) ≤ e then none
  else if k ≤ m then some (BitVec.ofNat 64 (sign + e.toNat * 2 ^ m + (a * 2 ^ (m - k) - 2 ^ m)))
  else if a % 2 ^ (k - m) = 0 then some (BitVec.ofNat 64 (sign + e.toNat * 2 ^ m + (a / 2 ^ (k - m) - 2 ^ m)))
  else none

/-- The exact sum. -/
def Dyadic.add (x y : Dyadic) : Dyadic :=
  let e := min x.exp y.exp
  ⟨x.num * 2 ^ (x.exp - e).toNat + y.num * 2 ^ (y.exp - e).toNat, e⟩

/-- The exact negative. -/
def Dyadic.neg (x : Dyadic) : Dyadic := ⟨-x.num, x.exp⟩

/-- The exact product. -/
def Dyadic.mul (x y : Dyadic) : Dyadic := ⟨x.num * y.num, x.exp + y.exp⟩

/-- The exact quotient `y / x`, if it is a dyadic number. -/
def Dyadic.quot (y x : Dyadic) : Option Dyadic :=
  let k := x.num.natAbs.log2
  let n := y.num * 2 ^ k
  if x.num ≠ 0 ∧ n % x.num = 0 then some ⟨n / x.num, y.exp - x.exp - k⟩ else none

/-- The largest integer that is not above the number (R408). -/
def Dyadic.floor (x : Dyadic) : Int :=
  if 0 ≤ x.exp then x.num * 2 ^ x.exp.toNat else Int.fdiv x.num (2 ^ (-x.exp).toNat)

/-- The number truncated toward zero (R409). -/
def Dyadic.trunc (x : Dyadic) : Int :=
  if 0 ≤ x.exp then x.num * 2 ^ x.exp.toNat else Int.tdiv x.num (2 ^ (-x.exp).toNat)

/-- The nearest integer, a tie going to the even one (R410). -/
def Dyadic.round (x : Dyadic) : Int :=
  if 0 ≤ x.exp then x.floor
  else
    let p : Int := 2 ^ (-x.exp).toNat
    let q := x.floor
    let r := 2 * (x.num - q * p)
    if r < p then q else if p < r then q + 1 else if q % 2 = 0 then q else q + 1

/-- Two numbers rounded into the format, if that is exact. -/
def Dyadic.both (t : FSize) (x y : Quad) (f : Dyadic → Dyadic → Option Dyadic) : Option Quad := do
  let a ← dyadicOf t x
  let b ← dyadicOf t y
  let c ← f a b
  ofDyadic t c

/-- `y + x` (R400). -/
def faddExact (t : FSize) (x y : Quad) : Option Quad := Dyadic.both t x y fun a b => some (b.add a)

/-- `y - x` (R401). -/
def fsubExact (t : FSize) (x y : Quad) : Option Quad := Dyadic.both t x y fun a b => some (b.add a.neg)

/-- `y * x` (R402). -/
def fmulExact (t : FSize) (x y : Quad) : Option Quad := Dyadic.both t x y fun a b => some (b.mul a)

/-- `y / x` (R403). -/
def fdivExact (t : FSize) (x y : Quad) : Option Quad := Dyadic.both t x y fun a b => b.quot a

/-- `y * 2^trunc(x)` (R416). -/
def fscalbExact (t : FSize) (x y : Quad) : Option Quad :=
  Dyadic.both t x y fun a b => some ⟨b.num, b.exp + a.trunc⟩

/-- The status word of a comparison: Z bit 6 for y = x, N bit 7 for y < x, L clear (R397, R407). -/
def fcmpExact (t : FSize) (x y : Quad) : Option Half := do
  let a ← dyadicOf t x
  let b ← dyadicOf t y
  let d := (b.add a.neg).num
  return if d = 0 then 0x40 else if d < 0 then 0x80 else 0

/-- A conversion from one format into another that is exact, and moves: `f` is applied to the number (R404 to R406, R411,
R412). -/
def fmoveExact (t t' : FSize) (f : Dyadic → Dyadic) (x : Quad) : Option Quad := do
  let a ← dyadicOf t x
  ofDyadic t' (f a)

/-- The unbiased exponent of x as a floating value (R419). -/
def flogbExact (t : FSize) (x : Quad) : Option Quad := do
  let a ← dyadicOf t x
  ofDyadic t ⟨a.exp + a.num.natAbs.log2, 0⟩

/-- A conversion to a signed integer of `n` bytes, if it is in range (R408 to R410). -/
def ftoiExact (t : FSize) (n : Nat) (f : Dyadic → Int) (x : Quad) : Option Quad := do
  let a ← dyadicOf t x
  let y := f a
  if -(2 ^ (8 * n - 1) : Int) ≤ y ∧ y < (2 ^ (8 * n - 1) : Int) then some (BitVec.ofInt 64 y) else none

/-- `F0 * x + y` (R414): the product itself need not be representable. -/
def fpolyExact (t : FSize) (f0 x y : Quad) : Option Quad := do
  let c ← dyadicOf t y
  Dyadic.both t f0 x fun a b => some ((a.mul b).add c)

/-- `F0 + x * y` (R415): the product itself need not be representable. -/
def fdotExact (t : FSize) (f0 x y : Quad) : Option Quad := do
  let c ← dyadicOf t f0
  Dyadic.both t x y fun a b => some ((a.mul b).add c)

end Sys2Proof.Machine
end

