-- ==== Sys2Proof/Machine/Fpu.lean ====
section
/-!
DEFINITION. The floating-point instructions (47_floating_point.md): the slave protocol on the CPU side (R391 to R398), and
the FPU's answer, exact where R393 fixes it and the free value `Config.fpuExecute` elsewhere.
-/
namespace Sys2Proof.Machine

/-- One slave cycle: no address (20_memory.md R104). -/
def slaveCycle (st : BusStatus) (wr : Bool) (m : Seam) (bs : List Byte) : M Unit := do
  between m
  change fun s => s.logCycle st wr {} 0 bs

/-- Slave cycles of a byte string: words, the least significant first, a single byte alone. Other bus cycles can come
between two double-words, not inside one (R104). -/
def slaveWords (st : BusStatus) (wr : Bool) (m : Seam) : List Byte → M Unit
  | [] => return ()
  | [x] => slaveCycle st wr m [x]
  | x :: y :: r => do
    slaveCycle st wr m [x, y]
    slaveWords st wr (if m = .apart then .within else .apart) r

/-- Transfer a value to or from the slave (R104). -/
def slaveSend (st : BusStatus) (wr : Bool) (bs : List Byte) : M Unit := slaveWords st wr .apart bs

/-- The ID Byte and the Operation Word of an instruction (R391). -/
def slaveHead (i : Instr) : Byte × Half :=
  match encode i with
  | b0 :: b1 :: b2 :: _ => (b0, b2 ++ b1)
  | _ => (0, 0)

/-- Steps 1 and 2 of the protocol (R391): the ID Byte, then the Operation Word, byte-swapped. -/
def sendHead (i : Instr) : M Unit := do
  let (id, op) := slaveHead i
  slaveSend .slaveId true [id]
  slaveSend .slaveOperand true [op.extractLsb' 8 8, op.setWidth 8]

/-- A floating register as an operand of a type: of an NS32381 an F is the low half of a register (assumption 13); of an
NS32081 each type has its own view of the registers (assumption 36). -/
def State.fregValue (s : State) (r : RegNo) (t : FSize) : Quad :=
  match t with
  | .f => if s.fpu = .ns32081 then (s.fsingle r).setWidth 64 else ((s.freg r).setWidth 32).setWidth 64
  | .l => s.freg r

/-- Write a floating register. What the write leaves in the bits that the spec does not give it is taken from `qs` and
`ds`: of an NS32381 the other half of an F register (assumption 13); of an NS32081 every register of the other type, and
for an L every other L register (assumption 36). -/
def State.putFreg (s : State) (r : RegNo) (t : FSize) (v : Quad) (qs : Vector Quad 8) (ds : Vector DWord 8) : State :=
  match t with
  | .f =>
    if s.fpu = .ns32081 then { s with fregs := qs, fsingles := s.fsingles.set r.toNat (v.setWidth 32) r.isLt }
    else s.setFreg r ((qs[r.toNat]'r.isLt).extractLsb' 32 32 ++ v.setWidth 32)
  | .l =>
    if s.fpu = .ns32081 then { s with fregs := qs.set r.toNat v r.isLt, fsingles := ds }
    else s.setFreg r v

/-- An operand the CPU transfers, as the FPU takes it. -/
structure Issued where
  /-- the value -/
  value : Quad
  /-- what was transferred: nothing for a floating register (R396) -/
  sent : List Quad
deriving DecidableEq, Repr

/-- Send an operand of `n` bytes (R391 step 3). DESIGN CHOICE (assumption 44): all 8 bytes of a long operand are read
before the first of them is sent, though 20_memory.md R85 and R104 let slave cycles come between the memory cycles of its
two double-words. -/
def issue {w : Nat} (n : Nat) (v : BitVec w) : M Issued := do
  slaveSend .slaveOperand true (toBytes n v)
  return ⟨v.setWidth 64, [v.setWidth 64]⟩

/-- A floating operand of class read (R395, R396). -/
def issueFloat (t : FSize) (g : Gen) : M Issued :=
  match g with
  | .base (.reg r) => look fun s => ⟨s.fregValue r t, []⟩
  | _ => do issue t.bytes (← readGen g t.bytes)

/-- An integer operand of class read: a general register is transferred (R396). -/
def issueInt (n : Nat) (g : Gen) : M Issued := do issue n (← readGen g n)

/-- A floating operand of class rmw at its place (R395, R396). -/
def issuePlace (t : FSize) (p : Place) : M Issued :=
  match p with
  | .reg r => look fun s => ⟨s.fregValue r t, []⟩
  | _ => do issue t.bytes (← readPlace .readRmw p t.bytes)

/-- What the spec fixes of an FPU's answer; the rest is the FPU's (R393). -/
structure Fixed where
  /-- the Status Word -/
  status : Option Half
  /-- the result -/
  result : Option Quad
deriving DecidableEq, Repr

/-- A result that R393 fixes comes with a clear Status Word; where it fixes none, nothing is fixed (assumption 12). -/
def Fixed.of (x : Option Quad) : Fixed := ⟨x.map fun _ => 0, x⟩

/-- The bits of a Status Word that can be set: Q, L, Z, N (R397); L is always 0 in a comparison (R407). -/
def statusMask : Instr → Half
  | .cmpf _ _ _ => 0x00C1
  | _ => 0x00C5

/-- The FPU's answer to a request: what State lists next, a free value when it lists none (R393, assumption 12). -/
def fpuReply (q : FpuRequest) : M FpuReply := do
  match ← look State.fpuReplies with
  | r :: rs =>
    change fun s => { s with fpuReplies := rs }
    return r
  | [] =>
    let r ← look fun s => Config.fpuExecute s.draws q
    change fun s => { s with draws := s.draws + 1 }
    return r

/-- The FPU runs the instruction (R391 steps 4 to 6): its status word and its result, as the spec fixes them or as the FPU
answers. Without an FPU the CPU waits (R392) until RSTI becomes active (70_reset_and_hazards.md R571). Q in the status
word is Trap(SLAVE) (R398). -/
def slaveRun (i : Instr) (sent : List Quad) (fixed : State → Fixed) : M (Half × Quad) := do
  let s ← look id
  if s.fpu = .absent then abort (if s.resetIn.isSome then .reset else .fault .stuckOnSlave)
  else
    let (ident, op) := slaveHead i
    let reply ← fpuReply ⟨s.fpu, ident, op, sent, s.fregs, s.fsingles, s.fsr⟩
    change fun s => { s with fsr := reply.fsr }
    let status := (fixed s).status.getD reply.status &&& statusMask i
    slaveSend .slaveStatus false (toBytes 2 status)
    if status.getLsbD 0 then abort (.trap .slave)
    else return (status, (fixed s).result.getD reply.result)

/-- A floating register is written; what the spec leaves open of the registers is free (assumptions 13 and 36). -/
def writeFreg (r : RegNo) (t : FSize) (v : Quad) : M Unit :=
  change fun s =>
    { s.putFreg r t v (Vector.ofFn fun k => Config.freeBits (s.draws + k.val))
        (Vector.ofFn fun k => (Config.freeBits (s.draws + 8 + k.val)).setWidth 32) with draws := s.draws + 16 }

/-- A floating result goes to its destination (R391 step 7, R396). DESIGN CHOICE (assumption 44): all 8 bytes of a long
result are read from the slave before the first of them is stored. -/
def storeFloat (t : FSize) (p : Place) (v : Quad) : M Unit :=
  match p with
  | .reg r => writeFreg r t v
  | _ => do
    slaveSend .slaveOperand false (toBytes t.bytes v)
    writePlace p t.bytes (v.setWidth _)

/-- An integer result goes to its destination (R391 step 7, R396). -/
def storeInt (n : Nat) (p : Place) (v : Quad) : M Unit := do
  slaveSend .slaveOperand false (toBytes n v)
  writePlace p n (v.setWidth _)

/-- An instruction with `src` of class read.f and `dst` of class rmw.f (R395). DESIGN CHOICE (assumption 44): the reads of
pointers for the addressing modes (status 1100) come after the ID Byte and the Operation Word, those of `dst` after
operand 1 is sent, here and in the other instructions; R391 does not say where. -/
def floatRmw (i : Instr) (t : FSize) (src dst : Gen) (f : Quad → Quad → Option Quad) : M Unit := do
  sendHead i
  let x ← issueFloat t src
  let p ← placeRmw dst
  let y ← issuePlace t p
  let (_, v) ← slaveRun i (x.sent ++ y.sent) fun _ => .of (f x.value y.value)
  storeFloat t p v

/-- An instruction with `src` of class read.f and `dst` of class write.f (R395). -/
def floatMove (i : Instr) (t t' : FSize) (src dst : Gen) (f : Quad → Fixed) : M Unit := do
  sendHead i
  let x ← issueFloat t src
  let p ← placeWrite dst
  let (_, v) ← slaveRun i x.sent fun _ => f x.value
  storeFloat t' p v

/-- An instruction with `src` of class read.f and `dst` of class write.i (R395). -/
def floatToInt (i : Instr) (t : FSize) (n : Nat) (src dst : Gen) (f : Dyadic → Int) : M Unit := do
  sendHead i
  let x ← issueFloat t src
  let p ← placeWrite dst
  let (_, v) ← slaveRun i x.sent fun _ => .of (ftoiExact t n f x.value)
  storeInt n p v

/-- Format 12 needs an NS32381 (R394). -/
def needs381 : M Unit := do
  if ← look fun s => decide (s.fpu = .ns32081) then abort (.refused .format12OnNs32081) else pure ()

/-- POLY and DOT: both operands of class read.f, the result to F0 (R395). -/
def floatToF0 (i : Instr) (t : FSize) (g1 g2 : Gen) (f : Quad → Quad → Quad → Option Quad) : M Unit := do
  needs381
  sendHead i
  let x ← issueFloat t g1
  let y ← issueFloat t g2
  let (_, v) ← slaveRun i (x.sent ++ y.sent) fun s => .of (f (s.fregValue 0 t) x.value y.value)
  writeFreg 0 t v

/-- ADDf (R400). -/
def execAddf (t : FSize) (src dst : Gen) (s : State) : Host.Outcome State Fault Refusal :=
  performFpu (.addf t src dst) (floatRmw (.addf t src dst) t src dst (faddExact t)) s

/-- SUBf (R401). -/
def execSubf (t : FSize) (src dst : Gen) (s : State) : Host.Outcome State Fault Refusal :=
  performFpu (.subf t src dst) (floatRmw (.subf t src dst) t src dst (fsubExact t)) s

/-- MULf (R402). -/
def execMulf (t : FSize) (src dst : Gen) (s : State) : Host.Outcome State Fault Refusal :=
  performFpu (.mulf t src dst) (floatRmw (.mulf t src dst) t src dst (fmulExact t)) s

/-- DIVf (R403). -/
def execDivf (t : FSize) (src dst : Gen) (s : State) : Host.Outcome State Fault Refusal :=
  performFpu (.divf t src dst) (floatRmw (.divf t src dst) t src dst (fdivExact t)) s

/-- MOVf (R404): the bit pattern is copied, whatever it is; the FPU may still report an error for one that is not
normalised (R398). -/
def execMovf (t : FSize) (src dst : Gen) (s : State) : Host.Outcome State Fault Refusal :=
  performFpu (.movf t src dst) (floatMove (.movf t src dst) t t src dst fun x => ⟨(dyadicOf t x).map fun _ => 0, some x⟩) s

/-- ABSf (R405). -/
def execAbsf (t : FSize) (src dst : Gen) (s : State) : Host.Outcome State Fault Refusal :=
  performFpu (.absf t src dst)
    (floatMove (.absf t src dst) t t src dst fun x => .of (fmoveExact t t (fun d => ⟨d.num.natAbs, d.exp⟩) x)) s

/-- NEGf (R406). -/
def execNegf (t : FSize) (src dst : Gen) (s : State) : Host.Outcome State Fault Refusal :=
  performFpu (.negf t src dst) (floatMove (.negf t src dst) t t src dst fun x => .of (fmoveExact t t Dyadic.neg x)) s

/-- CMPf (R407): N, Z, L are loaded from the status word. -/
def execCmpf (t : FSize) (src1 src2 : Gen) (s : State) : Host.Outcome State Fault Refusal :=
  performFpu (.cmpf t src1 src2) (do
    sendHead (.cmpf t src1 src2)
    let x ← issueFloat t src1
    let y ← issueFloat t src2
    let (st, _) ← slaveRun (.cmpf t src1 src2) (x.sent ++ y.sent) fun _ =>
      ⟨fcmpExact t x.value y.value, none⟩
    change fun s => ((s.putFlag .n (st.getLsbD 7)).putFlag .z (st.getLsbD 6)).putFlag .l (st.getLsbD 2)) s

/-- FLOORfi (R408). -/
def execFloorfi (t : FSize) (i : Size) (src dst : Gen) (s : State) : Host.Outcome State Fault Refusal :=
  performFpu (.floorfi t i src dst) (floatToInt (.floorfi t i src dst) t i.bytes src dst Dyadic.floor) s

/-- TRUNCfi (R409). -/
def execTruncfi (t : FSize) (i : Size) (src dst : Gen) (s : State) : Host.Outcome State Fault Refusal :=
  performFpu (.truncfi t i src dst) (floatToInt (.truncfi t i src dst) t i.bytes src dst Dyadic.trunc) s

/-- ROUNDfi (R410). -/
def execRoundfi (t : FSize) (i : Size) (src dst : Gen) (s : State) : Host.Outcome State Fault Refusal :=
  performFpu (.roundfi t i src dst) (floatToInt (.roundfi t i src dst) t i.bytes src dst Dyadic.round) s

/-- MOVFL (R411). -/
def execMovfl (src dst : Gen) (s : State) : Host.Outcome State Fault Refusal :=
  performFpu (.movfl src dst) (floatMove (.movfl src dst) .f .l src dst fun x => .of (fmoveExact .f .l id x)) s

/-- MOVLF (R412). -/
def execMovlf (src dst : Gen) (s : State) : Host.Outcome State Fault Refusal :=
  performFpu (.movlf src dst) (floatMove (.movlf src dst) .l .f src dst fun x => .of (fmoveExact .l .f id x)) s

/-- MOVif (R413). -/
def execMovif (i : Size) (t : FSize) (src dst : Gen) (s : State) : Host.Outcome State Fault Refusal :=
  performFpu (.movif i t src dst) (do
    sendHead (.movif i t src dst)
    let a ← readGen src i.bytes
    let x ← issue i.bytes a
    let p ← placeWrite dst
    let (_, v) ← slaveRun (.movif i t src dst) x.sent fun _ => .of (ofDyadic t ⟨a.toInt, 0⟩)
    storeFloat t p v) s

/-- POLYf (R414). -/
def execPolyf (t : FSize) (src1 src2 : Gen) (s : State) : Host.Outcome State Fault Refusal :=
  performFpu (.polyf t src1 src2) (floatToF0 (.polyf t src1 src2) t src1 src2 (fpolyExact t)) s

/-- DOTf (R415). -/
def execDotf (t : FSize) (src1 src2 : Gen) (s : State) : Host.Outcome State Fault Refusal :=
  performFpu (.dotf t src1 src2) (floatToF0 (.dotf t src1 src2) t src1 src2 (fdotExact t)) s

/-- SCALBf (R416). -/
def execScalbf (t : FSize) (src dst : Gen) (s : State) : Host.Outcome State Fault Refusal :=
  performFpu (.scalbf t src dst) (do
    needs381
    floatRmw (.scalbf t src dst) t src dst (fscalbExact t)) s

/-- LOGBf (R419). -/
def execLogbf (t : FSize) (src dst : Gen) (s : State) : Host.Outcome State Fault Refusal :=
  performFpu (.logbf t src dst) (do
    needs381
    floatMove (.logbf t src dst) t t src dst fun x => .of (flogbExact t x)) s

/-- LFSR (R417): the FPU loads its FSR, unless it reports an error (R398). -/
def execLfsr (src : Gen) (s : State) : Host.Outcome State Fault Refusal :=
  performFpu (.lfsr src) (do
    sendHead (.lfsr src)
    let x ← issueInt 4 src
    let _ ← slaveRun (.lfsr src) x.sent fun _ => ⟨none, none⟩
    change fun s => { s with fsr := x.value.setWidth 32 }) s

/-- SFSR (R418): the CPU reads the FSR, unless the FPU reports an error (R398). -/
def execSfsr (dst : Gen) (s : State) : Host.Outcome State Fault Refusal :=
  performFpu (.sfsr dst) (do
    sendHead (.sfsr dst)
    let p ← placeWrite dst
    let old ← look fun s => s.fsr
    let (_, v) ← slaveRun (.sfsr dst) [] fun s => ⟨none, some (s.fsr.setWidth 64)⟩
    change fun s => { s with fsr := old }
    storeInt 4 p v) s

end Sys2Proof.Machine
end

