-- ==== Sys2Proof/Machine/Strings.lean ====
section
/-! DEFINITION. The string instructions (44_strings.md). -/
namespace Sys2Proof.Machine

/-- The low 24 bits of a general register, as an address (R310). -/
def State.ptr (s : State) (r : RegNo) : Addr := (s.reg r).setWidth 24

/-- Add to a general register, modulo 2^32. -/
def State.addReg (s : State) (r : RegNo) (v : DWord) : State := s.setReg r (s.reg r + v)

/-- The step of a string pointer: option B decrements (R310). -/
def strStep (n : Nat) (o : StrOpts) : DWord := if o.backward then -(BitVec.ofNat 32 n) else BitVec.ofNat 32 n

/-- A String 1 element; with option T the byte is translated through the table at R3 (R310). -/
def strElement (n : Nat) (t : Bool) : M (BitVec (8 * n)) := do
  let v ← readMem .data (← look fun s => s.ptr 1) n
  if t then
    let x ← readMem .data (← look fun s => (s.reg 3 + v.setWidth 32).setWidth 24) 1
    return x.setWidth _
  else return v

/-- Whether option U or W ends the instruction at an element (R310). -/
def strEnds {w : Nat} (o : StrOpts) (v key : BitVec w) : Bool :=
  match o.test with
  | .none => false
  | .until => v == key
  | .while => v != key

/-- One pass of the loop of R310. `body` handles the element and says whether it ends the instruction; `two` says
whether String 2 is used. -/
def strPass (n : Nat) (t : Bool) (o : StrOpts) (two : Bool) (body : BitVec (8 * n) → M Bool) : M Bool := do
  let v ← strElement n t
  let key ← look fun s => (s.reg 4).setWidth (8 * n)
  if strEnds o v key then
    change fun s => s.putFlag .f true
    return true
  else if ← body v then return true
  else
    change fun s =>
      let s := s.addReg 1 (strStep n o)
      let s := if two then s.addReg 2 (strStep n o) else s
      s.addReg 0 (-1)
    return false

/-- The limit count has run out. -/
def countDone (s : State) : Bool := s.reg 0 == 0

/-- The suspension of a string instruction clears P (60_exceptions.md R515 step 1a, D52). -/
def leaveString (s : State) : State := s.putFlag .p false

/-- A string instruction from its start: `start` sets the flags, then the passes (R310, R317). -/
def strRun (i : Instr) (n : Nat) (t : Bool) (o : StrOpts) (two : Bool) (start : State → State)
    (body : BitVec (8 * n) → M Bool) : M Unit := do
  change start
  let count ← look fun s => (s.reg 0).toNat
  interruptible i leaveString 0 count countDone (strPass n t o two body) (return ())

/-- F is cleared at the start (R310). -/
def clearF (s : State) : State := s.putFlag .f false

/-- The body of MOVS: store the element in String 2 (R311). -/
def movsBody (n : Nat) (v : BitVec (8 * n)) : M Bool := do
  writeMem (← look fun s => s.ptr 2) n v
  return false

/-- The body of CMPS: a difference sets the flags and ends the instruction (R313). -/
def cmpsBody (n : Nat) (v : BitVec (8 * n)) : M Bool := do
  let w ← readMem .data (← look fun s => s.ptr 2) n
  if v = w then return false
  else
    change fun s => s.putCompare v w
    return true

/-- The body of SKPS: nothing (R315). -/
def skpsBody (n : Nat) (_ : BitVec (8 * n)) : M Bool := return false

/-- MOVSi (R311). -/
def execMovsi (i : Size) (o : StrOpts) (s : State) : Host.Outcome State Fault Refusal :=
  perform (.movsi i o) (strRun (.movsi i o) i.bytes false o true clearF (movsBody i.bytes)) s

/-- MOVST (R312). -/
def execMovst (o : StrOpts) (s : State) : Host.Outcome State Fault Refusal :=
  perform (.movst o) (strRun (.movst o) 1 true o true clearF (movsBody 1)) s

/-- CMPSi (R313). -/
def execCmpsi (i : Size) (o : StrOpts) (s : State) : Host.Outcome State Fault Refusal :=
  perform (.cmpsi i o) (strRun (.cmpsi i o) i.bytes false o true (fun s => (clearF s).putEqual) (cmpsBody i.bytes)) s

/-- CMPST (R314). -/
def execCmpst (o : StrOpts) (s : State) : Host.Outcome State Fault Refusal :=
  perform (.cmpst o) (strRun (.cmpst o) 1 true o true (fun s => (clearF s).putEqual) (cmpsBody 1)) s

/-- SKPSi (R315). -/
def execSkpsi (i : Size) (o : StrOpts) (s : State) : Host.Outcome State Fault Refusal :=
  perform (.skpsi i o) (strRun (.skpsi i o) i.bytes false o false clearF (skpsBody i.bytes)) s

/-- SKPST (R316). -/
def execSkpst (o : StrOpts) (s : State) : Host.Outcome State Fault Refusal :=
  perform (.skpst o) (strRun (.skpst o) 1 true o false clearF (skpsBody 1)) s

end Sys2Proof.Machine
end

