-- ==== Sys2Proof/Machine/Graphics.lean ====
section
/-! DEFINITION. The graphics instructions (49_graphics.md). -/
namespace Sys2Proof.Machine

/-! ## BB instructions (R444 to R451) -/

/-- The functions of the BB instructions (R444). -/
inductive BbFun where
  | or | and | xor | stod
deriving DecidableEq, Repr

/-- The new destination double-word from the old one, the aligned source and the aligned mask (R445). -/
def bbCombine (f : BbFun) (d v mm : DWord) : DWord :=
  match f with
  | .or => d ||| v
  | .xor => d ^^^ v
  | .and => d &&& (v ||| ~~~mm)
  | .stod => (d &&& ~~~mm) ||| v

/-- The mask of a word of a scan line (R445): the first mask for the first word, the second for the last. -/
def bbMask (s : State) (first last : Bool) : Half :=
  (if first then (s.reg 4).setWidth 16 else 0xFFFF) &&& (if last then (s.reg 5).setWidth 16 else 0xFFFF)

/-- The width of a BB instruction from the double-word at 0(SP). One of 2^16 or more, where it is not refused, is read as
the free value `bbWidthIsLong` says (R445, assumption 19). -/
def bbWidth (w : DWord) : Nat :=
  if w.toNat < 2 ^ 16 then w.toNat else if Config.bbWidthIsLong then w.toNat else (w.setWidth 16).toNat

/-- The result of combining a source word into a destination double-word. For a shift above 15, where it is not refused,
it is a free value (R445, D17, assumption 19). -/
def bbResult (f : BbFun) (sh d : DWord) (x m : Half) : M DWord :=
  if sh.toNat ≤ 15 then
    return bbCombine f d ((x &&& m).setWidth 32 <<< sh.toNat) (m.setWidth 32 <<< sh.toNat)
  else drawBits 32

/-- One word of a scan line (R445). -/
def bbWord (f : BbFun) (o : BbOpts) (first last : Bool) : M Unit := do
  let x : Half ← readMem .data (← look fun s => s.ptr 0) 2
  let x := if o.inverted then ~~~x else x
  let m ← look fun s => bbMask s first last
  let a ← look fun s => s.ptr 1
  let d ← readMem .readRmw a 4
  let d' ← bbResult f (← look fun s => s.reg 2) d x m
  writeMem a 4 d'
  let step : DWord := if o.decreasing then -2 else 2
  change fun s => (s.addReg 0 step).addReg 1 step

/-- The remaining `k` of the `width` words of a scan line (R445). -/
def bbLine (f : BbFun) (o : BbOpts) (width : Nat) : Nat → M Unit
  | 0 => return ()
  | k + 1 => do
    bbWord f o (k + 1 = width) (k = 0)
    bbLine f o width k

/-- A scan line with the step to the next one (R445). -/
def bbPass (f : BbFun) (o : BbOpts) (width : Nat) : M Bool := do
  bbLine f o width width
  change fun s => ((s.addReg 0 (s.reg 6)).addReg 1 (s.reg 7)).addReg 3 (-1)
  return false

/-- A shift above 15 or a width of 2^16 or more is refused, unless operandPolicy lets it run (R445, R452, R597, D17;
assumption 19). BITWT has no width, which is 0 here. -/
def bbInRange (width : DWord) : M Unit := do
  if ← look fun s => 15 < (s.reg 2).toNat || 2 ^ 16 ≤ width.toNat then refusable .bbRange else pure ()

/-- A BB instruction (R445): refused with K or J set (R446, assumption 22); it leaves K and J clear.
An interrupt suspends it between scan lines only, where both are clear (R446). -/
def bbRun (i : Instr) (f : BbFun) (o : BbOpts) : M Unit := do
  if ← look fun s => s.flag .k || s.flag .j then abort (.refused .bbStateBits)
  else
    let w ← readMem .data (← look State.sp) 4
    bbInRange w
    let width := bbWidth w
    if width = 0 then change fun s => s.setReg 3 0 else pure ()
    let count ← look fun s => (s.reg 3).toNat
    interruptible i id 1 count (fun s => s.reg 3 == 0) (bbPass f o width)
      (change fun s => (s.putFlag .k false).putFlag .j false)

/-- BBOR (R447). -/
def execBbor (o : BbOpts) (s : State) : Host.Outcome State Fault Refusal :=
  perform (.bbor o) (bbRun (.bbor o) .or o) s

/-- BBAND (R448). -/
def execBband (o : BbOpts) (s : State) : Host.Outcome State Fault Refusal :=
  perform (.bband o) (bbRun (.bband o) .and o) s

/-- BBXOR (R449). -/
def execBbxor (o : BbOpts) (s : State) : Host.Outcome State Fault Refusal :=
  perform (.bbxor o) (bbRun (.bbxor o) .xor o) s

/-- BBFOR (R450): BBOR with the options IA and S. -/
def execBbfor (s : State) : Host.Outcome State Fault Refusal :=
  perform .bbfor (bbRun .bbfor .or ⟨false, false⟩) s

/-- BBSTOD (R451). -/
def execBbstod (o : BbOpts) (s : State) : Host.Outcome State Fault Refusal :=
  perform (.bbstod o) (bbRun (.bbstod o) .stod o) s

/-- BITWT (R452): a shift above 15 is refused as those of the BB instructions are (assumption 19). DESIGN CHOICE (assumption 30): the source
word is read before the destination double-word; the spec gives no order. -/
def execBitwt (s : State) : Host.Outcome State Fault Refusal :=
  performSeq .bitwt (do
    bbInRange 0
    let x : Half ← readMem .data (← look fun s => s.ptr 0) 2
    let a ← look fun s => s.ptr 1
    let d ← readMem .readRmw a 4
    let d' ← bbResult .or (← look fun s => s.reg 2) d x 0xFFFF
    writeMem a 4 d'
    change fun s => (s.addReg 0 2).addReg 1 2) s

/-! ## EXTBLT (R453 to R456) -/

/-- An increment that R454 defines: +2 or -2. -/
def extStepOk (s : State) : Bool := s.reg 4 == 2 || s.reg 4 == -2

/-- The words of a scan line (R454): the width in bytes by two, rounded up. For an increment that is not +2 or -2, where it
is not refused, they are a free value (assumption 16). -/
def extWords (s : State) : Nat :=
  if extStepOk s then (((s.reg 2).toInt + 1) / 2).toNat
  else Config.extbltWords (s.reg 2) (s.reg 4)

/-- A word that EXTBLT reads for the BPU: the BPU pin is active (R454, R456). -/
def extRead (a : Addr) : M Unit := do
  let _ ← readMem .data a 2 { bpu := true }
  return ()

/-- The word that EXTBLT stores: the BPU drives it. Without a BPU, where EXTBLT is not refused, it is a free value,
whatever floats on the bus (R454, D18, assumption 15). -/
def extWord : M Half := do
  match ← look State.bpu with
  | .absent => drawBits 16
  | .attached => look fun s => Config.bpuData s.bus

/-- A word that EXTBLT stores (R454). -/
def extWrite (a : Addr) : M Unit := do
  writeMem a 2 (← extWord) { bpu := true }

/-- The words of a scan line (R454): a source read, a destination read, and a write. -/
def extLine : Nat → M Unit
  | 0 => return ()
  | k + 1 => do
    extRead (← look fun s => s.ptr 0)
    extRead (← look fun s => s.ptr 1)
    extWrite (← look fun s => s.ptr 1)
    change fun s => ((s.addReg 0 (s.reg 4)).addReg 1 (s.reg 4)).addReg 5 (-2)
    extLine k

/-- A scan line of EXTBLT with the step to the next one (R454, R455). -/
def extPass : M Bool := do
  change fun s => s.setReg 5 (s.reg 2)
  if ← look fun s => s.flag .l then pure ()
  else
    extRead (← look fun s => s.ptr 0)
    change fun s => s.addReg 0 (s.reg 4)
  extLine (← look extWords)
  change fun s => ((s.addReg 0 (s.reg 6)).addReg 1 (s.reg 7)).addReg 3 (-1)
  return false

/-- EXTBLT is refused without a BPU, or with an R4 other than +2 and -2, unless operandPolicy lets it run (R454, D18;
assumptions 15 and 16). -/
def extDefined : M Unit := do
  if ← look fun s => s.bpu == .absent then refusable .bpuAbsent else pure ()
  if ← look extStepOk then pure () else refusable .extbltStep

/-- EXTBLT (R454): B is set while it runs; an interrupt suspends it between scan lines only; R2 and R5 end as free values (D18, assumption 15). -/
def execExtblt (s : State) : Host.Outcome State Fault Refusal :=
  perform .extblt (do
    extDefined
    change fun s => s.putFlag .b true
    let count ← look fun s => (s.reg 3).toNat
    interruptible .extblt id 1 count (fun s => s.reg 3 == 0) extPass (do
      let x ← drawBits 32
      let y ← drawBits 32
      change fun s => ((s.putFlag .b false).setReg 2 x).setReg 5 y)) s

/-! ## MOVMP, TBITS, SBITS, SBITPS -/

/-- One store of MOVMP (R460). -/
def movmpPass (n : Nat) : M Bool := do
  writeMem (← look fun s => s.ptr 0) n (← look fun s => s.reg 3)
  change fun s => (s.addReg 0 (s.reg 1)).addReg 2 (-1)
  return false

/-- MOVMPi (R460): an interrupt suspends it between stores. -/
def execMovmpi (i : Size) (s : State) : Host.Outcome State Fault Refusal :=
  perform (.movmpi i) (do
    let count ← look fun s => (s.reg 2).toNat
    interruptible (.movmpi i) id 1 count (fun s => s.reg 2 == 0) (movmpPass i.bytes) (return ())) s

/-- `a >= b` of two bit offsets: where a sign bit is set, `tbitsSigned` decides how they compare (R465, assumption 20). -/
def offsetGe (a b : DWord) : Bool :=
  if a.msb || b.msb then if Config.tbitsSigned then b.sle a else b.ule a else b.ule a

/-- The byte of a bit offset of TBITS: where the sign bit is set, `tbitsSigned` decides (R465, assumption 20). -/
def offsetByte (a : DWord) : DWord :=
  if a.msb then if Config.tbitsSigned then a.sshiftRight 3 else a >>> 3 else a >>> 3

/-- The run length of TBITS is at its limit (R465). -/
def tbitsFull (s : State) : Bool := s.reg 2 == s.reg 3

/-- The offset of TBITS is at its limit (R465). -/
def tbitsPast (s : State) : Bool := offsetGe (s.reg 1) (s.reg 4)

/-- A limit ends TBITS: no further bit is tested, and no interrupt suspends it here, which is not between bits (R465). -/
def tbitsAtLimit (s : State) : Bool := tbitsFull s || tbitsPast s

/-- One bit of TBITS, below both limits (R465): answers whether it is the desired bit, which ends the instruction. -/
def tbitsPass (o : Bool) : M Bool := do
  let y ← readMem .data (← look fun s => (s.reg 0 + offsetByte (s.reg 1)).setWidth 24) 1
  let x ← look fun s => y.getLsbD ((s.reg 1).setWidth 3).toNat
  change fun s => s.putFlag .f x
  if x ≠ o then
    change fun s => s.putFlag .l true
    return true
  else
    change fun s => (s.addReg 1 1).addReg 2 1
    return false

/-- The end of TBITS at a limit (R465): at both of them L is a free value (D20). The desired bit ends it below both, and
has set L. -/
def tbitsEnd : M Unit := do
  let past ← look tbitsPast
  if ← look tbitsFull then
    let l ← if past then drawBool else pure true
    change fun s => s.putFlag .l l
  else if past then change fun s => s.putFlag .l false
  else pure ()

/-- The largest number of bits TBITS can test: it meets its offset limit within 2^32 steps. -/
def tbitsBound : Nat := 2 ^ 32

/-- The mark that a TBITS suspended here and now has (R465). -/
def State.tbitsMark (s : State) : TbitsMark := ⟨s.pc, s.reg 1, s.reg 2⟩

/-- The TBITS at PC is entered for the first time: it is none that an interrupt has suspended. DESIGN CHOICE (assumption
20): a suspended one is known by its address, its offset and its run length. -/
def State.entersTbits (s : State) : Bool := !s.heldTbits.contains s.tbitsMark

/-- The suspension of TBITS is marked (R465, assumption 20). -/
def leaveTbits (s : State) : State := { s with heldTbits := s.tbitsMark :: s.heldTbits }

/-- The mark of a suspended TBITS is taken away when it is entered again (R465, assumption 20). -/
def resumeTbits (s : State) : State := { s with heldTbits := s.heldTbits.erase s.tbitsMark }

/-- TBITS is refused at its first entry with an R2 that is not zero, and with bit 31 of R1 or R4 set, unless operandPolicy
lets it run (R465, D20; assumption 20). -/
def tbitsDefined (first : Bool) : M Unit := do
  if ← look fun s => (first && s.reg 2 != 0) || (s.reg 1).msb || (s.reg 4).msb then refusable .tbitsEntry else pure ()

/-- TBITS (R465). A first entry with an R2 that is not zero, where it is not refused, adds to it or clears it first, as
`tbitsAccumulates` says; a TBITS that goes on after an interrupt adds to it. An interrupt suspends it between bits. DESIGN CHOICE (assumption 20): where R1 is
not below R4 at entry, TBITS leaves R2 as it finds it, whatever `tbitsAccumulates` says. -/
def execTbits (o : Bool) (s : State) : Host.Outcome State Fault Refusal :=
  perform (.tbits o) (do
    let first ← look State.entersTbits
    tbitsDefined first
    change resumeTbits
    if ← look tbitsPast then
      change fun s => (s.putFlag .f o).putFlag .l false
      advance (.tbits o)
    else
      change fun s => s.putFlag .f o
      if first && !Config.tbitsAccumulates then change fun s => s.setReg 2 0 else pure ()
      interruptible (.tbits o) leaveTbits 1 tbitsBound tbitsAtLimit (tbitsPass o) tbitsEnd) s

/-- SBITS (R470). -/
def execSbits (s : State) : Host.Outcome State Fault Refusal :=
  performSeq .sbits (do
    if ← look fun s => (25 : DWord).ult (s.reg 2) then
      change fun s => s.putFlag .f true
    else
      change fun s => s.putFlag .f false
      let (a, k) ← look fun s => bitAddr (s.reg 0) (s.reg 1)
      let m ← readMem .data (← look fun s => (s.reg 3 + 4 * (s.reg 2 + BitVec.ofNat 32 (32 * k))).setWidth 24) 4
      let d ← readMem .readRmw a 4
      writeMem a 4 (d ||| m)) s

/-- One bit of SBITPS (R475). -/
def sbitpsPass : M Bool := do
  let (a, k) ← look fun s => bitAddr (s.reg 0) (s.reg 1)
  let y ← readMem .readRmw a 1
  writeMem a 1 (putBit y k true)
  change fun s => (s.addReg 1 (s.reg 3)).addReg 2 (-1)
  return false

/-- SBITPS (R475): an interrupt suspends it between bits. -/
def execSbitps (s : State) : Host.Outcome State Fault Refusal :=
  perform .sbitps (do
    let count ← look fun s => (s.reg 2).toNat
    interruptible .sbitps id 1 count (fun s => s.reg 2 == 0) sbitpsPass (return ())) s

end Sys2Proof.Machine
end

