-- ==== Sys2Proof/Machine/Integer.lean ====
section
/-! DEFINITION. Integer arithmetic and packed decimal (41_integer_arithmetic.md). -/
namespace Sys2Proof.Machine

/-- Write C and F and answer the result (R221, R222). -/
def arith {w : Nat} (r : Arith w) : M (BitVec w) := do
  change fun s => s.putCF r.carry r.overflow
  return r.result

/-- ADDi (R222). -/
def execAddi (i : Size) (src dst : Gen) (s : State) : Host.Outcome State Fault Refusal :=
  performSeq (.addi i src dst) (binaryOp i.bytes i.bytes src dst fun a b => arith (addC b a false)) s

/-- ADDQi (R223). -/
def execAddqi (i : Size) (q : BitVec 4) (g : Gen) (s : State) : Host.Outcome State Fault Refusal :=
  performSeq (.addqi i q g) (rmwOp i.bytes g fun b => arith (addC b (q.signExtend _) false)) s

/-- ADDCi (R224). -/
def execAddci (i : Size) (src dst : Gen) (s : State) : Host.Outcome State Fault Refusal :=
  performSeq (.addci i src dst) (binaryOp i.bytes i.bytes src dst fun a b => do
    arith (addC b a (← look fun s => s.flag .c))) s

/-- SUBi (R225). -/
def execSubi (i : Size) (src dst : Gen) (s : State) : Host.Outcome State Fault Refusal :=
  performSeq (.subi i src dst) (binaryOp i.bytes i.bytes src dst fun a b => arith (subC b a false)) s

/-- SUBCi (R226). -/
def execSubci (i : Size) (src dst : Gen) (s : State) : Host.Outcome State Fault Refusal :=
  performSeq (.subci i src dst) (binaryOp i.bytes i.bytes src dst fun a b => do
    arith (subC b a (← look fun s => s.flag .c))) s

/-- NEGi (R227). -/
def execNegi (i : Size) (src dst : Gen) (s : State) : Host.Outcome State Fault Refusal :=
  performSeq (.negi i src dst) (moveOp i.bytes i.bytes src dst fun a => arith (subC 0 a false)) s

/-- ABSi (R228): F is set for the most negative number. -/
def execAbsi (i : Size) (src dst : Gen) (s : State) : Host.Outcome State Fault Refusal :=
  performSeq (.absi i src dst) (moveOp i.bytes i.bytes src dst fun a => do
    change fun s => s.putFlag .f (a == BitVec.intMin _)
    return if a.slt 0 then -a else a) s

/-- MULi (R229). -/
def execMuli (i : Size) (src dst : Gen) (s : State) : Host.Outcome State Fault Refusal :=
  performSeq (.muli i src dst) (binaryOp i.bytes i.bytes src dst fun a b => return b * a) s

/-- The dividend `b` by the divisor `a`, by an exact integer operation (R230 to R235): Trap(DVZ) for a zero divisor; a
free value for the most negative number by -1 (D12, assumption 23). -/
def divide {w : Nat} (op : Int → Int → Int) (a b : BitVec w) : M (BitVec w) :=
  if a = 0 then abort (.trap .dvz)
  else if b = BitVec.intMin w ∧ a = BitVec.allOnes w then drawBits w
  else return BitVec.ofInt w (op b.toInt a.toInt)

/-- QUOi (R230): rounding toward zero. -/
def execQuoi (i : Size) (src dst : Gen) (s : State) : Host.Outcome State Fault Refusal :=
  performSeq (.quoi i src dst) (binaryOp i.bytes i.bytes src dst (divide Int.tdiv)) s

/-- REMi (R231): the remainder of QUO. -/
def execRemi (i : Size) (src dst : Gen) (s : State) : Host.Outcome State Fault Refusal :=
  performSeq (.remi i src dst) (binaryOp i.bytes i.bytes src dst (divide Int.tmod)) s

/-- DIVi (R232): rounding down. -/
def execDivi (i : Size) (src dst : Gen) (s : State) : Host.Outcome State Fault Refusal :=
  performSeq (.divi i src dst) (binaryOp i.bytes i.bytes src dst (divide Int.fdiv)) s

/-- MODi (R235): the remainder of DIV. -/
def execModi (i : Size) (src dst : Gen) (s : State) : Host.Outcome State Fault Refusal :=
  performSeq (.modi i src dst) (binaryOp i.bytes i.bytes src dst (divide Int.fmod)) s

/-- The two halves of the product of MEI (R233). -/
def extendedProduct {w : Nat} (a b : BitVec w) : BitVec w × BitVec w :=
  let p := a.toNat * b.toNat
  (BitVec.ofNat w p, BitVec.ofNat w (p / 2 ^ w))

/-- MEIi (R233): only the low half of the destination is read; in memory the high half is written first (20_memory.md
R88). -/
def execMeii (i : Size) (src dst : Gen) (s : State) : Host.Outcome State Fault Refusal :=
  performSeq (.meii i src dst) (do
    let n := i.bytes
    let a ← readGen src n
    let p ← placeRmw dst
    let b ← readPlace .readRmw p n
    let (lo, hi) := extendedProduct a b
    match p with
    | .reg r =>
      change fun s => (s.setRegLow (r + 1) hi).setRegLow r lo
    | .mem e =>
      writeMem (e + BitVec.ofNat 24 n) n hi
      writeMem e n lo
    | .push => return ()) s

/-- The remainder and the quotient of DEI from the dividend `d` (R234): Trap(DVZ) for a zero divisor; free values for a
quotient that does not fit (D13, assumption 23). -/
def extendedDivide {w : Nat} (a : BitVec w) (d : Nat) : M (BitVec w × BitVec w) :=
  if a = 0 then abort (.trap .dvz)
  else if d / a.toNat < 2 ^ w then return (BitVec.ofNat w (d % a.toNat), BitVec.ofNat w (d / a.toNat))
  else do
    let r ← drawBits w
    let q ← drawBits w
    return (r, q)

/-- DEIi (R234): the remainder in the low half, the quotient in the high half. -/
def execDeii (i : Size) (src dst : Gen) (s : State) : Host.Outcome State Fault Refusal :=
  performSeq (.deii i src dst) (do
    let n := i.bytes
    let a ← readGen src n
    let p ← placeRmw dst
    match p with
    | .reg r =>
      let lo : BitVec (8 * n) ← look fun s => (s.reg r).setWidth (8 * n)
      let hi : BitVec (8 * n) ← look fun s => (s.reg (r + 1)).setWidth (8 * n)
      let (rem, quo) ← extendedDivide a (hi.toNat * 2 ^ (8 * n) + lo.toNat)
      change fun s => (s.setRegLow r rem).setRegLow (r + 1) quo
    | .mem e =>
      let d ← readMem .readRmw e (2 * n)
      let (rem, quo) ← extendedDivide a d.toNat
      writeMem e (2 * n) (quo ++ rem)
    | .push => return ()) s

/-- Digit `k` of a packed number (R236). -/
def bcdDigit {w : Nat} (v : BitVec w) (k : Nat) : Nat := (v.extractLsb' (4 * k) 4).toNat

/-- The low `d` digits are decimal digits. -/
def bcdOk {w : Nat} (v : BitVec w) (d : Nat) : Bool := (List.range d).all fun k => bcdDigit v k ≤ 9

/-- `bcdval`: the value of the low `d` digits (R236). -/
def bcdVal {w : Nat} (v : BitVec w) : Nat → Nat
  | 0 => 0
  | d + 1 => bcdVal v d + bcdDigit v d * 10 ^ d

/-- `tobcd`: the low `d` decimal digits of a number, packed (R236). -/
def toBcd (x : Nat) : Nat → Nat
  | 0 => 0
  | d + 1 => toBcd x d + (x / 10 ^ d % 10) * 16 ^ d

/-- A packed operation with its decimal carry; F is a free value, and with a digit above 9 so are the result and C (D15,
assumption 23). -/
def packed (n : Nat) (op : Nat → Nat → Nat → Nat × Bool) (a b : BitVec (8 * n)) : M (BitVec (8 * n)) := do
  let c ← look fun s => s.flag .c
  let f ← drawBool
  if bcdOk a (2 * n) && bcdOk b (2 * n) then
    let (x, cy) := op (bcdVal b (2 * n)) (bcdVal a (2 * n)) c.toNat
    change fun s => s.putCF cy f
    return BitVec.ofNat _ (toBcd x (2 * n))
  else
    let cy ← drawBool
    let x ← drawBits (8 * n)
    change fun s => s.putCF cy f
    return x

/-- Decimal addition of `d` digits (R236). -/
def addDecimal (d : Nat) (b a c : Nat) : Nat × Bool := ((b + a + c) % 10 ^ d, decide (10 ^ d ≤ b + a + c))

/-- Decimal subtraction of `d` digits (R237). -/
def subDecimal (d : Nat) (b a c : Nat) : Nat × Bool :=
  if b < a + c then (b + 10 ^ d - (a + c), true) else (b - (a + c), false)

/-- ADDPi (R236). -/
def execAddpi (i : Size) (src dst : Gen) (s : State) : Host.Outcome State Fault Refusal :=
  performSeq (.addpi i src dst) (binaryOp i.bytes i.bytes src dst (packed i.bytes (addDecimal (2 * i.bytes)))) s

/-- SUBPi (R237). -/
def execSubpi (i : Size) (src dst : Gen) (s : State) : Host.Outcome State Fault Refusal :=
  performSeq (.subpi i src dst) (binaryOp i.bytes i.bytes src dst (packed i.bytes (subDecimal (2 * i.bytes)))) s

end Sys2Proof.Machine
end

