-- ==== Sys2Proof/Machine/Jumps.lean ====
section
/-! DEFINITION. Jumps and linkage (45_jumps_linkage.md), and the two undefined sets of Format 3 (30_encoding.md R153). -/
namespace Sys2Proof.Machine

/-- The target of a branch (R331): PC is the address of the branch itself. -/
def State.target (s : State) (d : Disp) : Addr := s.pc + d.word.setWidth 24

/-- Branch to `pc + disp` (R331). -/
def branch (d : Disp) : M Unit := change fun s => s.jump (s.target d)

/-- BR (R332). -/
def execBr (d : Disp) (s : State) : Host.Outcome State Fault Refusal :=
  perform (.br d) (branch d) s

/-- Bcond (R333). -/
def execBcond (c : Cond) (d : Disp) (s : State) : Host.Outcome State Fault Refusal :=
  perform (.bcond c d) (do
    if ← look fun s => s.holds c then branch d else advance (.bcond c d)) s

/-- JUMP (R334). -/
def execJump (g : Gen) (s : State) : Host.Outcome State Fault Refusal :=
  perform (.jump g) (do
    let a ← effAddr24 g
    change fun s => s.jump a) s

/-- CASEi (R335). -/
def execCasei (i : Size) (g : Gen) (s : State) : Host.Outcome State Fault Refusal :=
  perform (.casei i g) (do
    let v ← readGen g i.bytes
    change fun s => s.jump (s.pc + (v.signExtend 32).setWidth 24)) s

/-- ACBi (R336). -/
def execAcbi (i : Size) (q : BitVec 4) (g : Gen) (d : Disp) (s : State) : Host.Outcome State Fault Refusal :=
  perform (.acbi i q g d) (do
    let p ← placeRmw g
    let x ← readPlace .readRmw p i.bytes
    let y := x + q.signExtend _
    writePlace p i.bytes y
    if y = 0 then advance (.acbi i q g d) else branch d) s

/-- JSR (R337): the effective address before the push. -/
def execJsr (g : Gen) (s : State) : Host.Outcome State Fault Refusal :=
  perform (.jsr g) (do
    let a ← effAddr24 g
    push 4 (← look fun s => s.next (.jsr g))
    change fun s => s.jump a) s

/-- BSR (R338). -/
def execBsr (d : Disp) (s : State) : Host.Outcome State Fault Refusal :=
  perform (.bsr d) (do
    push 4 (← look fun s => s.next (.bsr d))
    branch d) s

/-- Discard `disp` bytes of the selected stack (R339). -/
def discard (d : Disp) : M Unit := change fun s => s.setSp (s.sp + d.word.setWidth 24)

/-- RET (R339). -/
def execRet (d : Disp) (s : State) : Host.Outcome State Fault Refusal :=
  perform (.ret d) (do
    let a ← pop 4
    change fun s => s.jump (a.setWidth 24)
    discard d) s

/-- ENTER (R347). -/
def execEnter (l : Byte) (d : Disp) (s : State) : Host.Outcome State Fault Refusal :=
  performSeq (.enter l d) (do
    push 4 (← look State.fp)
    change fun s => { s with fp := s.sp }
    change fun s => s.setSp (s.sp - d.word.setWidth 24)
    saveRegs l listBits) s

/-- EXIT (R348). -/
def execExit (l : Byte) (s : State) : Host.Outcome State Fault Refusal :=
  performSeq (.exit l) (do
    restoreRegs l listBits
    change fun s => s.setSp s.fp
    let v ← pop 4
    change fun s => { s with fp := v.setWidth 24 }) s

/-- The call of CXP and CXPD by an External Procedure Descriptor (R340): MOD is pushed as a double-word (D7). -/
def callExternal (desc : DWord) (ra : Addr) : M Unit := do
  push 4 (← look State.modReg)
  push 4 ra
  change fun s => { s with modReg := desc.setWidth 16 }
  enterModule (desc.extractLsb' 16 16)

/-- CXP (R340). -/
def execCxp (d : Disp) (s : State) : Host.Outcome State Fault Refusal :=
  perform (.cxp d) (do
    let lt ← readMem .data (← look State.linkAddr) 4
    let desc ← readMem .data (linkEntry lt d) 4
    callExternal desc (← look fun s => s.next (.cxp d))) s

/-- CXPD (R341). DESIGN CHOICE (assumption 41): with External addressing the rule's last sentence says that this equals
CXP; its pseudocode, with the effective address of R136, reads the descriptor one indirection further. The pseudocode is
followed. -/
def execCxpd (g : Gen) (s : State) : Host.Outcome State Fault Refusal :=
  perform (.cxpd g) (do
    let desc ← readMem .data (← effAddr24 g) 4
    callExternal desc (← look fun s => s.next (.cxpd g))) s

/-- RXP (R342). -/
def execRxp (d : Disp) (s : State) : Host.Outcome State Fault Refusal :=
  perform (.rxp d) (do
    let a ← pop 4
    change fun s => s.jump (a.setWidth 24)
    let t ← pop 4
    change fun s => { s with modReg := t.setWidth 16 }
    let b ← readMem .data (← look fun s => s.modAddr 0) 4
    change fun s => { s with sb := b.setWidth 24 }
    discard d) s

/-- SVC (R344). -/
def execSvc (s : State) : Host.Outcome State Fault Refusal :=
  perform .svc (abort (.trap .svc)) s

/-- FLAG (R345). -/
def execFlag (s : State) : Host.Outcome State Fault Refusal :=
  performSeq .flag (do
    if ← look fun s => s.flag .f then abort (.trap .flg) else return ()) s

/-- BPT (R346). -/
def execBpt (s : State) : Host.Outcome State Fault Refusal :=
  perform .bpt (abort (.trap .bpt)) s

/-- RETT (R343): the displacement moves the stack pointer that the restored PSR selects. -/
def execRett (d : Disp) (s : State) : Host.Outcome State Fault Refusal :=
  perform (.rett d) (do
    privileged
    returnFromException
    discard d) s

/-- RETI (R349). -/
def execReti (s : State) : Host.Outcome State Fault Refusal :=
  perform .reti (do
    privileged
    endOfInterrupt
    returnFromException) s

/-- Format 3 with an odd op: Trap(UND) (R153, R527). -/
def execUndefFormat3 (g : BitVec 5) (o : BitVec 3) (i : Size) (s : State) : Host.Outcome State Fault Refusal :=
  perform (.undefFormat3 g o i) (abort (.trap .und)) s

/-- Format 3 with op 1000: Trap(UND) (R153, R527). -/
def execUndefFormat3Op1000 (g : BitVec 5) (i : Size) (s : State) : Host.Outcome State Fault Refusal :=
  perform (.undefFormat3Op1000 g i) (abort (.trap .und)) s

end Sys2Proof.Machine
end

