-- ==== Sys2Proof/Machine/Moves.lean ====
section
/-! DEFINITION. The move instructions (40_moves.md). -/
namespace Sys2Proof.Machine

/-- MOVi (R201). -/
def execMovi (i : Size) (src dst : Gen) (s : State) : Host.Outcome State Fault Refusal :=
  performSeq (.movi i src dst) (moveOp i.bytes i.bytes src dst fun v => return v) s

/-- MOVQi (R202). -/
def execMovqi (i : Size) (q : BitVec 4) (g : Gen) (s : State) : Host.Outcome State Fault Refusal :=
  performSeq (.movqi i q g) (do writePlace (← placeWrite g) i.bytes (q.signExtend (8 * i.bytes))) s

/-- The number of elements of a MOVM or CMPM block (R203). -/
def blockCount (i : Size) (d : Disp) : Nat := d.val.toNat / i.bytes + 1

/-- Copy `k` elements of `n` bytes in ascending order (R203). -/
def copyBlock (n : Nat) : Nat → Addr → Addr → M Unit
  | 0, _, _ => return ()
  | k + 1, a, b => do
    let v ← readMem .data a n
    writeMem b n v
    copyBlock n k (a + BitVec.ofNat 24 n) (b + BitVec.ofNat 24 n)

/-- MOVMi (R203). -/
def execMovmi (i : Size) (b1 b2 : Gen) (d : Disp) (s : State) : Host.Outcome State Fault Refusal :=
  performSeq (.movmi i b1 b2 d) (do
    let a ← effAddr24 b1
    let b ← effAddr24 b2
    copyBlock i.bytes (blockCount i d) a b) s

/-- MOVZBW (R204). -/
def execMovzbw (src dst : Gen) (s : State) : Host.Outcome State Fault Refusal :=
  performSeq (.movzbw src dst) (moveOp 1 2 src dst fun v => return v.setWidth _) s

/-- MOVZiD (R205). -/
def execMovzid (i : Size) (src dst : Gen) (s : State) : Host.Outcome State Fault Refusal :=
  performSeq (.movzid i src dst) (moveOp i.bytes 4 src dst fun v => return v.setWidth _) s

/-- MOVXBW (R206). -/
def execMovxbw (src dst : Gen) (s : State) : Host.Outcome State Fault Refusal :=
  performSeq (.movxbw src dst) (moveOp 1 2 src dst fun v => return v.signExtend _) s

/-- MOVXiD (R207). -/
def execMovxid (i : Size) (src dst : Gen) (s : State) : Host.Outcome State Fault Refusal :=
  performSeq (.movxid i src dst) (moveOp i.bytes 4 src dst fun v => return v.signExtend _) s

/-- ADDR (R208): the full 32-bit effective address. -/
def execAddr (src dst : Gen) (s : State) : Host.Outcome State Fault Refusal :=
  performSeq (.addr src dst) (do
    let a ← effAddr src
    writePlace (← placeWrite dst) 4 a) s

end Sys2Proof.Machine
end

