-- ==== Sys2Proof/Machine/Logical.lean ====
section
/-! DEFINITION. Comparison, logical, Boolean and shift instructions (42_compare_logical_shift.md). -/
namespace Sys2Proof.Machine

/-- CMPi (R252). -/
def execCmpi (i : Size) (src1 src2 : Gen) (s : State) : Host.Outcome State Fault Refusal :=
  performSeq (.cmpi i src1 src2) (do
    let (a, b) ← readOp2 i.bytes i.bytes src1 src2
    change fun s => s.putCompare a b) s

/-- CMPQi (R253). -/
def execCmpqi (i : Size) (q : BitVec 4) (g : Gen) (s : State) : Host.Outcome State Fault Refusal :=
  performSeq (.cmpqi i q g) (do
    let b ← readGen g i.bytes
    change fun s => s.putCompare (q.signExtend (8 * i.bytes)) b) s

/-- Compare `k` elements of `n` bytes in ascending order, up to the first unequal pair (R254). -/
def compareBlock (n : Nat) : Nat → Addr → Addr → M Unit
  | 0, _, _ => return ()
  | k + 1, p, q => do
    let a ← readMem .data p n
    let b ← readMem .data q n
    if a = b then compareBlock n k (p + BitVec.ofNat 24 n) (q + BitVec.ofNat 24 n)
    else change fun s => s.putCompare a b

/-- CMPMi (R254). -/
def execCmpmi (i : Size) (b1 b2 : Gen) (d : Disp) (s : State) : Host.Outcome State Fault Refusal :=
  performSeq (.cmpmi i b1 b2 d) (do
    let p ← effAddr24 b1
    let q ← effAddr24 b2
    change State.putEqual
    compareBlock i.bytes (blockCount i d) p q) s

/-- ANDi (R255). -/
def execAndi (i : Size) (src dst : Gen) (s : State) : Host.Outcome State Fault Refusal :=
  performSeq (.andi i src dst) (binaryOp i.bytes i.bytes src dst fun a b => return b &&& a) s

/-- ORi (R256). -/
def execOri (i : Size) (src dst : Gen) (s : State) : Host.Outcome State Fault Refusal :=
  performSeq (.ori i src dst) (binaryOp i.bytes i.bytes src dst fun a b => return b ||| a) s

/-- BICi (R257). -/
def execBici (i : Size) (src dst : Gen) (s : State) : Host.Outcome State Fault Refusal :=
  performSeq (.bici i src dst) (binaryOp i.bytes i.bytes src dst fun a b => return b &&& ~~~a) s

/-- XORi (R258). -/
def execXori (i : Size) (src dst : Gen) (s : State) : Host.Outcome State Fault Refusal :=
  performSeq (.xori i src dst) (binaryOp i.bytes i.bytes src dst fun a b => return b ^^^ a) s

/-- COMi (R259). -/
def execComi (i : Size) (src dst : Gen) (s : State) : Host.Outcome State Fault Refusal :=
  performSeq (.comi i src dst) (moveOp i.bytes i.bytes src dst fun a => return ~~~a) s

/-- NOTi (R260): only bit 0 is inverted. -/
def execNoti (i : Size) (src dst : Gen) (s : State) : Host.Outcome State Fault Refusal :=
  performSeq (.noti i src dst) (moveOp i.bytes i.bytes src dst fun a => return a ^^^ 1) s

/-- Scondi (R261). -/
def execScondi (i : Size) (c : Cond) (g : Gen) (s : State) : Host.Outcome State Fault Refusal :=
  performSeq (.scondi i c g) (do
    let x ← look fun s => s.holds c
    writePlace (← placeWrite g) i.bytes (if x then 1 else 0)) s

/-- A count within -(w-1) to w-1 (R262). -/
def countOk (w : Nat) (c : Byte) : Bool := c.toInt.natAbs < w

/-- Logical shift by a signed count (R263). -/
def lshBy {w : Nat} (b : BitVec w) (c : Byte) : BitVec w :=
  if 0 ≤ c.toInt then b <<< c.toInt.natAbs else b >>> c.toInt.natAbs

/-- Arithmetic shift by a signed count (R264). -/
def ashBy {w : Nat} (b : BitVec w) (c : Byte) : BitVec w :=
  if 0 ≤ c.toInt then b <<< c.toInt.natAbs else b.sshiftRight c.toInt.natAbs

/-- Rotation by a signed count (R265). -/
def rotBy {w : Nat} (b : BitVec w) (c : Byte) : BitVec w :=
  if 0 ≤ c.toInt then b.rotateLeft c.toInt.natAbs else b.rotateRight c.toInt.natAbs

/-- A shift whose count is in range; a free value for any other count (R262, D11, assumption 23). -/
def shiftOrDraw {w : Nat} (f : BitVec w → Byte → BitVec w) (c : Byte) (b : BitVec w) : M (BitVec w) :=
  if countOk w c then return f b c else drawBits w

/-- LSHi (R263). -/
def execLshi (i : Size) (count dst : Gen) (s : State) : Host.Outcome State Fault Refusal :=
  performSeq (.lshi i count dst) (binaryOp 1 i.bytes count dst (shiftOrDraw lshBy)) s

/-- ASHi (R264). -/
def execAshi (i : Size) (count dst : Gen) (s : State) : Host.Outcome State Fault Refusal :=
  performSeq (.ashi i count dst) (binaryOp 1 i.bytes count dst (shiftOrDraw ashBy)) s

/-- ROTi (R265). -/
def execRoti (i : Size) (count dst : Gen) (s : State) : Host.Outcome State Fault Refusal :=
  performSeq (.roti i count dst) (binaryOp 1 i.bytes count dst (shiftOrDraw rotBy)) s

end Sys2Proof.Machine
end

