-- ==== Sys2Proof/Machine/Misc.lean ====
section
/-! DEFINITION. NOP, WAIT and DIA (48_misc.md). -/
namespace Sys2Proof.Machine

/-- NOP (R431). -/
def execNop (s : State) : Host.Outcome State Fault Refusal :=
  performSeq .nop (return ()) s

/-- WAIT (R432): the CPU stops until an interrupt, whose return address is the next instruction. -/
def execWait (s : State) : Host.Outcome State Fault Refusal :=
  performSeq .wait (change fun s => { s with waiting := true }) s

/-- DIA (R433): a branch to itself. -/
def execDia (s : State) : Host.Outcome State Fault Refusal :=
  perform .dia (change fun s => s.jump s.pc) s

end Sys2Proof.Machine
end

