-- ==== Sys2Proof/Machine/Dispatch.lean ====
section
/-! DEFINITION. The meaning of every instruction: one arm per constructor, each one call. -/
namespace Sys2Proof.Machine

/-- The meaning of an instruction. -/
def exec (i : Instr) (s : State) : Host.Outcome State Fault Refusal :=
  match i with
  | .bcond c d => Sys2Proof.Machine.execBcond c d s
  | .br d => Sys2Proof.Machine.execBr d s
  | .bsr d => Sys2Proof.Machine.execBsr d s
  | .ret d => Sys2Proof.Machine.execRet d s
  | .cxp d => Sys2Proof.Machine.execCxp d s
  | .rxp d => Sys2Proof.Machine.execRxp d s
  | .rett d => Sys2Proof.Machine.execRett d s
  | .reti => Sys2Proof.Machine.execReti s
  | .save l => Sys2Proof.Machine.execSave l s
  | .restore l => Sys2Proof.Machine.execRestore l s
  | .enter l d => Sys2Proof.Machine.execEnter l d s
  | .exit l => Sys2Proof.Machine.execExit l s
  | .nop => Sys2Proof.Machine.execNop s
  | .wait => Sys2Proof.Machine.execWait s
  | .dia => Sys2Proof.Machine.execDia s
  | .flag => Sys2Proof.Machine.execFlag s
  | .svc => Sys2Proof.Machine.execSvc s
  | .bpt => Sys2Proof.Machine.execBpt s
  | .addqi n q g => Sys2Proof.Machine.execAddqi n q g s
  | .cmpqi n q g => Sys2Proof.Machine.execCmpqi n q g s
  | .spri n a g => Sys2Proof.Machine.execSpri n a g s
  | .scondi n c g => Sys2Proof.Machine.execScondi n c g s
  | .acbi n q g d => Sys2Proof.Machine.execAcbi n q g d s
  | .movqi n q g => Sys2Proof.Machine.execMovqi n q g s
  | .lpri n a g => Sys2Proof.Machine.execLpri n a g s
  | .cxpd g => Sys2Proof.Machine.execCxpd g s
  | .bicpsri n g => Sys2Proof.Machine.execBicpsri n g s
  | .jump g => Sys2Proof.Machine.execJump g s
  | .bispsri n g => Sys2Proof.Machine.execBispsri n g s
  | .adjspi n g => Sys2Proof.Machine.execAdjspi n g s
  | .jsr g => Sys2Proof.Machine.execJsr g s
  | .casei n g => Sys2Proof.Machine.execCasei n g s
  | .undefFormat3 g o n => Sys2Proof.Machine.execUndefFormat3 g o n s
  | .undefFormat3Op1000 g n => Sys2Proof.Machine.execUndefFormat3Op1000 g n s
  | .addi n src dst => Sys2Proof.Machine.execAddi n src dst s
  | .cmpi n src1 src2 => Sys2Proof.Machine.execCmpi n src1 src2 s
  | .bici n src dst => Sys2Proof.Machine.execBici n src dst s
  | .addci n src dst => Sys2Proof.Machine.execAddci n src dst s
  | .movi n src dst => Sys2Proof.Machine.execMovi n src dst s
  | .ori n src dst => Sys2Proof.Machine.execOri n src dst s
  | .subi n src dst => Sys2Proof.Machine.execSubi n src dst s
  | .addr src dst => Sys2Proof.Machine.execAddr src dst s
  | .andi n src dst => Sys2Proof.Machine.execAndi n src dst s
  | .subci n src dst => Sys2Proof.Machine.execSubci n src dst s
  | .tbiti n off base => Sys2Proof.Machine.execTbiti n off base s
  | .xori n src dst => Sys2Proof.Machine.execXori n src dst s
  | .movsi n o => Sys2Proof.Machine.execMovsi n o s
  | .movst o => Sys2Proof.Machine.execMovst o s
  | .cmpsi n o => Sys2Proof.Machine.execCmpsi n o s
  | .cmpst o => Sys2Proof.Machine.execCmpst o s
  | .setcfg o => Sys2Proof.Machine.execSetcfg o s
  | .skpsi n o => Sys2Proof.Machine.execSkpsi n o s
  | .skpst o => Sys2Proof.Machine.execSkpst o s
  | .bbstod o => Sys2Proof.Machine.execBbstod o s
  | .extblt => Sys2Proof.Machine.execExtblt s
  | .bbor o => Sys2Proof.Machine.execBbor o s
  | .movmpi n => Sys2Proof.Machine.execMovmpi n s
  | .bitwt => Sys2Proof.Machine.execBitwt s
  | .tbits o => Sys2Proof.Machine.execTbits o s
  | .bband o => Sys2Proof.Machine.execBband o s
  | .sbitps => Sys2Proof.Machine.execSbitps s
  | .bbfor => Sys2Proof.Machine.execBbfor s
  | .sbits => Sys2Proof.Machine.execSbits s
  | .bbxor o => Sys2Proof.Machine.execBbxor o s
  | .roti n count dst => Sys2Proof.Machine.execRoti n count dst s
  | .ashi n count dst => Sys2Proof.Machine.execAshi n count dst s
  | .cbiti n off base => Sys2Proof.Machine.execCbiti n off base s
  | .cbitii n off base => Sys2Proof.Machine.execCbitii n off base s
  | .lshi n count dst => Sys2Proof.Machine.execLshi n count dst s
  | .sbiti n off base => Sys2Proof.Machine.execSbiti n off base s
  | .sbitii n off base => Sys2Proof.Machine.execSbitii n off base s
  | .negi n src dst => Sys2Proof.Machine.execNegi n src dst s
  | .noti n src dst => Sys2Proof.Machine.execNoti n src dst s
  | .subpi n src dst => Sys2Proof.Machine.execSubpi n src dst s
  | .absi n src dst => Sys2Proof.Machine.execAbsi n src dst s
  | .comi n src dst => Sys2Proof.Machine.execComi n src dst s
  | .ibiti n off base => Sys2Proof.Machine.execIbiti n off base s
  | .addpi n src dst => Sys2Proof.Machine.execAddpi n src dst s
  | .movmi n b1 b2 d => Sys2Proof.Machine.execMovmi n b1 b2 d s
  | .cmpmi n b1 b2 d => Sys2Proof.Machine.execCmpmi n b1 b2 d s
  | .inssi n src base off len => Sys2Proof.Machine.execInssi n src base off len s
  | .extsi n base dst off len => Sys2Proof.Machine.execExtsi n base dst off len s
  | .movxbw src dst => Sys2Proof.Machine.execMovxbw src dst s
  | .movzbw src dst => Sys2Proof.Machine.execMovzbw src dst s
  | .movzid n src dst => Sys2Proof.Machine.execMovzid n src dst s
  | .movxid n src dst => Sys2Proof.Machine.execMovxid n src dst s
  | .muli n src dst => Sys2Proof.Machine.execMuli n src dst s
  | .meii n src dst => Sys2Proof.Machine.execMeii n src dst s
  | .deii n src dst => Sys2Proof.Machine.execDeii n src dst s
  | .quoi n src dst => Sys2Proof.Machine.execQuoi n src dst s
  | .remi n src dst => Sys2Proof.Machine.execRemi n src dst s
  | .modi n src dst => Sys2Proof.Machine.execModi n src dst s
  | .divi n src dst => Sys2Proof.Machine.execDivi n src dst s
  | .exti n r base dst len => Sys2Proof.Machine.execExti n r base dst len s
  | .cvtp r base dst => Sys2Proof.Machine.execCvtp r base dst s
  | .insi n r src base len => Sys2Proof.Machine.execInsi n r src base len s
  | .checki n r bounds src => Sys2Proof.Machine.execChecki n r bounds src s
  | .indexi n r len idx => Sys2Proof.Machine.execIndexi n r len idx s
  | .ffsi n base off => Sys2Proof.Machine.execFfsi n base off s
  | .movif n t src dst => Sys2Proof.Machine.execMovif n t src dst s
  | .lfsr src => Sys2Proof.Machine.execLfsr src s
  | .movlf src dst => Sys2Proof.Machine.execMovlf src dst s
  | .movfl src dst => Sys2Proof.Machine.execMovfl src dst s
  | .roundfi t n src dst => Sys2Proof.Machine.execRoundfi t n src dst s
  | .truncfi t n src dst => Sys2Proof.Machine.execTruncfi t n src dst s
  | .sfsr dst => Sys2Proof.Machine.execSfsr dst s
  | .floorfi t n src dst => Sys2Proof.Machine.execFloorfi t n src dst s
  | .addf t src dst => Sys2Proof.Machine.execAddf t src dst s
  | .movf t src dst => Sys2Proof.Machine.execMovf t src dst s
  | .cmpf t src1 src2 => Sys2Proof.Machine.execCmpf t src1 src2 s
  | .subf t src dst => Sys2Proof.Machine.execSubf t src dst s
  | .negf t src dst => Sys2Proof.Machine.execNegf t src dst s
  | .divf t src dst => Sys2Proof.Machine.execDivf t src dst s
  | .mulf t src dst => Sys2Proof.Machine.execMulf t src dst s
  | .absf t src dst => Sys2Proof.Machine.execAbsf t src dst s
  | .polyf t src1 src2 => Sys2Proof.Machine.execPolyf t src1 src2 s
  | .dotf t src1 src2 => Sys2Proof.Machine.execDotf t src1 src2 s
  | .scalbf t src dst => Sys2Proof.Machine.execScalbf t src dst s
  | .logbf t src dst => Sys2Proof.Machine.execLogbf t src dst s

end Sys2Proof.Machine
end

