-- ==== Sys2Proof/Machine/Cycle.lean ====
section
/-!
DEFINITION. The instruction cycle (60_exceptions.md R521): sampling the inputs, reset, interrupts, the trace trap,
fetching an instruction's bytes through the queue (20_memory.md R93 to R95), and running it.
-/
namespace Sys2Proof.Machine

/-! ## Inputs -/

/-- Nothing happens. -/
def idleInput : Input where
  reset := false
  resetAfter := none
  nmi := false
  int := false
  writes := []
  suspendAfter := none
  gaps := []

/-- The interrupt that the given input presents would be taken at the next boundary (R514). -/
def State.accepts (s : State) (x : Input) : Bool := !x.reset && (x.nmi || (x.int && s.flag .i))

/-- The passes an interruptible instruction may make in this step: limited only if the next input interrupts it (R516,
assumption 7). -/
def State.budget (s : State) (now : Input) (later : List Input) : Option Nat :=
  match later with
  | [] => none
  | x :: _ => if s.accepts x then now.suspendAfter else none

/-- The input of this step, and the state in which it acts: its stores and its NMI edge have happened (R514, R42). -/
def State.sample (s : State) : Input × State :=
  match s.inputs with
  | [] => (idleInput, { s with suspend := none, gaps := [], resetIn := none })
  | x :: xs =>
    (x, { s.othersStore x.writes with
      inputs := xs
      nmiLatch := s.nmiLatch || x.nmi
      suspend := s.budget x xs
      gaps := x.gaps
      resetIn := x.resetAfter })

/-! ## Instruction fetch -/

/-- Bytes of the queue as memory holds them now, from an address on; those of a device stay (R108). -/
def State.reread (s : State) (a : Addr) : List Byte → List Byte
  | [] => []
  | x :: xs => (if s.kindAt a = some .device then x else s.byteAt a) :: s.reread (a + 1) xs

/-- With PREFETCH_COHERENT, stores have reached the bytes in the queue (20_memory.md R108, D25; assumption 8). -/
def State.refreshed (s : State) : State := if s.coherent then { s with queue := s.reread s.pc s.queue } else s

/-- Stores reach the bytes in the queue, with PREFETCH_COHERENT (R108). -/
def refresh : M Unit := do
  if ← look fun s => s.coherent && !s.queue.isEmpty then change State.refreshed else pure ()

/-- A first byte of the floating-point formats (47_floating_point.md R391). -/
def isSlaveId (b : Byte) : Bool := b = 0x3E || b = 0xBE || b = 0xFE

/-- What the bytes at the front of the queue are. -/
inductive Fetched where
  /-- an instruction, and the bytes after it -/
  | instr (i : Instr) (rest : List Byte)
  /-- an instruction that raises Trap(UND) (60_exceptions.md R527) -/
  | undefined
  /-- bytes that the spec refuses -/
  | refused (e : DecodeError)
  /-- the beginning of an instruction -/
  | more
deriving DecidableEq, Repr

/-- What becomes of bytes that are no instruction (30_encoding.md R164, 47_floating_point.md R392). -/
def State.rejected (s : State) (e : DecodeError) : Fetched :=
  if s.queue.head?.any isSlaveId && !s.cfgF then .undefined
  else
    match e with
    | .undefinedFirstByte => .undefined
    | .unassigned =>
      match s.undPolicy with
      | .trapUnd => .undefined
      | .refuse => .refused .unassigned
    | .outOfBytes => .more
    | e => .refused e

/-- Decode the queue. -/
def State.decoded (s : State) : Fetched :=
  match decode s.queue with
  | .ok (i, rest) => .instr i rest
  | .error e => s.rejected e

/-- Fetch until the queue holds an instruction, with at most `n` fetch cycles. -/
def fetchInstr : Nat → M Fetched
  | 0 => return .more
  | n + 1 => do
    refresh
    match ← look State.decoded with
    | .more => do
      demandFetch
      fetchInstr n
    | f => return f

/-- Trap(UND) at the instruction at PC (60_exceptions.md R527). -/
def State.undefined (s : State) : Host.Outcome State Fault Refusal := finish s (.error (.trap .und) s.begin)

/-- Fetch, decode and execute one instruction; its bytes leave the queue (R41). -/
def State.runInstr (s : State) : Host.Outcome State Fault Refusal :=
  match fetchInstr (maxLength + 1) s with
  | .ok (.instr i rest) t => exec i { t with queue := rest }
  | .ok .undefined t => t.undefined
  | .ok (.refused e) t => t.stop (.refused (.undefinedEncoding e))
  | .ok .more t => t.stop (.refused (.undefinedEncoding .outOfBytes))
  | .error e t => settle (.error e t)

/-! ## The cycle -/

/-- One instruction boundary, then one instruction (R521, R530). -/
def State.boundary (s : State) (x : Input) : Host.Outcome State Fault Refusal :=
  if x.reset then .next s.hardReset
  else if s.nmiLatch then settle (takeInterrupt true { s with waiting := false })
  else if x.int && s.flag .i then settle (takeInterrupt false { s with waiting := false })
  else if s.waiting then .next s
  else if s.flag .p then settle (takeTrace s)
  else s.runInstr

/-- The end of a step: what happens on the bus after its last cycle, then RSTI if it becomes active in this step (R571).
-/
def State.close (s : State) : State :=
  match s.gaps, s.resetIn with
  | [], none => s
  | _, none => { s.gap true with gaps := [] }
  | _, some _ => (s.gap true).hardReset

/-- One step of the machine: sample the inputs, then the instruction cycle (R521). -/
def State.cycle (s : State) : Host.Outcome State Fault Refusal :=
  let (x, s1) := s.sample
  match s1.boundary x with
  | .next t => .next t.close
  | .fault f => .fault f
  | .refused r => .refused r

/-- Store an instruction word's bytes at PC and let the next step run them: the queue is emptied, and nothing is pending
that would come before the instruction. -/
def State.placeWord (s : State) (nbits w : Nat) : State :=
  { s with
    mem := storeBytes (fun _ => true) s.mem s.pc (wordBytes nbits w)
    psr := psrPut s.psr .p false
    queue := []
    fetchPc := s.pc
    broken := true
    nmiLatch := false
    waiting := false
    inputs := [] }

end Sys2Proof.Machine
end

