-- ==== Sys2Proof/Machine/Step.lean ====
section
/-! DEFINITION. One step of the machine, and placing an instruction where it is fetched. -/
namespace Sys2Proof.Machine

/-- One step of the machine (60_exceptions.md R521). -/
def step (s : State) : Host.Outcome State Fault Refusal := s.cycle

/-- The state whose next step runs the given instruction word: its bytes stored at PC, the queue emptied, nothing
pending. -/
def State.withFetchWord (s : State) (nbits w : Nat) : State := s.placeWord nbits w

end Sys2Proof.Machine
end

