-- ==== Sys2Proof/Machine/Values.lean ====
section
/-!
DEFINITION. Operands, stacks and service sequences as functions of the state, without their bus cycles: the terms that
statements about a machine whose memory answers everywhere are written in.
-/
namespace Sys2Proof.Machine

/-! ## Operands -/

/-- The value of an operand of class read. -/
def State.operand (s : State) (g : Gen) (n : Nat) : BitVec (8 * n) :=
  match g with
  | .base (.reg r) => (s.reg r).setWidth (8 * n)
  | .base (.imm v) => immValue v n
  | _ => s.peek ((s.ea g).setWidth 24) n

/-- The state after an operand of class read: Top of Stack pops (30_encoding.md R138). -/
def State.afterRead (s : State) (g : Gen) (n : Nat) : State :=
  match g with
  | .base .tos => s.setSp (s.sp + BitVec.ofNat 24 n)
  | _ => s

/-- The place of an operand of class rmw. -/
def State.rmwPlace (s : State) (g : Gen) : Place :=
  match g with
  | .base (.reg r) => .reg r
  | _ => .mem ((s.ea g).setWidth 24)

/-- The place of an operand of class write. -/
def State.writePlaceOf (s : State) (g : Gen) : Place :=
  match g with
  | .base (.reg r) => .reg r
  | .base .tos => .push
  | _ => .mem ((s.ea g).setWidth 24)

/-- The operand at a place. -/
def State.at (s : State) (p : Place) (n : Nat) : BitVec (8 * n) :=
  match p with
  | .reg r => (s.reg r).setWidth (8 * n)
  | .mem a => s.peek a n
  | .push => s.peek s.sp n

/-! ## Stacks -/

/-- The state after `push_n(v)` (00_scope.md R11). -/
def State.pushed {w : Nat} (s : State) (n : Nat) (v : BitVec w) : State :=
  (s.setSp (s.sp - BitVec.ofNat 24 n)).poke (s.sp - BitVec.ofNat 24 n) n v

/-- What `pop_n()` answers (00_scope.md R11). -/
def State.top (s : State) (n : Nat) : BitVec (8 * n) := s.peek s.sp n

/-- The state after `pop_n()` (00_scope.md R11). -/
def State.popped (s : State) (n : Nat) : State := s.setSp (s.sp + BitVec.ofNat 24 n)

/-- The state with a value stored at a place. -/
def State.put (s : State) (p : Place) (n : Nat) (v : BitVec (8 * n)) : State :=
  match p with
  | .reg r => s.setRegLow r v
  | .mem a => s.poke a n v
  | .push => s.pushed n v

/-- The address that storing `n` bytes at a place stores to: none for a register. -/
def State.storeAddr (s : State) (p : Place) (n : Nat) : Option Addr :=
  match p with
  | .reg _ => none
  | .mem a => some a
  | .push => some (s.sp - BitVec.ofNat 24 n)

/-! ## Instruction fetch -/

/-- The state after fetch cycles have brought `n` bytes or, with the last Even Word, `n + 1`, and an instruction of
which they are the last bytes has left the queue (20_memory.md R94, R95); `bus` is the log. -/
def State.fetched (s : State) (n : Nat) (bus : List PinEvent) : State :=
  let a := s.fetchPc + BitVec.ofNat 24 n
  if a.getLsbD 0 then { s with queue := [s.byteAt a], fetchPc := a + 1, broken := false, bus := bus }
  else { s with queue := [], fetchPc := a, broken := false, bus := bus }

/-- The state after control has gone to an address and a Non-Sequential fetch cycle has been made there (20_memory.md
R95, 60_exceptions.md R512 step 5). -/
def State.flushed (s : State) (a : Addr) : State :=
  let t := s.jump a
  { t with queue := loadBytes t.mem a t.fetchWidth, fetchPc := a + BitVec.ofNat 24 t.fetchWidth, broken := false }

/-! ## Modules and exceptions -/

/-- SB loaded through the module descriptor that MOD names (60_exceptions.md R512 step 3). -/
def State.based (s : State) : State := { s with sb := (s.peek32 (s.modAddr 0)).setWidth 24 }

/-- The address of a procedure of the module that MOD names (R512 step 4). -/
def State.entry (s : State) (offset : Half) : Addr := (s.peek32 (s.modAddr 8) + offset.setWidth 32).setWidth 24

/-- SB and PC loaded through the module descriptor that MOD names (45_jumps_linkage.md R340). -/
def State.entered (s : State) (offset : Half) : State :=
  s.based.jump (s.entry offset)

/-- The Service sequence (60_exceptions.md R512): the descriptor of the vector, its module entered with a fetch, the old
MOD and the return address pushed. -/
def State.serviced (s : State) (vector : Nat) (ra : Addr) : State :=
  let desc := s.peek32 (s.intbase + BitVec.ofNat 24 (4 * vector))
  let s1 : State := { s with modReg := desc.setWidth 16 }
  ((s1.based.flushed (s1.entry (desc.extractLsb' 16 16))).pushed 2 s.modReg).pushed 4 ra

/-- A trap taken by the instruction that started in `s0` (60_exceptions.md R520). -/
def State.trapped (s : State) (t : Trap) (s0 : State) : State :=
  let s1 := ({ s with psr := s0.psr } : State).setSp s0.sp
  (({ s1 with psr := psrClear s0.psr [.s, .u, .p, .t] } : State).pushed 2 s0.psr).serviced t.vector s0.pc

/-- The call of an external procedure by its descriptor (45_jumps_linkage.md R340). -/
def State.called (s : State) (desc : DWord) (ra : Addr) : State :=
  (({ ((s.pushed 4 s.modReg).pushed 4 ra) with modReg := desc.setWidth 16 } : State)).entered
    (desc.extractLsb' 16 16)

/-- The state after PC, MOD and PSR are popped and SB is reloaded (45_jumps_linkage.md R343, R349). -/
def State.returned (s : State) : State :=
  let s1 := (s.popped 4).jump ((s.top 4).setWidth 24)
  let s2 : State := { s1.popped 2 with modReg := s1.top 2 }
  let s3 := (s2.popped 2).setPsr (s2.top 2)
  { s3 with sb := (s3.peek32 (s3.modAddr 0)).setWidth 24 }

end Sys2Proof.Machine
end

