-- ==== Sys2Proof/Machine/Results.lean ====
section
/-!
DEFINITION. What instructions with loops leave, as functions of the state without their bus cycles: register lists,
blocks, strings, bit-aligned transfers; and floating operands. Statements are written in these terms.
-/
namespace Sys2Proof.Machine

/-! ## Register lists and blocks -/

/-- The state after the listed registers are pushed (46_cpu_register.md R371). -/
def State.saved (l : Byte) : List Nat → State → State
  | [], s => s
  | n :: ns, s => State.saved l ns (if l.getLsbD n then s.pushed 4 (s.reg (BitVec.ofNat 3 n)) else s)

/-- The state after the listed registers are popped (46_cpu_register.md R374). -/
def State.restored (l : Byte) : List Nat → State → State
  | [], s => s
  | n :: ns, s =>
    State.restored l ns (if l.getLsbD n then (s.popped 4).setReg (BitVec.ofNat 3 (7 - n)) (s.top 4) else s)

/-- How many registers a list names (30_encoding.md R168). -/
def listed (l : Byte) : Nat := (listBits.filter fun n => l.getLsbD n).length

/-- The state after `k` elements of `n` bytes are copied in ascending order (40_moves.md R203). -/
def State.copied (n : Nat) : Nat → Addr → Addr → State → State
  | 0, _, _, s => s
  | k + 1, a, b, s => State.copied n k (a + BitVec.ofNat 24 n) (b + BitVec.ofNat 24 n) (s.poke b n (s.peek a n))

/-! ## Interruptible instructions (60_exceptions.md R516) -/

/-- How many of its `count` passes a string instruction makes: fewer, or none, if an interrupt suspends it
(44_strings.md R317). -/
def State.allowed (s : State) (count : Nat) : Nat :=
  match s.suspend with
  | none => count
  | some b => min b count

/-- How many of its `count` passes a graphics instruction makes: fewer if an interrupt suspends it, which it does only
between two passes (49_graphics.md R446, R454, R460, R475, R480). -/
def State.allowedBetween (s : State) (count : Nat) : Nat :=
  match s.suspend with
  | none => count
  | some b => min (max b 1) count

/-! ## Strings (44_strings.md R310) -/

/-- Element `j` of String 1 at the registers of `s`, translated with option T. -/
def State.element (s : State) (n : Nat) (t : Bool) (o : StrOpts) (j : Nat) : BitVec (8 * n) :=
  let v := s.peek ((s.reg 1 + BitVec.ofNat 32 j * strStep n o).setWidth 24) n
  if t then (s.peek ((s.reg 3 + v.setWidth 32).setWidth 24) 1).setWidth _ else v

/-- Element `j` of String 2 at the registers of `s`. -/
def State.element2 (s : State) (n : Nat) (o : StrOpts) (j : Nat) : BitVec (8 * n) :=
  s.peek ((s.reg 2 + BitVec.ofNat 32 j * strStep n o).setWidth 24) n

/-- Whether element `j` of String 1 ends the instruction by option U or W. -/
def State.ends (s : State) (n : Nat) (t : Bool) (o : StrOpts) (j : Nat) : Bool :=
  strEnds o (s.element n t o j) ((s.reg 4).setWidth (8 * n))

/-- The pointers and the limit count after `k` passes. -/
def State.stepped (s : State) (n : Nat) (o : StrOpts) (two : Bool) (k : Nat) : State :=
  let d := BitVec.ofNat 32 k * strStep n o
  let s := s.addReg 1 d
  let s := if two then s.addReg 2 d else s
  s.addReg 0 (-(BitVec.ofNat 32 k))

/-- MOVS from a state, at most `k` passes (R311, R312). -/
def State.moved (n : Nat) (t : Bool) (o : StrOpts) : Nat → State → State
  | 0, s => s
  | k + 1, s =>
    if s.ends n t o 0 then s.putFlag .f true
    else State.moved n t o k ((s.poke (s.ptr 2) n (s.element n t o 0)).stepped n o true 1)

/-! ## Bit-aligned block transfers (49_graphics.md R445) -/

/-- The step of the BB pointers from word to word. -/
def bbStep (o : BbOpts) : DWord := if o.decreasing then -2 else 2

/-- One word of a scan line, for a shift of 0 to 15. -/
def State.bbWordOf (f : BbFun) (o : BbOpts) (first last : Bool) (s : State) : State :=
  let x := s.peek16 (s.ptr 0)
  let x := if o.inverted then ~~~x else x
  let m := bbMask s first last
  let sh := (s.reg 2).toNat
  let d := bbCombine f (s.peek32 (s.ptr 1)) ((x &&& m).setWidth 32 <<< sh) (m.setWidth 32 <<< sh)
  ((s.poke (s.ptr 1) 4 d).addReg 0 (bbStep o)).addReg 1 (bbStep o)

/-- The remaining `k` of the `width` words of a scan line. -/
def State.bbLineOf (f : BbFun) (o : BbOpts) (width : Nat) : Nat → State → State
  | 0, s => s
  | k + 1, s => State.bbLineOf f o width k (s.bbWordOf f o (k + 1 = width) (k = 0))

/-- The remaining `k` scan lines. -/
def State.bbBlockOf (f : BbFun) (o : BbOpts) (width : Nat) : Nat → State → State
  | 0, s => s
  | k + 1, s =>
    let s := State.bbLineOf f o width width s
    State.bbBlockOf f o width k (((s.addReg 0 (s.reg 6)).addReg 1 (s.reg 7)).addReg 3 (-1))

/-! ## Patterns (49_graphics.md R460, R475) -/

/-- The remaining `k` stores of MOVMP. -/
def State.patterned (n : Nat) : Nat → State → State
  | 0, s => s
  | k + 1, s => State.patterned n k (((s.poke (s.ptr 0) n (s.reg 3)).addReg 0 (s.reg 1)).addReg 2 (-1))

/-- The state with the bit at the signed bit offset `off` from the byte address `base` set (R475). -/
def State.bitSet (s : State) (base off : DWord) : State :=
  let (a, k) := bitAddr base off
  s.poke a 1 (putBit (s.peek a 1) k true)

/-- The remaining `k` bits of SBITPS. -/
def State.dotted : Nat → State → State
  | 0, s => s
  | k + 1, s => State.dotted k (((s.bitSet (s.reg 0) (s.reg 1)).addReg 1 (s.reg 3)).addReg 2 (-1))

/-- The bit that TBITS tests at offset `a`, for offsets below 2^31 (R465). -/
def State.runBit (s : State) (a : Nat) : Bool :=
  (s.byteAt ((s.reg 0).setWidth 24 + BitVec.ofNat 24 (a / 8))).getLsbD (a % 8)

/-! ## Floating operands (47_floating_point.md R395, R396) -/

/-- A floating operand of class read: a floating register, or an operand as any other. -/
def State.floatOperand (s : State) (g : Gen) (t : FSize) : Quad :=
  match g with
  | .base (.reg r) => s.fregValue r t
  | _ => (s.operand g t.bytes).setWidth 64

/-- A floating operand of class rmw at its place. -/
def State.floatAt (s : State) (p : Place) (t : FSize) : Quad :=
  match p with
  | .reg r => s.fregValue r t
  | _ => (s.at p t.bytes).setWidth 64

/-- A floating result stored at its place; `qs` and `ds` are what the write leaves in the bits of the registers that the
spec does not give it. -/
def State.putFloat (s : State) (p : Place) (t : FSize) (v : Quad) (qs : Vector Quad 8) (ds : Vector DWord 8) : State :=
  match p with
  | .reg r => s.putFreg r t v qs ds
  | _ => s.put p t.bytes (v.setWidth _)

end Sys2Proof.Machine
end

