-- ==== Sys2Proof/Safety.lean ====
section
/-!
DEFINITION. What counts as a safe run, the reports that end one (70_reset_and_hazards.md R600), and the terms in which
statements compare two states.
-/
namespace Sys2Proof.Safety

open Sys2Proof.Machine

/-- A reset, an NMI or an accepted INT may still end a WAIT (48_misc.md R432). -/
def wakes (s : State) : Bool :=
  s.nmiLatch || s.inputs.any fun x => x.reset || x.resetAfter.isSome || s.accepts x

/-- The report halted-in-WAIT (R600, D42): a WAIT that nothing can end. -/
def haltedInWait (s : State) : Bool := s.waiting && !wakes s

/-- The first byte of the instruction at PC: of the queue, if it holds one, else of memory (20_memory.md R93). -/
def firstByte (s : State) : Byte := s.refreshed.queue.head?.getD (s.byteAt s.pc)

/-- The report stuck-in-DIA (R600, D42): the instruction at PC is DIA, no trace is pending, and nothing can leave it. -/
def stuckInDia (s : State) : Bool :=
  !s.waiting && !s.flag .p && !s.flag .t && firstByte s == 0xC2 && !wakes s

/-- Steps that answer a next state. -/
def progresses (s : State) : Prop := ∃ t, step s = .next t

/-- A run of `n` steps that neither faults nor is refused. -/
def safeFor : Nat → State → Prop
  | 0, _ => True
  | n + 1, s => ∃ t, step s = .next t ∧ safeFor n t

/-- What every step keeps: memory in its canonical form, PSR bits 13 to 15 zero (10_state.md R30), at most 8 bytes in
the queue (R41). -/
def Invariant (s : State) : Prop :=
  Memory.wf s.mem = true ∧ s.psr &&& 0xE000 = 0 ∧ s.queue.length ≤ 8

/-- No other master stores, the prefetcher does not fetch, and RSTI does not become active in the rest of the step. -/
def Quiet (s : State) : Prop := s.gaps = [] ∧ s.resetIn = none

/-- Memory, RAM or ROM, answers at every address (20_memory.md R77), and nothing comes between the bus cycles. -/
def Answers (s : State) : Prop := (∀ a, s.kindAt a = none ∨ s.kindAt a = some .rom) ∧ Quiet s

/-- All addresses are RAM, and nothing comes between the bus cycles. -/
def Ram (s : State) : Prop := s.memMap = [] ∧ Quiet s

/-- Two states are equal in everything but their bus logs. -/
def Agree (s t : State) : Prop := { s with bus := t.bus } = t

/-- The address `a` is none of the `n` bytes from `b` on. -/
def Outside (a b : Addr) (n : Nat) : Prop := ∀ k, k < n → a ≠ b + BitVec.ofNat 24 k

/-- Memory reads the same in both states, but for the `n` bytes stored from an address on, if any. -/
def MemFrame (s t : State) (stored : Option Addr) (n : Nat) : Prop :=
  match stored with
  | none => ∀ a, t.byteAt a = s.byteAt a
  | some b => ∀ a, Outside a b n → t.byteAt a = s.byteAt a

/-- Executing `i` in `s` answers a next state, and that state is `t` but for the bus log. -/
def Ends (i : Instr) (s t : State) : Prop := ∃ u, exec i s = .next u ∧ Agree u t

/-- `i` executed in `s` ends in `t`, and of memory only the `n` bytes stored from an address on, if any, can differ. -/
def Completes (i : Instr) (s t : State) (stored : Option Addr) (n : Nat) : Prop :=
  Ends i s t ∧ MemFrame s t stored n

/-- The frame of an exception on the interrupt stack (60_exceptions.md R513) and the handler it enters (R512): from `s`
to `t` the PSR copy `copy`, the old MOD and the return address `ra` are pushed on SP0, and MOD, SB and PC come from the
dispatch table entry of the vector; the table is read when the PSR copy is already on the stack. The queue holds what one
Non-Sequential fetch cycle at the handler brought before the old MOD and the return address were pushed. Every other
register but the PSR is as before. -/
def Frame (s t : State) (vector : Nat) (copy : Half) (ra : Addr) : Prop :=
  let a := s.sp0 - 8
  let m := s.poke (s.sp0 - 2) 2 copy
  let desc := m.peek32 (s.intbase + BitVec.ofNat 24 (4 * vector))
  let base : Addr := (desc.setWidth 16 : Half).setWidth 24
  let n := if t.pc.getLsbD 0 then 1 else 2
  t.sp0 = a ∧ t.peek32 a = ra.setWidth 32 ∧ t.peek16 (a + 4) = s.modReg ∧ t.peek16 (a + 6) = copy ∧
  MemFrame s t (some a) 8 ∧
  t.modReg = desc.setWidth 16 ∧ t.sb = (m.peek32 base).setWidth 24 ∧
  t.pc = (m.peek32 (base + 8) + (desc.extractLsb' 16 16).setWidth 32).setWidth 24 ∧
  t.queue = loadBytes m.mem t.pc n ∧ t.fetchPc = t.pc + BitVec.ofNat 24 n ∧ t.broken = false ∧
  t.regs = s.regs ∧ t.sp1 = s.sp1 ∧ t.fp = s.fp ∧ t.intbase = s.intbase ∧ t.cfg = s.cfg ∧ t.fregs = s.fregs ∧
  t.fsingles = s.fsingles ∧ t.fsr = s.fsr

/-- The state `t` follows from a trap other than TRC taken by the instruction at PC of `s` (60_exceptions.md R520): PSR
bits S, U, P and T are cleared, the copy on the stack is the PSR of `s`, the return address is PC of `s`. -/
def Trapped (s t : State) (vector : Nat) : Prop :=
  Frame s t vector s.psr s.pc ∧ t.psr = s.psr &&& ~~~0x0702

/-- The floating-point instructions (47_floating_point.md R391). -/
def isFloat : Instr → Bool
  | .movif _ _ _ _ | .lfsr _ | .movlf _ _ | .movfl _ _ | .roundfi _ _ _ _ | .truncfi _ _ _ _ | .sfsr _
  | .floorfi _ _ _ _ | .addf _ _ _ | .movf _ _ _ | .cmpf _ _ _ | .subf _ _ _ | .negf _ _ _ | .divf _ _ _
  | .mulf _ _ _ | .absf _ _ _ | .polyf _ _ _ | .dotf _ _ _ | .scalbf _ _ _ | .logbf _ _ _ => true
  | _ => false

/-- The value of the low `d` decimal digits of a packed number, if they are decimal digits (R236). -/
def decimalValue (x : Nat) : Nat → Option Nat
  | 0 => some 0
  | d + 1 => (decimalValue (x / 16) d).bind fun v => if x % 16 ≤ 9 then some (x % 16 + 10 * v) else none

/-- The number of a normalised floating bit pattern (47_floating_point.md R393): sign, exponent with bias 127 or 1023,
fraction of 23 or 52 bits with a hidden 1. -/
def number (t : FSize) (v : Quad) : Option ℚ :=
  let m : ℕ := match t with | .f => 23 | .l => 52
  let k : ℕ := match t with | .f => 8 | .l => 11
  let e : ℕ := v.toNat / 2 ^ m % 2 ^ k
  let x : ℚ := (1 + ((v.toNat % 2 ^ m : ℕ) : ℚ) / 2 ^ m) * 2 ^ ((e : ℤ) - (2 ^ (k - 1) - 1))
  if e = 0 ∨ e = 2 ^ k - 1 then none else some (if v.getLsbD (m + k) then -x else x)

/-- `v` is the normalised bit pattern of the number `q`, in the width of the format. -/
def IsNumber (t : FSize) (v : Quad) (q : ℚ) : Prop := number t v = some q ∧ v.toNat < 2 ^ (8 * t.bytes)

/-- An FPU that runs `i` is attached and CFG.F is set: Format 12 needs an NS32381 (47_floating_point.md R390, R394). -/
def FpuReady (i : Instr) (s : State) : Prop :=
  s.cfgF = true ∧ (s.fpu = .ns32381 ∨ s.fpu = .ns32081 ∧ (slaveHead i).1 ≠ 0xFE)

/-- A value with bit `k` replaced. -/
def withBit {w : Nat} (v : BitVec w) (k : Nat) (x : Bool) : BitVec w :=
  v ^^^ ((BitVec.ofBool (v.getLsbD k != x)).setWidth w <<< k)

end Sys2Proof.Safety
end

