-- ==== Sys2Proof/Certificates/Slice0/Obligations.lean ====
section
/-!
DEFINITION. The statements for the provers. Where a statement says `Completes i s t a n`, executing `i` in `s` answers a
next state that is `t` but for the bus log, and of memory at most the `n` bytes stored from `a` on differ from `s`;
`t` is written as updates of `s.begin`, which is `s` with PSR.T copied to PSR.P (60_exceptions.md R521), so that every
register and flag that no update names is as before. `Answers s` says that memory answers at every address and that
nothing comes between the bus cycles; `Ram s` that all addresses are RAM besides.
-/
open Sys2Proof Sys2Proof.Machine Sys2Proof.Safety

/-! ## Integer arithmetic -/

/-- ADDi, ADDCi, SUBi, SUBCi (R221, R222, R224, R225, R226): `b + a`, `b + a + C`, `b - a`, `b - a - C` for the
operands `a` = src and `b` = dst, C the carry or borrow of the unsigned numbers, F the overflow of the signed ones.
ADDQi (R223): the constant, sign-extended, is added. No other flag changes. -/
def Obligations.AddSubtract : Prop :=
  (∀ (i : Size) (src dst : Gen) (s : State), Answers s →
    let n := i.bytes
    let a := s.begin.operand src n
    let s1 := s.begin.afterRead src n
    let p := s1.rmwPlace dst
    let b := s1.at p n
    let c := (s.flag .c).toNat
    let done (j : Instr) (r : BitVec (8 * n)) (carry : Prop) [Decidable carry] (x : Int) : Prop :=
      let f := decide (¬(-(2 ^ (8 * n - 1) : Int) ≤ x ∧ x < (2 ^ (8 * n - 1) : Int)))
      Completes j s { ((s1.putCF (decide carry) f).put p n r) with pc := s.next j } (s1.storeAddr p n) n
    ((Instr.addi i src dst).WF →
      done (.addi i src dst) (b + a) (2 ^ (8 * n) ≤ b.toNat + a.toNat) (b.toInt + a.toInt)) ∧
    ((Instr.addci i src dst).WF →
      done (.addci i src dst) (b + a + BitVec.ofNat _ c) (2 ^ (8 * n) ≤ b.toNat + a.toNat + c) (b.toInt + a.toInt + c)) ∧
    ((Instr.subi i src dst).WF →
      done (.subi i src dst) (b - a) (b.toNat < a.toNat) (b.toInt - a.toInt)) ∧
    ((Instr.subci i src dst).WF →
      done (.subci i src dst) (b - a - BitVec.ofNat _ c) (b.toNat < a.toNat + c) (b.toInt - a.toInt - c))) ∧
  (∀ (i : Size) (q : BitVec 4) (dst : Gen) (s : State), Answers s →
    let n := i.bytes
    let j := Instr.addqi i q dst
    let a : BitVec (8 * n) := q.signExtend _
    let p := s.begin.rmwPlace dst
    let b := s.begin.at p n
    let x := b.toInt + a.toInt
    let c := decide (2 ^ (8 * n) ≤ b.toNat + a.toNat)
    let f := decide (¬(-(2 ^ (8 * n - 1) : Int) ≤ x ∧ x < (2 ^ (8 * n - 1) : Int)))
    j.WF → Completes j s { ((s.begin.putCF c f).put p n (b + a)) with pc := s.next j } (s.begin.storeAddr p n) n)

/-- MULi, ANDi, ORi, BICi, XORi (R229, R255 to R258): the low part of the product and the bitwise operations; no flag
changes. -/
def Obligations.MultiplyLogical : Prop := ∀ (i : Size) (src dst : Gen) (s : State), Answers s →
  let n := i.bytes
  let a := s.begin.operand src n
  let s1 := s.begin.afterRead src n
  let p := s1.rmwPlace dst
  let b := s1.at p n
  let done (j : Instr) (r : BitVec (8 * n)) : Prop :=
    Completes j s { (s1.put p n r) with pc := s.next j } (s1.storeAddr p n) n
  ((Instr.muli i src dst).WF → done (.muli i src dst) (BitVec.ofInt _ (b.toInt * a.toInt))) ∧
  ((Instr.andi i src dst).WF → done (.andi i src dst) (b &&& a)) ∧
  ((Instr.ori i src dst).WF → done (.ori i src dst) (b ||| a)) ∧
  ((Instr.bici i src dst).WF → done (.bici i src dst) (b &&& ~~~a)) ∧
  ((Instr.xori i src dst).WF → done (.xori i src dst) (b ^^^ a))

/-- QUOi, REMi, DIVi, MODi with a divisor that is not zero (R230, R231, R232, R235, R238): the quotient rounded toward
zero and its remainder, the quotient rounded down and its modulus. For the most negative number by -1 the result is
some free value (assumption 23, D12); all else is the same. -/
def Obligations.Divide : Prop := ∀ (i : Size) (src dst : Gen) (s : State), Answers s →
  let n := i.bytes
  let a := s.begin.operand src n
  let s1 := s.begin.afterRead src n
  let p := s1.rmwPlace dst
  let b := s1.at p n
  let overflow := b = BitVec.intMin (8 * n) ∧ a.toInt = -1
  let done (j : Instr) (ok : BitVec (8 * n) → Prop) : Prop :=
    ∃ (r : BitVec (8 * n)) (k : Nat), (¬overflow → ok r ∧ k = s.draws) ∧
      Completes j s { (s1.put p n r) with pc := s.next j, draws := k } (s1.storeAddr p n) n
  a ≠ 0 →
  ((Instr.quoi i src dst).WF → done (.quoi i src dst) fun r => r.toInt = b.toInt.tdiv a.toInt) ∧
  ((Instr.remi i src dst).WF → done (.remi i src dst) fun r => r.toInt = b.toInt - a.toInt * b.toInt.tdiv a.toInt) ∧
  ((Instr.divi i src dst).WF → done (.divi i src dst) fun r => r.toInt = b.toInt.fdiv a.toInt) ∧
  ((Instr.modi i src dst).WF → done (.modi i src dst) fun r => r.toInt = b.toInt - a.toInt * b.toInt.fdiv a.toInt)

/-- QUOi, REMi, DIVi, MODi, DEIi with a divisor of zero take Trap(DVZ), vector 6 (R230 to R235, R526): the destination
is unchanged, and so is the stack pointer of a Top of Stack divisor. The premise that memory is RAM and in its
canonical form lets the frame on the stack be read back. That the entry makes one fetch cycle at the handler, no more,
is inferred (assumption 43); that the PSR copy is the PSR from before T is copied to P is D51, inferred (assumption
28). -/
def Obligations.DivideByZero : Prop := ∀ (i : Size) (src dst : Gen) (s : State), Ram s →
  Memory.wf s.mem = true → s.begin.operand src i.bytes = 0 →
  ∀ j ∈ [Instr.quoi i src dst, .remi i src dst, .divi i src dst, .modi i src dst, .deii i src dst],
    j.WF → ∃ t, exec j s = .next t ∧ Trapped s t 6

/-- NEGi, ABSi, COMi, NOTi (R227, R228, R259, R260): `0 - a` with borrow and overflow, the absolute value with
overflow, all bits inverted, bit 0 inverted. COM and NOT write no flag, ABS writes F only. -/
def Obligations.NegateComplement : Prop := ∀ (i : Size) (src dst : Gen) (s : State), Answers s →
  let n := i.bytes
  let a := s.begin.operand src n
  let s1 := s.begin.afterRead src n
  let p := s1.writePlaceOf dst
  let least := decide (a = BitVec.intMin (8 * n))
  let done (j : Instr) (s2 : State) (r : BitVec (8 * n)) : Prop :=
    Completes j s { (s2.put p n r) with pc := s.next j } (s1.storeAddr p n) n
  ((Instr.negi i src dst).WF → done (.negi i src dst) (s1.putCF (decide (a ≠ 0)) least) (-a)) ∧
  ((Instr.absi i src dst).WF → done (.absi i src dst) (s1.putFlag .f least) (BitVec.ofInt _ |a.toInt|)) ∧
  ((Instr.comi i src dst).WF → done (.comi i src dst) s1 (~~~a)) ∧
  ((Instr.noti i src dst).WF → done (.noti i src dst) s1 (a ^^^ 1))

/-- MEIi (R233): the 2n-bit unsigned product of src and the low half of the destination, its low half to the place of
the low half and its high half to the register after it or the bytes after it. A Top of Stack pair is used in place
(assumption 37). -/
def Obligations.MultiplyExtended : Prop := ∀ (i : Size) (src dst : Gen) (s : State), Answers s →
  let n := i.bytes
  let j := Instr.meii i src dst
  let a := s.begin.operand src n
  let s1 := s.begin.afterRead src n
  let p := s1.rmwPlace dst
  let x := a.toNat * (s1.at p n).toNat
  let lo : BitVec (8 * n) := BitVec.ofNat _ x
  let hi : BitVec (8 * n) := BitVec.ofNat _ (x / 2 ^ (8 * n))
  j.WF →
  match p with
  | .reg r => Completes j s { ((s1.setRegLow (r + 1) hi).setRegLow r lo) with pc := s.next j } none n
  | .mem e => Completes j s { ((s1.poke (e + BitVec.ofNat 24 n) n hi).poke e n lo) with pc := s.next j } (some e) (2 * n)
  | .push => False

/-- DEIi with a divisor that is not zero (R234): the 2n-bit dividend is the pair of registers or the 2n bits in
memory; the remainder goes to the low half and the quotient to the high half. Where the quotient does not fit both are
free values (assumption 23, D13). -/
def Obligations.DivideExtended : Prop := ∀ (i : Size) (src dst : Gen) (s : State), Answers s →
  let n := i.bytes
  let j := Instr.deii i src dst
  let a := s.begin.operand src n
  let s1 := s.begin.afterRead src n
  j.WF → a ≠ 0 →
  match s1.rmwPlace dst with
  | .reg r =>
    let d := ((s1.reg (r + 1)).toNat % 2 ^ (8 * n)) * 2 ^ (8 * n) + (s1.reg r).toNat % 2 ^ (8 * n)
    ∃ (rem quo : BitVec (8 * n)) (k : Nat),
      (d / a.toNat < 2 ^ (8 * n) → rem.toNat = d % a.toNat ∧ quo.toNat = d / a.toNat ∧ k = s.draws) ∧
      Completes j s { ((s1.setRegLow r rem).setRegLow (r + 1) quo) with pc := s.next j, draws := k } none n
  | .mem e =>
    let d := (s1.peek e (2 * n)).toNat
    ∃ (rem quo : BitVec (8 * n)) (k : Nat),
      (d / a.toNat < 2 ^ (8 * n) → rem.toNat = d % a.toNat ∧ quo.toNat = d / a.toNat ∧ k = s.draws) ∧
      Completes j s { (s1.poke e (2 * n) (quo ++ rem)) with pc := s.next j, draws := k } (some e) (2 * n)
  | .push => False

/-- ADDPi and SUBPi (R236, R237): with decimal digits in both operands, the decimal sum or difference with carry or
borrow modulo 10^d of d = 2 * size(i) digits; F is a free value (assumption 23, D15). With any other digit the
instructions complete with some result and some C. -/
def Obligations.Packed : Prop := ∀ (i : Size) (src dst : Gen) (s : State), Answers s →
  let n := i.bytes
  let a := s.begin.operand src n
  let s1 := s.begin.afterRead src n
  let p := s1.rmwPlace dst
  let b := s1.at p n
  let c := (s.flag .c).toNat
  let done (j : Instr) (ok : BitVec (8 * n) → Bool → Prop) : Prop :=
    ∃ (r : BitVec (8 * n)) (carry f : Bool) (k : Nat), ok r carry ∧
      Completes j s { ((s1.putCF carry f).put p n r) with pc := s.next j, draws := k } (s1.storeAddr p n) n
  let digits (x : BitVec (8 * n)) := decimalValue x.toNat (2 * n)
  ((Instr.addpi i src dst).WF → done (.addpi i src dst) fun r carry => ∀ x ∈ digits a, ∀ y ∈ digits b,
    digits r = some ((y + x + c) % 10 ^ (2 * n)) ∧ carry = decide (10 ^ (2 * n) ≤ y + x + c)) ∧
  ((Instr.subpi i src dst).WF → done (.subpi i src dst) fun r carry => ∀ x ∈ digits a, ∀ y ∈ digits b,
    digits r = some ((y + 10 ^ (2 * n) - (x + c)) % 10 ^ (2 * n)) ∧ carry = decide (y < x + c))

/-! ## Moves -/

/-- MOVi, MOVZBW, MOVZiD, MOVXBW, MOVXiD (R201, R204 to R207): the source as it is, zero-extended or sign-extended; no
flag changes. -/
def Obligations.Move : Prop := ∀ (i : Size) (src dst : Gen) (s : State), Answers s →
  let done (j : Instr) (n m : Nat) (f : BitVec (8 * n) → BitVec (8 * m)) : Prop :=
    let s1 := s.begin.afterRead src n
    let p := s1.writePlaceOf dst
    Completes j s { (s1.put p m (f (s.begin.operand src n))) with pc := s.next j } (s1.storeAddr p m) m
  ((Instr.movi i src dst).WF → done (.movi i src dst) i.bytes i.bytes id) ∧
  ((Instr.movzbw src dst).WF → done (.movzbw src dst) 1 2 fun a => BitVec.ofNat _ a.toNat) ∧
  ((Instr.movzid i src dst).WF → done (.movzid i src dst) i.bytes 4 fun a => BitVec.ofNat _ a.toNat) ∧
  ((Instr.movxbw src dst).WF → done (.movxbw src dst) 1 2 fun a => BitVec.ofInt _ a.toInt) ∧
  ((Instr.movxid i src dst).WF → done (.movxid i src dst) i.bytes 4 fun a => BitVec.ofInt _ a.toInt)

/-- MOVQi and Scondi (R202, R261): the constant sign-extended; 1 where the condition of R165 holds, 0 elsewhere. The
sixteen conditions (R165): their codes, and the flags they test, by the flags' places in the PSR (R30). ADDR and CVTP
(R208, R294): the full 32-bit effective address, and eight times it plus the offset register. -/
def Obligations.QuickConditionAddress : Prop :=
  (∀ (i : Size) (q : BitVec 4) (c : Cond) (dst : Gen) (s : State), Answers s →
    let n := i.bytes
    let p := s.begin.writePlaceOf dst
    let done (j : Instr) (r : BitVec (8 * n)) : Prop :=
      Completes j s { (s.begin.put p n r) with pc := s.next j } (s.begin.storeAddr p n) n
    ((Instr.movqi i q dst).WF → done (.movqi i q dst) (BitVec.ofInt _ q.toInt)) ∧
    ((Instr.scondi i c dst).WF → done (.scondi i c dst) (if s.holds c then 1 else 0))) ∧
  (∀ s : State,
    let c := s.psr.getLsbD 0
    let l := s.psr.getLsbD 2
    let f := s.psr.getLsbD 5
    let z := s.psr.getLsbD 6
    let n := s.psr.getLsbD 7
    let table : List (BitVec 4 × Cond × Bool) :=
      [(0, .eq, z), (1, .ne, !z), (2, .cs, c), (3, .cc, !c), (4, .hi, l), (5, .ls, !l), (6, .gt, n), (7, .le, !n),
       (8, .fs, f), (9, .fc, !f), (10, .lo, !l && !z), (11, .hs, l || z), (12, .lt, !n && !z), (13, .ge, n || z),
       (14, .always, true), (15, .never, false)]
    ∀ x ∈ table, condOf x.1 = x.2.1 ∧ s.holds x.2.1 = x.2.2) ∧
  (∀ (r : RegNo) (src dst : Gen) (s : State), Answers s →
    let p := s.begin.writePlaceOf dst
    let done (j : Instr) (v : DWord) : Prop :=
      Completes j s { (s.begin.put p 4 v) with pc := s.next j } (s.begin.storeAddr p 4) 4
    ((Instr.addr src dst).WF → done (.addr src dst) (s.begin.ea src)) ∧
    ((Instr.cvtp r src dst).WF → done (.cvtp r src dst) (8 * s.begin.ea src + s.reg r)))

/-- MOVMi (R203): the block of disp + size bytes, element by element in ascending order. CMPMi (R254): the flags of
the first unequal pair of elements, Z = 1 and N = L = 0 if there is none. -/
def Obligations.BlockMoveCompare : Prop :=
  (∀ (i : Size) (b1 b2 : Gen) (d : Disp) (s : State), Answers s →
    let j := Instr.movmi i b1 b2 d
    let a : Addr := (s.begin.ea b1).setWidth 24
    let b : Addr := (s.begin.ea b2).setWidth 24
    let k := (d.val / i.bytes + 1).toNat
    j.WF → Completes j s { (State.copied i.bytes k a b s.begin) with pc := s.next j } (some b) (k * i.bytes)) ∧
  (∀ (i : Size) (b1 b2 : Gen) (d : Disp) (s : State), Answers s →
    let n := i.bytes
    let j := Instr.cmpmi i b1 b2 d
    let x (k : Nat) := s.begin.peek ((s.begin.ea b1).setWidth 24 + BitVec.ofNat 24 (k * n)) n
    let y (k : Nat) := s.begin.peek ((s.begin.ea b2).setWidth 24 + BitVec.ofNat 24 (k * n)) n
    let done (z m l : Bool) : Prop :=
      Completes j s { (((s.begin.putFlag .z z).putFlag .n m).putFlag .l l) with pc := s.next j } none n
    let count := (d.val / n + 1).toNat
    j.WF →
      ((∀ k < count, x k = y k) → done true false false) ∧
      ∀ k < count, (∀ m < k, x m = y m) → x k ≠ y k →
        done false (decide ((y k).toInt < (x k).toInt)) (decide ((y k).toNat < (x k).toNat)))

/-! ## Comparison and shifts -/

/-- CMPi and CMPQi (R251, R252, R253): Z, N and L compare the second operand `b` with the first, `a`. -/
def Obligations.Compare : Prop := ∀ (i : Size) (q : BitVec 4) (g1 g2 : Gen) (s : State), Answers s →
  let n := i.bytes
  let done (j : Instr) (a b : BitVec (8 * n)) (s1 : State) : Prop :=
    Completes j s { (((s1.putFlag .z (decide (b = a))).putFlag .n (decide (b.toInt < a.toInt))).putFlag .l
      (decide (b.toNat < a.toNat))) with pc := s.next j } none n
  let s1 := s.begin.afterRead g1 n
  ((Instr.cmpi i g1 g2).WF →
    done (.cmpi i g1 g2) (s.begin.operand g1 n) (s1.operand g2 n) (s1.afterRead g2 n)) ∧
  ((Instr.cmpqi i q g2).WF →
    done (.cmpqi i q g2) (BitVec.ofInt _ q.toInt) (s.begin.operand g2 n) (s.begin.afterRead g2 n))

/-- LSHi, ASHi, ROTi (R262 to R265): a signed byte count within -(n-1) to n-1 shifts or rotates left, a negative one
right; for any other count the result is a free value (assumption 23, D11). No flag changes. -/
def Obligations.Shift : Prop := ∀ (i : Size) (count dst : Gen) (s : State), Answers s →
  let n := i.bytes
  let c := (s.begin.operand count 1).toInt
  let s1 := s.begin.afterRead count 1
  let p := s1.rmwPlace dst
  let b := s1.at p n
  let done (j : Instr) (ok : BitVec (8 * n) → Prop) : Prop :=
    ∃ (r : BitVec (8 * n)) (k : Nat), (c.natAbs ≤ 8 * n - 1 → ok r ∧ k = s.draws) ∧
      Completes j s { (s1.put p n r) with pc := s.next j, draws := k } (s1.storeAddr p n) n
  let left := b.toNat * 2 ^ c.toNat
  ((Instr.lshi i count dst).WF → done (.lshi i count dst) fun r =>
    r.toNat = if 0 ≤ c then left % 2 ^ (8 * n) else b.toNat / 2 ^ (-c).toNat) ∧
  ((Instr.ashi i count dst).WF → done (.ashi i count dst) fun r =>
    if 0 ≤ c then r.toNat = left % 2 ^ (8 * n) else r.toInt = b.toInt.fdiv (2 ^ (-c).toNat)) ∧
  ((Instr.roti i count dst).WF → done (.roti i count dst) fun r =>
    let m := (c % (8 * n : Nat)).toNat
    r.toNat = (b.toNat * 2 ^ m + b.toNat / 2 ^ (8 * n - m)) % 2 ^ (8 * n))

/-! ## Bits, bit fields, arrays -/

/-- TBITi, SBITi, SBITIi, CBITi, CBITIi, IBITi on a bit in memory (R281 to R287): for a signed offset the bit is bit
(offset mod 8) of the byte at the base plus (offset div 8), both rounded down; F is its old value; it is kept, set,
cleared or inverted. The same on a bit of a general register for an offset of 0 to 31 (R281 to R287); any other offset
is refused (R281, D46). The field operandPolicy is the model's own choice (assumption 17): where it says so, such an
instruction runs, F is a free value, and so is the register, unless the instruction is TBIT. That a Top of Stack base
has SP as its address and leaves SP unchanged is the model's choice (assumption 46). -/
def Obligations.Bits : Prop :=
  (∀ (i : Size) (off base : Gen) (s : State), Answers s →
    let n := i.bytes
    let o := (s.begin.operand off n).toInt
    let s1 := s.begin.afterRead off n
    let a : Addr := (s1.ea base + BitVec.ofInt 32 (o.fdiv 8)).setWidth 24
    let k := (o % 8).toNat
    let x := (s1.byteAt a).getLsbD k
    let done (j : Instr) (y : Bool) : Prop :=
      Completes j s { ((s1.poke a 1 (withBit (s1.byteAt a) k y)).putFlag .f x) with pc := s.next j } (some a) 1
    (∀ r, base ≠ .base (.reg r)) →
    ((Instr.tbiti i off base).WF → Completes (.tbiti i off base) s
      { (s1.putFlag .f x) with pc := s.next (.tbiti i off base) } none 1) ∧
    ((Instr.sbiti i off base).WF → done (.sbiti i off base) true) ∧
    ((Instr.sbitii i off base).WF → done (.sbitii i off base) true) ∧
    ((Instr.cbiti i off base).WF → done (.cbiti i off base) false) ∧
    ((Instr.cbitii i off base).WF → done (.cbitii i off base) false) ∧
    ((Instr.ibiti i off base).WF → done (.ibiti i off base) (!x))) ∧
  (∀ (i : Size) (off : Gen) (r : RegNo) (s : State), Answers s →
    let n := i.bytes
    let base : Gen := .base (.reg r)
    let o := (s.begin.operand off n).toInt
    let s1 := s.begin.afterRead off n
    let x := (s.reg r).getLsbD o.toNat
    let inside := 0 ≤ o ∧ o ≤ 31
    let runs (j : Instr) (goal : Prop) : Prop := j.WF →
      (¬inside → s.operandPolicy = .refuse → exec j s = .refused .outsideField) ∧
      (inside ∨ s.operandPolicy = .free → goal)
    let done (j : Instr) (y : Bool) : Prop := runs j (∃ (v : DWord) (f : Bool) (k : Nat),
      (inside → v = withBit (s.reg r) o.toNat y ∧ f = x ∧ k = s.draws) ∧
      Completes j s { ((s1.setReg r v).putFlag .f f) with pc := s.next j, draws := k } none 1)
    runs (.tbiti i off base) (∃ (f : Bool) (k : Nat), (inside → f = x ∧ k = s.draws) ∧
      Completes (.tbiti i off base) s { (s1.putFlag .f f) with pc := s.next (.tbiti i off base), draws := k } none 1) ∧
    done (.sbiti i off base) true ∧ done (.sbitii i off base) true ∧ done (.cbiti i off base) false ∧
    done (.cbitii i off base) false ∧ done (.ibiti i off base) (!x))

/-- FFSi (R289): the number of the first set bit from the starting offset on and F = 0, or 0 and F = 1 if there is
none. CHECKi (R295): the upper bound at the effective address, the lower bound after it; within them the register is
the index less the lower bound and F = 0, else F = 1 and the register is a free value (assumption 23, D14). INDEXi
(R296): the register times (length + 1) plus the index, byte and word operands extended as the parameter INDEX_EXT
says (assumption 21). -/
def Obligations.SearchCheckIndex : Prop :=
  (∀ (i : Size) (base off : Gen) (s : State), Answers s →
    let n := i.bytes
    let j := Instr.ffsi i base off
    let v := s.begin.operand base n
    let s1 := s.begin.afterRead base n
    let p := s1.rmwPlace off
    let o := (s1.at p 1).toNat
    let done (k : Nat) (f : Bool) : Prop :=
      Completes j s { ((s1.putFlag .f f).put p 1 (BitVec.ofNat _ k)) with pc := s.next j } (s1.storeAddr p 1) 1
    j.WF →
      (∀ k < 8 * n, o ≤ k → v.getLsbD k = true → (∀ m < k, o ≤ m → v.getLsbD m = false) → done k false) ∧
      ((∀ m < 8 * n, o ≤ m → v.getLsbD m = false) → done 0 true)) ∧
  (∀ (i : Size) (r : RegNo) (bounds src : Gen) (s : State), Answers s →
    let n := i.bytes
    let j := Instr.checki i r bounds src
    let e : Addr := (s.begin.ea bounds).setWidth 24
    let u := (s.begin.peek e n).toInt
    let l := (s.begin.peek (e + BitVec.ofNat 24 n) n).toInt
    let x := (s.begin.operand src n).toInt
    let s1 := s.begin.afterRead src n
    let done (f : Bool) (v : DWord) (k : Nat) : Prop :=
      Completes j s { ((s1.putFlag .f f).setReg r v) with pc := s.next j, draws := k } none n
    j.WF → (l ≤ x ∧ x ≤ u → done false (BitVec.ofInt 32 (x - l)) s.draws) ∧
      (x < l ∨ u < x → ∃ v k, done true v k)) ∧
  (∀ (i : Size) (r : RegNo) (len idx : Gen) (s : State), Answers s →
    let n := i.bytes
    let j := Instr.indexi i r len idx
    let s1 := s.begin.afterRead len n
    let ext (v : BitVec (8 * n)) : Int := if Config.indexSigned then v.toInt else v.toNat
    let v := (s.reg r).toNat * (ext (s.begin.operand len n) + 1) + ext (s1.operand idx n)
    j.WF → Completes j s { ((s1.afterRead idx n).setReg r (BitVec.ofInt 32 v)) with pc := s.next j } none n)

/-- EXTi and EXTSi (R288, R290, R292): the field of a register or of the double-word at the byte of its first bit,
right-aligned and zero-extended, cut to the size of the destination. A field that passes bit 31 is refused (R288,
D46). The field operandPolicy is the model's own choice (assumption 18): where it says so, such an instruction runs
and stores a free value. That a Top of Stack base has SP as its address and leaves SP unchanged is the model's choice
(assumption 46). -/
def Obligations.ExtractField : Prop := ∀ (i : Size) (r : RegNo) (base dst : Gen) (len : Disp) (o3 : BitVec 3)
    (l5 : BitVec 5) (s : State), Answers s →
  let n := i.bytes
  let p := s.begin.writePlaceOf dst
  let field (o : Int) (len : Nat) : Option Nat :=
    match base with
    | .base (.reg q) => if 0 ≤ o ∧ o + len ≤ 32 then some ((s.reg q).toNat / 2 ^ o.toNat % 2 ^ len) else none
    | _ =>
      let k := (o % 8).toNat
      let d := s.begin.peek32 ((s.begin.ea base + BitVec.ofInt 32 (o.fdiv 8)).setWidth 24)
      if k + len ≤ 32 then some (d.toNat / 2 ^ k % 2 ^ len) else none
  let done (j : Instr) (o : Int) (len : Nat) : Prop :=
    (field o len = none → s.operandPolicy = .refuse → exec j s = .refused .outsideField) ∧
    (field o len ≠ none ∨ s.operandPolicy = .free → ∃ (v : BitVec (8 * n)) (k : Nat),
      (∀ x ∈ field o len, v = BitVec.ofNat _ x ∧ k = s.draws) ∧
      Completes j s { (s.begin.put p n v) with pc := s.next j, draws := k } (s.begin.storeAddr p n) n)
  ((Instr.exti i r base dst len).WF → done (.exti i r base dst len) (s.reg r).toInt len.val.toNat) ∧
  ((Instr.extsi i base dst o3 l5).WF → done (.extsi i base dst o3 l5) o3.toNat (l5.toNat + 1))

/-- INSi and INSSi (R288, R291, R293): the low bits of the source replace the field; every bit outside it is kept. A
field that passes bit 31 is refused (R288, D46). The field operandPolicy is the model's own choice (assumption 18):
where it says so, such an instruction runs, and leaves free values in the register, or in the double-word in memory
from the field's first bit on. That a Top of Stack base has SP as its address and leaves SP unchanged is the model's
choice (assumption 46). -/
def Obligations.InsertField : Prop := ∀ (i : Size) (r : RegNo) (src base : Gen) (len : Disp) (o3 : BitVec 3)
    (l5 : BitVec 5) (s : State), Answers s →
  let n := i.bytes
  let v := s.begin.operand src n
  let s1 := s.begin.afterRead src n
  let runs (j : Instr) (inside goal : Prop) : Prop :=
    (¬inside → s.operandPolicy = .refuse → exec j s = .refused .outsideField) ∧
    (inside ∨ s.operandPolicy = .free → goal)
  let done (j : Instr) (o : Int) (len : Nat) : Prop :=
    match base with
    | .base (.reg q) =>
      let inside := 0 ≤ o ∧ o + len ≤ 32
      runs j inside (∃ (d : DWord) (k : Nat),
        (inside → k = s.draws ∧ ∀ m : Nat, m < 32 →
          d.getLsbD m = if o ≤ m ∧ m < o + len then v.getLsbD (m - o.toNat) else (s.reg q).getLsbD m) ∧
        Completes j s { (s1.setReg q d) with pc := s.next j, draws := k } none 4)
    | _ =>
      let a : Addr := (s1.ea base + BitVec.ofInt 32 (o.fdiv 8)).setWidth 24
      let b := (o % 8).toNat
      let inside := b + len ≤ 32
      runs j inside (∃ (d : DWord) (k : Nat), (∀ m < b, d.getLsbD m = (s1.peek32 a).getLsbD m) ∧
        (inside → k = s.draws ∧ ∀ m < 32,
          d.getLsbD m = if b ≤ m ∧ m < b + len then v.getLsbD (m - b) else (s1.peek32 a).getLsbD m) ∧
        Completes j s { (s1.poke a 4 d) with pc := s.next j, draws := k } (some a) 4)
  ((Instr.insi i r src base len).WF → done (.insi i r src base len) (s1.reg r).toInt len.val.toNat) ∧
  ((Instr.inssi i src base o3 l5).WF → done (.inssi i src base o3 l5) o3.toNat (l5.toNat + 1))

/-! ## Strings -/

/-- MOVSi and MOVST (R310 to R312): String 1 is stored in String 2 element by element, until the count is 0 or option
U or W ends the instruction; or an interrupt suspends it (R317, R515 step 1a): PC stays at the instruction, P is
clear, and the registers hold the progress. Which pass is the last before an interrupt is an input (assumption 7).
What MOVSi and MOVST leave (R310, R33): the number of elements moved is what R0 lost; R1 and R2 moved by so many
elements; the other registers, the stack pointers and every flag but F and P are as before; of memory only the
elements of String 2 that were stored can differ, if no other master stores. -/
def Obligations.MoveString : Prop :=
  (∀ (i : Size) (o : StrOpts) (s : State), Answers s →
    let done (j : Instr) (n : Nat) (t : Bool) : Prop :=
      let limit := s.allowed (s.reg 0).toNat
      let u := State.moved n t o limit (s.begin.putFlag .f false)
      Ends j s (if limit = (s.reg 0).toNat ∨ u.flag .f = true then { u with pc := s.next j }
        else (u.putFlag .p false).jump s.pc)
    done (.movsi i o) i.bytes false ∧ done (.movst o) 1 true) ∧
  (∀ (i : Size) (o : StrOpts) (s t : State), Quiet s →
    let kept (n : Nat) : Prop :=
      let k := (s.reg 0 - t.reg 0).toNat
      let d := BitVec.ofNat 32 k * strStep n o
      (t.reg 0).toNat ≤ (s.reg 0).toNat ∧ t.reg 1 = s.reg 1 + d ∧ t.reg 2 = s.reg 2 + d ∧
      (∀ r : RegNo, 3 ≤ r.toNat → t.reg r = s.reg r) ∧ (∀ q : PsrBit, q ≠ .f → q ≠ .p → t.flag q = s.flag q) ∧
      t.sp0 = s.sp0 ∧ t.sp1 = s.sp1 ∧ t.fp = s.fp ∧ t.sb = s.sb ∧ t.modReg = s.modReg ∧ t.intbase = s.intbase ∧
      t.cfg = s.cfg ∧ t.fregs = s.fregs ∧ t.fsingles = s.fsingles ∧ t.fsr = s.fsr ∧
      ∀ a, (∀ m < k, Outside a ((s.reg 2 + BitVec.ofNat 32 m * strStep n o).setWidth 24) n) → t.byteAt a = s.byteAt a
    (exec (.movsi i o) s = .next t → kept i.bytes) ∧ (exec (.movst o) s = .next t → kept 1))

/-- CMPSi and CMPST (R313, R314): the first `k` elements match no option and are equal to those of String 2; then the
count is 0, or an option ends the instruction with F = 1, or the next elements differ and set Z, N, L. SKPSi and SKPST
(R315, R316): over the elements that match no option; R2 is not used. Each can be suspended after as many elements as
an interrupt leaves time for (R317, R515 step 1a): PC stays at the instruction, P is clear, the queue is discarded.
Which pass is the last before an interrupt is an input (assumption 7). -/
def Obligations.CompareSkipString : Prop :=
  (∀ (i : Size) (o : StrOpts) (s : State), Answers s →
    let count := (s.reg 0).toNat
    let limit := s.allowed count
    let done (j : Instr) (n : Nat) (t : Bool) : Prop :=
      ∀ k ≤ limit, (∀ m < k, s.ends n t o m = false ∧ s.element n t o m = s.element2 n o m) →
        let x := s.element n t o k
        let y := s.element2 n o k
        let at_ (f z m l : Bool) : State := ((((s.begin.putFlag .f f).putFlag .z z).putFlag .n m).putFlag .l l).stepped
          n o true k
        let ends (u : State) : Prop := Completes j s { u with pc := s.next j } none n
        (k = count → ends (at_ false true false false)) ∧
        (k < limit → s.ends n t o k = true → ends (at_ true true false false)) ∧
        (k < limit → s.ends n t o k = false → x ≠ y →
          ends (at_ false false (decide (y.toInt < x.toInt)) (decide (y.toNat < x.toNat)))) ∧
        (k = limit → limit < count →
          Completes j s (((at_ false true false false).putFlag .p false).jump s.pc) none n)
    done (.cmpsi i o) i.bytes false ∧ done (.cmpst o) 1 true) ∧
  (∀ (i : Size) (o : StrOpts) (s : State), Answers s →
    let count := (s.reg 0).toNat
    let limit := s.allowed count
    let done (j : Instr) (n : Nat) (t : Bool) : Prop :=
      ∀ k ≤ limit, (∀ m < k, s.ends n t o m = false) →
        let at_ (f : Bool) : State := (s.begin.putFlag .f f).stepped n o false k
        let ends (u : State) : Prop := Completes j s { u with pc := s.next j } none n
        (k = count → ends (at_ false)) ∧ (k < limit → s.ends n t o k = true → ends (at_ true)) ∧
        (k = limit → limit < count → Completes j s (((at_ false).putFlag .p false).jump s.pc) none n)
    done (.skpsi i o) i.bytes false ∧ done (.skpst o) 1 true)

/-- An interrupt suspends MOVSi or MOVST, with any options, after `k` passes (R317, R515 step 1a): PC stays at the
instruction, P is clear, the queue is discarded, the registers hold the progress, and running it again to its end
gives what an uninterrupted run gives but for the instruction queue. Where an option ends it within `k` passes it is
not suspended, and leaves what an uninterrupted run leaves. Which pass is the last is an input (assumption 7). -/
def Obligations.MoveStringResumes : Prop := ∀ (i : Size) (o : StrOpts) (s : State) (k : Nat), Answers s →
  s.suspend = some k → k < (s.reg 0).toNat → ∀ j ∈ [Instr.movsi i o, .movst o], j.WF →
  ∃ t v, exec j s = .next t ∧ exec j { s with suspend := none } = .next v ∧
    if (s.reg 0).toNat < (v.reg 0).toNat + k then Agree { t with suspend := none } v
    else t.pc = s.pc ∧ t.flag .p = false ∧ t.queue = [] ∧ (t.reg 0).toNat + k = (s.reg 0).toNat ∧
      ∃ u, exec j { t with suspend := none } = .next u ∧ Agree (u.jump u.pc) (v.jump v.pc)

/-! ## Jumps and linkage -/

/-- BR, Bcond, JUMP, CASEi (R331 to R335; the conditions are those of R165, see QuickConditionAddress): a transfer of
control goes to PC + disp, to the effective address, or to PC plus the sign-extended operand, modulo 2^24, and
discards the queue; a branch whose condition does not hold goes on. No flag changes. The base of a displacement is the
address of the instruction itself (assumption 24). That CASEi takes a register or an immediate operand is the model's
choice: the operand is of class read, as the rule of CASEi has it, against the list of R129 (assumption 42). -/
def Obligations.Jump : Prop := ∀ (i : Size) (c : Cond) (d : Disp) (g : Gen) (s : State), Answers s →
  let done (j : Instr) (s1 : State) (a : Addr) : Prop := Completes j s (s1.jump a) none 0
  let target : Addr := s.pc + BitVec.ofInt 24 d.val
  ((Instr.br d).WF → done (.br d) s.begin target) ∧
  ((Instr.bcond c d).WF → s.holds c = true → done (.bcond c d) s.begin target) ∧
  ((Instr.bcond c d).WF → s.holds c = false →
    Completes (.bcond c d) s { s.begin with pc := s.next (.bcond c d) } none 0) ∧
  ((Instr.jump g).WF → done (.jump g) s.begin ((s.begin.ea g).setWidth 24)) ∧
  ((Instr.casei i g).WF → done (.casei i g) (s.begin.afterRead g i.bytes)
    (s.pc + BitVec.ofInt 24 (s.begin.operand g i.bytes).toInt))

/-- ACBi (R336): the index plus the constant is stored back; unless it is 0 the branch is taken. No flag changes. -/
def Obligations.AddCompareBranch : Prop := ∀ (i : Size) (q : BitVec 4) (g : Gen) (d : Disp) (s : State), Answers s →
  let n := i.bytes
  let j := Instr.acbi i q g d
  let p := s.begin.rmwPlace g
  let r := s.begin.at p n + BitVec.ofInt _ q.toInt
  j.WF →
    (r = 0 → Completes j s { (s.begin.put p n r) with pc := s.next j } (s.begin.storeAddr p n) n) ∧
    (r ≠ 0 → Completes j s ((s.begin.put p n r).jump (s.pc + BitVec.ofInt 24 d.val)) (s.begin.storeAddr p n) n)

/-- JSR, BSR, RET (R337, R338, R339): the return address is pushed as a double-word; the effective address of JSR is
taken before the push; RET pops it and discards disp bytes. -/
def Obligations.Subroutine : Prop := ∀ (g : Gen) (d : Disp) (s : State), Answers s →
  let call (j : Instr) (a : Addr) : Prop :=
    let s1 := s.begin.setSp (s.sp - 4)
    Completes j s ((s1.poke (s.sp - 4) 4 ((s.next j).setWidth 32)).jump a) (some (s.sp - 4)) 4
  ((Instr.jsr g).WF → call (.jsr g) ((s.begin.ea g).setWidth 24)) ∧
  ((Instr.bsr d).WF → call (.bsr d) (s.pc + BitVec.ofInt 24 d.val)) ∧
  ((Instr.ret d).WF → Completes (.ret d) s ((s.begin.setSp (s.sp + 4 + BitVec.ofInt 24 d.val)).jump
    ((s.peek32 s.sp).setWidth 24)) none 4)

/-- CXP and CXPD (R340, R341): MOD, zero-extended, and the return address are pushed, and MOD, SB and PC are loaded by
the External Procedure Descriptor: from the Link Table of the module, or at the effective address. With External
addressing too CXPD reads it at the effective address, as R341's pseudocode has it: the model's choice against that
rule's last sentence (assumption 41). RXP (R342): PC and MOD are popped as double-words, SB is reloaded through the
new MOD, disp bytes are discarded. That MOD is pushed as a double-word is the spec's own choice (D7, assumption 24).
-/
def Obligations.ExternalProcedures : Prop :=
  (∀ (d : Disp) (g : Gen) (s : State), Answers s →
    let call (j : Instr) (desc : DWord) : Prop :=
      let m := ((s.begin.setSp (s.sp - 8)).poke (s.sp - 4) 4 (s.modReg.setWidth 32)).poke (s.sp - 8) 4
        ((s.next j).setWidth 32)
      let base : Addr := (desc.setWidth 16 : Half).setWidth 24
      Completes j s { (m.jump ((m.peek32 (base + 8) + (desc.extractLsb' 16 16).setWidth 32).setWidth 24)) with
          modReg := desc.setWidth 16, sb := (m.peek32 base).setWidth 24 } (some (s.sp - 8)) 8
    ((Instr.cxp d).WF → call (.cxp d)
      (s.peek32 ((s.peek32 (s.modReg.setWidth 24 + 4) + 4 * BitVec.ofInt 32 d.val).setWidth 24))) ∧
    ((Instr.cxpd g).WF → call (.cxpd g) (s.peek32 ((s.begin.ea g).setWidth 24)))) ∧
  (∀ (d : Disp) (s : State), Answers s →
    let m : Half := (s.peek32 (s.sp + 4)).setWidth 16
    Completes (.rxp d) s { ((s.begin.setSp (s.sp + 8 + BitVec.ofInt 24 d.val)).jump ((s.peek32 s.sp).setWidth 24)) with
      modReg := m, sb := (s.peek32 (m.setWidth 24)).setWidth 24 } none 8)

/-- RETT and RETI in Supervisor Mode (R343, R349): PC, MOD and PSR are popped from the selected stack, SB is reloaded
through the new MOD; RETT then moves the stack pointer that the new PSR selects by disp; RETI first takes the byte of
an End of Interrupt cycle, one that is not negative. RETI for a cascaded source (R349): with CFG.I = 1 and a byte of
-16 to -1 the cascaded ICU's byte is read too. That the End of Interrupt cycle comes first is the model's choice
(assumption 34). -/
def Obligations.ReturnFromException : Prop :=
  (∀ (d : Disp) (b : Byte) (rest : List Byte) (s : State), Answers s →
    s.flag .u = false →
    let m := s.peek16 (s.sp + 4)
    let s1 : State := { ((s.begin.setSp (s.sp + 8)).jump ((s.peek32 s.sp).setWidth 24)) with
      modReg := m, psr := s.peek16 (s.sp + 6) &&& 0x1FFF,
      sb := (s.peek32 (m.setWidth 24)).setWidth 24 }
    Completes (.rett d) s (s1.setSp (s1.sp + BitVec.ofInt 24 d.val)) none 8 ∧
    (s.icuReplies = b :: rest → b.msb = false → Completes .reti s { s1 with icuReplies := rest } none 8)) ∧
  (∀ (b c : Byte) (rest : List Byte) (s : State), Answers s →
    s.flag .u = false → s.cfgI = true → s.icuReplies = b :: c :: rest → -16 ≤ b.toInt → b.toInt < 0 →
    let m := s.peek16 (s.sp + 4)
    Completes .reti s { ((s.begin.setSp (s.sp + 8)).jump ((s.peek32 s.sp).setWidth 24)) with
      modReg := m, psr := s.peek16 (s.sp + 6) &&& 0x1FFF,
      sb := (s.peek32 (m.setWidth 24)).setWidth 24, icuReplies := rest } none 8)

/-! ## CPU registers -/

/-- SAVE and RESTORE (R371, R374): the listed registers pushed from R0 up, each a double-word; popped from R7 down.
SAVE moves the stack pointer down by 4 for each register listed and stores nothing elsewhere. -/
def Obligations.SaveRestoreRegisters : Prop := ∀ (l : Byte) (s : State), Answers s →
  let t := State.saved l listBits s.begin
  Completes (.save l) s { t with pc := s.next (.save l) } (some t.sp) (4 * listed l) ∧
  t.sp = s.sp - BitVec.ofNat 24 (4 * listed l) ∧ t.regs = s.regs ∧
  Completes (.restore l) s { (State.restored l listBits s.begin) with pc := s.next (.restore l) } none 0

/-- RESTORE is the inverse of SAVE (R374: "the exact inverse of SAVE with the same list"): in RAM, saving the
registers of `l`, changing registers at will, and restoring the same registers (bit n of a RESTORE list is R(7-n))
gives the listed registers back, and the stack pointer; the other registers are as they were changed. -/
def Obligations.RestoreUndoesSave : Prop := ∀ (l : Byte) (s t : State) (regs : Vector DWord 8), Ram s →
  Memory.wf s.mem = true → exec (.save l) s = .next t →
  ∃ u, exec (.restore l.reverse) { t with regs := regs } = .next u ∧ u.sp = s.sp ∧
    ∀ r : RegNo, u.reg r = if l.getLsbD r.toNat then s.reg r else ({ t with regs := regs } : State).reg r

/-- ENTER and EXIT (R347, R348): ENTER pushes FP, points FP at it, allocates disp bytes and saves the listed
registers; it stores to the saved FP and to the saved registers only. EXIT restores the listed registers, then SP is
FP and FP is popped. -/
def Obligations.EnterExit : Prop := ∀ (l : Byte) (d : Disp) (s : State), Answers s →
  let a := s.sp - 4
  let s1 : State := { ((s.begin.setSp a).poke a 4 (s.fp.setWidth 32)) with fp := a }
  let t := State.saved l listBits (s1.setSp (a - BitVec.ofInt 24 d.val))
  Ends (.enter l d) s { t with pc := s.next (.enter l d) } ∧
  t.sp = a - BitVec.ofInt 24 d.val - BitVec.ofNat 24 (4 * listed l) ∧
  (∀ x, Outside x a 4 → Outside x t.sp (4 * listed l) → t.byteAt x = s.byteAt x) ∧
  let r := State.restored l listBits s.begin
  Completes (.exit l) s { (r.setSp (s.fp + 4)) with fp := (s.peek32 s.fp).setWidth 24, pc := s.next (.exit l) } none 0

/-- LPRi (R372): every dedicated register, in the modes that may load it; UPSR is the low byte of the PSR. SPRi
(R373): the value of every dedicated register, zero-extended, as it is before a push. SPRB PSR stores the low byte of
the PSR by the exception of D48, though R373's own words refuse a smaller size (assumption 27). -/
def Obligations.DedicatedRegisters : Prop :=
  (∀ (i : Size) (r : Areg) (src : Gen) (s : State), Answers s →
    let j := Instr.lpri i r src
    let v : DWord := (s.begin.operand src i.bytes).setWidth 32
    let s1 := s.begin.afterRead src i.bytes
    let low : Half := s1.psr.extractLsb' 8 8 ++ (v.setWidth 8 : Byte)
    let t : State := match r with
      | .us => { s1 with psr := low }
      | .fp => { s1 with fp := v.setWidth 24 }
      | .sp => if s.flag .s then { s1 with sp1 := v.setWidth 24 } else { s1 with sp0 := v.setWidth 24 }
      | .sb => { s1 with sb := v.setWidth 24 }
      | .psr => { s1 with psr := if i = .b then low else v.setWidth 16 &&& 0x1FFF }
      | .intbase => { s1 with intbase := v.setWidth 24 }
      | .modReg => { s1 with modReg := v.setWidth 16 }
    j.WF → (r = .psr ∨ r = .intbase → s.flag .u = false) → Completes j s { t with pc := s.next j } none 0) ∧
  (∀ (i : Size) (r : Areg) (dst : Gen) (s : State), Answers s →
    let n := i.bytes
    let j := Instr.spri i r dst
    let p := s.begin.writePlaceOf dst
    let v : Nat := match r with
      | .us => s.begin.psr.toNat % 256
      | .fp => s.fp.toNat
      | .sp => if s.flag .s then s.sp1.toNat else s.sp0.toNat
      | .sb => s.sb.toNat
      | .psr => s.begin.psr.toNat
      | .intbase => s.intbase.toNat
      | .modReg => s.modReg.toNat
    j.WF → (r = .psr ∨ r = .intbase → s.flag .u = false) →
      Completes j s { (s.begin.put p n (BitVec.ofNat _ v)) with pc := s.next j } (s.begin.storeAddr p n) n)

/-- ADJSPi, BISPSRi, BICPSRi (R375, R376, R377): the selected stack pointer less the sign-extended operand; bits of
the PSR set or cleared, in User Mode too for a byte operand. SETCFG in Supervisor Mode writes all four bits of CFG
(R378). -/
def Obligations.AdjustConfigure : Prop :=
  (∀ (i : Size) (src : Gen) (s : State), Answers s →
    let n := i.bytes
    let v := s.begin.operand src n
    let s1 := s.begin.afterRead src n
    let mask : Half := if i = .b then 0xFFFF else 0x1FFF
    ((Instr.adjspi i src).WF → Completes (.adjspi i src) s
      { (s1.setSp (s1.sp - BitVec.ofInt 24 v.toInt)) with pc := s.next (.adjspi i src) } none 0) ∧
    ((Instr.bispsri i src).WF → (i = .b ∨ s.flag .u = false) → Completes (.bispsri i src) s
      { s1 with psr := (s1.psr ||| v.setWidth 16) &&& mask, pc := s.next (.bispsri i src) } none 0) ∧
    ((Instr.bicpsri i src).WF → (i = .b ∨ s.flag .u = false) → Completes (.bicpsri i src) s
      { s1 with psr := (s1.psr &&& ~~~(v.setWidth 16)) &&& mask, pc := s.next (.bicpsri i src) } none 0)) ∧
  (∀ (o : BitVec 4) (s : State), Answers s → s.flag .u = false →
    Completes (.setcfg o) s { s.begin with cfg := o, pc := s.next (.setcfg o) } none 0)

/-! ## Miscellaneous -/

/-- NOP, WAIT, DIA, and FLAG with F = 0 (R345, R431, R432, R433): NOP and FLAG only advance PC; WAIT stops with PC at
the next instruction; DIA branches to itself. The waiting state and the branch of DIA are the model's form of R432 and
R433 (assumption 25). -/
def Obligations.NoEffect : Prop := ∀ s : State, Answers s →
  Completes .nop s { s.begin with pc := s.pc + 1 } none 0 ∧
  Completes .wait s { s.begin with pc := s.pc + 1, waiting := true } none 0 ∧
  Completes .dia s (s.begin.jump s.pc) none 0 ∧
  (s.flag .f = false → Completes .flag s { s.begin with pc := s.pc + 1 } none 0)

/-! ## Floating point -/

/-- ADDf, SUBf, MULf, DIVf, SCALBf (R393, R395, R400 to R403, R416): for normalised operands and a normalised, exactly
represented result `v` of the numbers. The rest of the FSR, and the other half of an F register, are free (assumptions
13 and 14). Of an NS32081's registers, those of the other type are free too (assumption 36). That the FPU reports no
error here, whatever answer is listed for it, is inferred (assumption 12). -/
def Obligations.FloatArithmetic : Prop := ∀ (t : FSize) (src dst : Gen) (s : State) (qx qy : ℚ) (v : Quad), Answers s →
  let n := t.bytes
  let s1 := s.begin.afterRead src n
  let p := s1.rmwPlace dst
  number t (s.begin.floatOperand src t) = some qx → number t (s1.floatAt p t) = some qy →
  let done (j : Instr) (q : ℚ) : Prop := j.WF → FpuReady j s → IsNumber t v q →
    ∃ (fsr : DWord) (qs : Vector Quad 8) (ds : Vector DWord 8) (k : Nat), Completes j s
      { (s1.putFloat p t v qs ds) with pc := s.next j, fsr := fsr, fpuReplies := s.fpuReplies.tail, draws := k }
      (s1.storeAddr p n) n
  done (.addf t src dst) (qy + qx) ∧
  done (.subf t src dst) (qy - qx) ∧
  done (.mulf t src dst) (qy * qx) ∧
  done (.divf t src dst) (qy / qx) ∧
  done (.scalbf t src dst) (qy * 2 ^ (if 0 ≤ qx then ⌊qx⌋ else ⌈qx⌉))

/-- NEGf, ABSf, LOGBf, MOVFL, MOVLF (R393, R395, R405, R406, R411, R412, R419): the number negated, made positive, its
unbiased exponent, or the number itself, in the format of the destination. MOVf (R404): the bit pattern is copied; it
completes for a normalised number, and for any other pattern where the FPU reports no error. MOVif (R393, R413): the
signed integer as a floating number. That the FPU reports no error on normalised numbers, whatever answer is listed
for it, is inferred (assumption 12), and so is that MOVf copies any other pattern. -/
def Obligations.FloatMove : Prop :=
  (∀ (t : FSize) (src dst : Gen) (s : State) (q : ℚ) (v : Quad), Answers s →
    let done (j : Instr) (t t' : FSize) (r : ℚ) : Prop :=
      let s1 := s.begin.afterRead src t.bytes
      let p := s1.writePlaceOf dst
      j.WF → FpuReady j s → number t (s.begin.floatOperand src t) = some q → IsNumber t' v r →
      ∃ (fsr : DWord) (qs : Vector Quad 8) (ds : Vector DWord 8) (k : Nat), Completes j s
        { (s1.putFloat p t' v qs ds) with pc := s.next j, fsr := fsr, fpuReplies := s.fpuReplies.tail, draws := k }
        (s1.storeAddr p t'.bytes) t'.bytes
    done (.negf t src dst) t t (-q) ∧
    done (.absf t src dst) t t |q| ∧
    done (.movfl src dst) .f .l q ∧
    done (.movlf src dst) .l .f q ∧
    done (.logbf t src dst) t t (Int.log 2 |q|)) ∧
  (∀ (t : FSize) (src dst : Gen) (s : State), Answers s →
    let j := Instr.movf t src dst
    let x := s.begin.floatOperand src t
    let s1 := s.begin.afterRead src t.bytes
    let p := s1.writePlaceOf dst
    j.WF → FpuReady j s →
    (number t x ≠ none ∨ ∃ r rs, s.fpuReplies = r :: rs ∧ r.status.getLsbD 0 = false) →
    ∃ (fsr : DWord) (qs : Vector Quad 8) (ds : Vector DWord 8) (k : Nat), Completes j s
      { (s1.putFloat p t x qs ds) with pc := s.next j, fsr := fsr, fpuReplies := s.fpuReplies.tail, draws := k }
      (s1.storeAddr p t.bytes) t.bytes) ∧
  (∀ (i : Size) (t : FSize) (src dst : Gen) (s : State) (v : Quad), Answers s →
    let j := Instr.movif i t src dst
    let s1 := s.begin.afterRead src i.bytes
    let p := s1.writePlaceOf dst
    j.WF → FpuReady j s → IsNumber t v (s.begin.operand src i.bytes).toInt →
    ∃ (fsr : DWord) (qs : Vector Quad 8) (ds : Vector DWord 8) (k : Nat), Completes j s
      { (s1.putFloat p t v qs ds) with pc := s.next j, fsr := fsr, fpuReplies := s.fpuReplies.tail, draws := k }
      (s1.storeAddr p t.bytes) t.bytes)

/-- FLOORfi, TRUNCfi, ROUNDfi (R393, R408, R409, R410): the largest integer not above the number, the number truncated
toward zero, the nearest integer with ties to even, where the destination can hold it. That the FPU reports no error
here, whatever answer is listed for it, is inferred (assumption 12). -/
def Obligations.FloatToInteger : Prop := ∀ (t : FSize) (i : Size) (src dst : Gen) (s : State) (q : ℚ) (r : Int),
  Answers s →
  let n := i.bytes
  let s1 := s.begin.afterRead src t.bytes
  let p := s1.writePlaceOf dst
  number t (s.begin.floatOperand src t) = some q → -(2 ^ (8 * n - 1) : Int) ≤ r → r < (2 ^ (8 * n - 1) : Int) →
  let done (j : Instr) : Prop := j.WF → FpuReady j s → ∃ (fsr : DWord) (k : Nat), Completes j s
    { (s1.put p n (BitVec.ofInt _ r)) with
      pc := s.next j, fsr := fsr, fpuReplies := s.fpuReplies.tail, draws := k } (s1.storeAddr p n) n
  (r = ⌊q⌋ → done (.floorfi t i src dst)) ∧
  (r = (if 0 ≤ q then ⌊q⌋ else ⌈q⌉) → done (.truncfi t i src dst)) ∧
  (|q - r| ≤ 1 / 2 → (|q - r| = 1 / 2 → r % 2 = 0) → done (.roundfi t i src dst))

/-- CMPf (R30, R393, R407): Z and N compare the second number with the first; L is cleared, whatever the operands are.
LFSR and SFSR (R417, R418): the FSR is loaded from, or stored as, a double-word, unless the FPU reports an error: then
they take Trap(SLAVE), vector 3, as every floating-point instruction can (R398, R522). That the FPU reports no error
on CMPf of normalised numbers, whatever answer is listed for it, is inferred (assumption 12). Of Trap(SLAVE): that the
entry makes one fetch cycle at the handler, no more, is inferred (assumption 43); that the PSR copy is the PSR from
before T is copied to P is D51, inferred (assumption 28). -/
def Obligations.FloatCompareStatus : Prop :=
  (∀ (t : FSize) (g1 g2 : Gen) (s : State), Answers s →
    let j := Instr.cmpf t g1 g2
    let s1 := s.begin.afterRead g1 t.bytes
    let done (z n : Bool) : Prop := ∃ (fsr : DWord) (k : Nat), Completes j s
      { (((s1.afterRead g2 t.bytes).putFlag .z z).putFlag .n n).putFlag .l false with
        pc := s.next j, fsr := fsr, fpuReplies := s.fpuReplies.tail, draws := k } none 0
    j.WF → FpuReady j s →
    (∀ qx ∈ number t (s.begin.floatOperand g1 t), ∀ qy ∈ number t (s1.floatOperand g2 t),
      done (decide (qy = qx)) (decide (qy < qx))) ∧
    (∀ r rs, s.fpuReplies = r :: rs → r.status.getLsbD 0 = false → ∃ z n, done z n)) ∧
  (∀ (src dst : Gen) (s : State) (r : FpuReply) (rs : List FpuReply), Answers s → s.cfgF = true → s.fpu ≠ .absent →
    s.fpuReplies = r :: rs → r.status.getLsbD 0 = false →
    let p := s.begin.writePlaceOf dst
    ((Instr.lfsr src).WF → Completes (.lfsr src) s { (s.begin.afterRead src 4) with
      fsr := s.begin.operand src 4, fpuReplies := rs, pc := s.next (.lfsr src) } none 0) ∧
    ((Instr.sfsr dst).WF → Completes (.sfsr dst) s { (s.begin.put p 4 s.fsr) with
      fpuReplies := rs, pc := s.next (.sfsr dst) } (s.begin.storeAddr p 4) 4)) ∧
  (∀ (src dst : Gen) (s : State) (r : FpuReply) (rs : List FpuReply), Ram s → Memory.wf s.mem = true → s.cfgF = true →
    s.fpu ≠ .absent → s.fpuReplies = r :: rs → r.status.getLsbD 0 = true →
    let takes (j : Instr) : Prop := j.WF → ∃ t, exec j s = .next t ∧ Trapped { s with fsr := r.fsr } t 3
    takes (.lfsr src) ∧ takes (.sfsr dst))

/-- POLYf and DOTf on an NS32381 (R393, R395, R414, R415): `F0 * x + y` and `F0 + x * y` go to F0, where the operands
are normalised and the result `v` is normalised and exactly represented. That the FPU reports no error here, whatever
answer is listed for it, is inferred, and so is that the result is fixed even where the product is inexact (assumption
12). -/
def Obligations.FloatPolynomial : Prop := ∀ (t : FSize) (g1 g2 : Gen) (s : State) (q0 qx qy : ℚ) (v : Quad),
  Answers s →
  let s1 := s.begin.afterRead g1 t.bytes
  number t (s.fregValue 0 t) = some q0 → number t (s.begin.floatOperand g1 t) = some qx →
  number t (s1.floatOperand g2 t) = some qy →
  let done (j : Instr) (q : ℚ) : Prop := j.WF → FpuReady j s → IsNumber t v q →
    ∃ (fsr : DWord) (qs : Vector Quad 8) (ds : Vector DWord 8) (k : Nat), Completes j s
      { ((s1.afterRead g2 t.bytes).putFloat (.reg 0) t v qs ds) with
        pc := s.next j, fsr := fsr, fpuReplies := s.fpuReplies.tail, draws := k } none 0
  done (.polyf t g1 g2) (q0 * qx + qy) ∧ done (.dotf t g1 g2) (q0 + qx * qy)

/-- With CFG.F = 0 every floating-point instruction takes Trap(UND), vector 10, without any slave cycle (R37, R392):
the bus log grows by the sequence's own data cycles, and by one Non-Sequential fetch cycle at the handler, after which
there are only the writes of the old MOD and the return address (60_exceptions.md section 2, steps 5 to 7). That there
is one fetch cycle, no more, is inferred (assumption 43), that the reads of the dispatch table and of the module table
have the data status is presumed (assumption 30), that an ill-formed form traps too is inferred (assumption 33), and
that the PSR copy is the PSR from before T is copied to P is D51, inferred (assumption 28). -/
def Obligations.FloatUndefined : Prop := ∀ (j : Instr) (s : State), isFloat j = true → s.cfgF = false →
  Ram s → Memory.wf s.mem = true →
  ∃ (t : State) (l1 l2 : List BusEvent) (e : BusEvent), exec j s = .next t ∧ Trapped s t 10 ∧
    t.bus = s.begin.bus ++ (l1 ++ e :: l2).map .cycle ∧ e.status = .fetchBreak ∧ e.addr = t.pc ∧
    (∀ x ∈ l1 ++ l2, x.status = .data) ∧ ∀ x ∈ l2, x.write = true

/-- With CFG.F = 1 every well-formed floating-point instruction is answered by the FPU that has it, whatever its
operands; the first bus cycles are the ID Byte and the byte-swapped Operation Word (R391 steps 1 and 2, R104). Without
an FPU the CPU is stuck (R392, D33). An NS32081 is not sent the instructions of Format 12 (R394, D33). The stop
without an FPU is the model's fault stuckOnSlave (assumption 39). That no pointer of a Memory Relative or External
operand is read before these two cycles is the model's choice (assumption 44), and that a slave cycle, which presents
no address, is logged with address 0 (assumption 10). -/
def Obligations.FloatProtocol : Prop := ∀ (j : Instr) (s : State) (b0 b1 b2 : Byte) (rest : List Byte), Answers s →
  isFloat j = true → j.WF → s.cfgF = true → encode j = b0 :: b1 :: b2 :: rest →
  (FpuReady j s → ∃ t l, exec j s = .next t ∧ t.bus = s.begin.bus ++
    ([.cycle ⟨.slaveId, true, 0, 1, b0.setWidth 16, false, false, s.flag .u⟩,
      .cycle ⟨.slaveOperand, true, 0, 2, b1 ++ b2, false, false, s.flag .u⟩] ++ l)) ∧
  (s.fpu = .absent → exec j s = .fault .stuckOnSlave) ∧
  (s.fpu = .ns32081 → b0 = 0xFE → exec j s = .refused .format12OnNs32081)

/-! ## Graphics -/

/-- BBOR, BBAND, BBXOR, BBFOR, BBSTOD (R444 to R451): with K = J = 0, a width below 2^16 and a shift of at most 15
they complete, R3 is 0, R0 and R1 are R3 lines of the width on, the memory is that of the algorithm of R445, and the
other registers are unchanged; or an interrupt suspends them between two lines, after `k` of them, at least one (R446,
R480): PC stays at the instruction, R0, R1 and R3 hold the progress, the queue is discarded. With K or J set they are
refused (R446, assumption 22), and so they are with any other width or shift (R445, D17). The field operandPolicy is
the model's own choice (assumption 19): where it says so, they run with any width and shift. How many lines come
before an interrupt is an input (assumption 7). -/
def Obligations.BitBlockTransfer : Prop := ∀ (o : BbOpts) (s : State), Answers s →
  let w := (s.peek32 s.sp).toNat
  let inside := w < 2 ^ 16 ∧ (s.reg 2).toNat ≤ 15
  let start := if w = 0 then s.begin.setReg 3 0 else s.begin
  let count := (start.reg 3).toNat
  let k := s.allowedBetween count
  let move (o : BbOpts) (warp : DWord) : DWord := BitVec.ofNat 32 k * (bbStep o * BitVec.ofNat 32 w + warp)
  let regs (o : BbOpts) : State := ((s.begin.setReg 3 (start.reg 3 - BitVec.ofNat 32 k)).setReg 0
    (s.reg 0 + move o (s.reg 6))).setReg 1 (s.reg 1 + move o (s.reg 7))
  let done (j : Instr) (f : BbFun) (o : BbOpts) : Prop :=
    (s.flag .k = true ∨ s.flag .j = true → exec j s = .refused .bbStateBits) ∧
    (s.flag .k = false → s.flag .j = false →
      (¬inside → s.operandPolicy = .refuse → exec j s = .refused .bbRange) ∧
      (¬inside → s.operandPolicy = .free → ∃ u, exec j s = .next u ∧ u.flag .k = false ∧ u.flag .j = false ∧
        ((u.pc = s.next j ∧ u.reg 3 = 0) ∨
          ∃ b, s.suspend = some b ∧ max b 1 < (s.reg 3).toNat ∧ u.pc = s.pc ∧ u.queue = [] ∧
            u.reg 3 = s.reg 3 - BitVec.ofNat 32 (max b 1))) ∧
      (inside →
        let m := (State.bbBlockOf f o w k start).mem
        Ends j s (if k = count then { (((regs o).putFlag .k false).putFlag .j false) with mem := m, pc := s.next j }
          else { ((regs o).jump s.pc) with mem := m })))
  done (.bbor o) .or o ∧ done (.bband o) .and o ∧ done (.bbxor o) .xor o ∧ done (.bbstod o) .stod o ∧
  done .bbfor .or ⟨false, false⟩

/-- BITWT and SBITS (R452, R470): the shifted source word, or the table entry, is ORed into the destination
double-word; SBITS of more than 25 bits only sets F; a BITWT shift above 15 is refused (R452, D17). The field
operandPolicy is the model's own choice (assumption 19): where it says so, such a BITWT runs and stores a free value.
-/
def Obligations.WordTransferSetString : Prop := ∀ s : State, Answers s →
  let a : Addr := (s.reg 1).setWidth 24
  let x := s.peek16 ((s.reg 0).setWidth 24)
  let inside := (s.reg 2).toNat ≤ 15
  (¬inside → s.operandPolicy = .refuse → exec .bitwt s = .refused .bbRange) ∧
  (inside ∨ s.operandPolicy = .free → ∃ (d : DWord) (k : Nat),
    (inside → k = s.draws ∧ d = s.peek32 a ||| (x.setWidth 32 <<< (s.reg 2).toNat)) ∧
    Completes .bitwt s { (((s.begin.poke a 4 d).setReg 0 (s.reg 0 + 2)).setReg 1 (s.reg 1 + 2)) with
      pc := s.next .bitwt, draws := k } (some a) 4) ∧
  (25 < (s.reg 2).toNat → Completes .sbits s { (s.begin.putFlag .f true) with pc := s.next .sbits } none 0) ∧
  ((s.reg 2).toNat ≤ 25 →
    let o := (s.reg 1).toInt
    let e : Addr := (s.reg 0 + BitVec.ofInt 32 (o.fdiv 8)).setWidth 24
    let m := s.peek32 ((s.reg 3 + BitVec.ofInt 32 (4 * ((s.reg 2).toNat + 32 * (o % 8)))).setWidth 24)
    Completes .sbits s { ((s.begin.poke e 4 (s.peek32 e ||| m)).putFlag .f false) with pc := s.next .sbits } (some e) 4)

/-- EXTBLT (R453 to R456): with a BPU, and +2 or -2 in R4, pointers, count and flags are as the reference sequence
leaves them; the words the BPU drives, and R2 and R5, are free values (assumption 15); nothing but the destination
words is stored. An interrupt suspends it between two lines, after `k` of them, at least one (R454, R480): PC stays at
the instruction, B is set, R0, R1 and R3 hold the progress, R2 is as it was, R5 is what the last line left; how many
lines come before an interrupt is an input (assumption 7). Without a BPU, and with any other R4, it is refused (R454,
D18). The field operandPolicy is the model's own choice: where it says so, EXTBLT runs without a BPU, the words stored
being free values (assumption 15), and with any R4, the number of words of a line being a free value (assumption 16).
-/
def Obligations.ExternalBlockTransfer : Prop := ∀ s : State, Answers s →
  let r4 := s.reg 4
  let defined := r4 = 2 ∨ r4 = -2
  let w := if defined then (((s.reg 2).toInt + 1) / 2).toNat else Config.extbltWords (s.reg 2) r4
  let first := if s.flag .l then 0 else 1
  let line0 : DWord := BitVec.ofNat 32 (w + first) * r4 + s.reg 6
  let line1 : DWord := BitVec.ofNat 32 w * r4 + s.reg 7
  let count := (s.reg 3).toNat
  let k := s.allowedBetween count
  let lines : State := ((s.begin.setReg 0 (s.reg 0 + BitVec.ofNat 32 k * line0)).setReg 1
    (s.reg 1 + BitVec.ofNat 32 k * line1)).setReg 3 (s.reg 3 - BitVec.ofNat 32 k)
  let width : DWord := s.reg 2 - 2 * BitVec.ofNat 32 w
  (s.operandPolicy = .refuse → s.bpu = .absent → exec .extblt s = .refused .bpuAbsent) ∧
  (s.operandPolicy = .refuse → s.bpu = .attached → ¬defined → exec .extblt s = .refused .extbltStep) ∧
  (s.bpu = .attached ∧ defined ∨ s.operandPolicy = .free → ∃ (x y : DWord) (m : List Host.Cell) (d : Nat),
    Ends .extblt s (if k = count then
        { (((lines.putFlag .b false).setReg 2 x).setReg 5 y) with mem := m, pc := s.next .extblt, draws := d }
      else { (((lines.putFlag .b true).setReg 5 width).jump s.pc) with mem := m, draws := d }) ∧
    ∀ a, (∀ i < k, ∀ n < w,
        Outside a ((s.reg 1 + BitVec.ofNat 32 i * line1 + BitVec.ofNat 32 n * r4).setWidth 24) 2) →
      memGet m a.toNat = s.byteAt a)

/-- MOVMPi and SBITPS (R460, R475, R480): `k` stores or bits, all of them or as many as an interrupt leaves time for, at
least one, since it comes between two of them; the pointer or offset has moved by `k` increments, R2 has lost `k`; a
suspended instruction keeps PC. Nothing is stored elsewhere and no flag is written. How many passes are made before an
interrupt is an input (assumption 7). -/
def Obligations.PatternFill : Prop := ∀ (i : Size) (s : State), Answers s →
  let count := (s.reg 2).toNat
  let k := s.allowedBetween count
  let done (j : Instr) (r : RegNo) (step : DWord) (t : State) (at_ : DWord → DWord) (n : Nat) : Prop :=
    Ends j s (if k = count then { t with pc := s.next j } else t.jump s.pc) ∧
    t.reg r = s.reg r + BitVec.ofNat 32 k * step ∧ t.reg 2 = s.reg 2 - BitVec.ofNat 32 k ∧
    (∀ q : RegNo, q ≠ r → q ≠ 2 → t.reg q = s.reg q) ∧ t.psr = s.begin.psr ∧ t.sp0 = s.sp0 ∧ t.sp1 = s.sp1 ∧
    ∀ a, (∀ m < k, Outside a ((at_ (s.reg r + BitVec.ofNat 32 m * step)).setWidth 24) n) → t.byteAt a = s.byteAt a
  done (.movmpi i) 0 (s.reg 1) (State.patterned i.bytes k s.begin) id i.bytes ∧
  done .sbitps 1 (s.reg 3) (State.dotted k s.begin) (fun x => s.reg 0 + BitVec.ofInt 32 (x.toInt.fdiv 8)) 1

/-- TBITS (R465): `k` bits equal to the option from the offset R1 on, then the run length limit, the offset limit, or
a bit that differs; R1 and the run length have advanced by `k`. Where both limits are met L is a free value
(assumption 20, D20). An interrupt suspends it between two bits, after `k` of them, at least one, and where no limit is
met (R465, R480): PC stays at the instruction, R1 and R2 hold the progress, the queue is discarded, and a mark in State
tells the TBITS that goes on from a first entry; which bit is the last before an interrupt is an input (assumption 7).
A first entry with R2 not 0 is refused, and so is an offset
of 2^31 or more (R465, D20). The field operandPolicy and the mark are the model's own choice (assumption 20): where
the field says so, a first entry with any R2 runs, from R2 or from 0. -/
def Obligations.TestBitString : Prop := ∀ (o : Bool) (s : State), Answers s →
  let j := Instr.tbits o
  let r1 := (s.reg 1).toNat
  let r4 := (s.reg 4).toNat
  let mark : TbitsMark := ⟨s.pc, s.reg 1, s.reg 2⟩
  let fresh := mark ∉ s.heldTbits ∧ s.reg 2 ≠ 0
  let start : State := { s.begin with heldTbits := s.heldTbits.erase mark }
  (fresh ∨ 2 ^ 31 ≤ r1 ∨ 2 ^ 31 ≤ r4 → s.operandPolicy = .refuse → exec j s = .refused .tbitsEntry) ∧
  (r1 < 2 ^ 31 → r4 < 2 ^ 31 → (fresh → s.operandPolicy = .free) →
    (r4 ≤ r1 → Completes j s { ((start.putFlag .f o).putFlag .l false) with pc := s.next j } none 0) ∧
    (r1 < r4 → ∃ from_ : DWord, (from_ = s.reg 2 ∨ fresh ∧ from_ = 0) ∧
      ∀ k, (∀ b ∈ s.suspend, k ≤ max b 1) → r1 + k ≤ r4 →
        (∀ m < k, s.runBit (r1 + m) = o ∧ from_ + BitVec.ofNat 32 m ≠ s.reg 3) →
        let a : DWord := BitVec.ofNat 32 (r1 + k)
        let len : DWord := from_ + BitVec.ofNat 32 k
        let full := len = s.reg 3
        let at_ (f : Bool) : State := ((start.setReg 1 a).setReg 2 len).putFlag .f f
        let ends (f l : Bool) (n : Nat) : Prop :=
          Completes j s { ((at_ f).putFlag .l l) with pc := s.next j, draws := n } none 0
        let held := ∃ b, s.suspend = some b ∧ k = max b 1
        (full → r1 + k < r4 → ends o true s.draws) ∧
        (¬full → r1 + k = r4 → ends o false s.draws) ∧
        (full → r1 + k = r4 → ∃ l n, ends o l n) ∧
        (¬full → r1 + k < r4 → ¬held → s.runBit (r1 + k) ≠ o → ends (!o) true s.draws) ∧
        (¬full → r1 + k < r4 → held → Completes j s
          { ((at_ o).jump s.pc) with heldTbits := ⟨s.pc, a, len⟩ :: start.heldTbits } none 0)))

/-! ## Exceptions -/

/-- SVC, BPT, the two undefined sets of Format 3, and FLAG with F = 1 take their traps: vectors 5, 8, 10, 7 (R344 to
R346, R510, R520, R524, R527). The PSR copy is the PSR from before T is copied to P (D51, assumption 28). That the
entry makes one fetch cycle at the handler, no more, is inferred (assumption 43). -/
def Obligations.TrapInstructions : Prop := ∀ (g : BitVec 5) (o : BitVec 3) (i : Size) (s : State), Ram s →
  Memory.wf s.mem = true →
  let takes (j : Instr) (vector : Nat) : Prop := ∃ t, exec j s = .next t ∧ Trapped s t vector
  takes .svc 5 ∧ takes .bpt 8 ∧ takes (.undefFormat3 g o i) 10 ∧ takes (.undefFormat3Op1000 g i) 10 ∧
  (s.flag .f = true → takes .flag 7)

/-- A privileged instruction in User Mode takes Trap(ILL), vector 4, before anything else (R370, R523). That the entry
makes one fetch cycle at the handler, no more, is inferred (assumption 43); that the PSR copy is the PSR from before T
is copied to P is D51, inferred (assumption 28). -/
def Obligations.PrivilegedInUserMode : Prop := ∀ (i : Size) (g : Gen) (d : Disp) (c : BitVec 4) (s : State),
  Ram s → Memory.wf s.mem = true → s.flag .u = true →
  let takes (j : Instr) : Prop := j.WF → ∃ t, exec j s = .next t ∧ Trapped s t 4
  takes (.lpri i .psr g) ∧ takes (.lpri i .intbase g) ∧ takes (.spri i .psr g) ∧ takes (.spri i .intbase g) ∧
  (i ≠ .b → takes (.bispsri i g) ∧ takes (.bicpsri i g)) ∧ takes (.setcfg c) ∧ takes (.rett d) ∧ takes .reti

/-- A non-maskable interrupt is taken before an interrupt on INT, a trace trap or the next instruction, and ends a
WAIT (R514, R515, R530): vector 1, the return address is that of the next instruction, PSR bits S, U, T, P, I and B
are cleared, and the latch too. A maskable interrupt is taken when INT is active and PSR.I = 1, before a trace trap or
the next instruction (R514, R515, R530): vector 0 with CFG.I = 0; with CFG.I = 1 the ICU's byte, or the cascaded ICU's
byte if it is -16 to -1. A byte below -16 is not covered (assumption 34). That the entry makes one fetch cycle at the
handler, no more, is inferred (assumption 43). -/
def Obligations.Interrupts : Prop :=
  (∀ (x : Input) (s s1 : State), s.sample = (x, s1) →
    x.reset = false → s1.nmiLatch = true → Ram s1 → Memory.wf s1.mem = true →
    ∃ t, step s = .next t ∧ Frame s1 t 1 s1.psr s1.pc ∧ t.psr = s1.psr &&& ~~~0x1F02 ∧ t.nmiLatch = false ∧
      t.waiting = false) ∧
  (∀ (x : Input) (s s1 : State) (b c : Byte) (rest : List Byte),
    s.sample = (x, s1) → x.reset = false → s1.nmiLatch = false → x.int = true →
    s1.flag .i = true → Ram s1 → Memory.wf s1.mem = true →
    let takes (vector : Nat) : Prop := ∃ t, step s = .next t ∧ Frame s1 t vector s1.psr s1.pc ∧
      t.psr = s1.psr &&& ~~~0x1F02 ∧ t.waiting = false
    (s1.cfgI = false → takes 0) ∧
    (s1.cfgI = true → s1.icuReplies = b :: rest → b.toNat ≤ 127 → takes b.toNat) ∧
    (s1.cfgI = true → s1.icuReplies = b :: c :: rest → 240 ≤ b.toNat → takes c.toNat))

/-- The trace trap is taken at the boundary after an instruction that left P = 1, when no interrupt is taken (R521,
R528, R530): vector 9, the return address is that of the next instruction, the PSR copy has P = 0; S, U and T are
cleared. A WAIT goes on as long as neither a reset nor an interrupt comes (R432). That the entry makes one fetch cycle
at the handler, no more, is inferred (assumption 43). -/
def Obligations.TraceWait : Prop :=
  (∀ (x : Input) (s s1 : State), s.sample = (x, s1) → x.reset = false →
    s1.nmiLatch = false → (x.int = false ∨ s1.flag .i = false) → s1.waiting = false →
    s1.flag .p = true → Ram s1 → Memory.wf s1.mem = true →
    ∃ t, step s = .next t ∧ Frame s1 t 9 (s1.psr &&& ~~~0x0400) s1.pc ∧ t.psr = s1.psr &&& ~~~0x0702) ∧
  (∀ (x : Input) (s s1 : State), s.sample = (x, s1) → x.reset = false →
    s1.nmiLatch = false → (x.int = false ∨ s1.flag .i = false) → s1.waiting = true → Quiet s1 →
    step s = .next s1)

/-- RSTI at a boundary (R46, R570): PC, PSR, CFG.C, CFG.M and the NMI latch are 0, the queue is empty, a WAIT is
ended, memory is as the other bus masters left it. RSTI inside a step (R571): the step ends in the same way, whatever
the instruction would have done after that; active before the first bus cycle, it lets no step do anything else. The
state after reset has the values that the spec gives (R46, R570); and the invariant of every step holds in it. That
the queue is emptied and a WAIT ends is inferred (assumption 29). -/
def Obligations.Reset : Prop :=
  (∀ (x : Input) (s s1 : State), s.sample = (x, s1) →
    let started (t : State) : Prop := t.pc = 0 ∧ t.psr = 0 ∧ t.cfg.getLsbD 2 = false ∧ t.cfg.getLsbD 3 = false ∧
      t.nmiLatch = false ∧ t.queue = [] ∧ t.waiting = false
    (x.reset = true → ∃ t, step s = .next t ∧ started t ∧ t.mem = s1.mem) ∧
    (x.resetAfter ≠ none → ∀ t, step s = .next t → started t) ∧
    (x.resetAfter = some 0 → ∃ t, step s = .next t)) ∧
  (State.reset.pc = 0 ∧ State.reset.psr = 0 ∧ State.reset.cfg.getLsbD 2 = false ∧ State.reset.cfg.getLsbD 3 = false ∧
    State.reset.nmiLatch = false ∧ State.reset.queue = [] ∧ Invariant State.reset)

/-- RETT undoes the sequence of SVC (R343, R535): in RAM, from any mode and stack, returning right after the trap
restores PC, MOD, PSR and both stack pointers; SB comes from the module's descriptor; no general register has changed.
That PSR comes back as it was where T = 1 rests on the PSR copy being the one from before T is copied to P: R520 does
not say so, D51 decides it, and it is inferred (assumption 28). -/
def Obligations.ReturnUndoesTrap : Prop := ∀ (s t : State), Ram s → Memory.wf s.mem = true →
  s.psr &&& 0xE000 = 0 → exec .svc s = .next t →
  ∃ u, exec (.rett (.d1 0)) t = .next u ∧ u.pc = s.pc ∧ u.modReg = s.modReg ∧ u.psr = s.psr ∧ u.sp0 = s.sp0 ∧
    u.sp1 = s.sp1 ∧ u.regs = s.regs ∧ u.fp = s.fp ∧ u.intbase = s.intbase ∧ u.cfg = s.cfg ∧
    u.sb = (u.peek32 (s.modReg.setWidth 24)).setWidth 24

/-- What User Mode cannot reach (R32, R370, R379, R541): an instruction executed in User Mode changes neither CFG nor
INTBASE, nor the NMI latch, nor the memory map; it leaves U, S and I as they were, unless it takes a trap, which
clears U, S, T and P and enters Supervisor Mode with the queue discarded but for one fetch cycle at the handler, and I
as it was. Only RSTI does more. That a trap leaves what one fetch cycle at the handler brought, at most two bytes, is
inferred (assumption 43). -/
def Obligations.UserModeConfined : Prop := ∀ (j : Instr) (s t : State), s.flag .u = true → s.resetIn = none →
  exec j s = .next t →
  t.cfg = s.cfg ∧ t.intbase = s.intbase ∧ t.nmiLatch = s.nmiLatch ∧ t.memMap = s.memMap ∧ t.flag .i = s.flag .i ∧
  ((t.flag .u = true ∧ t.flag .s = s.flag .s) ∨
    (t.flag .u = false ∧ t.flag .s = false ∧ t.flag .t = false ∧ t.flag .p = false ∧
      (s.gaps = [] → t.queue.length ≤ 2)))

/-- Every step keeps the invariant: memory in its canonical form, PSR bits 13 to 15 zero (R30), at most 8 bytes in the
queue (R41). That the three bits read as zero is the spec's choice (assumption 24). -/
def Obligations.InvariantKept : Prop := ∀ s t : State, Invariant s → step s = .next t → Invariant t

/-! ## The machine's parts -/

/-- A step runs the decoded instruction (R24, R41, R521), with no reset, interrupt, WAIT or trace trap pending. If the
queue holds the instruction `i`, the step is `exec i` in the state whose queue the instruction's bytes have left, and
the end of the step. If the queue holds less of it, and memory the rest, Sequential and Non-Sequential Fetch cycles
(R94, R95) bring the rest first. In the queue are the bytes as memory holds them, by PREFETCH_COHERENT (R108,
assumption 8). How many bytes are in the queue is an input (assumption 8). -/
def Obligations.StepRunsDecoded : Prop := ∀ (x : Input) (s s1 : State) (i : Instr) (rest : List Byte),
  s.sample = (x, s1) → x.reset = false → s1.nmiLatch = false → (x.int = false ∨ s1.flag .i = false) →
  s1.waiting = false → s1.flag .p = false → i.WF →
  let q := s1.refreshed.queue
  (q = encode i ++ rest →
    step s = match exec i { s1 with queue := rest } with
      | .next t => .next t.close
      | o => o) ∧
  (∀ n, Answers s1 → (isFloat i = true → s1.cfgF = true) → s1.fetchPc = s1.pc + BitVec.ofNat 24 q.length → 0 < n →
    encode i = q ++ loadBytes s1.mem s1.fetchPc n →
    ∃ l : List BusEvent, (∀ e ∈ l.head?, e.status = if s1.broken then .fetchBreak else .fetch) ∧
      (∀ e ∈ l.tail, e.status = .fetch) ∧
      step s = exec i (s1.fetched n (s1.bus ++ l.map .cycle)))

/-- A form that the spec refuses is refused by name, whatever the state (R143, R531, D9, D36, D37, D44 to D46, D48); a
floating-point instruction only with CFG.F = 1, and none once RSTI is active. Bytes at PC that name no instruction,
the first of them in the queue, the rest in memory (R164, R527): a first byte that no format owns (R163) takes
Trap(UND), vector 10, and so does any such pattern of a floating-point format with CFG.F = 0 (R392, assumption 33); an
unassigned pattern takes Trap(UND) or is refused, as UNDEFINED_OPCODE_POLICY says (D28, assumption 11); the other
patterns are refused by name. The refusals are the spec's decisions, in the order of assumption 31. Of Trap(UND): that
the entry makes one fetch cycle at the handler, no more, is inferred (assumption 43); that the PSR copy is the PSR
from before T is copied to P is D51, inferred (assumption 28). -/
def Obligations.IllFormedOrUnassigned : Prop :=
  (∀ (j : Instr) (e : IllFormed) (s : State), j.check = some e → (isFloat j = true → s.cfgF = true) →
    s.resetIn ≠ some 0 → exec j s = .refused (.illegalForm e)) ∧
  (∀ (x : Input) (s s1 : State) (e : DecodeError) (n : Nat), s.sample = (x, s1) → x.reset = false →
    s1.nmiLatch = false → (x.int = false ∨ s1.flag .i = false) → s1.waiting = false → s1.flag .p = false →
    Ram s1 → Memory.wf s1.mem = true →
    let q := s1.refreshed.queue
    let bytes (k : Nat) : List Byte := q ++ loadBytes s1.mem s1.fetchPc k
    n ≤ maxLength → (∀ k < n, decode (bytes k) = .error .outOfBytes) → decode (bytes n) = .error e → e ≠ .outOfBytes →
    (n = 0 ∨ s1.fetchPc = s1.pc + BitVec.ofNat 24 q.length ∧ decode (bytes (n + 1)) = .error e) →
    let undefined := e = .undefinedFirstByte ∨ (e = .unassigned ∧ s1.undPolicy = .trapUnd) ∨
      (s1.cfgF = false ∧ ∃ b ∈ [(0x3E : Byte), 0xBE, 0xFE], (bytes n).head? = some b)
    (undefined → ∃ t, step s = .next t ∧ Trapped s1 t 10) ∧
    (¬undefined → step s = .refused (.undefinedEncoding e))) ∧
  (∀ (b : Byte) (rest : List Byte),
    (b.setWidth 4 = (6 : BitVec 4) ∨ b ∈ [(0x1E : Byte), 0x5E, 0x7E, 0x8E, 0x9E, 0xDE]) →
    decode (b :: rest) = .error .undefinedFirstByte)

/-- Storing a value and reading it back (R73): in RAM the value of the same size comes back, its byte `k` stands at
the address plus `k` modulo 2^24, and every byte outside reads as before. -/
def Obligations.StoreThenLoad : Prop := ∀ (s : State) (a : Addr) (n : Nat) (v : BitVec (8 * n)), s.memMap = [] →
  Memory.wf s.mem = true → n ≤ 8 →
  let t := s.poke a n v
  t.peek a n = v ∧ (∀ k < n, t.byteAt (a + BitVec.ofNat 24 k) = v.extractLsb' (8 * k) 8) ∧
  (∀ b, Outside b a n → t.byteAt b = s.byteAt b) ∧ Memory.wf t.mem = true

/-- A general register operand of 8 or 16 bits (R21): writing it changes the low part only, and no other register;
reading it gives the low part only. -/
def Obligations.RegisterPart : Prop := ∀ (s : State) (i : Size) (r : RegNo) (v : BitVec (8 * i.bytes)),
  let t := s.put (.reg r) i.bytes v
  (∀ k < 32, (t.reg r).getLsbD k = if k < 8 * i.bytes then v.getLsbD k else (s.reg r).getLsbD k) ∧
  (∀ q, q ≠ r → t.reg q = s.reg q) ∧ t.operand (.base (.reg r)) i.bytes = v

/-- The bus cycles of a double-word (R84, R85): two Even Word cycles from an even address, and from an odd one an Odd
Byte, an Even Word and an Even Byte cycle, at ascending addresses. -/
def Obligations.BusCycles : Prop := ∀ (s : State) (a : Addr) (v : DWord), Answers s →
  let cycle (k n : Nat) : PinEvent := .cycle ⟨.data, true, a + BitVec.ofNat 24 k, n,
    (v >>> (8 * k)).setWidth 16 &&& (if n = 1 then 0x00FF else 0xFFFF), false, false, s.flag .u⟩
  (writeMem a 4 v : M Unit) s = .ok () { (s.poke a 4 v) with
    bus := s.bus ++ if a.getLsbD 0 then [cycle 0 1, cycle 1 2, cycle 3 1] else [cycle 0 2, cycle 2 2] }

/-- Accesses outside memory (R77, R91, R601, D26): reading or storing an operand at an absolute address faults, by
name, at the first of its bytes where MEM_MAP has nothing, be it the first byte of the operand or a later one; a byte
read from a device is the device's answer; a byte stored to a device or to ROM leaves memory as it is. What a device
answers is a list of State, and MEM_MAP a list of regions (assumption 4). -/
def Obligations.AccessOutsideMemory : Prop := ∀ (i : Size) (d : Disp) (r : RegNo) (b : Byte) (rest : List Byte)
    (s : State), Quiet s →
  let a : Addr := BitVec.ofInt 24 d.val
  let load (i : Size) := Instr.movi i (.base (.abs d)) (.base (.reg r))
  let store (i : Size) := Instr.movi i (.base (.reg r)) (.base (.abs d))
  (∀ k < i.bytes, s.kindAt (a + BitVec.ofNat 24 k) = some .nothing →
    (∀ m < k, s.kindAt (a + BitVec.ofNat 24 m) ≠ some .nothing) →
    exec (load i) s = .fault (.accessOutsideMemMap (a + BitVec.ofNat 24 k)) ∧
    exec (store i) s = .fault (.accessOutsideMemMap (a + BitVec.ofNat 24 k))) ∧
  (s.kindAt a = some .device → s.deviceReplies = b :: rest → Completes (load .b) s
    { (s.begin.put (.reg r) 1 b) with pc := s.next (load .b), deviceReplies := rest } none 0) ∧
  (s.kindAt a = some .device ∨ s.kindAt a = some .rom →
    Completes (store .b) s { s.begin with pc := s.next (store .b) } none 0)

/-- The effective addresses of the addressing modes (R131 to R140), 32 bits wide, from the registers of the state and
the pointers in memory; a general register, as the base of Scaled Index, is its own address (R140). -/
def Obligations.EffectiveAddress : Prop := ∀ (s : State) (r x : RegNo) (d1 d2 : Disp) (m : Base) (sc : Scale),
  let num (d : Disp) : DWord := BitVec.ofInt 32 d.val
  let load (a : DWord) : DWord := s.peek32 (a.setWidth 24)
  s.ea (.base (.reg r)) = s.reg r ∧ s.ea (.base (.regRel r d1)) = s.reg r + num d1 ∧
  s.ea (.base (.mem .fp d1)) = s.fp.setWidth 32 + num d1 ∧ s.ea (.base (.mem .sp d1)) = s.sp.setWidth 32 + num d1 ∧
  s.ea (.base (.mem .sb d1)) = s.sb.setWidth 32 + num d1 ∧ s.ea (.base (.mem .pc d1)) = s.pc.setWidth 32 + num d1 ∧
  s.ea (.base (.memRel .fp d1 d2)) = load (s.fp.setWidth 32 + num d1) + num d2 ∧
  s.ea (.base (.memRel .sp d1 d2)) = load (s.sp.setWidth 32 + num d1) + num d2 ∧
  s.ea (.base (.memRel .sb d1 d2)) = load (s.sb.setWidth 32 + num d1) + num d2 ∧
  s.ea (.base (.ext d1 d2)) = load (load (s.modReg.setWidth 32 + 4) + 4 * num d1) + num d2 ∧
  s.ea (.base (.abs d1)) = num d1 ∧ s.ea (.base .tos) = s.sp.setWidth 32 ∧
  s.ea (.scaled m x sc) = s.ea (.base m) +
    (match sc with | .b => 1 | .w => 2 | .d => 4 | .q => 8) * s.reg x

/-! ## Encoding -/

/-- Decoding an encoded well-formed instruction gives it back, whatever bytes follow. -/
def Obligations.DecodeEncode : Prop := ∀ (i : Instr) (rest : List Byte), i.WF →
  decode (encode i ++ rest) = .ok (i, rest)

/-- The decoder reads the words of the spec's examples: one of each format. -/
def Obligations.DecodeExamples : Prop :=
  let r (n : Nat) : Gen := .base (.reg (BitVec.ofNat 3 n))
  let reads (bs : List Byte) (i : Instr) : Prop := decode bs = .ok (i, [])
  reads [0xEA, 0xBF, 0x00] (.br (.d2 (-256))) ∧
  reads [0x82, 0xF8, 0x0C] (.enter 0xF8 (.d1 12)) ∧
  reads [0xCF, 0x07, 0x7A] (.acbi .d (-1) (r 0) (.d1 (-6))) ∧
  reads [0x7F, 0x4A, 0x00] (.jump (.base (.regRel 1 (.d1 0)))) ∧
  reads [0x28, 0xA0, 0x5F] (.andi .b (.base (.imm (.b 0x5F))) (r 0)) ∧
  reads [0x0E, 0x8B, 0x01] (.setcfg 0b0011) ∧
  reads [0x4E, 0x07, 0xA1, 0xFD] (.ashi .d (.base (.imm (.b 0xFD))) (r 4)) ∧
  reads [0xCE, 0x27, 0x10] (.meii .d (r 2) (r 0)) ∧
  reads [0x2E, 0x83, 0x48, 0x00, 0x05] (.exti .d 0 (.base (.regRel 1 (.d1 0))) (r 2) (.d1 5)) ∧
  reads [0x3E, 0x7F, 0x00] (.floorfi .f .d (r 0) (r 1)) ∧
  reads [0xBE, 0x41, 0x00] (.addf .f (r 0) (r 1)) ∧
  reads [0xFE, 0x89, 0x08] (.polyf .f (r 1) (r 2))
end

