-- ==== Sys2Proof/Laws/State.lean ====
section
/-!
SUPPORT. One lemma per field and per update of State: what the field is after the update. Later proofs cite these and
unfold no update.
-/
namespace Sys2Proof.Machine

/-! ### State.setPsr -/

@[simp] theorem State.setPsr_regs (s : State) (v : Half) :
    (s.setPsr v).regs = s.regs := rfl
@[simp] theorem State.setPsr_pc (s : State) (v : Half) :
    (s.setPsr v).pc = s.pc := rfl
@[simp] theorem State.setPsr_sp0 (s : State) (v : Half) :
    (s.setPsr v).sp0 = s.sp0 := rfl
@[simp] theorem State.setPsr_sp1 (s : State) (v : Half) :
    (s.setPsr v).sp1 = s.sp1 := rfl
@[simp] theorem State.setPsr_fp (s : State) (v : Half) :
    (s.setPsr v).fp = s.fp := rfl
@[simp] theorem State.setPsr_sb (s : State) (v : Half) :
    (s.setPsr v).sb = s.sb := rfl
@[simp] theorem State.setPsr_intbase (s : State) (v : Half) :
    (s.setPsr v).intbase = s.intbase := rfl
@[simp] theorem State.setPsr_modReg (s : State) (v : Half) :
    (s.setPsr v).modReg = s.modReg := rfl
@[simp] theorem State.setPsr_psr (s : State) (v : Half) :
    (s.setPsr v).psr = v &&& psrMask := rfl
@[simp] theorem State.setPsr_cfg (s : State) (v : Half) :
    (s.setPsr v).cfg = s.cfg := rfl
@[simp] theorem State.setPsr_mem (s : State) (v : Half) :
    (s.setPsr v).mem = s.mem := rfl
@[simp] theorem State.setPsr_queue (s : State) (v : Half) :
    (s.setPsr v).queue = s.queue := rfl
@[simp] theorem State.setPsr_fetchPc (s : State) (v : Half) :
    (s.setPsr v).fetchPc = s.fetchPc := rfl
@[simp] theorem State.setPsr_broken (s : State) (v : Half) :
    (s.setPsr v).broken = s.broken := rfl
@[simp] theorem State.setPsr_nmiLatch (s : State) (v : Half) :
    (s.setPsr v).nmiLatch = s.nmiLatch := rfl
@[simp] theorem State.setPsr_waiting (s : State) (v : Half) :
    (s.setPsr v).waiting = s.waiting := rfl
@[simp] theorem State.setPsr_fpu (s : State) (v : Half) :
    (s.setPsr v).fpu = s.fpu := rfl
@[simp] theorem State.setPsr_fregs (s : State) (v : Half) :
    (s.setPsr v).fregs = s.fregs := rfl
@[simp] theorem State.setPsr_fsingles (s : State) (v : Half) :
    (s.setPsr v).fsingles = s.fsingles := rfl
@[simp] theorem State.setPsr_fsr (s : State) (v : Half) :
    (s.setPsr v).fsr = s.fsr := rfl
@[simp] theorem State.setPsr_inputs (s : State) (v : Half) :
    (s.setPsr v).inputs = s.inputs := rfl
@[simp] theorem State.setPsr_gaps (s : State) (v : Half) :
    (s.setPsr v).gaps = s.gaps := rfl
@[simp] theorem State.setPsr_resetIn (s : State) (v : Half) :
    (s.setPsr v).resetIn = s.resetIn := rfl
@[simp] theorem State.setPsr_icuReplies (s : State) (v : Half) :
    (s.setPsr v).icuReplies = s.icuReplies := rfl
@[simp] theorem State.setPsr_deviceReplies (s : State) (v : Half) :
    (s.setPsr v).deviceReplies = s.deviceReplies := rfl
@[simp] theorem State.setPsr_fpuReplies (s : State) (v : Half) :
    (s.setPsr v).fpuReplies = s.fpuReplies := rfl
@[simp] theorem State.setPsr_suspend (s : State) (v : Half) :
    (s.setPsr v).suspend = s.suspend := rfl
@[simp] theorem State.setPsr_heldTbits (s : State) (v : Half) :
    (s.setPsr v).heldTbits = s.heldTbits := rfl
@[simp] theorem State.setPsr_undPolicy (s : State) (v : Half) :
    (s.setPsr v).undPolicy = s.undPolicy := rfl
@[simp] theorem State.setPsr_memMap (s : State) (v : Half) :
    (s.setPsr v).memMap = s.memMap := rfl
@[simp] theorem State.setPsr_coherent (s : State) (v : Half) :
    (s.setPsr v).coherent = s.coherent := rfl
@[simp] theorem State.setPsr_bpu (s : State) (v : Half) :
    (s.setPsr v).bpu = s.bpu := rfl
@[simp] theorem State.setPsr_honoursIlo (s : State) (v : Half) :
    (s.setPsr v).honoursIlo = s.honoursIlo := rfl
@[simp] theorem State.setPsr_operandPolicy (s : State) (v : Half) :
    (s.setPsr v).operandPolicy = s.operandPolicy := rfl
@[simp] theorem State.setPsr_bus (s : State) (v : Half) :
    (s.setPsr v).bus = s.bus := rfl
@[simp] theorem State.setPsr_draws (s : State) (v : Half) :
    (s.setPsr v).draws = s.draws := rfl

/-! ### State.putFlag -/

@[simp] theorem State.putFlag_regs (s : State) (q : PsrBit) (x : Bool) :
    (s.putFlag q x).regs = s.regs := rfl
@[simp] theorem State.putFlag_pc (s : State) (q : PsrBit) (x : Bool) :
    (s.putFlag q x).pc = s.pc := rfl
@[simp] theorem State.putFlag_sp0 (s : State) (q : PsrBit) (x : Bool) :
    (s.putFlag q x).sp0 = s.sp0 := rfl
@[simp] theorem State.putFlag_sp1 (s : State) (q : PsrBit) (x : Bool) :
    (s.putFlag q x).sp1 = s.sp1 := rfl
@[simp] theorem State.putFlag_fp (s : State) (q : PsrBit) (x : Bool) :
    (s.putFlag q x).fp = s.fp := rfl
@[simp] theorem State.putFlag_sb (s : State) (q : PsrBit) (x : Bool) :
    (s.putFlag q x).sb = s.sb := rfl
@[simp] theorem State.putFlag_intbase (s : State) (q : PsrBit) (x : Bool) :
    (s.putFlag q x).intbase = s.intbase := rfl
@[simp] theorem State.putFlag_modReg (s : State) (q : PsrBit) (x : Bool) :
    (s.putFlag q x).modReg = s.modReg := rfl
@[simp] theorem State.putFlag_psr (s : State) (q : PsrBit) (x : Bool) :
    (s.putFlag q x).psr = psrPut s.psr q x := rfl
@[simp] theorem State.putFlag_cfg (s : State) (q : PsrBit) (x : Bool) :
    (s.putFlag q x).cfg = s.cfg := rfl
@[simp] theorem State.putFlag_mem (s : State) (q : PsrBit) (x : Bool) :
    (s.putFlag q x).mem = s.mem := rfl
@[simp] theorem State.putFlag_queue (s : State) (q : PsrBit) (x : Bool) :
    (s.putFlag q x).queue = s.queue := rfl
@[simp] theorem State.putFlag_fetchPc (s : State) (q : PsrBit) (x : Bool) :
    (s.putFlag q x).fetchPc = s.fetchPc := rfl
@[simp] theorem State.putFlag_broken (s : State) (q : PsrBit) (x : Bool) :
    (s.putFlag q x).broken = s.broken := rfl
@[simp] theorem State.putFlag_nmiLatch (s : State) (q : PsrBit) (x : Bool) :
    (s.putFlag q x).nmiLatch = s.nmiLatch := rfl
@[simp] theorem State.putFlag_waiting (s : State) (q : PsrBit) (x : Bool) :
    (s.putFlag q x).waiting = s.waiting := rfl
@[simp] theorem State.putFlag_fpu (s : State) (q : PsrBit) (x : Bool) :
    (s.putFlag q x).fpu = s.fpu := rfl
@[simp] theorem State.putFlag_fregs (s : State) (q : PsrBit) (x : Bool) :
    (s.putFlag q x).fregs = s.fregs := rfl
@[simp] theorem State.putFlag_fsingles (s : State) (q : PsrBit) (x : Bool) :
    (s.putFlag q x).fsingles = s.fsingles := rfl
@[simp] theorem State.putFlag_fsr (s : State) (q : PsrBit) (x : Bool) :
    (s.putFlag q x).fsr = s.fsr := rfl
@[simp] theorem State.putFlag_inputs (s : State) (q : PsrBit) (x : Bool) :
    (s.putFlag q x).inputs = s.inputs := rfl
@[simp] theorem State.putFlag_gaps (s : State) (q : PsrBit) (x : Bool) :
    (s.putFlag q x).gaps = s.gaps := rfl
@[simp] theorem State.putFlag_resetIn (s : State) (q : PsrBit) (x : Bool) :
    (s.putFlag q x).resetIn = s.resetIn := rfl
@[simp] theorem State.putFlag_icuReplies (s : State) (q : PsrBit) (x : Bool) :
    (s.putFlag q x).icuReplies = s.icuReplies := rfl
@[simp] theorem State.putFlag_deviceReplies (s : State) (q : PsrBit) (x : Bool) :
    (s.putFlag q x).deviceReplies = s.deviceReplies := rfl
@[simp] theorem State.putFlag_fpuReplies (s : State) (q : PsrBit) (x : Bool) :
    (s.putFlag q x).fpuReplies = s.fpuReplies := rfl
@[simp] theorem State.putFlag_suspend (s : State) (q : PsrBit) (x : Bool) :
    (s.putFlag q x).suspend = s.suspend := rfl
@[simp] theorem State.putFlag_heldTbits (s : State) (q : PsrBit) (x : Bool) :
    (s.putFlag q x).heldTbits = s.heldTbits := rfl
@[simp] theorem State.putFlag_undPolicy (s : State) (q : PsrBit) (x : Bool) :
    (s.putFlag q x).undPolicy = s.undPolicy := rfl
@[simp] theorem State.putFlag_memMap (s : State) (q : PsrBit) (x : Bool) :
    (s.putFlag q x).memMap = s.memMap := rfl
@[simp] theorem State.putFlag_coherent (s : State) (q : PsrBit) (x : Bool) :
    (s.putFlag q x).coherent = s.coherent := rfl
@[simp] theorem State.putFlag_bpu (s : State) (q : PsrBit) (x : Bool) :
    (s.putFlag q x).bpu = s.bpu := rfl
@[simp] theorem State.putFlag_honoursIlo (s : State) (q : PsrBit) (x : Bool) :
    (s.putFlag q x).honoursIlo = s.honoursIlo := rfl
@[simp] theorem State.putFlag_operandPolicy (s : State) (q : PsrBit) (x : Bool) :
    (s.putFlag q x).operandPolicy = s.operandPolicy := rfl
@[simp] theorem State.putFlag_bus (s : State) (q : PsrBit) (x : Bool) :
    (s.putFlag q x).bus = s.bus := rfl
@[simp] theorem State.putFlag_draws (s : State) (q : PsrBit) (x : Bool) :
    (s.putFlag q x).draws = s.draws := rfl

/-! ### State.setPsrLow -/

@[simp] theorem State.setPsrLow_regs (s : State) (v : Byte) :
    (s.setPsrLow v).regs = s.regs := rfl
@[simp] theorem State.setPsrLow_pc (s : State) (v : Byte) :
    (s.setPsrLow v).pc = s.pc := rfl
@[simp] theorem State.setPsrLow_sp0 (s : State) (v : Byte) :
    (s.setPsrLow v).sp0 = s.sp0 := rfl
@[simp] theorem State.setPsrLow_sp1 (s : State) (v : Byte) :
    (s.setPsrLow v).sp1 = s.sp1 := rfl
@[simp] theorem State.setPsrLow_fp (s : State) (v : Byte) :
    (s.setPsrLow v).fp = s.fp := rfl
@[simp] theorem State.setPsrLow_sb (s : State) (v : Byte) :
    (s.setPsrLow v).sb = s.sb := rfl
@[simp] theorem State.setPsrLow_intbase (s : State) (v : Byte) :
    (s.setPsrLow v).intbase = s.intbase := rfl
@[simp] theorem State.setPsrLow_modReg (s : State) (v : Byte) :
    (s.setPsrLow v).modReg = s.modReg := rfl
@[simp] theorem State.setPsrLow_psr (s : State) (v : Byte) :
    (s.setPsrLow v).psr = (s.psr &&& 0xFF00) ||| v.setWidth 16 := rfl
@[simp] theorem State.setPsrLow_cfg (s : State) (v : Byte) :
    (s.setPsrLow v).cfg = s.cfg := rfl
@[simp] theorem State.setPsrLow_mem (s : State) (v : Byte) :
    (s.setPsrLow v).mem = s.mem := rfl
@[simp] theorem State.setPsrLow_queue (s : State) (v : Byte) :
    (s.setPsrLow v).queue = s.queue := rfl
@[simp] theorem State.setPsrLow_fetchPc (s : State) (v : Byte) :
    (s.setPsrLow v).fetchPc = s.fetchPc := rfl
@[simp] theorem State.setPsrLow_broken (s : State) (v : Byte) :
    (s.setPsrLow v).broken = s.broken := rfl
@[simp] theorem State.setPsrLow_nmiLatch (s : State) (v : Byte) :
    (s.setPsrLow v).nmiLatch = s.nmiLatch := rfl
@[simp] theorem State.setPsrLow_waiting (s : State) (v : Byte) :
    (s.setPsrLow v).waiting = s.waiting := rfl
@[simp] theorem State.setPsrLow_fpu (s : State) (v : Byte) :
    (s.setPsrLow v).fpu = s.fpu := rfl
@[simp] theorem State.setPsrLow_fregs (s : State) (v : Byte) :
    (s.setPsrLow v).fregs = s.fregs := rfl
@[simp] theorem State.setPsrLow_fsingles (s : State) (v : Byte) :
    (s.setPsrLow v).fsingles = s.fsingles := rfl
@[simp] theorem State.setPsrLow_fsr (s : State) (v : Byte) :
    (s.setPsrLow v).fsr = s.fsr := rfl
@[simp] theorem State.setPsrLow_inputs (s : State) (v : Byte) :
    (s.setPsrLow v).inputs = s.inputs := rfl
@[simp] theorem State.setPsrLow_gaps (s : State) (v : Byte) :
    (s.setPsrLow v).gaps = s.gaps := rfl
@[simp] theorem State.setPsrLow_resetIn (s : State) (v : Byte) :
    (s.setPsrLow v).resetIn = s.resetIn := rfl
@[simp] theorem State.setPsrLow_icuReplies (s : State) (v : Byte) :
    (s.setPsrLow v).icuReplies = s.icuReplies := rfl
@[simp] theorem State.setPsrLow_deviceReplies (s : State) (v : Byte) :
    (s.setPsrLow v).deviceReplies = s.deviceReplies := rfl
@[simp] theorem State.setPsrLow_fpuReplies (s : State) (v : Byte) :
    (s.setPsrLow v).fpuReplies = s.fpuReplies := rfl
@[simp] theorem State.setPsrLow_suspend (s : State) (v : Byte) :
    (s.setPsrLow v).suspend = s.suspend := rfl
@[simp] theorem State.setPsrLow_heldTbits (s : State) (v : Byte) :
    (s.setPsrLow v).heldTbits = s.heldTbits := rfl
@[simp] theorem State.setPsrLow_undPolicy (s : State) (v : Byte) :
    (s.setPsrLow v).undPolicy = s.undPolicy := rfl
@[simp] theorem State.setPsrLow_memMap (s : State) (v : Byte) :
    (s.setPsrLow v).memMap = s.memMap := rfl
@[simp] theorem State.setPsrLow_coherent (s : State) (v : Byte) :
    (s.setPsrLow v).coherent = s.coherent := rfl
@[simp] theorem State.setPsrLow_bpu (s : State) (v : Byte) :
    (s.setPsrLow v).bpu = s.bpu := rfl
@[simp] theorem State.setPsrLow_honoursIlo (s : State) (v : Byte) :
    (s.setPsrLow v).honoursIlo = s.honoursIlo := rfl
@[simp] theorem State.setPsrLow_operandPolicy (s : State) (v : Byte) :
    (s.setPsrLow v).operandPolicy = s.operandPolicy := rfl
@[simp] theorem State.setPsrLow_bus (s : State) (v : Byte) :
    (s.setPsrLow v).bus = s.bus := rfl
@[simp] theorem State.setPsrLow_draws (s : State) (v : Byte) :
    (s.setPsrLow v).draws = s.draws := rfl

/-! ### State.setReg -/

@[simp] theorem State.setReg_regs (s : State) (r : RegNo) (v : DWord) :
    (s.setReg r v).regs = s.regs.set r.toNat v r.isLt := rfl
@[simp] theorem State.setReg_pc (s : State) (r : RegNo) (v : DWord) :
    (s.setReg r v).pc = s.pc := rfl
@[simp] theorem State.setReg_sp0 (s : State) (r : RegNo) (v : DWord) :
    (s.setReg r v).sp0 = s.sp0 := rfl
@[simp] theorem State.setReg_sp1 (s : State) (r : RegNo) (v : DWord) :
    (s.setReg r v).sp1 = s.sp1 := rfl
@[simp] theorem State.setReg_fp (s : State) (r : RegNo) (v : DWord) :
    (s.setReg r v).fp = s.fp := rfl
@[simp] theorem State.setReg_sb (s : State) (r : RegNo) (v : DWord) :
    (s.setReg r v).sb = s.sb := rfl
@[simp] theorem State.setReg_intbase (s : State) (r : RegNo) (v : DWord) :
    (s.setReg r v).intbase = s.intbase := rfl
@[simp] theorem State.setReg_modReg (s : State) (r : RegNo) (v : DWord) :
    (s.setReg r v).modReg = s.modReg := rfl
@[simp] theorem State.setReg_psr (s : State) (r : RegNo) (v : DWord) :
    (s.setReg r v).psr = s.psr := rfl
@[simp] theorem State.setReg_cfg (s : State) (r : RegNo) (v : DWord) :
    (s.setReg r v).cfg = s.cfg := rfl
@[simp] theorem State.setReg_mem (s : State) (r : RegNo) (v : DWord) :
    (s.setReg r v).mem = s.mem := rfl
@[simp] theorem State.setReg_queue (s : State) (r : RegNo) (v : DWord) :
    (s.setReg r v).queue = s.queue := rfl
@[simp] theorem State.setReg_fetchPc (s : State) (r : RegNo) (v : DWord) :
    (s.setReg r v).fetchPc = s.fetchPc := rfl
@[simp] theorem State.setReg_broken (s : State) (r : RegNo) (v : DWord) :
    (s.setReg r v).broken = s.broken := rfl
@[simp] theorem State.setReg_nmiLatch (s : State) (r : RegNo) (v : DWord) :
    (s.setReg r v).nmiLatch = s.nmiLatch := rfl
@[simp] theorem State.setReg_waiting (s : State) (r : RegNo) (v : DWord) :
    (s.setReg r v).waiting = s.waiting := rfl
@[simp] theorem State.setReg_fpu (s : State) (r : RegNo) (v : DWord) :
    (s.setReg r v).fpu = s.fpu := rfl
@[simp] theorem State.setReg_fregs (s : State) (r : RegNo) (v : DWord) :
    (s.setReg r v).fregs = s.fregs := rfl
@[simp] theorem State.setReg_fsingles (s : State) (r : RegNo) (v : DWord) :
    (s.setReg r v).fsingles = s.fsingles := rfl
@[simp] theorem State.setReg_fsr (s : State) (r : RegNo) (v : DWord) :
    (s.setReg r v).fsr = s.fsr := rfl
@[simp] theorem State.setReg_inputs (s : State) (r : RegNo) (v : DWord) :
    (s.setReg r v).inputs = s.inputs := rfl
@[simp] theorem State.setReg_gaps (s : State) (r : RegNo) (v : DWord) :
    (s.setReg r v).gaps = s.gaps := rfl
@[simp] theorem State.setReg_resetIn (s : State) (r : RegNo) (v : DWord) :
    (s.setReg r v).resetIn = s.resetIn := rfl
@[simp] theorem State.setReg_icuReplies (s : State) (r : RegNo) (v : DWord) :
    (s.setReg r v).icuReplies = s.icuReplies := rfl
@[simp] theorem State.setReg_deviceReplies (s : State) (r : RegNo) (v : DWord) :
    (s.setReg r v).deviceReplies = s.deviceReplies := rfl
@[simp] theorem State.setReg_fpuReplies (s : State) (r : RegNo) (v : DWord) :
    (s.setReg r v).fpuReplies = s.fpuReplies := rfl
@[simp] theorem State.setReg_suspend (s : State) (r : RegNo) (v : DWord) :
    (s.setReg r v).suspend = s.suspend := rfl
@[simp] theorem State.setReg_heldTbits (s : State) (r : RegNo) (v : DWord) :
    (s.setReg r v).heldTbits = s.heldTbits := rfl
@[simp] theorem State.setReg_undPolicy (s : State) (r : RegNo) (v : DWord) :
    (s.setReg r v).undPolicy = s.undPolicy := rfl
@[simp] theorem State.setReg_memMap (s : State) (r : RegNo) (v : DWord) :
    (s.setReg r v).memMap = s.memMap := rfl
@[simp] theorem State.setReg_coherent (s : State) (r : RegNo) (v : DWord) :
    (s.setReg r v).coherent = s.coherent := rfl
@[simp] theorem State.setReg_bpu (s : State) (r : RegNo) (v : DWord) :
    (s.setReg r v).bpu = s.bpu := rfl
@[simp] theorem State.setReg_honoursIlo (s : State) (r : RegNo) (v : DWord) :
    (s.setReg r v).honoursIlo = s.honoursIlo := rfl
@[simp] theorem State.setReg_operandPolicy (s : State) (r : RegNo) (v : DWord) :
    (s.setReg r v).operandPolicy = s.operandPolicy := rfl
@[simp] theorem State.setReg_bus (s : State) (r : RegNo) (v : DWord) :
    (s.setReg r v).bus = s.bus := rfl
@[simp] theorem State.setReg_draws (s : State) (r : RegNo) (v : DWord) :
    (s.setReg r v).draws = s.draws := rfl

/-! ### State.setFreg -/

@[simp] theorem State.setFreg_regs (s : State) (r : RegNo) (v : Quad) :
    (s.setFreg r v).regs = s.regs := rfl
@[simp] theorem State.setFreg_pc (s : State) (r : RegNo) (v : Quad) :
    (s.setFreg r v).pc = s.pc := rfl
@[simp] theorem State.setFreg_sp0 (s : State) (r : RegNo) (v : Quad) :
    (s.setFreg r v).sp0 = s.sp0 := rfl
@[simp] theorem State.setFreg_sp1 (s : State) (r : RegNo) (v : Quad) :
    (s.setFreg r v).sp1 = s.sp1 := rfl
@[simp] theorem State.setFreg_fp (s : State) (r : RegNo) (v : Quad) :
    (s.setFreg r v).fp = s.fp := rfl
@[simp] theorem State.setFreg_sb (s : State) (r : RegNo) (v : Quad) :
    (s.setFreg r v).sb = s.sb := rfl
@[simp] theorem State.setFreg_intbase (s : State) (r : RegNo) (v : Quad) :
    (s.setFreg r v).intbase = s.intbase := rfl
@[simp] theorem State.setFreg_modReg (s : State) (r : RegNo) (v : Quad) :
    (s.setFreg r v).modReg = s.modReg := rfl
@[simp] theorem State.setFreg_psr (s : State) (r : RegNo) (v : Quad) :
    (s.setFreg r v).psr = s.psr := rfl
@[simp] theorem State.setFreg_cfg (s : State) (r : RegNo) (v : Quad) :
    (s.setFreg r v).cfg = s.cfg := rfl
@[simp] theorem State.setFreg_mem (s : State) (r : RegNo) (v : Quad) :
    (s.setFreg r v).mem = s.mem := rfl
@[simp] theorem State.setFreg_queue (s : State) (r : RegNo) (v : Quad) :
    (s.setFreg r v).queue = s.queue := rfl
@[simp] theorem State.setFreg_fetchPc (s : State) (r : RegNo) (v : Quad) :
    (s.setFreg r v).fetchPc = s.fetchPc := rfl
@[simp] theorem State.setFreg_broken (s : State) (r : RegNo) (v : Quad) :
    (s.setFreg r v).broken = s.broken := rfl
@[simp] theorem State.setFreg_nmiLatch (s : State) (r : RegNo) (v : Quad) :
    (s.setFreg r v).nmiLatch = s.nmiLatch := rfl
@[simp] theorem State.setFreg_waiting (s : State) (r : RegNo) (v : Quad) :
    (s.setFreg r v).waiting = s.waiting := rfl
@[simp] theorem State.setFreg_fpu (s : State) (r : RegNo) (v : Quad) :
    (s.setFreg r v).fpu = s.fpu := rfl
@[simp] theorem State.setFreg_fregs (s : State) (r : RegNo) (v : Quad) :
    (s.setFreg r v).fregs = s.fregs.set r.toNat v r.isLt := rfl
@[simp] theorem State.setFreg_fsingles (s : State) (r : RegNo) (v : Quad) :
    (s.setFreg r v).fsingles = s.fsingles := rfl
@[simp] theorem State.setFreg_fsr (s : State) (r : RegNo) (v : Quad) :
    (s.setFreg r v).fsr = s.fsr := rfl
@[simp] theorem State.setFreg_inputs (s : State) (r : RegNo) (v : Quad) :
    (s.setFreg r v).inputs = s.inputs := rfl
@[simp] theorem State.setFreg_gaps (s : State) (r : RegNo) (v : Quad) :
    (s.setFreg r v).gaps = s.gaps := rfl
@[simp] theorem State.setFreg_resetIn (s : State) (r : RegNo) (v : Quad) :
    (s.setFreg r v).resetIn = s.resetIn := rfl
@[simp] theorem State.setFreg_icuReplies (s : State) (r : RegNo) (v : Quad) :
    (s.setFreg r v).icuReplies = s.icuReplies := rfl
@[simp] theorem State.setFreg_deviceReplies (s : State) (r : RegNo) (v : Quad) :
    (s.setFreg r v).deviceReplies = s.deviceReplies := rfl
@[simp] theorem State.setFreg_fpuReplies (s : State) (r : RegNo) (v : Quad) :
    (s.setFreg r v).fpuReplies = s.fpuReplies := rfl
@[simp] theorem State.setFreg_suspend (s : State) (r : RegNo) (v : Quad) :
    (s.setFreg r v).suspend = s.suspend := rfl
@[simp] theorem State.setFreg_heldTbits (s : State) (r : RegNo) (v : Quad) :
    (s.setFreg r v).heldTbits = s.heldTbits := rfl
@[simp] theorem State.setFreg_undPolicy (s : State) (r : RegNo) (v : Quad) :
    (s.setFreg r v).undPolicy = s.undPolicy := rfl
@[simp] theorem State.setFreg_memMap (s : State) (r : RegNo) (v : Quad) :
    (s.setFreg r v).memMap = s.memMap := rfl
@[simp] theorem State.setFreg_coherent (s : State) (r : RegNo) (v : Quad) :
    (s.setFreg r v).coherent = s.coherent := rfl
@[simp] theorem State.setFreg_bpu (s : State) (r : RegNo) (v : Quad) :
    (s.setFreg r v).bpu = s.bpu := rfl
@[simp] theorem State.setFreg_honoursIlo (s : State) (r : RegNo) (v : Quad) :
    (s.setFreg r v).honoursIlo = s.honoursIlo := rfl
@[simp] theorem State.setFreg_operandPolicy (s : State) (r : RegNo) (v : Quad) :
    (s.setFreg r v).operandPolicy = s.operandPolicy := rfl
@[simp] theorem State.setFreg_bus (s : State) (r : RegNo) (v : Quad) :
    (s.setFreg r v).bus = s.bus := rfl
@[simp] theorem State.setFreg_draws (s : State) (r : RegNo) (v : Quad) :
    (s.setFreg r v).draws = s.draws := rfl

/-! ### State.jump -/

@[simp] theorem State.jump_regs (s : State) (a : Addr) :
    (s.jump a).regs = s.regs := rfl
@[simp] theorem State.jump_pc (s : State) (a : Addr) :
    (s.jump a).pc = a := rfl
@[simp] theorem State.jump_sp0 (s : State) (a : Addr) :
    (s.jump a).sp0 = s.sp0 := rfl
@[simp] theorem State.jump_sp1 (s : State) (a : Addr) :
    (s.jump a).sp1 = s.sp1 := rfl
@[simp] theorem State.jump_fp (s : State) (a : Addr) :
    (s.jump a).fp = s.fp := rfl
@[simp] theorem State.jump_sb (s : State) (a : Addr) :
    (s.jump a).sb = s.sb := rfl
@[simp] theorem State.jump_intbase (s : State) (a : Addr) :
    (s.jump a).intbase = s.intbase := rfl
@[simp] theorem State.jump_modReg (s : State) (a : Addr) :
    (s.jump a).modReg = s.modReg := rfl
@[simp] theorem State.jump_psr (s : State) (a : Addr) :
    (s.jump a).psr = s.psr := rfl
@[simp] theorem State.jump_cfg (s : State) (a : Addr) :
    (s.jump a).cfg = s.cfg := rfl
@[simp] theorem State.jump_mem (s : State) (a : Addr) :
    (s.jump a).mem = s.mem := rfl
@[simp] theorem State.jump_queue (s : State) (a : Addr) :
    (s.jump a).queue = [] := rfl
@[simp] theorem State.jump_fetchPc (s : State) (a : Addr) :
    (s.jump a).fetchPc = a := rfl
@[simp] theorem State.jump_broken (s : State) (a : Addr) :
    (s.jump a).broken = true := rfl
@[simp] theorem State.jump_nmiLatch (s : State) (a : Addr) :
    (s.jump a).nmiLatch = s.nmiLatch := rfl
@[simp] theorem State.jump_waiting (s : State) (a : Addr) :
    (s.jump a).waiting = s.waiting := rfl
@[simp] theorem State.jump_fpu (s : State) (a : Addr) :
    (s.jump a).fpu = s.fpu := rfl
@[simp] theorem State.jump_fregs (s : State) (a : Addr) :
    (s.jump a).fregs = s.fregs := rfl
@[simp] theorem State.jump_fsingles (s : State) (a : Addr) :
    (s.jump a).fsingles = s.fsingles := rfl
@[simp] theorem State.jump_fsr (s : State) (a : Addr) :
    (s.jump a).fsr = s.fsr := rfl
@[simp] theorem State.jump_inputs (s : State) (a : Addr) :
    (s.jump a).inputs = s.inputs := rfl
@[simp] theorem State.jump_gaps (s : State) (a : Addr) :
    (s.jump a).gaps = s.gaps := rfl
@[simp] theorem State.jump_resetIn (s : State) (a : Addr) :
    (s.jump a).resetIn = s.resetIn := rfl
@[simp] theorem State.jump_icuReplies (s : State) (a : Addr) :
    (s.jump a).icuReplies = s.icuReplies := rfl
@[simp] theorem State.jump_deviceReplies (s : State) (a : Addr) :
    (s.jump a).deviceReplies = s.deviceReplies := rfl
@[simp] theorem State.jump_fpuReplies (s : State) (a : Addr) :
    (s.jump a).fpuReplies = s.fpuReplies := rfl
@[simp] theorem State.jump_suspend (s : State) (a : Addr) :
    (s.jump a).suspend = s.suspend := rfl
@[simp] theorem State.jump_heldTbits (s : State) (a : Addr) :
    (s.jump a).heldTbits = s.heldTbits := rfl
@[simp] theorem State.jump_undPolicy (s : State) (a : Addr) :
    (s.jump a).undPolicy = s.undPolicy := rfl
@[simp] theorem State.jump_memMap (s : State) (a : Addr) :
    (s.jump a).memMap = s.memMap := rfl
@[simp] theorem State.jump_coherent (s : State) (a : Addr) :
    (s.jump a).coherent = s.coherent := rfl
@[simp] theorem State.jump_bpu (s : State) (a : Addr) :
    (s.jump a).bpu = s.bpu := rfl
@[simp] theorem State.jump_honoursIlo (s : State) (a : Addr) :
    (s.jump a).honoursIlo = s.honoursIlo := rfl
@[simp] theorem State.jump_operandPolicy (s : State) (a : Addr) :
    (s.jump a).operandPolicy = s.operandPolicy := rfl
@[simp] theorem State.jump_bus (s : State) (a : Addr) :
    (s.jump a).bus = s.bus := rfl
@[simp] theorem State.jump_draws (s : State) (a : Addr) :
    (s.jump a).draws = s.draws := rfl

/-! ### State.logCycle -/

@[simp] theorem State.logCycle_regs (s : State) (st : BusStatus) (wr : Bool) (p : Pins) (a : Addr) (l : List Byte) :
    (s.logCycle st wr p a l).regs = s.regs := rfl
@[simp] theorem State.logCycle_pc (s : State) (st : BusStatus) (wr : Bool) (p : Pins) (a : Addr) (l : List Byte) :
    (s.logCycle st wr p a l).pc = s.pc := rfl
@[simp] theorem State.logCycle_sp0 (s : State) (st : BusStatus) (wr : Bool) (p : Pins) (a : Addr) (l : List Byte) :
    (s.logCycle st wr p a l).sp0 = s.sp0 := rfl
@[simp] theorem State.logCycle_sp1 (s : State) (st : BusStatus) (wr : Bool) (p : Pins) (a : Addr) (l : List Byte) :
    (s.logCycle st wr p a l).sp1 = s.sp1 := rfl
@[simp] theorem State.logCycle_fp (s : State) (st : BusStatus) (wr : Bool) (p : Pins) (a : Addr) (l : List Byte) :
    (s.logCycle st wr p a l).fp = s.fp := rfl
@[simp] theorem State.logCycle_sb (s : State) (st : BusStatus) (wr : Bool) (p : Pins) (a : Addr) (l : List Byte) :
    (s.logCycle st wr p a l).sb = s.sb := rfl
@[simp] theorem State.logCycle_intbase (s : State) (st : BusStatus) (wr : Bool) (p : Pins) (a : Addr) (l : List Byte) :
    (s.logCycle st wr p a l).intbase = s.intbase := rfl
@[simp] theorem State.logCycle_modReg (s : State) (st : BusStatus) (wr : Bool) (p : Pins) (a : Addr) (l : List Byte) :
    (s.logCycle st wr p a l).modReg = s.modReg := rfl
@[simp] theorem State.logCycle_psr (s : State) (st : BusStatus) (wr : Bool) (p : Pins) (a : Addr) (l : List Byte) :
    (s.logCycle st wr p a l).psr = s.psr := rfl
@[simp] theorem State.logCycle_cfg (s : State) (st : BusStatus) (wr : Bool) (p : Pins) (a : Addr) (l : List Byte) :
    (s.logCycle st wr p a l).cfg = s.cfg := rfl
@[simp] theorem State.logCycle_mem (s : State) (st : BusStatus) (wr : Bool) (p : Pins) (a : Addr) (l : List Byte) :
    (s.logCycle st wr p a l).mem = s.mem := rfl
@[simp] theorem State.logCycle_queue (s : State) (st : BusStatus) (wr : Bool) (p : Pins) (a : Addr) (l : List Byte) :
    (s.logCycle st wr p a l).queue = s.queue := rfl
@[simp] theorem State.logCycle_fetchPc (s : State) (st : BusStatus) (wr : Bool) (p : Pins) (a : Addr) (l : List Byte) :
    (s.logCycle st wr p a l).fetchPc = s.fetchPc := rfl
@[simp] theorem State.logCycle_broken (s : State) (st : BusStatus) (wr : Bool) (p : Pins) (a : Addr) (l : List Byte) :
    (s.logCycle st wr p a l).broken = s.broken := rfl
@[simp] theorem State.logCycle_nmiLatch (s : State) (st : BusStatus) (wr : Bool) (p : Pins) (a : Addr) (l : List Byte) :
    (s.logCycle st wr p a l).nmiLatch = s.nmiLatch := rfl
@[simp] theorem State.logCycle_waiting (s : State) (st : BusStatus) (wr : Bool) (p : Pins) (a : Addr) (l : List Byte) :
    (s.logCycle st wr p a l).waiting = s.waiting := rfl
@[simp] theorem State.logCycle_fpu (s : State) (st : BusStatus) (wr : Bool) (p : Pins) (a : Addr) (l : List Byte) :
    (s.logCycle st wr p a l).fpu = s.fpu := rfl
@[simp] theorem State.logCycle_fregs (s : State) (st : BusStatus) (wr : Bool) (p : Pins) (a : Addr) (l : List Byte) :
    (s.logCycle st wr p a l).fregs = s.fregs := rfl
@[simp] theorem State.logCycle_fsingles (s : State) (st : BusStatus) (wr : Bool) (p : Pins) (a : Addr) (l : List Byte) :
    (s.logCycle st wr p a l).fsingles = s.fsingles := rfl
@[simp] theorem State.logCycle_fsr (s : State) (st : BusStatus) (wr : Bool) (p : Pins) (a : Addr) (l : List Byte) :
    (s.logCycle st wr p a l).fsr = s.fsr := rfl
@[simp] theorem State.logCycle_inputs (s : State) (st : BusStatus) (wr : Bool) (p : Pins) (a : Addr) (l : List Byte) :
    (s.logCycle st wr p a l).inputs = s.inputs := rfl
@[simp] theorem State.logCycle_gaps (s : State) (st : BusStatus) (wr : Bool) (p : Pins) (a : Addr) (l : List Byte) :
    (s.logCycle st wr p a l).gaps = s.gaps := rfl
@[simp] theorem State.logCycle_resetIn (s : State) (st : BusStatus) (wr : Bool) (p : Pins) (a : Addr) (l : List Byte) :
    (s.logCycle st wr p a l).resetIn = s.resetIn.map Nat.pred := rfl
@[simp] theorem State.logCycle_icuReplies (s : State) (st : BusStatus) (wr : Bool) (p : Pins) (a : Addr) (l : List Byte) :
    (s.logCycle st wr p a l).icuReplies = s.icuReplies := rfl
@[simp] theorem State.logCycle_deviceReplies (s : State) (st : BusStatus) (wr : Bool) (p : Pins) (a : Addr) (l : List Byte) :
    (s.logCycle st wr p a l).deviceReplies = s.deviceReplies := rfl
@[simp] theorem State.logCycle_fpuReplies (s : State) (st : BusStatus) (wr : Bool) (p : Pins) (a : Addr) (l : List Byte) :
    (s.logCycle st wr p a l).fpuReplies = s.fpuReplies := rfl
@[simp] theorem State.logCycle_suspend (s : State) (st : BusStatus) (wr : Bool) (p : Pins) (a : Addr) (l : List Byte) :
    (s.logCycle st wr p a l).suspend = s.suspend := rfl
@[simp] theorem State.logCycle_heldTbits (s : State) (st : BusStatus) (wr : Bool) (p : Pins) (a : Addr) (l : List Byte) :
    (s.logCycle st wr p a l).heldTbits = s.heldTbits := rfl
@[simp] theorem State.logCycle_undPolicy (s : State) (st : BusStatus) (wr : Bool) (p : Pins) (a : Addr) (l : List Byte) :
    (s.logCycle st wr p a l).undPolicy = s.undPolicy := rfl
@[simp] theorem State.logCycle_memMap (s : State) (st : BusStatus) (wr : Bool) (p : Pins) (a : Addr) (l : List Byte) :
    (s.logCycle st wr p a l).memMap = s.memMap := rfl
@[simp] theorem State.logCycle_coherent (s : State) (st : BusStatus) (wr : Bool) (p : Pins) (a : Addr) (l : List Byte) :
    (s.logCycle st wr p a l).coherent = s.coherent := rfl
@[simp] theorem State.logCycle_bpu (s : State) (st : BusStatus) (wr : Bool) (p : Pins) (a : Addr) (l : List Byte) :
    (s.logCycle st wr p a l).bpu = s.bpu := rfl
@[simp] theorem State.logCycle_honoursIlo (s : State) (st : BusStatus) (wr : Bool) (p : Pins) (a : Addr) (l : List Byte) :
    (s.logCycle st wr p a l).honoursIlo = s.honoursIlo := rfl
@[simp] theorem State.logCycle_operandPolicy (s : State) (st : BusStatus) (wr : Bool) (p : Pins) (a : Addr) (l : List Byte) :
    (s.logCycle st wr p a l).operandPolicy = s.operandPolicy := rfl
@[simp] theorem State.logCycle_bus (s : State) (st : BusStatus) (wr : Bool) (p : Pins) (a : Addr) (l : List Byte) :
    (s.logCycle st wr p a l).bus = s.bus ++ [.cycle ⟨st, wr, a, l.length, BitVec.ofNat 16 (bytesNat l), p.lock, p.bpu, s.flag .u⟩] := rfl
@[simp] theorem State.logCycle_draws (s : State) (st : BusStatus) (wr : Bool) (p : Pins) (a : Addr) (l : List Byte) :
    (s.logCycle st wr p a l).draws = s.draws := rfl

/-! ### State.poke -/

@[simp] theorem State.poke_regs {w : Nat} (s : State) (a : Addr) (n : Nat) (v : BitVec w) :
    (s.poke a n v).regs = s.regs := rfl
@[simp] theorem State.poke_pc {w : Nat} (s : State) (a : Addr) (n : Nat) (v : BitVec w) :
    (s.poke a n v).pc = s.pc := rfl
@[simp] theorem State.poke_sp0 {w : Nat} (s : State) (a : Addr) (n : Nat) (v : BitVec w) :
    (s.poke a n v).sp0 = s.sp0 := rfl
@[simp] theorem State.poke_sp1 {w : Nat} (s : State) (a : Addr) (n : Nat) (v : BitVec w) :
    (s.poke a n v).sp1 = s.sp1 := rfl
@[simp] theorem State.poke_fp {w : Nat} (s : State) (a : Addr) (n : Nat) (v : BitVec w) :
    (s.poke a n v).fp = s.fp := rfl
@[simp] theorem State.poke_sb {w : Nat} (s : State) (a : Addr) (n : Nat) (v : BitVec w) :
    (s.poke a n v).sb = s.sb := rfl
@[simp] theorem State.poke_intbase {w : Nat} (s : State) (a : Addr) (n : Nat) (v : BitVec w) :
    (s.poke a n v).intbase = s.intbase := rfl
@[simp] theorem State.poke_modReg {w : Nat} (s : State) (a : Addr) (n : Nat) (v : BitVec w) :
    (s.poke a n v).modReg = s.modReg := rfl
@[simp] theorem State.poke_psr {w : Nat} (s : State) (a : Addr) (n : Nat) (v : BitVec w) :
    (s.poke a n v).psr = s.psr := rfl
@[simp] theorem State.poke_cfg {w : Nat} (s : State) (a : Addr) (n : Nat) (v : BitVec w) :
    (s.poke a n v).cfg = s.cfg := rfl
@[simp] theorem State.poke_mem {w : Nat} (s : State) (a : Addr) (n : Nat) (v : BitVec w) :
    (s.poke a n v).mem = storeBytes s.storable s.mem a (toBytes n v) := rfl
@[simp] theorem State.poke_queue {w : Nat} (s : State) (a : Addr) (n : Nat) (v : BitVec w) :
    (s.poke a n v).queue = s.queue := rfl
@[simp] theorem State.poke_fetchPc {w : Nat} (s : State) (a : Addr) (n : Nat) (v : BitVec w) :
    (s.poke a n v).fetchPc = s.fetchPc := rfl
@[simp] theorem State.poke_broken {w : Nat} (s : State) (a : Addr) (n : Nat) (v : BitVec w) :
    (s.poke a n v).broken = s.broken := rfl
@[simp] theorem State.poke_nmiLatch {w : Nat} (s : State) (a : Addr) (n : Nat) (v : BitVec w) :
    (s.poke a n v).nmiLatch = s.nmiLatch := rfl
@[simp] theorem State.poke_waiting {w : Nat} (s : State) (a : Addr) (n : Nat) (v : BitVec w) :
    (s.poke a n v).waiting = s.waiting := rfl
@[simp] theorem State.poke_fpu {w : Nat} (s : State) (a : Addr) (n : Nat) (v : BitVec w) :
    (s.poke a n v).fpu = s.fpu := rfl
@[simp] theorem State.poke_fregs {w : Nat} (s : State) (a : Addr) (n : Nat) (v : BitVec w) :
    (s.poke a n v).fregs = s.fregs := rfl
@[simp] theorem State.poke_fsingles {w : Nat} (s : State) (a : Addr) (n : Nat) (v : BitVec w) :
    (s.poke a n v).fsingles = s.fsingles := rfl
@[simp] theorem State.poke_fsr {w : Nat} (s : State) (a : Addr) (n : Nat) (v : BitVec w) :
    (s.poke a n v).fsr = s.fsr := rfl
@[simp] theorem State.poke_inputs {w : Nat} (s : State) (a : Addr) (n : Nat) (v : BitVec w) :
    (s.poke a n v).inputs = s.inputs := rfl
@[simp] theorem State.poke_gaps {w : Nat} (s : State) (a : Addr) (n : Nat) (v : BitVec w) :
    (s.poke a n v).gaps = s.gaps := rfl
@[simp] theorem State.poke_resetIn {w : Nat} (s : State) (a : Addr) (n : Nat) (v : BitVec w) :
    (s.poke a n v).resetIn = s.resetIn := rfl
@[simp] theorem State.poke_icuReplies {w : Nat} (s : State) (a : Addr) (n : Nat) (v : BitVec w) :
    (s.poke a n v).icuReplies = s.icuReplies := rfl
@[simp] theorem State.poke_deviceReplies {w : Nat} (s : State) (a : Addr) (n : Nat) (v : BitVec w) :
    (s.poke a n v).deviceReplies = s.deviceReplies := rfl
@[simp] theorem State.poke_fpuReplies {w : Nat} (s : State) (a : Addr) (n : Nat) (v : BitVec w) :
    (s.poke a n v).fpuReplies = s.fpuReplies := rfl
@[simp] theorem State.poke_suspend {w : Nat} (s : State) (a : Addr) (n : Nat) (v : BitVec w) :
    (s.poke a n v).suspend = s.suspend := rfl
@[simp] theorem State.poke_heldTbits {w : Nat} (s : State) (a : Addr) (n : Nat) (v : BitVec w) :
    (s.poke a n v).heldTbits = s.heldTbits := rfl
@[simp] theorem State.poke_undPolicy {w : Nat} (s : State) (a : Addr) (n : Nat) (v : BitVec w) :
    (s.poke a n v).undPolicy = s.undPolicy := rfl
@[simp] theorem State.poke_memMap {w : Nat} (s : State) (a : Addr) (n : Nat) (v : BitVec w) :
    (s.poke a n v).memMap = s.memMap := rfl
@[simp] theorem State.poke_coherent {w : Nat} (s : State) (a : Addr) (n : Nat) (v : BitVec w) :
    (s.poke a n v).coherent = s.coherent := rfl
@[simp] theorem State.poke_bpu {w : Nat} (s : State) (a : Addr) (n : Nat) (v : BitVec w) :
    (s.poke a n v).bpu = s.bpu := rfl
@[simp] theorem State.poke_honoursIlo {w : Nat} (s : State) (a : Addr) (n : Nat) (v : BitVec w) :
    (s.poke a n v).honoursIlo = s.honoursIlo := rfl
@[simp] theorem State.poke_operandPolicy {w : Nat} (s : State) (a : Addr) (n : Nat) (v : BitVec w) :
    (s.poke a n v).operandPolicy = s.operandPolicy := rfl
@[simp] theorem State.poke_bus {w : Nat} (s : State) (a : Addr) (n : Nat) (v : BitVec w) :
    (s.poke a n v).bus = s.bus := rfl
@[simp] theorem State.poke_draws {w : Nat} (s : State) (a : Addr) (n : Nat) (v : BitVec w) :
    (s.poke a n v).draws = s.draws := rfl

/-! ### State.setSp -/

@[simp] theorem State.setSp_regs (s : State) (a : Addr) : (s.setSp a).regs = s.regs := by
  unfold State.setSp; split <;> rfl
@[simp] theorem State.setSp_pc (s : State) (a : Addr) : (s.setSp a).pc = s.pc := by
  unfold State.setSp; split <;> rfl
@[simp] theorem State.setSp_fp (s : State) (a : Addr) : (s.setSp a).fp = s.fp := by
  unfold State.setSp; split <;> rfl
@[simp] theorem State.setSp_sb (s : State) (a : Addr) : (s.setSp a).sb = s.sb := by
  unfold State.setSp; split <;> rfl
@[simp] theorem State.setSp_intbase (s : State) (a : Addr) : (s.setSp a).intbase = s.intbase := by
  unfold State.setSp; split <;> rfl
@[simp] theorem State.setSp_modReg (s : State) (a : Addr) : (s.setSp a).modReg = s.modReg := by
  unfold State.setSp; split <;> rfl
@[simp] theorem State.setSp_psr (s : State) (a : Addr) : (s.setSp a).psr = s.psr := by
  unfold State.setSp; split <;> rfl
@[simp] theorem State.setSp_cfg (s : State) (a : Addr) : (s.setSp a).cfg = s.cfg := by
  unfold State.setSp; split <;> rfl
@[simp] theorem State.setSp_mem (s : State) (a : Addr) : (s.setSp a).mem = s.mem := by
  unfold State.setSp; split <;> rfl
@[simp] theorem State.setSp_queue (s : State) (a : Addr) : (s.setSp a).queue = s.queue := by
  unfold State.setSp; split <;> rfl
@[simp] theorem State.setSp_fetchPc (s : State) (a : Addr) : (s.setSp a).fetchPc = s.fetchPc := by
  unfold State.setSp; split <;> rfl
@[simp] theorem State.setSp_broken (s : State) (a : Addr) : (s.setSp a).broken = s.broken := by
  unfold State.setSp; split <;> rfl
@[simp] theorem State.setSp_nmiLatch (s : State) (a : Addr) : (s.setSp a).nmiLatch = s.nmiLatch := by
  unfold State.setSp; split <;> rfl
@[simp] theorem State.setSp_waiting (s : State) (a : Addr) : (s.setSp a).waiting = s.waiting := by
  unfold State.setSp; split <;> rfl
@[simp] theorem State.setSp_fpu (s : State) (a : Addr) : (s.setSp a).fpu = s.fpu := by
  unfold State.setSp; split <;> rfl
@[simp] theorem State.setSp_fregs (s : State) (a : Addr) : (s.setSp a).fregs = s.fregs := by
  unfold State.setSp; split <;> rfl
@[simp] theorem State.setSp_fsingles (s : State) (a : Addr) : (s.setSp a).fsingles = s.fsingles := by
  unfold State.setSp; split <;> rfl
@[simp] theorem State.setSp_fsr (s : State) (a : Addr) : (s.setSp a).fsr = s.fsr := by
  unfold State.setSp; split <;> rfl
@[simp] theorem State.setSp_inputs (s : State) (a : Addr) : (s.setSp a).inputs = s.inputs := by
  unfold State.setSp; split <;> rfl
@[simp] theorem State.setSp_gaps (s : State) (a : Addr) : (s.setSp a).gaps = s.gaps := by
  unfold State.setSp; split <;> rfl
@[simp] theorem State.setSp_resetIn (s : State) (a : Addr) : (s.setSp a).resetIn = s.resetIn := by
  unfold State.setSp; split <;> rfl
@[simp] theorem State.setSp_icuReplies (s : State) (a : Addr) : (s.setSp a).icuReplies = s.icuReplies := by
  unfold State.setSp; split <;> rfl
@[simp] theorem State.setSp_deviceReplies (s : State) (a : Addr) : (s.setSp a).deviceReplies = s.deviceReplies := by
  unfold State.setSp; split <;> rfl
@[simp] theorem State.setSp_fpuReplies (s : State) (a : Addr) : (s.setSp a).fpuReplies = s.fpuReplies := by
  unfold State.setSp; split <;> rfl
@[simp] theorem State.setSp_suspend (s : State) (a : Addr) : (s.setSp a).suspend = s.suspend := by
  unfold State.setSp; split <;> rfl
@[simp] theorem State.setSp_heldTbits (s : State) (a : Addr) : (s.setSp a).heldTbits = s.heldTbits := by
  unfold State.setSp; split <;> rfl
@[simp] theorem State.setSp_undPolicy (s : State) (a : Addr) : (s.setSp a).undPolicy = s.undPolicy := by
  unfold State.setSp; split <;> rfl
@[simp] theorem State.setSp_memMap (s : State) (a : Addr) : (s.setSp a).memMap = s.memMap := by
  unfold State.setSp; split <;> rfl
@[simp] theorem State.setSp_coherent (s : State) (a : Addr) : (s.setSp a).coherent = s.coherent := by
  unfold State.setSp; split <;> rfl
@[simp] theorem State.setSp_bpu (s : State) (a : Addr) : (s.setSp a).bpu = s.bpu := by
  unfold State.setSp; split <;> rfl
@[simp] theorem State.setSp_honoursIlo (s : State) (a : Addr) : (s.setSp a).honoursIlo = s.honoursIlo := by
  unfold State.setSp; split <;> rfl
@[simp] theorem State.setSp_operandPolicy (s : State) (a : Addr) : (s.setSp a).operandPolicy = s.operandPolicy := by
  unfold State.setSp; split <;> rfl
@[simp] theorem State.setSp_bus (s : State) (a : Addr) : (s.setSp a).bus = s.bus := by
  unfold State.setSp; split <;> rfl
@[simp] theorem State.setSp_draws (s : State) (a : Addr) : (s.setSp a).draws = s.draws := by
  unfold State.setSp; split <;> rfl
@[simp] theorem State.setSp_sp0 (s : State) (a : Addr) : (s.setSp a).sp0 = if s.flag .s then s.sp0 else a := by
  unfold State.setSp; split <;> rfl
@[simp] theorem State.setSp_sp1 (s : State) (a : Addr) : (s.setSp a).sp1 = if s.flag .s then a else s.sp1 := by
  unfold State.setSp; split <;> rfl

/-! ### What reads the state after an update -/

@[simp] theorem State.setSp_flag (s : State) (a : Addr) (q : PsrBit) : (s.setSp a).flag q = s.flag q := by
  unfold State.flag; simp
@[simp] theorem State.setSp_sp (s : State) (a : Addr) : (s.setSp a).sp = a := by
  unfold State.sp State.setSp; split <;> simp_all [State.flag]
@[simp] theorem State.setReg_reg_same (s : State) (r : RegNo) (v : DWord) : (s.setReg r v).reg r = v := by
  simp [State.reg, State.setReg]
theorem State.setReg_reg_other (s : State) (r q : RegNo) (v : DWord) (h : r ≠ q) :
    (s.setReg r v).reg q = s.reg q := by
  have : r.toNat ≠ q.toNat := fun e => h (BitVec.eq_of_toNat_eq e)
  simp [State.reg, State.setReg, this]
@[simp] theorem State.setFreg_freg_same (s : State) (r : RegNo) (v : Quad) : (s.setFreg r v).freg r = v := by
  simp [State.freg, State.setFreg]
theorem State.setFreg_freg_other (s : State) (r q : RegNo) (v : Quad) (h : r ≠ q) :
    (s.setFreg r v).freg q = s.freg q := by
  have : r.toNat ≠ q.toNat := fun e => h (BitVec.eq_of_toNat_eq e)
  simp [State.freg, State.setFreg, this]

@[simp] theorem State.setPsr_reg (s : State) (v : Half) (y : RegNo) :
    (s.setPsr v).reg y = s.reg y := rfl
@[simp] theorem State.setPsr_freg (s : State) (v : Half) (y : RegNo) :
    (s.setPsr v).freg y = s.freg y := rfl
@[simp] theorem State.setPsr_byteAt (s : State) (v : Half) (y : Addr) :
    (s.setPsr v).byteAt y = s.byteAt y := rfl
@[simp] theorem State.setPsr_peek (s : State) (v : Half) (y : Addr) (j : Nat) :
    (s.setPsr v).peek y j = s.peek y j := rfl
@[simp] theorem State.setPsr_blockedAt (s : State) (v : Half) (y : Addr) :
    (s.setPsr v).blockedAt y = s.blockedAt y := rfl
@[simp] theorem State.setPsr_storable (s : State) (v : Half) :
    (s.setPsr v).storable = s.storable := rfl
@[simp] theorem State.setPsr_modAddr (s : State) (v : Half) (j : Nat) :
    (s.setPsr v).modAddr j = s.modAddr j := rfl
@[simp] theorem State.putFlag_reg (s : State) (q : PsrBit) (x : Bool) (y : RegNo) :
    (s.putFlag q x).reg y = s.reg y := rfl
@[simp] theorem State.putFlag_freg (s : State) (q : PsrBit) (x : Bool) (y : RegNo) :
    (s.putFlag q x).freg y = s.freg y := rfl
@[simp] theorem State.putFlag_byteAt (s : State) (q : PsrBit) (x : Bool) (y : Addr) :
    (s.putFlag q x).byteAt y = s.byteAt y := rfl
@[simp] theorem State.putFlag_peek (s : State) (q : PsrBit) (x : Bool) (y : Addr) (j : Nat) :
    (s.putFlag q x).peek y j = s.peek y j := rfl
@[simp] theorem State.putFlag_blockedAt (s : State) (q : PsrBit) (x : Bool) (y : Addr) :
    (s.putFlag q x).blockedAt y = s.blockedAt y := rfl
@[simp] theorem State.putFlag_storable (s : State) (q : PsrBit) (x : Bool) :
    (s.putFlag q x).storable = s.storable := rfl
@[simp] theorem State.putFlag_modAddr (s : State) (q : PsrBit) (x : Bool) (j : Nat) :
    (s.putFlag q x).modAddr j = s.modAddr j := rfl
@[simp] theorem State.setPsrLow_reg (s : State) (v : Byte) (y : RegNo) :
    (s.setPsrLow v).reg y = s.reg y := rfl
@[simp] theorem State.setPsrLow_freg (s : State) (v : Byte) (y : RegNo) :
    (s.setPsrLow v).freg y = s.freg y := rfl
@[simp] theorem State.setPsrLow_byteAt (s : State) (v : Byte) (y : Addr) :
    (s.setPsrLow v).byteAt y = s.byteAt y := rfl
@[simp] theorem State.setPsrLow_peek (s : State) (v : Byte) (y : Addr) (j : Nat) :
    (s.setPsrLow v).peek y j = s.peek y j := rfl
@[simp] theorem State.setPsrLow_blockedAt (s : State) (v : Byte) (y : Addr) :
    (s.setPsrLow v).blockedAt y = s.blockedAt y := rfl
@[simp] theorem State.setPsrLow_storable (s : State) (v : Byte) :
    (s.setPsrLow v).storable = s.storable := rfl
@[simp] theorem State.setPsrLow_modAddr (s : State) (v : Byte) (j : Nat) :
    (s.setPsrLow v).modAddr j = s.modAddr j := rfl
@[simp] theorem State.setReg_freg (s : State) (r : RegNo) (v : DWord) (y : RegNo) :
    (s.setReg r v).freg y = s.freg y := rfl
@[simp] theorem State.setReg_flag (s : State) (r : RegNo) (v : DWord) (bit : PsrBit) :
    (s.setReg r v).flag bit = s.flag bit := rfl
@[simp] theorem State.setReg_sp (s : State) (r : RegNo) (v : DWord) :
    (s.setReg r v).sp = s.sp := rfl
@[simp] theorem State.setReg_byteAt (s : State) (r : RegNo) (v : DWord) (y : Addr) :
    (s.setReg r v).byteAt y = s.byteAt y := rfl
@[simp] theorem State.setReg_peek (s : State) (r : RegNo) (v : DWord) (y : Addr) (j : Nat) :
    (s.setReg r v).peek y j = s.peek y j := rfl
@[simp] theorem State.setReg_blockedAt (s : State) (r : RegNo) (v : DWord) (y : Addr) :
    (s.setReg r v).blockedAt y = s.blockedAt y := rfl
@[simp] theorem State.setReg_storable (s : State) (r : RegNo) (v : DWord) :
    (s.setReg r v).storable = s.storable := rfl
@[simp] theorem State.setReg_modAddr (s : State) (r : RegNo) (v : DWord) (j : Nat) :
    (s.setReg r v).modAddr j = s.modAddr j := rfl
@[simp] theorem State.setFreg_reg (s : State) (r : RegNo) (v : Quad) (y : RegNo) :
    (s.setFreg r v).reg y = s.reg y := rfl
@[simp] theorem State.setFreg_flag (s : State) (r : RegNo) (v : Quad) (bit : PsrBit) :
    (s.setFreg r v).flag bit = s.flag bit := rfl
@[simp] theorem State.setFreg_sp (s : State) (r : RegNo) (v : Quad) :
    (s.setFreg r v).sp = s.sp := rfl
@[simp] theorem State.setFreg_byteAt (s : State) (r : RegNo) (v : Quad) (y : Addr) :
    (s.setFreg r v).byteAt y = s.byteAt y := rfl
@[simp] theorem State.setFreg_peek (s : State) (r : RegNo) (v : Quad) (y : Addr) (j : Nat) :
    (s.setFreg r v).peek y j = s.peek y j := rfl
@[simp] theorem State.setFreg_blockedAt (s : State) (r : RegNo) (v : Quad) (y : Addr) :
    (s.setFreg r v).blockedAt y = s.blockedAt y := rfl
@[simp] theorem State.setFreg_storable (s : State) (r : RegNo) (v : Quad) :
    (s.setFreg r v).storable = s.storable := rfl
@[simp] theorem State.setFreg_modAddr (s : State) (r : RegNo) (v : Quad) (j : Nat) :
    (s.setFreg r v).modAddr j = s.modAddr j := rfl
@[simp] theorem State.jump_reg (s : State) (a : Addr) (y : RegNo) :
    (s.jump a).reg y = s.reg y := rfl
@[simp] theorem State.jump_freg (s : State) (a : Addr) (y : RegNo) :
    (s.jump a).freg y = s.freg y := rfl
@[simp] theorem State.jump_flag (s : State) (a : Addr) (bit : PsrBit) :
    (s.jump a).flag bit = s.flag bit := rfl
@[simp] theorem State.jump_sp (s : State) (a : Addr) :
    (s.jump a).sp = s.sp := rfl
@[simp] theorem State.jump_byteAt (s : State) (a : Addr) (y : Addr) :
    (s.jump a).byteAt y = s.byteAt y := rfl
@[simp] theorem State.jump_peek (s : State) (a : Addr) (y : Addr) (j : Nat) :
    (s.jump a).peek y j = s.peek y j := rfl
@[simp] theorem State.jump_blockedAt (s : State) (a : Addr) (y : Addr) :
    (s.jump a).blockedAt y = s.blockedAt y := rfl
@[simp] theorem State.jump_storable (s : State) (a : Addr) :
    (s.jump a).storable = s.storable := rfl
@[simp] theorem State.jump_modAddr (s : State) (a : Addr) (j : Nat) :
    (s.jump a).modAddr j = s.modAddr j := rfl
@[simp] theorem State.logCycle_reg (s : State) (st : BusStatus) (wr : Bool) (p : Pins) (a : Addr) (l : List Byte) (y : RegNo) :
    (s.logCycle st wr p a l).reg y = s.reg y := rfl
@[simp] theorem State.logCycle_freg (s : State) (st : BusStatus) (wr : Bool) (p : Pins) (a : Addr) (l : List Byte) (y : RegNo) :
    (s.logCycle st wr p a l).freg y = s.freg y := rfl
@[simp] theorem State.logCycle_flag (s : State) (st : BusStatus) (wr : Bool) (p : Pins) (a : Addr) (l : List Byte) (bit : PsrBit) :
    (s.logCycle st wr p a l).flag bit = s.flag bit := rfl
@[simp] theorem State.logCycle_sp (s : State) (st : BusStatus) (wr : Bool) (p : Pins) (a : Addr) (l : List Byte) :
    (s.logCycle st wr p a l).sp = s.sp := rfl
@[simp] theorem State.logCycle_byteAt (s : State) (st : BusStatus) (wr : Bool) (p : Pins) (a : Addr) (l : List Byte) (y : Addr) :
    (s.logCycle st wr p a l).byteAt y = s.byteAt y := rfl
@[simp] theorem State.logCycle_peek (s : State) (st : BusStatus) (wr : Bool) (p : Pins) (a : Addr) (l : List Byte) (y : Addr) (j : Nat) :
    (s.logCycle st wr p a l).peek y j = s.peek y j := rfl
@[simp] theorem State.logCycle_blockedAt (s : State) (st : BusStatus) (wr : Bool) (p : Pins) (a : Addr) (l : List Byte) (y : Addr) :
    (s.logCycle st wr p a l).blockedAt y = s.blockedAt y := rfl
@[simp] theorem State.logCycle_storable (s : State) (st : BusStatus) (wr : Bool) (p : Pins) (a : Addr) (l : List Byte) :
    (s.logCycle st wr p a l).storable = s.storable := rfl
@[simp] theorem State.logCycle_modAddr (s : State) (st : BusStatus) (wr : Bool) (p : Pins) (a : Addr) (l : List Byte) (j : Nat) :
    (s.logCycle st wr p a l).modAddr j = s.modAddr j := rfl
@[simp] theorem State.poke_reg {w : Nat} (s : State) (a : Addr) (n : Nat) (v : BitVec w) (y : RegNo) :
    (s.poke a n v).reg y = s.reg y := rfl
@[simp] theorem State.poke_freg {w : Nat} (s : State) (a : Addr) (n : Nat) (v : BitVec w) (y : RegNo) :
    (s.poke a n v).freg y = s.freg y := rfl
@[simp] theorem State.poke_flag {w : Nat} (s : State) (a : Addr) (n : Nat) (v : BitVec w) (bit : PsrBit) :
    (s.poke a n v).flag bit = s.flag bit := rfl
@[simp] theorem State.poke_sp {w : Nat} (s : State) (a : Addr) (n : Nat) (v : BitVec w) :
    (s.poke a n v).sp = s.sp := rfl
@[simp] theorem State.poke_blockedAt {w : Nat} (s : State) (a : Addr) (n : Nat) (v : BitVec w) (y : Addr) :
    (s.poke a n v).blockedAt y = s.blockedAt y := rfl
@[simp] theorem State.poke_storable {w : Nat} (s : State) (a : Addr) (n : Nat) (v : BitVec w) :
    (s.poke a n v).storable = s.storable := rfl
@[simp] theorem State.poke_modAddr {w : Nat} (s : State) (a : Addr) (n : Nat) (v : BitVec w) (j : Nat) :
    (s.poke a n v).modAddr j = s.modAddr j := rfl
@[simp] theorem State.setSp_reg (s : State) (a : Addr) (y : RegNo) : (s.setSp a).reg y = s.reg y := by
  unfold State.setSp; split <;> rfl
@[simp] theorem State.setSp_freg (s : State) (a : Addr) (y : RegNo) : (s.setSp a).freg y = s.freg y := by
  unfold State.setSp; split <;> rfl
@[simp] theorem State.setSp_byteAt (s : State) (a : Addr) (y : Addr) : (s.setSp a).byteAt y = s.byteAt y := by
  unfold State.setSp; split <;> rfl
@[simp] theorem State.setSp_peek (s : State) (a : Addr) (y : Addr) (j : Nat) : (s.setSp a).peek y j = s.peek y j := by
  unfold State.setSp; split <;> rfl
@[simp] theorem State.setSp_blockedAt (s : State) (a : Addr) (y : Addr) : (s.setSp a).blockedAt y = s.blockedAt y := by
  unfold State.setSp; split <;> rfl
@[simp] theorem State.setSp_storable (s : State) (a : Addr) : (s.setSp a).storable = s.storable := by
  unfold State.setSp; split <;> rfl
@[simp] theorem State.setSp_modAddr (s : State) (a : Addr) (j : Nat) : (s.setSp a).modAddr j = s.modAddr j := by
  unfold State.setSp; split <;> rfl

/-! ### The bits of the PSR -/

/-- A PSR value after one bit is written, bit by bit. -/
theorem psrPut_getLsbD (v : Half) (q : PsrBit) (x : Bool) (k : Nat) :
    (psrPut v q x).getLsbD k = if k = q.pos then x else v.getLsbD k := by
  have hq : q.pos < 16 := by cases q <;> decide
  by_cases hk : k < 16
  · by_cases e : k = q.pos
    · subst e; cases x <;> simp [psrPut, hk]
    · have : ¬(k - q.pos = 0 ∧ q.pos ≤ k) := by omega
      cases x <;> simp [psrPut, hk, e] <;> omega
  · have e : k ≠ q.pos := by omega
    rw [if_neg e, BitVec.getLsbD_of_ge _ _ (by omega), BitVec.getLsbD_of_ge _ _ (by omega)]

/-- A flag after a flag is written. -/
@[simp] theorem State.putFlag_flag (s : State) (q bit : PsrBit) (x : Bool) :
    (s.putFlag q x).flag bit = if bit = q then x else s.flag bit := by
  unfold State.flag
  rw [State.putFlag_psr, psrPut_getLsbD]
  have : (bit.pos = q.pos) ↔ bit = q := by constructor <;> intro h <;> cases bit <;> cases q <;> first | rfl | cases h
  simp only [this]

end Sys2Proof.Machine
end

