-- ==== Sys2Proof/Laws/Memory.lean ====
section
/-!
SUPPORT. Memory: a read after a write, and the canonical form that every operation on memory keeps.
-/
namespace Sys2Proof.Machine

/-! ## One byte -/

theorem memGet_memSet_other (m : List Host.Cell) (a b : Nat) (x : Byte) (h : b ≠ a) :
    memGet (memSet m a x) b = memGet m b := by
  induction m with
  | nil => unfold memSet; split <;> simp [memGet, h.symm]
  | cons c m ih =>
    obtain ⟨k, v⟩ := c
    unfold memSet
    split
    · split
      · rfl
      · simp [memGet, h.symm]
    · split
      · next e => subst e; split <;> simp [memGet, h.symm]
      · simp only [memGet, ih]

/-- The canonical form, as a proposition. -/
theorem wf_iff (m : List Host.Cell) : Memory.wf m = true ↔
    (∀ c ∈ m, c.1 < 2 ^ 24 ∧ c.2 ≠ unlisted) ∧ (m.map Prod.fst).Pairwise (· < ·) := by
  simp [Memory.wf]

theorem wf_tail {c : Host.Cell} {m : List Host.Cell} (h : Memory.wf (c :: m) = true) : Memory.wf m = true := by
  rw [wf_iff] at *
  exact ⟨fun d hd => h.1 d (List.mem_cons_of_mem _ hd), (List.pairwise_cons.mp h.2).2⟩

/-- An address below every listed one reads as unlisted. -/
theorem memGet_below {m : List Host.Cell} {a : Nat} (h : ∀ c ∈ m, a < c.1) : memGet m a = unlisted := by
  induction m with
  | nil => rfl
  | cons c m ih =>
    obtain ⟨k, v⟩ := c
    have hk : a < k := h (k, v) List.mem_cons_self
    have : ¬(k = a) := by omega
    simp only [memGet, this, if_false]
    exact ih fun d hd => h d (List.mem_cons_of_mem _ hd)

theorem wf_head_below {k : Nat} {v : Byte} {m : List Host.Cell} (h : Memory.wf ((k, v) :: m) = true) :
    ∀ c ∈ m, k < c.1 := by
  rw [wf_iff] at h
  intro c hc
  exact (List.pairwise_cons.mp h.2).1 c.1 (List.mem_map_of_mem hc)

theorem memGet_memSet_same (m : List Host.Cell) (a : Nat) (x : Byte) (h : Memory.wf m = true) :
    memGet (memSet m a x) a = x := by
  induction m with
  | nil => unfold memSet; split <;> simp_all [memGet]
  | cons c m ih =>
    obtain ⟨k, v⟩ := c
    have hb := wf_head_below h
    unfold memSet
    split
    · next hk =>
      split
      · next hx =>
        rw [hx]
        refine memGet_below fun c hc => ?_
        rcases List.mem_cons.mp hc with e | hc
        · subst e; exact hk
        · exact lt_trans hk (hb c hc)
      · simp [memGet]
    · split
      · next e =>
        subst e
        split
        · next hx => rw [hx]; exact memGet_below hb
        · simp [memGet]
      · next h1 h2 =>
        have : ¬(k = a) := fun e => h2 e.symm
        simp only [memGet, this, if_false]
        exact ih (wf_tail h)

/-- Storing one byte lists no address but its own. -/
theorem mem_memSet {m : List Host.Cell} {a : Nat} {x : Byte} {c : Host.Cell} (h : c ∈ memSet m a x) :
    c ∈ m ∨ (c = (a, x) ∧ x ≠ unlisted) := by
  induction m with
  | nil =>
    unfold memSet at h
    split at h
    · cases h
    · next hx => exact .inr ⟨List.mem_singleton.mp h, hx⟩
  | cons d m ih =>
    obtain ⟨k, v⟩ := d
    unfold memSet at h
    split at h
    · split at h
      · exact .inl h
      · next hx =>
        rcases List.mem_cons.mp h with e | h
        · exact .inr ⟨e, hx⟩
        · exact .inl h
    · split at h
      · split at h
        · exact .inl (List.mem_cons_of_mem _ h)
        · next hx =>
          rcases List.mem_cons.mp h with e | h
          · exact .inr ⟨e, hx⟩
          · exact .inl (List.mem_cons_of_mem _ h)
      · rcases List.mem_cons.mp h with e | h
        · exact .inl (by rw [e]; exact List.mem_cons_self)
        · rcases ih h with h | h
          · exact .inl (List.mem_cons_of_mem _ h)
          · exact .inr h

/-- Storing one byte keeps the canonical form. -/
theorem wf_memSet {m : List Host.Cell} {a : Nat} {x : Byte} (h : Memory.wf m = true) (ha : a < 2 ^ 24) :
    Memory.wf (memSet m a x) = true := by
  have bound : ∀ c ∈ memSet m a x, c.1 < 2 ^ 24 ∧ c.2 ≠ unlisted := by
    intro c hc
    rcases mem_memSet hc with hc | ⟨rfl, hx⟩
    · exact ((wf_iff m).mp h).1 c hc
    · exact ⟨ha, hx⟩
  refine (wf_iff _).mpr ⟨bound, ?_⟩
  clear bound
  induction m with
  | nil => unfold memSet; split <;> simp
  | cons d m ih =>
    obtain ⟨k, v⟩ := d
    have hp := ((wf_iff _).mp h).2
    have hb := wf_head_below h
    unfold memSet
    split
    · next hk =>
      split
      · exact hp
      · refine List.pairwise_cons.mpr ⟨fun y hy => ?_, hp⟩
        rcases List.mem_cons.mp hy with e | hy
        · rw [e]; exact hk
        · obtain ⟨c, hc, rfl⟩ := List.mem_map.mp hy
          exact lt_trans hk (hb c hc)
    · split
      · next e =>
        subst e
        split
        · exact (List.pairwise_cons.mp hp).2
        · exact hp
      · next h1 h2 =>
        refine List.pairwise_cons.mpr ⟨fun y hy => ?_, ih (wf_tail h)⟩
        obtain ⟨c, hc, rfl⟩ := List.mem_map.mp hy
        rcases mem_memSet hc with hc | ⟨rfl, _⟩
        · exact hb c hc
        · show k < a
          omega

/-! ## Byte strings -/

theorem wf_storeBytes (ok : Addr → Bool) {m : List Host.Cell} (a : Addr) (bs : List Byte)
    (h : Memory.wf m = true) : Memory.wf (storeBytes ok m a bs) = true := by
  induction bs generalizing m a with
  | nil => exact h
  | cons x xs ih =>
    unfold storeBytes
    refine ih _ ?_
    split
    · exact wf_memSet h (by have := a.isLt; omega)
    · exact h

theorem othersStore_wf {s : State} (ws : List Host.Cell) (h : Memory.wf s.mem = true) :
    Memory.wf (s.othersStore ws).mem = true := by
  show Memory.wf (ws.foldl (fun m c => storeBytes s.storable m (BitVec.ofNat 24 c.1) [c.2]) s.mem) = true
  generalize s.mem = m at h
  induction ws generalizing m with
  | nil => exact h
  | cons c ws ih => exact ih _ (wf_storeBytes _ _ _ h)

theorem storeBytes_append (ok : Addr → Bool) (m : List Host.Cell) (a : Addr) (xs ys : List Byte) :
    storeBytes ok m a (xs ++ ys) = storeBytes ok (storeBytes ok m a xs) (a + BitVec.ofNat 24 xs.length) ys := by
  induction xs generalizing m a with
  | nil => simp [storeBytes]
  | cons x xs ih =>
    simp only [List.cons_append, storeBytes, ih, List.length_cons, BitVec.ofNat_add, BitVec.add_assoc]
    rw [BitVec.add_comm (BitVec.ofNat 24 xs.length)]
    rfl

theorem loadBytes_append (m : List Host.Cell) (a : Addr) (j k : Nat) :
    loadBytes m a (j + k) = loadBytes m a j ++ loadBytes m (a + BitVec.ofNat 24 j) k := by
  induction j generalizing a with
  | zero => simp [loadBytes]
  | succ j ih =>
    rw [Nat.add_right_comm]
    simp only [loadBytes, ih, List.cons_append, BitVec.ofNat_add, BitVec.add_assoc]
    rw [BitVec.add_comm (BitVec.ofNat 24 j)]
    rfl

/-- Storing a byte string leaves every byte outside it alone. -/
theorem memGet_storeBytes_other (ok : Addr → Bool) (m : List Host.Cell) (a : Addr) (bs : List Byte) (b : Addr)
    (h : ∀ k, k < bs.length → b ≠ a + BitVec.ofNat 24 k) :
    memGet (storeBytes ok m a bs) b.toNat = memGet m b.toNat := by
  induction bs generalizing m a with
  | nil => rfl
  | cons x xs ih =>
    unfold storeBytes
    rw [ih]
    · split
      · refine memGet_memSet_other _ _ _ _ fun e => h 0 (by simp) ?_
        rw [BitVec.eq_of_toNat_eq e]
        simp
      · rfl
    · intro k hk e
      refine h (k + 1) (by simpa using hk) ?_
      rw [e, BitVec.add_assoc]
      congr 1
      rw [BitVec.ofNat_add, BitVec.add_comm]
      rfl

/-- A byte string read back where it was stored, if every byte of it may be stored. -/
theorem loadBytes_storeBytes (ok : Addr → Bool) (m : List Host.Cell) (a : Addr) (bs : List Byte)
    (hm : Memory.wf m = true) (hok : ∀ a, ok a = true) (hl : bs.length ≤ 2 ^ 24) :
    loadBytes (storeBytes ok m a bs) a bs.length = bs := by
  induction bs generalizing m a with
  | nil => rfl
  | cons x xs ih =>
    simp only [List.length_cons] at hl
    have hw : Memory.wf (memSet m a.toNat x) = true := wf_memSet hm (by have := a.isLt; omega)
    simp only [storeBytes, hok, if_true, loadBytes, List.length_cons]
    rw [ih _ _ hw (by omega)]
    congr 1
    rw [memGet_storeBytes_other, memGet_memSet_same _ _ _ hm]
    intro k hk e
    have := congrArg BitVec.toNat e
    simp only [BitVec.toNat_add, BitVec.toNat_ofNat] at this
    have ha := a.isLt
    have h1 : (1 : Addr).toNat = 1 := rfl
    rw [h1] at this
    norm_num at this ha hl
    omega

theorem loadBytes_congr {m m' : List Host.Cell} (a : Addr) (n : Nat)
    (h : ∀ k, k < n → memGet m (a + BitVec.ofNat 24 k).toNat = memGet m' (a + BitVec.ofNat 24 k).toNat) :
    loadBytes m a n = loadBytes m' a n := by
  induction n generalizing a with
  | zero => rfl
  | succ n ih =>
    unfold loadBytes
    have h0 := h 0 (by omega)
    simp only [BitVec.add_zero] at h0
    rw [h0]
    congr 1
    refine ih _ fun k hk => ?_
    have := h (k + 1) (by omega)
    rwa [BitVec.ofNat_add, BitVec.add_comm (BitVec.ofNat 24 k), ← BitVec.add_assoc] at this

theorem loadBytes_length (m : List Host.Cell) (a : Addr) (n : Nat) : (loadBytes m a n).length = n := by
  induction n generalizing a with
  | zero => rfl
  | succ n ih => simp [loadBytes, ih]

theorem toBytes_length {w : Nat} (n : Nat) (v : BitVec w) : (toBytes n v).length = n := by simp [toBytes]

/-! ## Little-endian values -/

theorem bytesNat_append (xs ys : List Byte) : bytesNat (xs ++ ys) = bytesNat xs + 256 ^ xs.length * bytesNat ys := by
  induction xs with
  | nil => simp [bytesNat]
  | cons x xs ih => simp only [List.cons_append, bytesNat, ih, List.length_cons]; ring

theorem bytesNat_toBytes {w : Nat} (n : Nat) (v : BitVec w) : bytesNat (toBytes n v) = v.toNat % 256 ^ n := by
  induction n with
  | zero => simp [toBytes, bytesNat, Nat.mod_one]
  | succ n ih =>
    have e : toBytes (n + 1) v = toBytes n v ++ [v.extractLsb' (8 * n) 8] := by
      simp [toBytes, List.range_succ]
    have p : 2 ^ (8 * n) = 256 ^ n := by rw [pow_mul]; norm_num
    rw [e, bytesNat_append, ih, toBytes_length]
    have q : 256 ^ (n + 1) = 256 ^ n * 256 := pow_succ _ _
    simp only [bytesNat, BitVec.extractLsb'_toNat, Nat.shiftRight_eq_div_pow, p]
    rw [q, Nat.mod_mul, Nat.mul_zero, Nat.add_zero]

/-- The value of the bytes of a value. -/
theorem ofBytes_toBytes {w : Nat} (n : Nat) (v : BitVec w) : ofBytes n (toBytes n v) = v.setWidth (8 * n) := by
  apply BitVec.eq_of_toNat_eq
  have p : 2 ^ (8 * n) = 256 ^ n := by rw [pow_mul]; norm_num
  simp [ofBytes, bytesNat_toBytes, p]

/-! ## Reading and storing values -/

theorem State.poke_byteAt_outside {w : Nat} (s : State) (a : Addr) (n : Nat) (v : BitVec w) (b : Addr)
    (h : ∀ k, k < n → b ≠ a + BitVec.ofNat 24 k) : (s.poke a n v).byteAt b = s.byteAt b :=
  memGet_storeBytes_other _ _ _ _ _ (by rwa [toBytes_length])

/-- Reading back what was stored. -/
theorem State.peek_poke {w : Nat} (s : State) (a : Addr) (n : Nat) (v : BitVec w) (hm : Memory.wf s.mem = true)
    (hok : ∀ a, s.storable a = true) (hn : n ≤ 2 ^ 24) : (s.poke a n v).peek a n = v.setWidth (8 * n) := by
  have h := loadBytes_storeBytes s.storable s.mem a (toBytes n v) hm hok (by rwa [toBytes_length])
  rw [toBytes_length] at h
  unfold State.peek
  rw [State.poke_mem, h, ofBytes_toBytes]

/-- A value whose bytes are outside those stored reads as before. -/
theorem State.peek_poke_outside {w : Nat} (s : State) (a b : Addr) (n j : Nat) (v : BitVec w)
    (h : ∀ k l, k < n → l < j → b + BitVec.ofNat 24 l ≠ a + BitVec.ofNat 24 k) :
    (s.poke a n v).peek b j = s.peek b j := by
  unfold State.peek
  rw [loadBytes_congr b j fun l hl => State.poke_byteAt_outside s a n v _ fun k hk => h k l hk hl]

theorem reset_mem_wf : Memory.wf State.reset.mem = true := by decide

end Sys2Proof.Machine
end

