-- ==== Sys2Proof/Laws/Keeps.lean ====
section
/-!
SUPPORT. What a part of an instruction can do to the state without privilege. `UserStep s t`: from `s` to `t` neither the
configuration, nor INTBASE, nor the flags U, S and I change, memory keeps its canonical form, and so on. Each shared
operation takes such a step, whether it ends or aborts; the invariants of the machine follow from that.
-/
namespace Sys2Proof.Machine

open Sys2Proof.Safety

/-- The state in which a part of an instruction leaves the machine. -/
def after {α : Type} : EStateM.Result Abort State α → State
  | .ok _ t => t
  | .error _ t => t

/-- What unprivileged updates and what comes between bus cycles leave as it is. -/
structure Kept (s t : State) : Prop where
  cfg : t.cfg = s.cfg
  intbase : t.intbase = s.intbase
  nmiLatch : t.nmiLatch = s.nmiLatch
  inputs : t.inputs = s.inputs
  fpu : t.fpu = s.fpu
  undPolicy : t.undPolicy = s.undPolicy
  memMap : t.memMap = s.memMap
  coherent : t.coherent = s.coherent
  bpu : t.bpu = s.bpu
  honoursIlo : t.honoursIlo = s.honoursIlo
  operandPolicy : t.operandPolicy = s.operandPolicy
  u : t.flag .u = s.flag .u
  ss : t.flag .s = s.flag .s
  i : t.flag .i = s.flag .i
  top : t.psr &&& 0xE000 = s.psr &&& 0xE000
  wf : Memory.wf s.mem = true → Memory.wf t.mem = true
  queue : s.queue.length ≤ 8 → t.queue.length ≤ 8
  running : s.resetIn = none → t.resetIn = none
  pending : s.resetIn ≠ none → t.resetIn ≠ none
  active : s.resetIn = some 0 → t.resetIn = some 0

/-- What the unprivileged updates of an instruction leave as it is. -/
structure UserStep (s t : State) : Prop extends Kept s t where
  calm : s.gaps = [] → t.gaps = [] ∧ (t.queue = s.queue ∨ t.queue.length ≤ 2)

/-- A part of an instruction takes an unprivileged step from a state, and is not ended by RSTI unless RSTI becomes active in
the step. -/
def WithinAt {α : Type} (x : M α) (s : State) : Prop :=
  UserStep s (after (x s)) ∧ (s.resetIn = none → ∀ t, x s ≠ .error .reset t)

/-- A part of an instruction takes an unprivileged step from every state. -/
def Within {α : Type} (x : M α) : Prop := ∀ s, WithinAt x s

/-- An update of fields that an unprivileged step may change freely. -/
theorem UserStep.data {s t : State} (h : t = { s with
      regs := t.regs, pc := t.pc, sp0 := t.sp0, sp1 := t.sp1, fp := t.fp, sb := t.sb, modReg := t.modReg,
      fregs := t.fregs, fsingles := t.fsingles, fsr := t.fsr, waiting := t.waiting, icuReplies := t.icuReplies,
      deviceReplies := t.deviceReplies, fpuReplies := t.fpuReplies, suspend := t.suspend, heldTbits := t.heldTbits, fetchPc := t.fetchPc,
      broken := t.broken, bus := t.bus, draws := t.draws }) : UserStep s t := by
  rw [h]
  exact ⟨⟨rfl, rfl, rfl, rfl, rfl, rfl, rfl, rfl, rfl, rfl, rfl, rfl, rfl, rfl, rfl, id, id, id, id, id⟩, fun h => ⟨h, .inl rfl⟩⟩

/-- The queue discarded. -/
theorem user_flush (s : State) : UserStep s { s with queue := [] } :=
  ⟨⟨rfl, rfl, rfl, rfl, rfl, rfl, rfl, rfl, rfl, rfl, rfl, rfl, rfl, rfl, rfl, id, fun _ => Nat.zero_le _, id, id, id⟩,
    fun h => ⟨h, .inr (Nat.zero_le _)⟩⟩

theorem UserStep.refl (s : State) : UserStep s s := .data rfl

theorem Kept.trans {s t u : State} (h : Kept s t) (k : Kept t u) : Kept s u where
  cfg := k.cfg.trans h.cfg
  intbase := k.intbase.trans h.intbase
  nmiLatch := k.nmiLatch.trans h.nmiLatch
  inputs := k.inputs.trans h.inputs
  fpu := k.fpu.trans h.fpu
  undPolicy := k.undPolicy.trans h.undPolicy
  memMap := k.memMap.trans h.memMap
  coherent := k.coherent.trans h.coherent
  bpu := k.bpu.trans h.bpu
  honoursIlo := k.honoursIlo.trans h.honoursIlo
  operandPolicy := k.operandPolicy.trans h.operandPolicy
  u := k.u.trans h.u
  ss := k.ss.trans h.ss
  i := k.i.trans h.i
  top := k.top.trans h.top
  wf := k.wf ∘ h.wf
  queue := k.queue ∘ h.queue
  running := k.running ∘ h.running
  pending := k.pending ∘ h.pending
  active := k.active ∘ h.active

theorem UserStep.trans {s t u : State} (h : UserStep s t) (k : UserStep t u) : UserStep s u where
  toKept := h.toKept.trans k.toKept
  calm := fun e => by
    obtain ⟨g, q⟩ := h.calm e
    obtain ⟨g', q'⟩ := k.calm g
    refine ⟨g', ?_⟩
    rcases q' with e' | e'
    · rw [e']; exact q
    · exact .inr e'

/-! ## Control -/

/-- A sequence, its two parts run one after the other. -/
theorem bind_apply {α β : Type} (x : M α) (f : α → M β) (s : State) :
    (x >>= f) s = match x s with
      | .ok a t => f a t
      | .error e t => .error e t := by
  show EStateM.bind x f s = _
  unfold EStateM.bind
  cases x s <;> rfl

theorem within_pure {α : Type} (a : α) : Within (pure a : M α) := fun s => ⟨.refl s, fun _ _ h => nomatch h⟩

theorem within_abort {α : Type} (e : Abort) (h : e ≠ .reset := by simp) : Within (abort e : M α) :=
  fun s => ⟨.refl s, fun _ t k => by cases k; exact h rfl⟩

theorem within_look {α : Type} (f : State → α) : Within (look f) := fun s => ⟨.refl s, fun _ _ h => nomatch h⟩

theorem within_change {f : State → State} (h : ∀ s, UserStep s (f s)) : Within (change f) := fun s => ⟨h s, fun _ _ h => nomatch h⟩

/-- A sequence from a state. -/
theorem within_bind_at {α β : Type} {x : M α} {f : α → M β} {s : State} (h : WithinAt x s)
    (k : ∀ a t, x s = .ok a t → WithinAt (f a) t) : WithinAt (x >>= f) s := by
  unfold WithinAt at h ⊢
  rw [bind_apply]
  cases e : x s with
  | ok a t =>
    rw [e] at h
    have k := k a t e
    exact ⟨h.1.trans k.1, fun hr => k.2 (h.1.running hr)⟩
  | error a t =>
    rw [e] at h
    exact ⟨h.1, fun hr u hu => h.2 hr t (by cases hu; rfl)⟩

theorem within_bind {α β : Type} {x : M α} {f : α → M β} (h : Within x) (k : ∀ a, Within (f a)) :
    Within (x >>= f) := fun s => within_bind_at (h s) fun a t _ => k a t

/-- A sequence whose first part gives a value of the state. -/
theorem within_look_bind {α β : Type} {g : State → α} {f : α → M β} (k : ∀ a, Within (f a)) :
    Within (look g >>= f) := within_bind (within_look g) k

theorem within_refusable (r : Refusal) : Within (refusable r) :=
  within_look_bind fun p => match p with
  | .refuse => within_abort _
  | .free => within_pure _

theorem within_ite {α : Type} {c : Prop} [Decidable c] {x y : M α} (h : Within x) (k : Within y) :
    Within (if c then x else y) := by split <;> assumption

theorem within_privileged : Within privileged :=
  within_look_bind fun _ => within_ite (within_abort _) (within_pure _)

theorem within_passes (done : State → Bool) {pass : M Bool} (h : Within pass) (n : Nat) :
    Within (passes done pass n) := by
  induction n with
  | zero => exact within_look _
  | succ n ih =>
    exact within_look_bind fun _ => within_ite (within_pure _) (within_bind h fun _ => within_ite (within_pure _) ih)

/-! ## Updates -/

theorem user_setSp (s : State) (a : Addr) : UserStep s (s.setSp a) := by
  unfold State.setSp
  split <;> exact .data rfl

theorem user_setReg (s : State) (r : RegNo) (v : DWord) : UserStep s (s.setReg r v) := .data rfl

theorem user_jump (s : State) (a : Addr) : UserStep s (s.jump a) :=
  (UserStep.data rfl : UserStep s { s with pc := a, fetchPc := a, broken := true }).trans (user_flush _)

/-- A change of memory that keeps the canonical form. -/
theorem user_mem (s : State) (m : List Host.Cell) (h : Memory.wf s.mem = true → Memory.wf m = true) :
    UserStep s { s with mem := m } :=
  ⟨⟨rfl, rfl, rfl, rfl, rfl, rfl, rfl, rfl, rfl, rfl, rfl, rfl, rfl, rfl, rfl, h, id, id, id, id⟩, fun h => ⟨h, .inl rfl⟩⟩

theorem user_poke {w : Nat} (s : State) (a : Addr) (n : Nat) (v : BitVec w) : UserStep s (s.poke a n v) :=
  user_mem s _ (wf_storeBytes _ _ _)

/-- A change of the PSR that leaves U, S, I and the zero bits alone. -/
theorem user_psr (s : State) (v : Half) (h : ∀ q ∈ [PsrBit.u, .s, .i], v.getLsbD q.pos = s.flag q)
    (k : v &&& 0xE000 = s.psr &&& 0xE000) : UserStep s { s with psr := v } :=
  ⟨⟨rfl, rfl, rfl, rfl, rfl, rfl, rfl, rfl, rfl, rfl, rfl, h .u (by decide), h .s (by decide), h .i (by decide), k, id, id,
    id, id, id⟩, fun h => ⟨h, .inl rfl⟩⟩

theorem user_putFlag (s : State) (q : PsrBit) (x : Bool) (hq : q ∉ [PsrBit.u, .s, .i]) :
    UserStep s (s.putFlag q x) := by
  refine user_psr s _ (fun bit hk => ?_) ?_
  · have : bit ≠ q := fun e => hq (e ▸ hk)
    have := State.putFlag_flag s q bit x
    simp only [State.flag, State.putFlag_psr] at this ⊢
    rw [this, if_neg (by assumption)]
  · apply BitVec.eq_of_getLsbD_eq
    intro k hk
    simp only [BitVec.getLsbD_and, psrPut_getLsbD]
    by_cases e : k = q.pos
    · have : (0xE000 : Half).getLsbD k = false := by rw [e]; cases q <;> rfl
      rw [this, Bool.and_false, Bool.and_false]
    · rw [if_neg e]

theorem user_setPsrLow (s : State) (v : Byte) : UserStep s (s.setPsrLow v) := by
  have hi : ∀ k, 8 ≤ k → k < 16 → ((s.psr &&& 0xFF00) ||| v.setWidth 16).getLsbD k = s.psr.getLsbD k := by
    intro k h8 hk
    have e : (0xFF00 : Half).getLsbD k = true := by interval_cases k <;> rfl
    simp only [BitVec.getLsbD_or, BitVec.getLsbD_and, e, Bool.and_true, BitVec.getLsbD_setWidth,
      BitVec.getLsbD_of_ge v k h8, Bool.and_false, Bool.or_false]
  refine user_psr s _ (fun bit hk => ?_) ?_
  · simp only [List.mem_cons, List.not_mem_nil, or_false] at hk
    rcases hk with e | e | e <;> subst e <;> exact hi _ (by decide) (by decide)
  · apply BitVec.eq_of_getLsbD_eq
    intro k hk
    rw [BitVec.getLsbD_and, BitVec.getLsbD_and]
    by_cases h8 : 8 ≤ k
    · rw [hi k h8 hk]
    · have : (0xE000 : Half).getLsbD k = false := by
        have : k < 8 := by omega
        interval_cases k <;> rfl
      rw [this, Bool.and_false, Bool.and_false]

theorem user_putCF (s : State) (c f : Bool) : UserStep s (s.putCF c f) :=
  (user_putFlag _ _ _ (by decide)).trans (user_putFlag _ _ _ (by decide))

theorem user_putCompare {w : Nat} (s : State) (a b : BitVec w) : UserStep s (s.putCompare a b) :=
  ((user_putFlag _ _ _ (by decide)).trans (user_putFlag _ _ _ (by decide))).trans (user_putFlag _ _ _ (by decide))

theorem user_putEqual (s : State) : UserStep s s.putEqual :=
  ((user_putFlag _ _ _ (by decide)).trans (user_putFlag _ _ _ (by decide))).trans (user_putFlag _ _ _ (by decide))

theorem user_begin (s : State) : UserStep s s.begin :=
  (user_putFlag s .p _ (by decide)).trans (.data rfl)

/-! ## Shared operations -/

theorem within_draw : Within draw := fun _ => ⟨.data rfl, fun _ _ h => nomatch h⟩

theorem within_drawBits (w : Nat) : Within (drawBits w) := within_bind within_draw fun _ => within_pure _

theorem within_drawBool : Within drawBool := within_bind within_draw fun _ => within_pure _

theorem user_logCycle (s : State) (st : BusStatus) (wr : Bool) (p : Pins) (a : Addr) (bs : List Byte) :
    UserStep s (s.logCycle st wr p a bs) :=
  ⟨⟨rfl, rfl, rfl, rfl, rfl, rfl, rfl, rfl, rfl, rfl, rfl, rfl, rfl, rfl, rfl, id, id, fun h => by simp [h],
    fun h => by simpa using h, fun h => by simp [h]⟩, fun h => ⟨h, .inl rfl⟩⟩

theorem user_deviceByte (s : State) : UserStep s s.deviceByte.2 := by
  unfold State.deviceByte
  split <;> exact .data rfl

theorem user_answer (s : State) (a : Addr) (n : Nat) : UserStep s (s.answer a n).2 := by
  induction n generalizing s a with
  | zero => exact .refl s
  | succ n ih =>
    have k : UserStep s (if s.kindAt a = some .device then s.deviceByte else (s.byteAt a, s)).2 := by
      split
      · exact user_deviceByte s
      · exact .refl s
    exact k.trans (ih _ _)

theorem answer_length (s : State) (a : Addr) (n : Nat) : (s.answer a n).1.length = n := by
  induction n generalizing s a with
  | zero => rfl
  | succ n ih => exact congrArg (· + 1) (ih _ _)

/-- An answer changes nothing that the queue's input end depends on. -/
theorem answer_queue (s : State) (a : Addr) (n : Nat) :
    (s.answer a n).2.queue = s.queue ∧ (s.answer a n).2.fetchPc = s.fetchPc := by
  induction n generalizing s a with
  | zero => exact ⟨rfl, rfl⟩
  | succ n ih =>
    have k : (if s.kindAt a = some .device then s.deviceByte else (s.byteAt a, s)).2.queue = s.queue ∧
        (if s.kindAt a = some .device then s.deviceByte else (s.byteAt a, s)).2.fetchPc = s.fetchPc := by
      unfold State.deviceByte
      split
      · split <;> exact ⟨rfl, rfl⟩
      · exact ⟨rfl, rfl⟩
    have h := ih (if s.kindAt a = some .device then s.deviceByte else (s.byteAt a, s)).2 (a + 1)
    exact ⟨h.1.trans k.1, h.2.trans k.2⟩

/-! ### Between bus cycles -/

/-- Bytes enter the queue. -/
theorem enqueue_kept (s : State) (bs : List Byte) (h : s.queue.length + bs.length ≤ 8) : Kept s (s.enqueue bs) := by
  obtain ⟨⟨h1, h2, h3, h4, h5, h6, h7, h8, h9, h10, h11, h12, h13, h14, h15, h16, -, h18, h19, h20⟩, -⟩ :=
    user_logCycle s (if s.broken then .fetchBreak else .fetch) false { bpu := s.flag .b } s.fetchPc bs
  refine ⟨h1, h2, h3, h4, h5, h6, h7, h8, h9, h10, h11, h12, h13, h14, h15, h16, fun _ => ?_, h18, h19, h20⟩
  show (s.queue ++ bs).length ≤ 8
  rw [List.length_append]
  exact h

/-- A fetch cycle, if the queue has room for it. -/
theorem kept_fetchCycle (s : State) (h : s.queue.length + s.fetchWidth ≤ 8) : Kept s s.fetchCycle :=
  (user_answer s s.fetchPc s.fetchWidth).toKept.trans
    (enqueue_kept _ _ (by rw [(answer_queue s _ _).1, answer_length]; exact h))

theorem kept_prefetch (s : State) : Kept s s.prefetch := by
  unfold State.prefetch
  split
  · next h =>
    simp only [State.canPrefetch, Bool.and_eq_true, decide_eq_true_eq] at h
    exact kept_fetchCycle s h.1.1.1
  · exact (UserStep.refl s).toKept

theorem user_othersStore (s : State) (ws : List Host.Cell) : UserStep s (s.othersStore ws) :=
  user_mem s _ (othersStore_wf (s := s) ws)

theorem kept_turn (f : Bool) (s : State) (x : Turn) : Kept s (s.turn f x) := by
  cases x with
  | store c => exact (user_othersStore s [c]).toKept
  | fetch =>
    show Kept s (if f then s.prefetch else s)
    split
    · exact kept_prefetch s
    · exact (UserStep.refl s).toKept

theorem kept_turns (f : Bool) (g : Gap) (s : State) : Kept s (g.foldl (State.turn f) s) := by
  induction g generalizing s with
  | nil => exact (UserStep.refl s).toKept
  | cons x g ih => exact (kept_turn f s x).trans (ih _)

theorem user_gap (s : State) (f : Bool) : UserStep s (s.gap f) := by
  cases e : s.gaps with
  | nil =>
    rw [State.gap, e]
    exact .refl s
  | cons g gs =>
    have k : Kept s { s with gaps := gs } :=
      ⟨rfl, rfl, rfl, rfl, rfl, rfl, rfl, rfl, rfl, rfl, rfl, rfl, rfl, rfl, rfl, id, id, id, id, id⟩
    rw [State.gap, e]
    exact ⟨k.trans (kept_turns f g _), fun h => by rw [e] at h; cases h⟩

theorem within_unlessReset : Within unlessReset := by
  intro s
  unfold WithinAt unlessReset
  split
  · next h => exact ⟨.refl s, fun hr => by rw [hr] at h; cases h⟩
  · exact ⟨.refl s, fun _ _ h => nomatch h⟩

theorem within_between (m : Seam) : Within (between m) :=
  within_look_bind fun _ => within_ite within_unlessReset
    (within_bind (within_change fun s => user_gap s _) fun _ => within_unlessReset)

theorem within_readCycle (st : BusStatus) (p : Pins) (m : Seam) (a : Addr) (n : Nat) :
    Within (readCycle st p m a n) := by
  refine within_bind (within_between m) fun _ => within_look_bind fun e => ?_
  cases e with
  | some f => exact within_abort _
  | none =>
    exact fun s => ⟨(user_answer s a n).trans (user_logCycle _ _ _ _ _ _), fun _ _ h => nomatch h⟩

theorem readCycles_nil (st : BusStatus) (p : Pins) (m : Seam) : readCycles st p m [] = return [] := rfl

theorem readCycles_cons (st : BusStatus) (p : Pins) (m : Seam) (a : Addr) (n : Nat) (cs : List (Addr × Nat)) :
    readCycles st p m ((a, n) :: cs) = (do
      let x ← readCycle st p m a n
      let xs ← readCycles st p .within cs
      return x ++ xs) := rfl

theorem within_readCycles (st : BusStatus) (p : Pins) (m : Seam) (cs : List (Addr × Nat)) :
    Within (readCycles st p m cs) := by
  induction cs generalizing m with
  | nil => exact within_pure _
  | cons c cs ih =>
    exact within_bind (within_readCycle _ _ _ _ _) fun _ => within_bind (ih _) fun _ => within_pure _

theorem within_writeCycle (p : Pins) (m : Seam) (a : Addr) (bs : List Byte) : Within (writeCycle p m a bs) := by
  refine within_bind (within_between m) fun _ => within_look_bind fun e => ?_
  cases e with
  | some f => exact within_abort _
  | none => exact within_change fun s => (user_mem s _ (wf_storeBytes _ _ _)).trans (user_logCycle _ _ _ _ _ _)

theorem writeCycles_nil (p : Pins) (m : Seam) (bs : List Byte) : writeCycles p m [] bs = return () := rfl

theorem writeCycles_cons (p : Pins) (m : Seam) (a : Addr) (n : Nat) (cs : List (Addr × Nat)) (bs : List Byte) :
    writeCycles p m ((a, n) :: cs) bs = (do
      writeCycle p m a (bs.take n)
      writeCycles p .within cs (bs.drop n)) := rfl

theorem within_writeCycles (p : Pins) (m : Seam) (cs : List (Addr × Nat)) (bs : List Byte) :
    Within (writeCycles p m cs bs) := by
  induction cs generalizing m bs with
  | nil => exact within_pure _
  | cons c cs ih => exact within_bind (within_writeCycle _ _ _ _) fun _ => ih _ _

theorem settled_eq {w : Nat} (v : BitVec w) : settled v = pure v := by
  funext s
  have h : BitVec.ofNat w v.toNat = v := by simp
  unfold settled
  split
  · next e => rw [e] at h; rw [h]; rfl
  · next k e => rw [e] at h; rw [h]; rfl

theorem within_settled {w : Nat} (v : BitVec w) : Within (settled v) := by rw [settled_eq]; exact within_pure _

theorem within_readMem (st : BusStatus) (a : Addr) (n : Nat) (p : Pins) : Within (readMem st a n p) :=
  within_bind (within_settled _) fun _ => within_bind (within_readCycles _ _ _ _) fun _ =>
    within_bind (within_readCycles _ _ _ _) fun _ => within_settled _

theorem within_writeMem {w : Nat} (a : Addr) (n : Nat) (v : BitVec w) (p : Pins) : Within (writeMem a n v p) :=
  within_bind (within_settled _) fun _ => within_bind (within_settled _) fun _ =>
    within_bind (within_writeCycles _ _ _ _) fun _ => within_writeCycles _ _ _ _

theorem within_push {w : Nat} (n : Nat) (v : BitVec w) : Within (push n v) :=
  within_bind (within_change fun _ => user_setSp _ _) fun _ => within_look_bind fun _ => within_writeMem _ _ _ _

theorem within_pop (n : Nat) {p : Pins} : Within (pop n p) :=
  within_look_bind fun _ => within_bind (within_readMem _ _ _ _) fun _ =>
    within_bind (within_change fun _ => user_setSp _ _) fun _ => within_pure _

theorem within_effBase (m : Base) : Within (effBase m) := by
  cases m with
  | memRel a d1 d2 => exact within_look_bind fun _ => within_bind (within_readMem _ _ _ _) fun _ => within_pure _
  | ext d1 d2 =>
    exact within_look_bind fun _ => within_bind (within_readMem _ _ _ _) fun _ => within_bind (within_readMem _ _ _ _) fun _ =>
      within_pure _
  | _ => exact within_look _

theorem within_effAddr (g : Gen) : Within (effAddr g) := by
  cases g with
  | base m => exact within_effBase m
  | scaled m x sc => exact within_bind (within_effBase m) fun _ => within_look_bind fun _ => within_pure _

theorem within_effAddr24 (g : Gen) : Within (effAddr24 g) := within_bind (within_effAddr g) fun _ => within_pure _

theorem within_placeRmw (g : Gen) : Within (placeRmw g) := by
  unfold placeRmw
  split
  · exact within_pure _
  · exact within_bind (within_effAddr24 _) fun _ => within_pure _

theorem within_placeWrite (g : Gen) : Within (placeWrite g) := by
  unfold placeWrite
  split
  · exact within_pure _
  · exact within_pure _
  · exact within_bind (within_effAddr24 _) fun _ => within_pure _

theorem within_readGen (g : Gen) (n : Nat) {p : Pins} : Within (readGen g n p) := by
  unfold readGen
  split
  · exact within_look _
  · exact within_pure _
  · exact within_pop n
  · exact within_bind (within_effAddr24 _) fun _ => within_readMem _ _ _ _

theorem within_readPlace (st : BusStatus) (p : Place) (n : Nat) : Within (readPlace st p n) := by
  cases p with
  | reg r => exact within_look _
  | mem a => exact within_readMem _ _ _ _
  | push => exact within_look_bind fun _ => within_readMem _ _ _ _

theorem within_writePlace (p : Place) (n : Nat) (v : BitVec (8 * n)) : Within (writePlace p n v) := by
  cases p with
  | reg r => exact within_change fun _ => .data rfl
  | mem a => exact within_writeMem _ _ _ _
  | push => exact within_push _ _

theorem within_moveOp {n m : Nat} {src dst : Gen} {f : BitVec (8 * n) → M (BitVec (8 * m))} (h : ∀ v, Within (f v)) :
    Within (moveOp n m src dst f) :=
  within_bind (within_readGen _ _) fun _ => within_bind (within_placeWrite _) fun _ => within_bind (h _) fun _ => within_writePlace _ _ _

theorem within_rmwOp {m : Nat} {dst : Gen} {f : BitVec (8 * m) → M (BitVec (8 * m))} (h : ∀ v, Within (f v)) :
    Within (rmwOp m dst f) :=
  within_bind (within_placeRmw _) fun _ => within_bind (within_readPlace _ _ _) fun _ => within_bind (h _) fun _ =>
    within_writePlace _ _ _

theorem within_binaryOp {n m : Nat} {src dst : Gen} {f : BitVec (8 * n) → BitVec (8 * m) → M (BitVec (8 * m))}
    (h : ∀ v w, Within (f v w)) : Within (binaryOp n m src dst f) :=
  within_bind (within_readGen _ _) fun _ => within_rmwOp (h _)

theorem within_readOp2 (n m : Nat) (g1 g2 : Gen) : Within (readOp2 n m g1 g2) :=
  within_bind (within_readGen _ _) fun _ => within_bind (within_readGen _ _) fun _ => within_pure _

theorem within_testBit (g : Gen) (off : DWord) : Within (testBit g off) := by
  unfold testBit
  split
  · exact within_look_bind fun _ => within_ite (within_pure _) (within_bind (within_refusable _) fun _ => within_drawBool)
  · exact within_bind (within_effAddr _) fun _ => within_bind (within_readMem _ _ _ _) fun _ => within_pure _

theorem within_changeBit (g : Gen) (off : DWord) (lk : Bool) (f : Bool → Bool) : Within (changeBit g off lk f) := by
  unfold changeBit
  split
  · exact within_look_bind fun _ => within_ite
      (within_bind (within_change fun _ => .data rfl) fun _ => within_pure _)
      (within_bind (within_refusable _) fun _ => within_bind (within_drawBits _) fun _ =>
        within_bind (within_change fun _ => .data rfl) fun _ => within_drawBool)
  · exact within_bind (within_effAddr _) fun _ => within_bind (within_readMem _ _ _ _) fun _ =>
      within_bind (within_writeMem _ _ _ _) fun _ => within_pure _

theorem within_extractField (g : Gen) (off : DWord) (len : Nat) : Within (extractField g off len) := by
  have k : Within (do refusable .outsideField; drawBits 32) := within_bind (within_refusable _) fun _ => within_drawBits _
  unfold extractField
  split
  · exact within_look_bind fun _ => within_ite (within_pure _) k
  · exact within_bind (within_effAddr _) fun _ => within_bind (within_readMem _ _ _ _) fun _ =>
      within_ite (within_pure _) k

theorem within_insertField (g : Gen) (off : DWord) (len : Nat) (v : DWord) : Within (insertField g off len v) := by
  unfold insertField
  split
  · exact within_look_bind fun _ => within_bind (within_ite (within_pure _)
      (within_bind (within_refusable _) fun _ => within_drawBits _)) fun _ => within_change fun _ => .data rfl
  · exact within_bind (within_effAddr _) fun _ => within_bind (within_readMem _ _ _ _) fun _ =>
      within_bind (within_ite (within_pure _) (within_bind (within_refusable _) fun _ =>
        within_bind (within_drawBits _) fun _ => within_pure _)) fun _ => within_writeMem _ _ _ _

theorem within_moduleEntry (d : Half) : Within (moduleEntry d) :=
  within_look_bind fun _ => within_bind (within_readMem _ _ _ _) fun _ => within_bind (within_change fun _ => .data rfl) fun _ =>
    within_look_bind fun _ => within_bind (within_readMem _ _ _ _) fun _ => within_settled _

theorem within_enterModule (d : Half) : Within (enterModule d) :=
  within_bind (within_moduleEntry d) fun _ => within_change fun _ => user_jump _ _

/-- Other masters' stores leave the queue as it is. -/
theorem queue_turns (g : Gap) (s : State) : (g.foldl (State.turn false) s).queue = s.queue := by
  induction g generalizing s with
  | nil => rfl
  | cons x g ih => exact (ih _).trans (by cases x <;> rfl)

/-- Where the prefetcher does not take part, nothing that comes between two bus cycles changes the queue. -/
theorem queue_between (m : Seam) (h : m ≠ .apart) (s : State) : (after (between m s)).queue = s.queue := by
  have reset : ∀ s : State, (after (unlessReset s)).queue = s.queue := fun s => by
    unfold unlessReset
    split <;> rfl
  have gap : (s.gap (m = .apart)).queue = s.queue := by
    simp only [h, decide_false, State.gap]
    split
    · rfl
    · exact queue_turns _ _
  unfold between
  rw [bind_apply]
  simp only [look]
  split
  · exact reset s
  · exact (reset _).trans gap

/-- A fetch cycle that the CPU waits for, into an empty queue. -/
theorem within_demandFetch (s : State) (h : s.queue = []) : WithinAt demandFetch s := by
  refine within_bind_at (within_between .within s) fun _ t e => ?_
  have hq : t.queue = [] := by simpa only [e, after, h] using queue_between .within (by decide) s
  refine within_bind_at (within_look _ t) fun f u e => ?_
  cases e
  dsimp only
  cases t.blocked t.fetchPc t.fetchWidth with
  | some f => exact within_abort (.fault f) (by simp) t
  | none =>
    have hw : t.fetchWidth ≤ 2 := by unfold State.fetchWidth; split <;> decide
    have hl : ((t.answer t.fetchPc t.fetchWidth).2.queue ++ (t.answer t.fetchPc t.fetchWidth).1).length ≤ 2 := by
      rw [(answer_queue t _ _).1, hq, List.nil_append, answer_length]
      exact hw
    have hk := user_answer t t.fetchPc t.fetchWidth
    refine ⟨⟨hk.toKept.trans (enqueue_kept _ _ ?_), fun g => ⟨(hk.calm g).1, .inr hl⟩⟩, fun _ _ k => nomatch k⟩
    rw [← List.length_append]
    exact Nat.le_trans hl (by decide)

theorem within_flushAndFetch (a : Addr) : Within (flushAndFetch a) := by
  refine fun s => within_bind_at (within_change (fun s => user_jump s a) s) fun _ t e => ?_
  cases e
  exact within_demandFetch _ rfl

theorem within_service (k : Nat) (ra : Addr) : Within (service k ra) :=
  within_look_bind fun _ => within_look_bind fun _ => within_bind (within_readMem _ _ _ _) fun _ =>
    within_bind (within_change fun _ => .data rfl) fun _ => within_bind (within_moduleEntry _) fun _ =>
      within_bind (within_flushAndFetch _) fun _ => within_bind (within_push _ _) fun _ => within_push _ _

theorem within_icuRead (st : BusStatus) (a : Addr) : Within (icuRead st a) := by
  unfold icuRead
  refine within_bind (within_between _) fun _ => within_bind (within_look_bind fun l => ?_) fun _ =>
    within_bind (within_change fun _ => user_logCycle _ _ _ _ _ _) fun _ => within_pure _
  cases l with
  | nil => exact within_drawBits 8
  | cons r rs => exact within_bind (within_change fun _ => .data rfl) fun _ => within_pure _

theorem within_intVector : Within intVector := by
  unfold intVector
  refine within_bind (within_icuRead _ _) fun _ => within_look_bind fun _ => within_ite (within_pure _)
    (within_ite (within_pure _) (within_ite ?_ (within_abort _)))
  exact within_look_bind fun _ => within_bind (within_readMem _ _ _ _) fun _ => within_bind (within_icuRead _ _) fun _ => within_pure _

theorem within_endOfInterrupt : Within endOfInterrupt := by
  unfold endOfInterrupt
  refine within_bind (within_icuRead _ _) fun _ => within_ite (within_pure _) (within_look_bind fun _ =>
    within_ite (within_abort _) ?_)
  exact within_look_bind fun _ => within_bind (within_readMem _ _ _ _) fun _ => within_bind (within_icuRead _ _) fun _ => within_pure _

theorem within_advance (i : Instr) : Within (advance i) := within_change fun _ => .data rfl

theorem within_interruptible (i : Instr) {leave : State → State} (least count : Nat) (done : State → Bool) {pass : M Bool}
    {complete : M Unit} (hl : ∀ s, UserStep s (leave s)) (h : Within pass) (k : Within complete) :
    Within (interruptible i leave least count done pass complete) :=
  within_look_bind fun _ => within_bind (within_passes done h _) fun _ =>
    within_ite (within_bind k fun _ => within_advance i) (within_change fun s => (hl s).trans (user_jump _ _))

/-! ## The invariant -/

/-- An unprivileged step keeps the invariant. -/
theorem Kept.inv {s t : State} (h : Kept s t) (k : Invariant s) : Invariant t :=
  ⟨h.wf k.1, h.top.trans k.2.1, h.queue k.2.2⟩

/-- Clearing bits keeps the zero bits of the PSR zero. -/
theorem psrClear_top (v : Half) (bits : List PsrBit) (h : v &&& 0xE000 = 0) : psrClear v bits &&& 0xE000 = 0 := by
  induction bits generalizing v with
  | nil => exact h
  | cons q bits ih =>
    refine ih _ ?_
    apply BitVec.eq_of_getLsbD_eq
    intro k hk
    have := congrArg (fun x => x.getLsbD k) h
    simp only [BitVec.getLsbD_and, psrPut_getLsbD] at this ⊢
    split
    · simp
    · exact this

theorem setPsr_top (v : Half) : (v &&& psrMask) &&& 0xE000 = 0 := by
  rw [BitVec.and_assoc]
  show v &&& 0 = 0
  simp

theorem inv_setPsr {s : State} (v : Half) (h : Invariant s) : Invariant (s.setPsr v) := ⟨h.1, setPsr_top v, h.2.2⟩

theorem inv_psrClear {s : State} (v : Half) (bits : List PsrBit) (hv : v &&& 0xE000 = 0) (h : Invariant s) :
    Invariant { s with psr := psrClear v bits } := ⟨h.1, psrClear_top v bits hv, h.2.2⟩

end Sys2Proof.Machine
end

