-- ==== Sys2Proof/Laws/Runs.lean ====
section
/-!
SUPPORT. What each shared operation does where memory answers everywhere: the value it gives and the state it leaves,
whatever the bus log. A proof about an instruction chains these lemmas and unfolds none of the operations.
-/
namespace Sys2Proof.Machine

open Sys2Proof.Safety

/-- The state with another bus log. -/
def State.withBus (s : State) (b : List PinEvent) : State := { s with bus := b }

/-- Where memory answers, `x` runs from `s` to `t` and gives `a`, whatever the bus log is. -/
def Runs {α : Type} (x : M α) (s : State) (a : α) (t : State) : Prop :=
  Answers s → Answers t ∧ ∀ b, ∃ b', x (s.withBus b) = .ok a (t.withBus b')

/-- Where memory answers, `x` raises the trap `k` from `s`, leaving `t`, whatever the bus log is. -/
def Traps {α : Type} (x : M α) (s : State) (k : Trap) (t : State) : Prop :=
  Answers s → Answers t ∧ ∀ b, ∃ b', x (s.withBus b) = .error (.trap k) (t.withBus b')

/-! ## Memory that answers -/

/-- What decides how memory answers and what comes between the bus cycles. -/
def State.env (s : State) : List Region × List Gap × Option Nat := (s.memMap, s.gaps, s.resetIn)

theorem answers_of_ram {s : State} (h : Ram s) : Answers s :=
  ⟨fun a => .inl (by simp [State.kindAt, h.1]), h.2⟩

theorem answers_congr {s t : State} (h : t.env = s.env) (hs : Answers s) : Answers t := by
  simp only [State.env, Prod.mk.injEq] at h
  refine ⟨fun a => ?_, ?_⟩
  · have := hs.1 a
    unfold State.kindAt at *
    rwa [h.1]
  · exact ⟨h.2.1.trans hs.2.1, h.2.2.trans hs.2.2⟩

theorem blockedAt_of_answers {s : State} (h : Answers s) (a : Addr) : s.blockedAt a = none := by
  rcases h.1 a with e | e <;> simp [State.blockedAt, e]

theorem blocked_of_answers {s : State} (h : Answers s) (a : Addr) (n : Nat) : s.blocked a n = none := by
  induction n generalizing a with
  | zero => rfl
  | succ n ih => simp [State.blocked, blockedAt_of_answers h a, ih]

theorem answer_of_answers {s : State} (h : Answers s) (a : Addr) (n : Nat) :
    s.answer a n = (loadBytes s.mem a n, s) := by
  induction n generalizing a with
  | zero => rfl
  | succ n ih =>
    have : s.kindAt a ≠ some .device := by rcases h.1 a with e | e <;> simp [e]
    simp only [State.answer, if_neg this, ih, loadBytes, State.byteAt]

theorem gap_quiet {s : State} (h : Quiet s) (f : Bool) : s.gap f = s := by simp only [State.gap, h.1]

/-- Where nothing comes between the bus cycles, nothing happens there. -/
theorem between_quiet {s : State} (h : Quiet s) (m : Seam) : between m s = .ok () s := by
  have e : unlessReset s = .ok () s := if_neg (by simp [h.2])
  unfold between
  rw [bind_apply]
  simp only [look, h.1, List.isEmpty_nil, Bool.true_or, if_true]
  exact e

theorem logCycle_quiet {s : State} (h : Quiet s) (st : BusStatus) (wr : Bool) (p : Pins) (a : Addr) (bs : List Byte) :
    s.logCycle st wr p a bs = s.withBus (s.logCycle st wr p a bs).bus := by
  simp only [State.logCycle, State.withBus, h.2, Option.map_none]

theorem storable_congr {s t : State} (h : t.memMap = s.memMap) : t.storable = s.storable := by
  funext a
  unfold State.storable State.kindAt
  rw [h]

theorem storable_of_ram {s : State} (h : s.memMap = []) (a : Addr) : s.storable a = true := by
  simp [State.storable, State.kindAt, h]

/-! ## Agreement -/

theorem agree_of_bus {t : State} (b : List PinEvent) : Agree (t.withBus b) t := rfl

theorem Agree.refl (s : State) : Agree s s := rfl

theorem Agree.symm {s t : State} (h : Agree s t) : Agree t s := by
  unfold Agree at h
  rw [← h]; rfl

theorem Agree.trans {s t u : State} (h : Agree s t) (k : Agree t u) : Agree s u := by
  unfold Agree at *
  rw [← k, ← h]

/-! ## Control -/

theorem runs_pure {α : Type} (a : α) (s : State) : Runs (pure a) s a s :=
  fun h => ⟨h, fun b => ⟨b, rfl⟩⟩

theorem runs_bind {α β : Type} {x : M α} {f : α → M β} {s t u : State} {a : α} {c : β}
    (h : Runs x s a t) (k : Runs (f a) t c u) : Runs (x >>= f) s c u := by
  intro hs
  obtain ⟨ht, h⟩ := h hs
  obtain ⟨hu, k⟩ := k ht
  refine ⟨hu, fun b => ?_⟩
  obtain ⟨b1, e1⟩ := h b
  obtain ⟨b2, e2⟩ := k b1
  exact ⟨b2, by rw [bind_apply, e1]; exact e2⟩

theorem runs_traps_bind {α β : Type} {x : M α} {f : α → M β} {s t u : State} {a : α} {k : Trap}
    (h : Runs x s a t) (r : Traps (f a) t k u) : Traps (x >>= f) s k u := by
  intro hs
  obtain ⟨ht, h⟩ := h hs
  obtain ⟨hu, r⟩ := r ht
  refine ⟨hu, fun b => ?_⟩
  obtain ⟨b1, e1⟩ := h b
  obtain ⟨b2, e2⟩ := r b1
  exact ⟨b2, by rw [bind_apply, e1]; exact e2⟩

theorem traps_bind {α β : Type} {x : M α} {f : α → M β} {s u : State} {k : Trap}
    (h : Traps x s k u) : Traps (x >>= f) s k u := by
  intro hs
  obtain ⟨hu, h⟩ := h hs
  refine ⟨hu, fun b => ?_⟩
  obtain ⟨b1, e1⟩ := h b
  exact ⟨b1, by rw [bind_apply, e1]⟩

theorem traps_abort {α : Type} (k : Trap) (s : State) : Traps (abort (.trap k) : M α) s k s :=
  fun h => ⟨h, fun b => ⟨b, rfl⟩⟩

theorem runs_look {α : Type} (f : State → α) (s : State) (h : ∀ b, f (s.withBus b) = f s) :
    Runs (look f) s (f s) s :=
  fun hs => ⟨hs, fun b => ⟨b, by rw [look, h]⟩⟩

theorem runs_change (f : State → State) (s : State)
    (h : ∀ b, f (s.withBus b) = (f s).withBus b) (hm : (f s).env = s.env) : Runs (change f) s () (f s) :=
  fun hs => ⟨answers_congr hm hs, fun b => ⟨b, by rw [change, h]⟩⟩

/-- A sequence whose value is used once more. -/
theorem runs_map {α β : Type} {x : M α} {s t : State} {a : α} (f : α → β) (h : Runs x s a t) :
    Runs (do let v ← x; return f v) s (f a) t := runs_bind h (runs_pure _ _)

theorem runs_draw (s : State) : Runs draw s (Config.freeBits s.draws) { s with draws := s.draws + 1 } :=
  fun hs => ⟨answers_congr rfl hs, fun b => ⟨b, rfl⟩⟩

theorem runs_drawBits (s : State) (w : Nat) :
    Runs (drawBits w) s ((Config.freeBits s.draws).setWidth w) { s with draws := s.draws + 1 } :=
  runs_map _ (runs_draw s)

theorem runs_drawBool (s : State) :
    Runs drawBool s ((Config.freeBits s.draws).getLsbD 0) { s with draws := s.draws + 1 } :=
  runs_map _ (runs_draw s)

/-- Operands for which the spec declines to define the instruction: operandPolicy decides. -/
theorem refusable_apply (r : Refusal) (s : State) : refusable r s =
    match s.operandPolicy with
    | .refuse => .error (.refused r) s
    | .free => .ok () s := by
  show (match s.operandPolicy with
    | .refuse => (abort (.refused r) : M Unit)
    | .free => pure ()) s = _
  cases s.operandPolicy <;> rfl

theorem runs_refusable (r : Refusal) {s : State} (h : s.operandPolicy = .free) : Runs (refusable r) s () s := by
  refine fun hs => ⟨hs, fun b => ⟨b, ?_⟩⟩
  have k : (s.withBus b).operandPolicy = .free := h
  rw [refusable_apply, k]

/-! ## Memory and stacks -/

/-- A part that gives a value and, where memory answers, changes nothing but the bus log. -/
theorem runs_of_apply {α : Type} {x : M α} {s t : State} {a : α} (ht : t.env = s.env)
    (h : Answers s → ∀ b, ∃ b', x (s.withBus b) = .ok a (t.withBus b')) : Runs x s a t :=
  fun hs => ⟨answers_congr ht hs, h hs⟩

theorem runs_between (m : Seam) (s : State) : Runs (between m) s () s :=
  runs_of_apply rfl fun hs b => ⟨b, between_quiet (s := s.withBus b) hs.2 m⟩

theorem runs_readCycle (st : BusStatus) (p : Pins) (m : Seam) (a : Addr) (n : Nat) (s : State) :
    Runs (readCycle st p m a n) s (loadBytes s.mem a n) s := by
  refine runs_bind (runs_between m s) (runs_of_apply rfl fun hs b => ?_)
  have hb : Answers (s.withBus b) := answers_congr rfl hs
  refine ⟨((s.withBus b).logCycle st false p a (loadBytes s.mem a n)).bus, ?_⟩
  rw [bind_apply]
  simp only [look, blocked_of_answers hb]
  simp only [bind_apply, look, change, answer_of_answers hb]
  rw [logCycle_quiet hb.2]
  rfl

theorem runs_readCycles (st : BusStatus) (p : Pins) (m : Seam) (a : Addr) (n : Nat) (s : State) :
    Runs (readCycles st p m (cyclesFrom a n)) s (loadBytes s.mem a n) s := by
  induction a, n using cyclesFrom.induct generalizing m with
  | case1 a => exact runs_pure _ _
  | case2 a => exact runs_bind (runs_readCycle _ _ _ _ _ _) (runs_bind (runs_pure _ _) (runs_pure _ _))
  | case3 a n h ih =>
    rw [cyclesFrom, if_pos h, show n.succ.succ = 1 + (n + 1) by omega, loadBytes_append]
    exact runs_bind (runs_readCycle _ _ _ _ _ _) (runs_bind (ih _) (runs_pure _ _))
  | case4 a n h ih =>
    rw [cyclesFrom, if_neg h, show n.succ.succ = 2 + n by omega, loadBytes_append]
    exact runs_bind (runs_readCycle _ _ _ _ _ _) (runs_bind (ih _) (runs_pure _ _))

theorem runs_settled {w : Nat} (v : BitVec w) (s : State) : Runs (settled v) s v s := by
  rw [settled_eq]
  exact runs_pure v s

theorem runs_readMem (st : BusStatus) (a : Addr) (n : Nat) (p : Pins) (s : State) :
    Runs (readMem st a n p) s (s.peek a n) s := by
  have e : loadBytes s.mem a n = loadBytes s.mem a (min n 4) ++ loadBytes s.mem (a + 4) (n - 4) := by
    by_cases h : n ≤ 4
    · rw [Nat.min_eq_left h, Nat.sub_eq_zero_of_le h]
      simp [loadBytes]
    · rw [Nat.min_eq_right (by omega)]
      conv_lhs => rw [show n = 4 + (n - 4) by omega, loadBytes_append]
      rfl
  unfold State.peek
  rw [e]
  exact runs_bind (runs_settled _ _) (runs_bind (runs_readCycles _ _ _ _ _ _)
    (runs_bind (runs_readCycles _ _ _ _ _ _) (runs_settled _ _)))

theorem runs_writeCycle (p : Pins) (m : Seam) (a : Addr) (bs : List Byte) (s : State) :
    Runs (writeCycle p m a bs) s () { s with mem := storeBytes s.storable s.mem a bs } := by
  refine runs_bind (runs_between m s) (runs_of_apply rfl fun hs b => ?_)
  have hb : Answers (s.withBus b) := answers_congr rfl hs
  have hc : Quiet { s.withBus b with mem := storeBytes s.storable s.mem a bs } := hs.2
  refine ⟨(({ s.withBus b with mem := storeBytes s.storable s.mem a bs } : State).logCycle .data true p a bs).bus, ?_⟩
  rw [bind_apply]
  simp only [look, blocked_of_answers hb]
  simp only [change]
  exact congrArg (EStateM.Result.ok ()) (logCycle_quiet hc _ _ _ _ _)

theorem runs_writeCycles (p : Pins) (m : Seam) (a : Addr) (n : Nat) (bs : List Byte) (s : State) (h : bs.length = n) :
    Runs (writeCycles p m (cyclesFrom a n) bs) s () { s with mem := storeBytes s.storable s.mem a bs } := by
  have split (k : Nat) (hk : k ≤ bs.length) : storeBytes s.storable s.mem a bs =
      storeBytes s.storable (storeBytes s.storable s.mem a (bs.take k)) (a + BitVec.ofNat 24 k) (bs.drop k) := by
    conv_lhs => rw [← List.take_append_drop k bs, storeBytes_append, List.length_take, Nat.min_eq_left hk]
  induction a, n using cyclesFrom.induct generalizing m bs s with
  | case1 a =>
    rw [List.length_eq_zero_iff.mp h]
    exact runs_pure _ _
  | case2 a =>
    have e : bs.take 1 = bs := List.take_of_length_le (by omega)
    refine runs_bind (runs_writeCycle _ _ _ _ _) ?_
    rw [e]
    exact runs_pure _ _
  | case3 a n hodd ih =>
    rw [cyclesFrom, if_pos hodd, split 1 (by omega)]
    refine runs_bind (runs_writeCycle _ _ _ _ _)
      (ih .within (bs.drop 1) _ (by rw [List.length_drop]; omega) fun k hk => ?_)
    conv_lhs => rw [← List.take_append_drop k (bs.drop 1), storeBytes_append, List.length_take, Nat.min_eq_left hk]
  | case4 a n hodd ih =>
    rw [cyclesFrom, if_neg hodd, split 2 (by omega)]
    refine runs_bind (runs_writeCycle _ _ _ _ _)
      (ih .within (bs.drop 2) _ (by rw [List.length_drop]; omega) fun k hk => ?_)
    conv_lhs => rw [← List.take_append_drop k (bs.drop 2), storeBytes_append, List.length_take, Nat.min_eq_left hk]

theorem runs_writeMem {w : Nat} (a : Addr) (n : Nat) (v : BitVec w) (p : Pins) (s : State) :
    Runs (writeMem a n v p) s () (s.poke a n v) := by
  have e : s.poke a n v = { s with
      mem := storeBytes s.storable (storeBytes s.storable s.mem a ((toBytes n v).take 4)) (a + 4)
        ((toBytes n v).drop 4) } := by
    unfold State.poke
    congr 1
    conv_lhs => rw [← List.take_append_drop 4 (toBytes n v), storeBytes_append]
    by_cases h : n ≤ 4
    · have : (toBytes n v).drop 4 = [] := List.drop_of_length_le (by rw [toBytes_length]; exact h)
      rw [this]
      rfl
    · rw [List.length_take, toBytes_length, Nat.min_eq_left (by omega)]
      rfl
  rw [e]
  refine runs_bind (runs_settled _ _) (runs_bind (runs_settled _ _)
    (runs_bind (runs_writeCycles _ _ _ _ _ _ ?_) (runs_writeCycles _ _ _ _ _ _ ?_)))
  · rw [List.length_take, toBytes_length, Nat.min_comm]
  · rw [List.length_drop, toBytes_length]

theorem setSp_bus (s : State) (b : List PinEvent) (a : Addr) :
    (s.withBus b).setSp a = (s.setSp a).withBus b := by
  have h : (s.withBus b).flag .s = s.flag .s := rfl
  unfold State.setSp
  rw [h]
  split <;> rfl

theorem setSp_env (s : State) (a : Addr) : (s.setSp a).env = s.env := by
  simp only [State.env, State.setSp_memMap, State.setSp_gaps, State.setSp_resetIn]

theorem runs_setSp (f : State → Addr) (s : State) (h : ∀ b, f (s.withBus b) = f s) :
    Runs (change fun s => s.setSp (f s)) s () (s.setSp (f s)) :=
  runs_change _ _ (fun b => by rw [h, setSp_bus]) (setSp_env s _)

theorem runs_push {w : Nat} (n : Nat) (v : BitVec w) (s : State) : Runs (push n v) s () (s.pushed n v) := by
  unfold push State.pushed
  refine runs_bind (runs_setSp (fun s => s.sp - BitVec.ofNat 24 n) s fun _ => rfl) (runs_bind (runs_look State.sp _ fun _ => rfl) ?_)
  rw [State.setSp_sp]
  exact runs_writeMem _ _ _ _ _

theorem runs_pop (n : Nat) {p : Pins} (s : State) : Runs (pop n p) s (s.top n) (s.popped n) :=
  runs_bind (runs_look State.sp s fun _ => rfl) (runs_bind (runs_readMem _ _ _ _ _)
    (runs_bind (runs_setSp (fun s => s.sp + BitVec.ofNat 24 n) s fun _ => rfl) (runs_pure _ _)))

/-! ## Operands -/

theorem ea_bus (s : State) (b : List PinEvent) (g : Gen) : (s.withBus b).ea g = s.ea g := by
  rcases g with m | ⟨m, x, sc⟩ <;> cases m <;> rfl

theorem runs_effBase (m : Base) (s : State) : Runs (effBase m) s (s.baseEa m) s := by
  cases m with
  | memRel a d1 d2 =>
    exact runs_bind (runs_look (fun s => s.pointerAddr a d1) s fun _ => rfl)
      (runs_bind (runs_readMem _ _ _ _ _) (runs_pure _ _))
  | ext d1 d2 =>
    exact runs_bind (runs_look State.linkAddr s fun _ => rfl) (runs_bind (runs_readMem _ _ _ _ _)
      (runs_bind (runs_readMem _ _ _ _ _) (runs_pure _ _)))
  | _ => exact runs_look (fun s => s.baseEa _) s fun _ => rfl

theorem runs_effAddr (g : Gen) (s : State) : Runs (effAddr g) s (s.ea g) s := by
  cases g with
  | base m => exact runs_effBase m s
  | scaled m x sc =>
    exact runs_bind (runs_effBase m s) (runs_bind (runs_look (fun s => s.reg x) s fun _ => rfl) (runs_pure _ _))

theorem runs_effAddr24 (g : Gen) (s : State) : Runs (effAddr24 g) s ((s.ea g).setWidth 24) s :=
  runs_map _ (runs_effAddr g s)

theorem runs_placeRmw (g : Gen) (s : State) : Runs (placeRmw g) s (s.rmwPlace g) s := by
  rcases g with m | ⟨m, x, sc⟩
  · cases m with
    | reg r => exact runs_pure _ _
    | _ => exact runs_map _ (runs_effAddr24 _ s)
  · exact runs_map _ (runs_effAddr24 _ s)

theorem runs_placeWrite (g : Gen) (s : State) : Runs (placeWrite g) s (s.writePlaceOf g) s := by
  rcases g with m | ⟨m, x, sc⟩
  · cases m with
    | reg r => exact runs_pure _ _
    | tos => exact runs_pure _ _
    | _ => exact runs_map _ (runs_effAddr24 _ s)
  · exact runs_map _ (runs_effAddr24 _ s)

theorem runs_readGen (g : Gen) (n : Nat) {p : Pins} (s : State) :
    Runs (readGen g n p) s (s.operand g n) (s.afterRead g n) := by
  rcases g with m | ⟨m, x, sc⟩
  · cases m with
    | reg r => exact runs_look (fun s => (s.reg r).setWidth (8 * n)) s fun _ => rfl
    | imm v => exact runs_pure _ _
    | tos =>
      have e : s.operand (.base .tos) n = s.top n := by
        simp [State.operand, State.ea, State.baseEa, State.top]
      rw [e]
      exact runs_pop n s
    | _ => exact runs_bind (runs_effAddr24 _ s) (runs_readMem _ _ _ _ _)
  · exact runs_bind (runs_effAddr24 _ s) (runs_readMem _ _ _ _ _)

theorem runs_readPlace (st : BusStatus) (p : Place) (n : Nat) (s : State) : Runs (readPlace st p n) s (s.at p n) s := by
  cases p with
  | reg r => exact runs_look (fun s => (s.reg r).setWidth (8 * n)) s fun _ => rfl
  | mem a => exact runs_readMem _ _ _ _ _
  | push => exact runs_bind (runs_look State.sp s fun _ => rfl) (runs_readMem _ _ _ _ _)

theorem runs_writePlace (p : Place) (n : Nat) (v : BitVec (8 * n)) (s : State) :
    Runs (writePlace p n v) s () (s.put p n v) := by
  cases p with
  | reg r => exact runs_change (fun s => s.setRegLow r v) s (fun _ => rfl) rfl
  | mem a => exact runs_writeMem _ _ _ _ _
  | push => exact runs_push _ _ _

/-- Source read, destination evaluated, result computed and stored. -/
theorem runs_moveOp {n m : Nat} {src dst : Gen} {f : BitVec (8 * n) → M (BitVec (8 * m))} {s t : State}
    {v : BitVec (8 * m)} (h : Runs (f (s.operand src n)) (s.afterRead src n) v t) :
    Runs (moveOp n m src dst f) s () (t.put ((s.afterRead src n).writePlaceOf dst) m v) :=
  runs_bind (runs_readGen _ _ _) (runs_bind (runs_placeWrite _ _) (runs_bind h (runs_writePlace _ _ _ _)))

theorem runs_rmwOp {m : Nat} {dst : Gen} {f : BitVec (8 * m) → M (BitVec (8 * m))} {s t : State}
    {v : BitVec (8 * m)} (h : Runs (f (s.at (s.rmwPlace dst) m)) s v t) :
    Runs (rmwOp m dst f) s () (t.put (s.rmwPlace dst) m v) :=
  runs_bind (runs_placeRmw _ _) (runs_bind (runs_readPlace _ _ _ _) (runs_bind h (runs_writePlace _ _ _ _)))

theorem runs_binaryOp {n m : Nat} {src dst : Gen} {f : BitVec (8 * n) → BitVec (8 * m) → M (BitVec (8 * m))}
    {s t : State} {v : BitVec (8 * m)}
    (h : Runs (f (s.operand src n) ((s.afterRead src n).at ((s.afterRead src n).rmwPlace dst) m))
      (s.afterRead src n) v t) :
    Runs (binaryOp n m src dst f) s () (t.put ((s.afterRead src n).rmwPlace dst) m v) :=
  runs_bind (runs_readGen _ _ _) (runs_rmwOp h)

theorem traps_binaryOp {n m : Nat} {src dst : Gen} {f : BitVec (8 * n) → BitVec (8 * m) → M (BitVec (8 * m))}
    {s t : State} {k : Trap}
    (h : Traps (f (s.operand src n) ((s.afterRead src n).at ((s.afterRead src n).rmwPlace dst) m))
      (s.afterRead src n) k t) : Traps (binaryOp n m src dst f) s k t :=
  runs_traps_bind (runs_readGen _ _ _) (runs_traps_bind (runs_placeRmw _ _)
    (runs_traps_bind (runs_readPlace _ _ _ _) (traps_bind h)))

theorem runs_readOp2 (n m : Nat) (g1 g2 : Gen) (s : State) :
    Runs (readOp2 n m g1 g2) s (s.operand g1 n, (s.afterRead g1 n).operand g2 m)
      ((s.afterRead g1 n).afterRead g2 m) :=
  runs_bind (runs_readGen _ _ _) (runs_bind (runs_readGen _ _ _) (runs_pure _ _))

/-! ## Modules and exceptions -/

theorem runs_moduleEntry (o : Half) (s : State) : Runs (moduleEntry o) s (s.entry o) s.based :=
  runs_bind (runs_look (fun s => s.modAddr 0) s fun _ => rfl) (runs_bind (runs_readMem _ _ _ _ _)
    (runs_bind (runs_change (fun t => { t with sb := (s.peek32 (s.modAddr 0)).setWidth 24 }) s (fun _ => rfl) rfl)
      (runs_bind (runs_look (fun s => s.modAddr 8) _ fun _ => rfl)
        (runs_bind (runs_readMem _ _ _ _ s.based) (runs_settled _ _)))))

theorem runs_enterModule (o : Half) (s : State) : Runs (enterModule o) s () (s.entered o) :=
  runs_bind (runs_moduleEntry o s) (runs_change (fun t => t.jump (s.entry o)) s.based (fun _ => rfl) rfl)

theorem runs_demandFetch (s : State) : Runs demandFetch s () { s with
    queue := s.queue ++ loadBytes s.mem s.fetchPc s.fetchWidth
    fetchPc := s.fetchPc + BitVec.ofNat 24 s.fetchWidth
    broken := false } := by
  refine runs_bind (runs_between .within s) (runs_of_apply rfl fun hs b => ?_)
  have hb : Answers (s.withBus b) := answers_congr rfl hs
  refine ⟨((s.withBus b).enqueue (loadBytes s.mem s.fetchPc s.fetchWidth)).bus, ?_⟩
  rw [bind_apply]
  simp only [look, blocked_of_answers hb]
  simp only [bind_apply, look, change, answer_of_answers hb]
  rw [State.enqueue, logCycle_quiet hb.2]
  rfl

theorem runs_flushAndFetch (a : Addr) (s : State) : Runs (flushAndFetch a) s () (s.flushed a) :=
  runs_bind (runs_change (fun s => s.jump a) s (fun _ => rfl) rfl) (runs_demandFetch (s.jump a))

theorem runs_service (k : Nat) (ra : Addr) (s : State) : Runs (service k ra) s () (s.serviced k ra) :=
  runs_bind (runs_look State.modReg s fun _ => rfl) (runs_bind (runs_look (fun s => s.intbase + BitVec.ofNat 24 (4 * k)) s fun _ => rfl)
    (runs_bind (runs_readMem _ _ _ _ _) (runs_bind (runs_change _ _ (fun _ => rfl) rfl) (runs_bind (runs_moduleEntry _ _)
      (runs_bind (runs_flushAndFetch _ _) (runs_bind (runs_push _ _ _) (runs_push _ _ _)))))))

theorem runs_takeTrap (k : Trap) (s0 s : State) : Runs (takeTrap k s0) s () (s.trapped k s0) := by
  refine runs_bind (runs_change (fun s => ({ s with psr := s0.psr } : State).setSp s0.sp) s
    (fun b => setSp_bus { s with psr := s0.psr } b _) (setSp_env { s with psr := s0.psr } _)) ?_
  exact runs_bind (runs_change (fun s => { s with psr := psrClear s0.psr [.s, .u, .p, .t] }) _ (fun _ => rfl) rfl)
    (runs_bind (runs_push _ _ _) (runs_service _ _ _))

theorem runs_returnFromException (s : State) : Runs returnFromException s () s.returned := by
  refine runs_bind (runs_pop _ _) (runs_bind (runs_change _ _ (fun _ => rfl) rfl) (runs_bind (runs_pop _ _) (runs_bind (runs_change _ _ (fun _ => rfl) rfl)
    (runs_bind (runs_pop _ _) (runs_bind (runs_change _ _ (fun _ => rfl) rfl)
      (runs_bind (runs_look (fun s => s.modAddr 0) _ fun _ => rfl) (runs_bind (runs_readMem _ _ _ _ _) ?_)))))))
  exact runs_change _ _ (fun _ => rfl) rfl

theorem runs_privileged {s : State} (h : s.flag .u = false) : Runs privileged s () s := by
  refine runs_bind (runs_look (fun s => s.flag .u) s fun _ => rfl) ?_
  simp only [h]
  exact runs_pure _ _

theorem traps_privileged {s : State} (h : s.flag .u = true) : Traps privileged s .ill s := by
  refine runs_traps_bind (runs_look (fun s => s.flag .u) s fun _ => rfl) ?_
  simp only [h]
  exact traps_abort _ _

/-! ## Instructions -/

/-- An instruction whose steps run completes. -/
theorem perform_of_runs {i : Instr} {x : M Unit} {s t : State} (hi : i.WF) (hs : Answers s)
    (h : Runs x s.begin () t) : ∃ u, perform i x s = .next u ∧ Agree u t := by
  obtain ⟨_, h⟩ := h (answers_congr rfl hs)
  obtain ⟨b, e⟩ := h s.begin.bus
  refine ⟨t.withBus b, ?_, rfl⟩
  have e' : x s.begin = .ok () (t.withBus b) := e
  have hi' : i.check = none := hi
  simp only [perform, hi', e', finish, settle]

/-- A sequential instruction whose steps run completes with PC past it. -/
theorem performSeq_of_runs {i : Instr} {x : M Unit} {s t : State} (hi : i.WF) (hs : Answers s)
    (h : Runs x s.begin () t) : ∃ u, performSeq i x s = .next u ∧ Agree u { t with pc := t.next i } :=
  perform_of_runs hi hs (runs_bind h (runs_change (fun s => { s with pc := s.next i }) t (fun _ => rfl) rfl))

/-- An instruction that raises a trap completes by taking it. -/
theorem perform_of_traps {i : Instr} {x : M Unit} {s t : State} {k : Trap} (hi : i.WF) (hs : Answers s)
    (h : Traps x s.begin k t) : ∃ u, perform i x s = .next u ∧ Agree u (t.trapped k s) := by
  obtain ⟨ht, h⟩ := h (answers_congr rfl hs)
  obtain ⟨b, e⟩ := h s.begin.bus
  obtain ⟨_, r⟩ := runs_takeTrap k s t ht
  obtain ⟨b', e2⟩ := r b
  refine ⟨(t.trapped k s).withBus b', ?_, rfl⟩
  have e' : x s.begin = .error (.trap k) (t.withBus b) := e
  have hi' : i.check = none := hi
  simp only [perform, hi', e', finish, e2, settle]

/-- A sequential instruction that raises a trap completes by taking it. -/
theorem performSeq_of_traps {i : Instr} {x : M Unit} {s t : State} {k : Trap} (hi : i.WF) (hs : Answers s)
    (h : Traps x s.begin k t) : ∃ u, performSeq i x s = .next u ∧ Agree u (t.trapped k s) :=
  perform_of_traps hi hs (traps_bind h)

/-- An ill-formed instruction is refused, unless RSTI is active. -/
theorem perform_illFormed {i : Instr} {e : IllFormed} (h : i.check = some e) (x : M Unit) {s : State}
    (hs : s.resetIn ≠ some 0) : perform i x s = .refused (.illegalForm e) := by
  simp only [perform, h, State.stop, if_neg hs]

end Sys2Proof.Machine
end

