-- ==== Sys2Proof/Laws/Completes.lean ====
section
/-!
SUPPORT. From what an instruction's steps do to the statement that it completes: the memory frame of one stored operand,
and the shapes that most instructions have.
-/
namespace Sys2Proof.Machine

open Sys2Proof.Safety

/-! ## What the beginning of an instruction and an operand read leave -/

theorem State.putFlag_sp (s : State) (q : PsrBit) (x : Bool) (h : q ≠ .s) : (s.putFlag q x).sp = s.sp := by
  unfold State.sp
  rw [State.putFlag_flag, if_neg h.symm]
  rfl

@[simp] theorem State.putCF_sp (s : State) (c f : Bool) : (s.putCF c f).sp = s.sp :=
  (State.putFlag_sp _ .f f (by decide)).trans (State.putFlag_sp _ .c c (by decide))

@[simp] theorem State.putCompare_sp {w : Nat} (s : State) (a b : BitVec w) : (s.putCompare a b).sp = s.sp :=
  ((State.putFlag_sp _ .l _ (by decide)).trans (State.putFlag_sp _ .n _ (by decide))).trans
    (State.putFlag_sp _ .z _ (by decide))

@[simp] theorem State.putCF_mem (s : State) (c f : Bool) : (s.putCF c f).mem = s.mem := rfl

@[simp] theorem State.putCF_pc (s : State) (c f : Bool) : (s.putCF c f).pc = s.pc := rfl

@[simp] theorem State.begin_sp (s : State) : s.begin.sp = s.sp := State.putFlag_sp _ .p _ (by decide)

@[simp] theorem State.begin_reg (s : State) (r : RegNo) : s.begin.reg r = s.reg r := rfl

@[simp] theorem State.begin_flag (s : State) (q : PsrBit) :
    s.begin.flag q = if q = .p then s.flag .t else s.flag q := State.putFlag_flag _ _ _ _

@[simp] theorem State.afterRead_reg (s : State) (g : Gen) (n : Nat) (r : RegNo) :
    (s.afterRead g n).reg r = s.reg r := by
  rcases g with m | ⟨m, x, sc⟩
  · cases m with
    | tos => exact State.setSp_reg _ _ _
    | _ => rfl
  · rfl

@[simp] theorem State.afterRead_flag (s : State) (g : Gen) (n : Nat) (q : PsrBit) :
    (s.afterRead g n).flag q = s.flag q := by
  rcases g with m | ⟨m, x, sc⟩
  · cases m with
    | tos => exact State.setSp_flag _ _ _
    | _ => rfl
  · rfl

@[simp] theorem State.afterRead_draws (s : State) (g : Gen) (n : Nat) : (s.afterRead g n).draws = s.draws := by
  rcases g with m | ⟨m, x, sc⟩
  · cases m with
    | tos => exact State.setSp_draws _ _
    | _ => rfl
  · rfl

theorem State.storeAddr_congr {s t : State} (h : t.sp = s.sp) (p : Place) (n : Nat) :
    t.storeAddr p n = s.storeAddr p n := by
  cases p with
  | push => simp only [State.storeAddr, h]
  | _ => rfl

/-! ## Memory is left alone -/

@[simp] theorem State.begin_mem (s : State) : s.begin.mem = s.mem := rfl

@[simp] theorem State.afterRead_mem (s : State) (g : Gen) (n : Nat) : (s.afterRead g n).mem = s.mem := by
  rcases g with m | ⟨m, x, sc⟩
  · cases m with
    | tos => exact State.setSp_mem _ _
    | _ => rfl
  · rfl

theorem frame_none {s t : State} (h : t.mem = s.mem) (n : Nat) : MemFrame s t none n := fun a => by
  unfold State.byteAt
  rw [h]

theorem frame_of_mem {s t u : State} {a : Option Addr} {n : Nat} (h : MemFrame s t a n) (hu : u.mem = t.mem) :
    MemFrame s u a n := by
  cases a with
  | none => intro x; unfold State.byteAt; rw [hu]; exact h x
  | some b => intro x hx; unfold State.byteAt; rw [hu]; exact h x hx

theorem frame_poke {w : Nat} {s t : State} (h : t.mem = s.mem) (a : Addr) (n : Nat) (v : BitVec w) :
    MemFrame s (t.poke a n v) (some a) n := fun b hb => by
  rw [State.poke_byteAt_outside _ _ _ _ _ hb]
  unfold State.byteAt
  rw [h]

theorem frame_pushed {w : Nat} {s t : State} (h : t.mem = s.mem) (n : Nat) (v : BitVec w) :
    MemFrame s (t.pushed n v) (some (t.sp - BitVec.ofNat 24 n)) n :=
  frame_poke (by rw [State.setSp_mem, h]) _ _ _

/-- Storing one operand. -/
theorem frame_put {s t : State} (h : t.mem = s.mem) (p : Place) (n : Nat) (v : BitVec (8 * n)) :
    MemFrame s (t.put p n v) (t.storeAddr p n) n := by
  cases p with
  | reg r => exact frame_none h n
  | mem a => exact frame_poke h a n v
  | push => exact frame_pushed h n v

/-! ## Completing -/

theorem completes_perform {i : Instr} {x : M Unit} {s t : State} {a : Option Addr} {n : Nat}
    (e : exec i s = perform i x s) (hi : i.WF) (hs : Answers s) (h : Runs x s.begin () t) (f : MemFrame s t a n) :
    Completes i s t a n := by
  obtain ⟨u, hu, hv⟩ := perform_of_runs hi hs h
  exact ⟨⟨u, e.trans hu, hv⟩, f⟩

theorem completes_seq {i : Instr} {x : M Unit} {s t : State} {a : Option Addr} {n : Nat}
    (e : exec i s = performSeq i x s) (hi : i.WF) (hs : Answers s) (h : Runs x s.begin () t) (f : MemFrame s t a n)
    (hp : t.pc = s.pc) : Completes i s { t with pc := s.next i } a n := by
  obtain ⟨u, hu, hv⟩ := performSeq_of_runs hi hs h
  have : t.next i = s.next i := by unfold State.next; rw [hp]
  rw [this] at hv
  exact ⟨⟨u, e.trans hu, hv⟩, frame_of_mem f rfl⟩

@[simp] theorem State.begin_pc (s : State) : s.begin.pc = s.pc := rfl

@[simp] theorem State.afterRead_pc (s : State) (g : Gen) (n : Nat) : (s.afterRead g n).pc = s.pc := by
  rcases g with m | ⟨m, x, sc⟩
  · cases m with
    | tos => exact State.setSp_pc _ _
    | _ => rfl
  · rfl

@[simp] theorem State.pushed_pc {w : Nat} (s : State) (n : Nat) (v : BitVec w) : (s.pushed n v).pc = s.pc :=
  State.setSp_pc _ _

@[simp] theorem State.put_pc (s : State) (p : Place) (n : Nat) (v : BitVec (8 * n)) : (s.put p n v).pc = s.pc := by
  cases p with
  | push => exact State.pushed_pc _ _ _
  | _ => rfl

/-- Source read, result and flags computed into `t`, destination rewritten in place. -/
theorem completes_binaryOp {i : Instr} {n m : Nat} {src dst : Gen} {f : BitVec (8 * n) → BitVec (8 * m) → M (BitVec (8 * m))}
    {s t : State} {v : BitVec (8 * m)} (e : exec i s = performSeq i (binaryOp n m src dst f) s) (hi : i.WF)
    (hs : Answers s) (h : Runs (f (s.begin.operand src n)
      ((s.begin.afterRead src n).at ((s.begin.afterRead src n).rmwPlace dst) m)) (s.begin.afterRead src n) v t)
    (hm : t.mem = s.mem) (hp : t.pc = s.pc) :
    Completes i s { (t.put ((s.begin.afterRead src n).rmwPlace dst) m v) with pc := s.next i }
      (t.storeAddr ((s.begin.afterRead src n).rmwPlace dst) m) m :=
  completes_seq e hi hs (runs_binaryOp h) (frame_put hm _ _ _) (by rw [State.put_pc, hp])

/-- Source read, result and flags computed into `t`, destination written. -/
theorem completes_moveOp {i : Instr} {n m : Nat} {src dst : Gen} {f : BitVec (8 * n) → M (BitVec (8 * m))}
    {s t : State} {v : BitVec (8 * m)} (e : exec i s = performSeq i (moveOp n m src dst f) s) (hi : i.WF)
    (hs : Answers s) (h : Runs (f (s.begin.operand src n)) (s.begin.afterRead src n) v t)
    (hm : t.mem = s.mem) (hp : t.pc = s.pc) :
    Completes i s { (t.put ((s.begin.afterRead src n).writePlaceOf dst) m v) with pc := s.next i }
      (t.storeAddr ((s.begin.afterRead src n).writePlaceOf dst) m) m :=
  completes_seq e hi hs (runs_moveOp h) (frame_put hm _ _ _) (by rw [State.put_pc, hp])

end Sys2Proof.Machine
end

