-- ==== Sys2Proof/Laws/Decode.lean ====
section
/-!
SUPPORT. The decoder's parts read what the encoder's parts write: displacements, immediates, operands, and the fields of
the Basic Instructions.
-/
namespace Sys2Proof

/-- A reader takes exactly the bytes `bs`, whatever comes after them, and answers `a`. -/
def Reads {α : Type} (p : Parse α) (bs : List Byte) (a : α) : Prop := ∀ rest, p (bs ++ rest) = .ok (a, rest)

theorem parse_bind {α β : Type} (p : Parse α) (f : α → Parse β) (bs : List Byte) :
    (p >>= f) bs = match p bs with
      | .ok (a, r) => f a r
      | .error e => .error e := by
  show (p bs >>= fun x => f x.1 x.2) = _
  cases p bs <;> rfl

theorem reads_pure {α : Type} (a : α) : Reads (pure a : Parse α) [] a := fun _ => rfl

theorem reads_bind {α β : Type} {p : Parse α} {f : α → Parse β} {bs cs : List Byte} {a : α} {b : β}
    (h : Reads p bs a) (k : Reads (f a) cs b) : Reads (p >>= f) (bs ++ cs) b := by
  intro rest
  rw [parse_bind, List.append_assoc, h]
  exact k rest

/-- A sequence whose last part reads nothing more. -/
theorem reads_map {α β : Type} {p : Parse α} {bs : List Byte} {a : α} (f : α → β)
    (h : Reads p bs a) : Reads (do let x ← p; return f x) bs (f a) := by
  intro rest
  rw [parse_bind, h]
  rfl

theorem reads_byte (b : Byte) : Reads Parse.byte [b] b := fun _ => rfl

/-! ## Big-endian values -/

/-- A value is its high bits beside its low bits. -/
theorem join (m n : Nat) (v : BitVec (m + n)) : v.extractLsb' n m ++ v.setWidth n = v := by
  rw [BitVec.setWidth_eq_extractLsb' (by omega), BitVec.extractLsb'_append_extractLsb'_eq_extractLsb' (by omega),
    BitVec.extractLsb'_eq_self]

theorem reads_half (v : Half) : Reads Parse.half (beHalf v) v := by
  have e : v.extractLsb' 8 8 ++ v.setWidth 8 = v := join 8 8 v
  intro rest
  show Except.ok (v.extractLsb' 8 8 ++ v.setWidth 8, rest) = _
  rw [e]

theorem reads_dword (v : DWord) : Reads Parse.dword (beDWord v) v := by
  have e : v.extractLsb' 16 16 ++ v.setWidth 16 = v := join 16 16 v
  refine reads_bind (reads_half _) ?_
  have h := reads_map (fun x => v.extractLsb' 16 16 ++ x) (reads_half (v.setWidth 16))
  rwa [e] at h

theorem reads_quad (v : Quad) :
    Reads Parse.quad (beDWord (v.extractLsb' 32 32) ++ beDWord (v.setWidth 32)) v := by
  have e : v.extractLsb' 32 32 ++ v.setWidth 32 = v := join 32 32 v
  refine reads_bind (reads_dword _) ?_
  have h := reads_map (fun x => v.extractLsb' 32 32 ++ x) (reads_dword (v.setWidth 32))
  rwa [e] at h

/-! ## Displacements and immediates -/

theorem reads_disp (d : Disp) : Reads Parse.disp d.encode d := by
  cases d with
  | d1 v =>
    have h7 : ((0 : BitVec 1) ++ v).getLsbD 7 = false := by rw [BitVec.getLsbD_append]; rfl
    have hv : ((0 : BitVec 1) ++ v).setWidth 7 = v := BitVec.setWidth_append_eq_right
    intro rest
    simp only [Disp.encode, Parse.disp, List.cons_append, List.nil_append, parse_bind, Parse.byte, h7, if_true, hv]
    rfl
  | d2 v =>
    have h7 : ((0b10 : BitVec 2) ++ v.extractLsb' 8 6).getLsbD 7 = true := by rw [BitVec.getLsbD_append]; rfl
    have h6 : ((0b10 : BitVec 2) ++ v.extractLsb' 8 6).getLsbD 6 = false := by rw [BitVec.getLsbD_append]; rfl
    have hv : ((0b10 : BitVec 2) ++ v.extractLsb' 8 6).setWidth 6 = v.extractLsb' 8 6 := BitVec.setWidth_append_eq_right
    have e : v.extractLsb' 8 6 ++ v.setWidth 8 = v := join 6 8 v
    intro rest
    simp only [Disp.encode, Parse.disp, List.cons_append, List.nil_append, parse_bind, Parse.byte, h7, h6, if_true,
      hv, e, Bool.true_eq_false, if_false]
    rfl
  | d4 v =>
    have h7 : ((0b11 : BitVec 2) ++ v.extractLsb' 24 6).getLsbD 7 = true := by rw [BitVec.getLsbD_append]; rfl
    have h6 : ((0b11 : BitVec 2) ++ v.extractLsb' 24 6).getLsbD 6 = true := by rw [BitVec.getLsbD_append]; rfl
    have hv : ((0b11 : BitVec 2) ++ v.extractLsb' 24 6).setWidth 6 = v.extractLsb' 24 6 := BitVec.setWidth_append_eq_right
    have e : v.extractLsb' 24 6 ++ v.extractLsb' 16 8 ++ (v.extractLsb' 8 8 ++ v.setWidth 8) = v := by
      have hi : v.extractLsb' 24 6 ++ v.extractLsb' 16 8 = v.extractLsb' 16 14 :=
        BitVec.extractLsb'_append_extractLsb'_eq_extractLsb' rfl
      have lo : v.extractLsb' 8 8 ++ v.extractLsb' 0 8 = v.extractLsb' 0 16 :=
        BitVec.extractLsb'_append_extractLsb'_eq_extractLsb' rfl
      have all : v.extractLsb' 16 14 ++ v.extractLsb' 0 16 = v.extractLsb' 0 30 :=
        BitVec.extractLsb'_append_extractLsb'_eq_extractLsb' rfl
      rw [BitVec.setWidth_eq_extractLsb' (by omega), hi, lo]
      exact all.trans BitVec.extractLsb'_eq_self
    intro rest
    simp only [Disp.encode, Parse.disp, List.cons_append, List.nil_append, parse_bind, Parse.byte, Parse.half, h7, h6,
      hv, Bool.true_eq_false, if_false]
    show Except.ok (Disp.d4 (v.extractLsb' 24 6 ++ v.extractLsb' 16 8 ++ (v.extractLsb' 8 8 ++ v.setWidth 8)), rest) = _
    rw [e]

theorem reads_imm (v : Imm) : Reads (Parse.imm v.bytes) v.encode v := by
  cases v with
  | b v => exact reads_map Imm.b (reads_byte v)
  | w v => exact reads_map Imm.w (reads_half v)
  | d v => exact reads_map Imm.d (reads_dword v)
  | q v => exact reads_map Imm.q (reads_quad v)

/-! ## Operands -/

/-- A mode that may stand in an operand of `n` bytes: an immediate has that length. -/
def Base.fits (m : Base) (n : Nat) : Prop := ∀ v, m = .imm v → v.bytes = n

/-- An operand that has an encoding as one of `n` bytes. -/
def Gen.fits : Gen → Nat → Prop
  | .base m, n => m.fits n
  | .scaled m _ _, _ => (∀ v, m ≠ .imm v) ∧ m ≠ .tos

/-- The bits of a gen code: two of the mode's group and three within it. -/
theorem code_bits (a : BitVec 2) (b : BitVec 3) :
    (a ++ b).extractLsb' 3 2 = a ∧ (a ++ b).setWidth 3 = b ∧ (a ++ b).extractLsb' 2 3 = a ++ b.extractLsb' 2 1 := by
  refine ⟨BitVec.extractLsb'_append_eq_left, BitVec.setWidth_append_eq_right, ?_⟩
  revert a b
  decide

theorem reads_base (m : Base) (n : Nat) (h : m.fits n) : Reads (Parse.base m.code n) m.extension m := by
  cases m with
  | reg r =>
    have h1 := (code_bits 0b00 r).1
    have h2 := (code_bits 0b00 r).2.1
    simp only [Base.code, Parse.base, h1, h2]
    exact reads_pure _
  | regRel r d =>
    have h1 := (code_bits 0b01 r).1
    have h2 := (code_bits 0b01 r).2.1
    simp only [Base.code, Parse.base, h1, h2]
    exact reads_map _ (reads_disp d)
  | memRel a d1 d2 =>
    cases a <;> (
      simp only [Base.code, Parse.base, BitVec.reduceExtractLsb', BitVec.reduceToNat, BitVec.reduceSetWidth]
      exact reads_bind (reads_disp d1) (reads_map (Base.memRel _ d1) (reads_disp d2)))
  | imm v =>
    have hv := h v rfl
    subst hv
    simp only [Base.code, Parse.base, BitVec.reduceExtractLsb', BitVec.reduceToNat, BitVec.reduceSetWidth]
    exact reads_map _ (reads_imm v)
  | abs d =>
    simp only [Base.code, Parse.base, BitVec.reduceExtractLsb', BitVec.reduceToNat, BitVec.reduceSetWidth]
    exact reads_map _ (reads_disp d)
  | ext d1 d2 =>
    simp only [Base.code, Parse.base, BitVec.reduceExtractLsb', BitVec.reduceToNat, BitVec.reduceSetWidth]
    exact reads_bind (reads_disp d1) (reads_map (Base.ext d1) (reads_disp d2))
  | tos =>
    simp only [Base.code, Parse.base, BitVec.reduceExtractLsb', BitVec.reduceToNat, BitVec.reduceSetWidth]
    exact reads_pure _
  | mem a d =>
    cases a <;> (
      simp only [Base.code, Parse.base, BitVec.reduceExtractLsb', BitVec.reduceToNat, BitVec.reduceSetWidth]
      exact reads_map _ (reads_disp d))

/-- The code of a mode is not one of Scaled Index. -/
theorem isScaled_base (m : Base) : isScaled m.code = false := by
  cases m with
  | reg r => revert r; decide
  | regRel r d =>
    have h : ∀ r : BitVec 3, isScaled ((0b01 : BitVec 2) ++ r) = false := by decide
    exact h r
  | memRel a _ _ => cases a <;> simp [isScaled, Base.code]
  | mem a _ => cases a <;> simp [isScaled, Base.code]
  | _ => simp [isScaled, Base.code]

theorem isScaled_scaled (m : Base) (x : RegNo) (sc : Scale) : isScaled (Gen.scaled m x sc).code = true := by
  have h : ∀ c : BitVec 2, isScaled ((0b111 : BitVec 3) ++ c) = true := by decide
  exact h _

theorem scaleOf_code (m : Base) (x : RegNo) (sc : Scale) : scaleOf (Gen.scaled m x sc).code = sc := by
  have h : ∀ c : BitVec 2, ((0b111 : BitVec 3) ++ c).extractLsb' 0 2 = c := by decide
  have e : (Gen.scaled m x sc).code.extractLsb' 0 2 = sc.code := h _
  unfold scaleOf
  rw [e]
  cases sc <;> rfl

/-- The Index Byte that the parser hands on. -/
def Gen.indexByte : Gen → Byte
  | .base _ => 0
  | .scaled m x _ => m.code ++ x

theorem reads_index (g : Gen) : Reads (Parse.index g.code) g.index g.indexByte := by
  cases g with
  | base m =>
    have h : isScaled (Gen.base m).code = false := isScaled_base m
    simp only [Parse.index, h]
    exact reads_pure _
  | scaled m x sc =>
    simp only [Parse.index, isScaled_scaled]
    exact reads_byte _

theorem badScaledBase_of_fits {m : Base} (h1 : ∀ v, m ≠ .imm v) (h2 : m ≠ .tos) : badScaledBase m.code = false := by
  cases m with
  | reg r =>
    have h : ∀ r : BitVec 3, badScaledBase ((0b00 : BitVec 2) ++ r) = false := by decide
    exact h r
  | regRel r d =>
    have h : ∀ r : BitVec 3, badScaledBase ((0b01 : BitVec 2) ++ r) = false := by decide
    exact h r
  | memRel a _ _ => cases a <;> simp [badScaledBase, Base.code]
  | imm v => exact absurd rfl (h1 v)
  | tos => exact absurd rfl h2
  | mem a _ => cases a <;> simp [badScaledBase, Base.code]
  | _ => simp [badScaledBase, Base.code]

theorem reads_gen (g : Gen) (n : Nat) (h : g.fits n) :
    Reads (Parse.gen g.code g.indexByte n) g.extension g := by
  cases g with
  | base m =>
    have hs : isScaled (Gen.base m).code = false := isScaled_base m
    simp only [Parse.gen, hs]
    exact reads_map _ (reads_base m n h)
  | scaled m x sc =>
    have e1 : (m.code ++ x).extractLsb' 3 5 = m.code := BitVec.extractLsb'_append_eq_left
    have e2 : (m.code ++ x).setWidth 3 = x := BitVec.setWidth_append_eq_right
    simp only [Parse.gen, isScaled_scaled, Gen.indexByte, e1, e2, badScaledBase_of_fits h.1 h.2, scaleOf_code]
    exact reads_map _ (reads_base m n fun v e => absurd e (h.1 v))

theorem reads_gen1 (g : Gen) (n : Nat) (h : g.fits n) : Reads (Parse.gen1 g.code n) (g.index ++ g.extension) g :=
  reads_bind (reads_index g) (reads_gen g n h)

theorem reads_gen2 (a b : Gen) (n m : Nat) (ha : a.fits n) (hb : b.fits m) :
    Reads (Parse.gen2 a.code b.code n m) (ext2 a b) (a, b) := by
  have e : ext2 a b = a.index ++ (b.index ++ (a.extension ++ b.extension)) := by simp [ext2]
  rw [e]
  refine reads_bind (reads_index a) ?_
  refine reads_bind (reads_index b) ?_
  refine reads_bind (reads_gen a n ha) ?_
  exact reads_map (fun y => (a, y)) (reads_gen b m hb)

/-- An operand of a well-formed instruction has an encoding at its size. -/
theorem fits_of_check {o : Operand} (h : o.check = none) : o.gen.fits o.bytes := by
  obtain ⟨g, c, n⟩ := o
  rcases g with m | ⟨m, x, sc⟩
  · intro v e
    subst e
    simp only [Operand.check] at h
    split at h
    · cases h
    · split at h
      · cases h
      · next hv => simpa using hv
  · refine ⟨fun v e => ?_, fun e => ?_⟩ <;> subst e <;> simp [Operand.check] at h

/-- Every operand of a well-formed instruction has an encoding at its size. -/
theorem fits_of_wf {i : Instr} (h : i.WF) : ∀ o ∈ i.operands, o.gen.fits o.bytes := by
  intro o ho
  have h1 : i.operands.findSome? Operand.check = none := by
    unfold Instr.WF Instr.check at h
    cases e : i.operands.findSome? Operand.check with
    | none => rfl
    | some x => rw [e] at h; cases h
  exact fits_of_check (List.findSome?_eq_none_iff.mp h1 o ho)

/-- The form of a well-formed instruction is right. -/
theorem checkForm_of_wf {i : Instr} (h : i.WF) : i.checkForm = none := by
  unfold Instr.WF Instr.check at h
  cases e : i.operands.findSome? Operand.check with
  | none => rw [e] at h; exact h
  | some x => rw [e] at h; cases h

/-! ## Basic Instructions -/

/-- An instruction is read from its first byte and the rest. -/
theorem decode_reads {i : Instr} {b : Byte} {bs : List Byte} (h : Reads (Parse.instr b) bs i) :
    Reads (Parse.byte >>= Parse.instr) (b :: bs) i := reads_bind (reads_byte b) h

theorem join16 (w : Half) : w.extractLsb' 8 8 ++ w.setWidth 8 = w := join 8 8 w

theorem join24 (w : BitVec 24) : w.extractLsb' 16 8 ++ w.extractLsb' 8 8 ++ w.setWidth 8 = w := by
  have h : w.extractLsb' 16 8 ++ w.extractLsb' 8 8 = w.extractLsb' 8 16 :=
    BitVec.extractLsb'_append_extractLsb'_eq_extractLsb' rfl
  rw [h]
  exact join 16 8 w

theorem reads_word24 (w : BitVec 24) :
    Reads (Parse.word24 (w.setWidth 8)) [w.extractLsb' 8 8, w.extractLsb' 16 8] w := by
  intro rest
  show Except.ok (w.extractLsb' 16 8 ++ w.extractLsb' 8 8 ++ w.setWidth 8, rest) = _
  rw [join24]

theorem sizeOf_code (z : Size) : sizeOf? z.code = some z := by cases z <;> rfl

theorem reads_size (z : Size) : Reads (Parse.size z.code) [] z := by
  unfold Parse.size; rw [sizeOf_code]; exact reads_pure _

theorem reads_sizeOrRefuse (z : Size) : Reads (Parse.sizeOrRefuse z.code) [] z := by
  unfold Parse.sizeOrRefuse; rw [sizeOf_code]; exact reads_pure _

theorem fsizeOf_code (t : FSize) : fsizeOf t.code = t := by cases t <;> rfl

theorem condOf_code (c : Cond) : condOf c.code = c := by cases c <;> rfl

theorem reads_areg (a : Areg) : Reads (Parse.areg a.code) [] a := by cases a <;> exact reads_pure _

/-! ### Two-byte Basic Instructions -/

theorem reads_twoByte {w : Half} {z : Size} {bs : List Byte} {i : Instr}
   (hz : (w.setWidth 8).setWidth 2 = z.code)
   (h : Reads (if (w.setWidth 8 : Byte).extractLsb' 2 2 = 0b11 then
    if (w.setWidth 8 : Byte).extractLsb' 4 3 = 0b111 then Parse.format3 w z else Parse.format2 w z
  else Parse.format4 w z) bs i) : Reads (Parse.twoByte (w.setWidth 8)) (w.extractLsb' 8 8 :: bs) i := by
  unfold Parse.twoByte
  refine reads_bind (bs := [w.extractLsb' 8 8]) (reads_byte _) ?_
  simp only [join16, hz]
  exact reads_bind (bs := []) (reads_size z) h

theorem instr_twoByte {b : Byte} (h : (b.setWidth 4).toNat ∉ [2, 6, 10, 14]) : Parse.instr b = Parse.twoByte b := by
  unfold Parse.instr
  split <;> simp_all

theorem low_two {b : Byte} {z : Size} (h : b.setWidth 2 = z.code) : (b.setWidth 4).toNat ∉ [2, 6, 10, 14] := by
  have h2 : ∀ b : BitVec 8, b.setWidth 2 ≠ 2 → (b.setWidth 4).toNat ∉ [2, 6, 10, 14] := by decide
  exact h2 b (by rw [h]; cases z <;> decide)

/-- The fields of a Format 4 word. -/
theorem fmt4_fields (a b : BitVec 5) (op : BitVec 4) (i : BitVec 2) :
    (a ++ b ++ op ++ i).extractLsb' 11 5 = a ∧ (a ++ b ++ op ++ i).extractLsb' 6 5 = b ∧
    (a ++ b ++ op ++ i).extractLsb' 2 4 = op ∧ ((a ++ b ++ op ++ i).setWidth 8).setWidth 2 = i ∧
    ((a ++ b ++ op ++ i).setWidth 8).extractLsb' 2 2 = op.setWidth 2 := by
  refine ⟨?_, ?_, ?_, ?_, ?_⟩ <;>
  simp (disch := omega) only [BitVec.setWidth_eq_extractLsb', BitVec.extractLsb'_extractLsb'_of_le,
    BitVec.extractLsb'_append_eq_of_le, BitVec.extractLsb'_append_eq_of_add_le, Nat.reduceSub, BitVec.extractLsb'_eq_self]

/-- A Format 4 word is handed to the reader of its format. -/
theorem reads_fmt4 {a b : Gen} {op : BitVec 4} {z : Size} {bs : List Byte} {i : Instr} (hop : op.setWidth 2 ≠ 0b11)
    (h : Reads (Parse.format4 (a.code ++ b.code ++ op ++ z.code) z) bs i) :
    Reads (Parse.byte >>= Parse.instr) (le16 (a.code ++ b.code ++ op ++ z.code) ++ bs) i := by
  obtain ⟨f1, f2, f3, f4, f5⟩ := fmt4_fields a.code b.code op z.code
  refine decode_reads ?_
  rw [instr_twoByte (low_two f4)]
  refine reads_twoByte f4 ?_
  rw [f5, if_neg hop]
  exact h

/-- The fields of a Format 2 word. -/
theorem fmt2_fields (g : BitVec 5) (q : BitVec 4) (op : BitVec 3) (i : BitVec 2) :
    (g ++ q ++ op ++ (0b11 : BitVec 2) ++ i).extractLsb' 11 5 = g ∧
    (g ++ q ++ op ++ (0b11 : BitVec 2) ++ i).extractLsb' 7 4 = q ∧
    (g ++ q ++ op ++ (0b11 : BitVec 2) ++ i).extractLsb' 4 3 = op ∧
    ((g ++ q ++ op ++ (0b11 : BitVec 2) ++ i).setWidth 8).setWidth 2 = i ∧
    ((g ++ q ++ op ++ (0b11 : BitVec 2) ++ i).setWidth 8).extractLsb' 2 2 = 0b11 ∧
    ((g ++ q ++ op ++ (0b11 : BitVec 2) ++ i).setWidth 8).extractLsb' 4 3 = op := by
  refine ⟨?_, ?_, ?_, ?_, ?_, ?_⟩ <;>
  simp (disch := omega) only [BitVec.setWidth_eq_extractLsb', BitVec.extractLsb'_extractLsb'_of_le,
    BitVec.extractLsb'_append_eq_of_le, BitVec.extractLsb'_append_eq_of_add_le, Nat.reduceSub, BitVec.extractLsb'_eq_self]

/-- A Format 2 word is handed to the reader of its format. -/
theorem reads_fmt2 {g : BitVec 5} {q : BitVec 4} {op : BitVec 3} {z : Size} {bs : List Byte} {i : Instr} (hop : op ≠ 0b111)
    (h : Reads (Parse.format2 (g ++ q ++ op ++ (0b11 : BitVec 2) ++ z.code) z) bs i) :
    Reads (Parse.byte >>= Parse.instr) (le16 (g ++ q ++ op ++ (0b11 : BitVec 2) ++ z.code) ++ bs) i := by
  obtain ⟨f1, f2, f3, f4, f5, f6⟩ := fmt2_fields g q op z.code
  refine decode_reads ?_
  rw [instr_twoByte (low_two f4)]
  refine reads_twoByte f4 ?_
  rw [f5, f6, if_pos rfl, if_neg hop]
  exact h

/-- The fields of a Format 3 word. -/
theorem fmt3_fields (g : BitVec 5) (op : BitVec 4) (i : BitVec 2) :
    (g ++ op ++ (0b11111 : BitVec 5) ++ i).extractLsb' 11 5 = g ∧
    (g ++ op ++ (0b11111 : BitVec 5) ++ i).extractLsb' 7 4 = op ∧
    (g ++ op ++ (0b11111 : BitVec 5) ++ i).extractLsb' 8 3 = op.extractLsb' 1 3 ∧
    ((g ++ op ++ (0b11111 : BitVec 5) ++ i).setWidth 8).setWidth 2 = i ∧
    ((g ++ op ++ (0b11111 : BitVec 5) ++ i).setWidth 8).extractLsb' 2 2 = 0b11 ∧
    ((g ++ op ++ (0b11111 : BitVec 5) ++ i).setWidth 8).extractLsb' 4 3 = 0b111 := by
  refine ⟨?_, ?_, ?_, ?_, ?_, ?_⟩ <;>
  simp (disch := omega) only [BitVec.setWidth_eq_extractLsb', BitVec.extractLsb'_extractLsb'_of_le,
    BitVec.extractLsb'_append_eq_of_le, BitVec.extractLsb'_append_eq_of_add_le, Nat.reduceSub, BitVec.extractLsb'_eq_self] <;> rfl

/-- A Format 3 word is handed to the reader of its format. -/
theorem reads_fmt3 {g : BitVec 5} {op : BitVec 4} {z : Size} {bs : List Byte} {i : Instr}
    (h : Reads (Parse.format3 (g ++ op ++ (0b11111 : BitVec 5) ++ z.code) z) bs i) :
    Reads (Parse.byte >>= Parse.instr) (le16 (g ++ op ++ (0b11111 : BitVec 5) ++ z.code) ++ bs) i := by
  obtain ⟨f1, f2, f3, f4, f5, f6⟩ := fmt3_fields g op z.code
  refine decode_reads ?_
  rw [instr_twoByte (low_two f4)]
  refine reads_twoByte f4 ?_
  rw [f5, f6, if_pos rfl, if_pos rfl]
  exact h

/-! ### Three-byte Basic Instructions -/

theorem le24_cons {w : BitVec 24} {b : Byte} (h : w.setWidth 8 = b) :
    le24 w = b :: [w.extractLsb' 8 8, w.extractLsb' 16 8] := by rw [← h]; rfl

/-- A three-byte Basic Instruction is handed to the reader of its format. -/
theorem reads_threeByte {w : BitVec 24} {b : Byte} {f : BitVec 24 → Parse Instr} {bs : List Byte} {i : Instr} (h : w.setWidth 8 = b)
   (hf : Parse.instr b = (do f (← Parse.word24 b))) (k : Reads (f w) bs i) :
    Reads (Parse.byte >>= Parse.instr) (le24 w ++ bs) i := by
  have e : le24 w ++ bs = b :: ([w.extractLsb' 8 8, w.extractLsb' 16 8] ++ bs) := by rw [le24_cons h]; rfl
  rw [e]
  refine decode_reads ?_
  rw [hf, ← h]
  exact reads_bind (reads_word24 w) k

/-- The fields of a Format 6 or 7 word. -/
theorem fmt67_fields (a b : BitVec 5) (op : BitVec 4) (i : BitVec 2) (last : BitVec 8) :
    (a ++ b ++ op ++ i ++ last).extractLsb' 19 5 = a ∧ (a ++ b ++ op ++ i ++ last).extractLsb' 14 5 = b ∧
    (a ++ b ++ op ++ i ++ last).extractLsb' 10 4 = op ∧ (a ++ b ++ op ++ i ++ last).extractLsb' 8 2 = i ∧
    (a ++ b ++ op ++ i ++ last).setWidth 8 = last := by
  refine ⟨?_, ?_, ?_, ?_, ?_⟩ <;>
  simp (disch := omega) only [BitVec.setWidth_eq_extractLsb', BitVec.extractLsb'_append_eq_of_le,
      BitVec.extractLsb'_append_eq_of_add_le, Nat.reduceSub, BitVec.extractLsb'_eq_self]

/-- The fields of a Format 8 word. -/
theorem fmt8_fields (a b : BitVec 5) (r : BitVec 3) (o2 : BitVec 1) (i : BitVec 2) (op : BitVec 2) :
    (a ++ b ++ r ++ o2 ++ i ++ op ++ (0b101110 : BitVec 6)).extractLsb' 19 5 = a ∧
    (a ++ b ++ r ++ o2 ++ i ++ op ++ (0b101110 : BitVec 6)).extractLsb' 14 5 = b ∧
    (a ++ b ++ r ++ o2 ++ i ++ op ++ (0b101110 : BitVec 6)).extractLsb' 11 3 = r ∧
    (a ++ b ++ r ++ o2 ++ i ++ op ++ (0b101110 : BitVec 6)).extractLsb' 10 1 = o2 ∧
    (a ++ b ++ r ++ o2 ++ i ++ op ++ (0b101110 : BitVec 6)).extractLsb' 8 2 = i ∧
    (a ++ b ++ r ++ o2 ++ i ++ op ++ (0b101110 : BitVec 6)).extractLsb' 6 2 = op := by
  refine ⟨?_, ?_, ?_, ?_, ?_, ?_⟩ <;>
  simp (disch := omega) only [BitVec.extractLsb'_append_eq_of_le,
    BitVec.extractLsb'_append_eq_of_add_le, Nat.reduceSub, BitVec.extractLsb'_eq_self]

/-- The first byte of a Format 8 word. -/
theorem fmt8_first (a b : BitVec 5) (r : BitVec 3) (o2 : BitVec 1) (i : BitVec 2) (op : BitVec 2) :
    (a ++ b ++ r ++ o2 ++ i ++ op ++ (0b101110 : BitVec 6)).setWidth 8 = op ++ (0b101110 : BitVec 6) := by
  rw [BitVec.setWidth_append, dif_neg (by omega)]
  apply BitVec.eq_of_getLsbD_eq
  intro k hk
  have h8 : k < 8 := hk
  simp only [BitVec.getLsbD_cast, BitVec.getLsbD_append, BitVec.getLsbD_setWidth]
  have : k - 6 < 2 := by omega
  split_ifs <;> simp [*]

/-- The fields of a Format 9 word. -/
theorem fmt9_fields (a b : BitVec 5) (op : BitVec 3) (t : BitVec 1) (i : BitVec 2) :
    (a ++ b ++ op ++ t ++ i ++ (0x3E : BitVec 8)).extractLsb' 19 5 = a ∧
    (a ++ b ++ op ++ t ++ i ++ (0x3E : BitVec 8)).extractLsb' 14 5 = b ∧
    (a ++ b ++ op ++ t ++ i ++ (0x3E : BitVec 8)).extractLsb' 11 3 = op ∧
    (a ++ b ++ op ++ t ++ i ++ (0x3E : BitVec 8)).extractLsb' 10 1 = t ∧
    (a ++ b ++ op ++ t ++ i ++ (0x3E : BitVec 8)).extractLsb' 8 2 = i ∧
    (a ++ b ++ op ++ t ++ i ++ (0x3E : BitVec 8)).setWidth 8 = 0x3E := by
  refine ⟨?_, ?_, ?_, ?_, ?_, ?_⟩ <;>
  simp (disch := omega) only [BitVec.setWidth_eq_extractLsb', BitVec.extractLsb'_append_eq_of_le,
      BitVec.extractLsb'_append_eq_of_add_le, Nat.reduceSub, BitVec.extractLsb'_eq_self]

/-- The fields of a Format 11 or 12 word. -/
theorem fmt11_fields (a b : BitVec 5) (op : BitVec 4) (t : BitVec 1) (last : BitVec 8) :
    (a ++ b ++ op ++ (0 : BitVec 1) ++ t ++ last).extractLsb' 19 5 = a ∧
    (a ++ b ++ op ++ (0 : BitVec 1) ++ t ++ last).extractLsb' 14 5 = b ∧
    (a ++ b ++ op ++ (0 : BitVec 1) ++ t ++ last).extractLsb' 10 4 = op ∧
    (a ++ b ++ op ++ (0 : BitVec 1) ++ t ++ last).extractLsb' 8 1 = t ∧
    (a ++ b ++ op ++ (0 : BitVec 1) ++ t ++ last).getLsbD 9 = false ∧
    (a ++ b ++ op ++ (0 : BitVec 1) ++ t ++ last).setWidth 8 = last := by
  refine ⟨?_, ?_, ?_, ?_, by simp only [BitVec.getLsbD_append]; rfl, ?_⟩ <;>
  simp (disch := omega) only [BitVec.setWidth_eq_extractLsb',
    BitVec.extractLsb'_append_eq_of_le, BitVec.extractLsb'_append_eq_of_add_le, Nat.reduceSub, BitVec.extractLsb'_eq_self]

/-- The fields of a Format 5 word. -/
theorem fmt5_fields (q op : BitVec 4) (i : BitVec 2) :
    ((0 : BitVec 5) ++ q ++ (0 : BitVec 1) ++ op ++ i ++ (0x0E : BitVec 8)).extractLsb' 19 5 = 0 ∧
    ((0 : BitVec 5) ++ q ++ (0 : BitVec 1) ++ op ++ i ++ (0x0E : BitVec 8)).extractLsb' 15 4 = q ∧
    ((0 : BitVec 5) ++ q ++ (0 : BitVec 1) ++ op ++ i ++ (0x0E : BitVec 8)).extractLsb' 10 4 = op ∧
    ((0 : BitVec 5) ++ q ++ (0 : BitVec 1) ++ op ++ i ++ (0x0E : BitVec 8)).extractLsb' 8 2 = i ∧
    ((0 : BitVec 5) ++ q ++ (0 : BitVec 1) ++ op ++ i ++ (0x0E : BitVec 8)).getLsbD 14 = false ∧
    ((0 : BitVec 5) ++ q ++ (0 : BitVec 1) ++ op ++ i ++ (0x0E : BitVec 8)).setWidth 8 = 0x0E := by
  refine ⟨?_, ?_, ?_, ?_, by simp only [BitVec.getLsbD_append]; rfl, ?_⟩ <;>
  simp (disch := omega) only [BitVec.setWidth_eq_extractLsb',
    BitVec.extractLsb'_append_eq_of_le, BitVec.extractLsb'_append_eq_of_add_le, Nat.reduceSub, BitVec.extractLsb'_eq_self]

theorem reads_shortField (q : BitVec 3) (l : BitVec 5) : Reads Parse.shortField (shortFieldByte q l) (q, l) := by
  have e1 : (q ++ l).extractLsb' 5 3 = q := BitVec.extractLsb'_append_eq_left
  have e2 : (q ++ l).setWidth 5 = l := BitVec.setWidth_append_eq_right
  have := reads_map (fun b : Byte => (b.extractLsb' 5 3, b.setWidth 5)) (reads_byte (q ++ l))
  rw [e1, e2] at this
  exact this

theorem reads_first {b : Byte} {p : Parse Instr} {bs : List Byte} {i : Instr} (e : Parse.instr b = p) (h : Reads p bs i) :
    Reads (Parse.byte >>= Parse.instr) ([b] ++ bs) i := by
  refine reads_bind (reads_byte b) ?_
  rw [e]; exact h

theorem reads_exactly {c : Bool} (h : c = true) (i : Instr) : Reads (Parse.exactly c i) [] i := by
  rw [h]; exact reads_pure _

end Sys2Proof
end

