-- ==== Sys2Proof/Laws/Families.lean ====
section
/-!
SUPPORT. The operations that the instructions of one family share take unprivileged steps.
-/
namespace Sys2Proof.Machine

/-! ## Integer, shift and bit instructions -/

theorem within_arith {w : Nat} (r : Arith w) : Within (arith r) :=
  within_bind (within_change fun _ => user_putCF _ _ _) fun _ => within_pure _

theorem within_divide {w : Nat} (op : Int → Int → Int) (a b : BitVec w) : Within (divide op a b) :=
  within_ite (within_abort _) (within_ite (within_drawBits _) (within_pure _))

theorem within_extendedDivide {w : Nat} (a : BitVec w) (d : Nat) : Within (extendedDivide a d) :=
  within_ite (within_abort _) (within_ite (within_pure _)
    (within_bind (within_drawBits _) fun _ => within_bind (within_drawBits _) fun _ => within_pure _))

theorem within_packed (n : Nat) (op : Nat → Nat → Nat → Nat × Bool) (a b : BitVec (8 * n)) :
    Within (packed n op a b) := by
  refine within_look_bind fun _ => within_bind within_drawBool fun _ => within_ite ?_ ?_
  · exact within_bind (within_change fun _ => user_putCF _ _ _) fun _ => within_pure _
  · exact within_bind within_drawBool fun _ => within_bind (within_drawBits _) fun _ =>
      within_bind (within_change fun _ => user_putCF _ _ _) fun _ => within_pure _

theorem within_shiftOrDraw {w : Nat} (f : BitVec w → Byte → BitVec w) (c : Byte) (b : BitVec w) :
    Within (shiftOrDraw f c b) := within_ite (within_pure _) (within_drawBits _)

theorem within_bitOp (n : Nat) (a b : Gen) (lk : Bool) (f : Bool → Bool) : Within (bitOp n a b lk f) :=
  within_bind (within_readGen _ _) fun _ => within_bind (within_changeBit _ _ _ _) fun _ =>
    within_change fun _ => user_putFlag _ _ _ (by decide)

/-! ## Blocks and strings -/

theorem within_copyBlock (n k : Nat) (a b : Addr) : Within (copyBlock n k a b) := by
  induction k generalizing a b with
  | zero => exact within_pure _
  | succ k ih =>
    exact within_bind (within_readMem _ _ _ _) fun _ => within_bind (within_writeMem _ _ _ _) fun _ => ih _ _

theorem within_compareBlock (n k : Nat) (a b : Addr) : Within (compareBlock n k a b) := by
  induction k generalizing a b with
  | zero => exact within_pure _
  | succ k ih =>
    exact within_bind (within_readMem _ _ _ _) fun _ => within_bind (within_readMem _ _ _ _) fun _ =>
      within_ite (ih _ _) (within_change fun _ => user_putCompare _ _ _)

theorem user_addReg (s : State) (r : RegNo) (v : DWord) : UserStep s (s.addReg r v) := user_setReg s r _

/-- Two pointers moved. -/
theorem user_addReg2 (s : State) (r q : RegNo) (v w : DWord) : UserStep s ((s.addReg r v).addReg q w) :=
  (user_addReg s r v).trans (user_addReg _ q w)

/-- Two pointers and a count moved. -/
theorem user_addReg3 (s : State) (r q p : RegNo) (u v w : DWord) :
    UserStep s (((s.addReg r u).addReg q v).addReg p w) := (user_addReg2 s r q u v).trans (user_addReg _ p w)

theorem within_strElement (n : Nat) (t : Bool) : Within (strElement n t) :=
  within_look_bind fun _ => within_bind (within_readMem _ _ _ _) fun _ => within_ite
    (within_look_bind fun _ => within_bind (within_readMem _ _ _ _) fun _ => within_pure _) (within_pure _)

theorem within_strPass (n : Nat) (t : Bool) (o : StrOpts) (two : Bool) {body : BitVec (8 * n) → M Bool}
    (h : ∀ v, Within (body v)) : Within (strPass n t o two body) := by
  refine within_bind (within_strElement _ _) fun _ => within_look_bind fun _ => within_ite ?_
    (within_bind (h _) fun _ => within_ite (within_pure _) ?_)
  · exact within_bind (within_change fun _ => user_putFlag _ _ _ (by decide)) fun _ => within_pure _
  · refine within_bind (within_change fun s => ?_) fun _ => within_pure _
    cases two
    · exact user_addReg2 _ _ _ _ _
    · exact user_addReg3 _ _ _ _ _ _ _

theorem within_strRun (i : Instr) (n : Nat) (t : Bool) (o : StrOpts) (two : Bool) {start : State → State}
    {body : BitVec (8 * n) → M Bool} (hs : ∀ s, UserStep s (start s)) (h : ∀ v, Within (body v)) :
    Within (strRun i n t o two start body) :=
  within_bind (within_change hs) fun _ => within_look_bind fun _ =>
    within_interruptible _ _ _ _ (fun s => user_putFlag s .p false (by decide)) (within_strPass _ _ _ _ h) (within_pure _)

theorem within_movsBody (n : Nat) (v : BitVec (8 * n)) : Within (movsBody n v) :=
  within_look_bind fun _ => within_bind (within_writeMem _ _ _ _) fun _ => within_pure _

theorem within_cmpsBody (n : Nat) (v : BitVec (8 * n)) : Within (cmpsBody n v) :=
  within_look_bind fun _ => within_bind (within_readMem _ _ _ _) fun _ => within_ite (within_pure _)
    (within_bind (within_change fun _ => user_putCompare _ _ _) fun _ => within_pure _)

theorem within_skpsBody (n : Nat) (v : BitVec (8 * n)) : Within (skpsBody n v) := within_pure _

/-! ## Registers and linkage -/

theorem within_saveRegs (l : Byte) (ns : List Nat) : Within (saveRegs l ns) := by
  induction ns with
  | nil => exact within_pure _
  | cons n ns ih =>
    exact within_ite (within_look_bind fun _ => within_bind (within_push _ _) fun _ => ih)
      ih

theorem within_restoreRegs (l : Byte) (ns : List Nat) : Within (restoreRegs l ns) := by
  induction ns with
  | nil => exact within_pure _
  | cons n ns ih =>
    exact within_ite (within_bind (within_pop _) fun _ => within_bind (within_change fun _ => .data rfl) fun _ => ih)
      ih

theorem within_branch (d : Disp) : Within (branch d) := within_change fun _ => user_jump _ _

theorem within_discard (d : Disp) : Within (discard d) := within_change fun _ => user_setSp _ _

theorem within_callExternal (desc : DWord) (ra : Addr) : Within (callExternal desc ra) :=
  within_look_bind fun _ => within_bind (within_push _ _) fun _ => within_bind (within_push _ _) fun _ =>
    within_bind (within_change fun _ => .data rfl) fun _ => within_enterModule _

/-! ## Floating point -/

theorem within_slaveCycle (st : BusStatus) (wr : Bool) (m : Seam) (bs : List Byte) : Within (slaveCycle st wr m bs) :=
  within_bind (within_between _) fun _ => within_change fun _ => user_logCycle _ _ _ _ _ _

theorem within_slaveWords (st : BusStatus) (wr : Bool) (m : Seam) (bs : List Byte) : Within (slaveWords st wr m bs) := by
  induction m, bs using slaveWords.induct with
  | case1 => exact within_pure _
  | case2 => exact within_slaveCycle _ _ _ _
  | case3 m x y r ih => exact within_bind (within_slaveCycle _ _ _ _) fun _ => ih

theorem within_slaveSend (st : BusStatus) (wr : Bool) (bs : List Byte) : Within (slaveSend st wr bs) :=
  within_slaveWords _ _ _ _

theorem within_sendHead (i : Instr) : Within (sendHead i) :=
  within_bind (within_slaveSend _ _ _) fun _ => within_slaveSend _ _ _

theorem within_issue {w : Nat} (n : Nat) (v : BitVec w) : Within (issue n v) :=
  within_bind (within_slaveSend _ _ _) fun _ => within_pure _

theorem within_issueFloat (t : FSize) (g : Gen) : Within (issueFloat t g) := by
  unfold issueFloat
  split
  · exact within_look _
  · exact within_bind (within_readGen _ _) fun _ => within_issue _ _

theorem within_issueInt (n : Nat) (g : Gen) : Within (issueInt n g) :=
  within_bind (within_readGen _ _) fun _ => within_issue _ _

theorem within_issuePlace (t : FSize) (p : Place) : Within (issuePlace t p) := by
  unfold issuePlace
  split
  · exact within_look _
  · exact within_bind (within_readPlace _ _ _) fun _ => within_issue _ _

theorem within_fpuReply (q : FpuRequest) : Within (fpuReply q) := by
  refine within_look_bind fun l => ?_
  cases l with
  | nil => exact within_look_bind fun _ => within_bind (within_change fun _ => .data rfl) fun _ => within_pure _
  | cons r rs => exact within_bind (within_change fun _ => .data rfl) fun _ => within_pure _

theorem within_slaveRun (i : Instr) (sent : List Quad) (fixed : State → Fixed) : Within (slaveRun i sent fixed) := by
  intro s
  unfold WithinAt
  by_cases h : s.fpu = .absent
  · have e : slaveRun i sent fixed s = abort (if s.resetIn.isSome then .reset else .fault .stuckOnSlave) s := by
      simp only [slaveRun, bind_apply, look, id, if_pos h]
    rw [e]
    refine ⟨.refl s, fun hr t k => ?_⟩
    rw [hr] at k
    cases k
  · have e : slaveRun i sent fixed s = (do
        let reply ← fpuReply ⟨s.fpu, (slaveHead i).1, (slaveHead i).2, sent, s.fregs, s.fsingles, s.fsr⟩
        change fun s => { s with fsr := reply.fsr }
        let status := (fixed s).status.getD reply.status &&& statusMask i
        slaveSend .slaveStatus false (toBytes 2 status)
        if status.getLsbD 0 then abort (.trap .slave)
        else return (status, (fixed s).result.getD reply.result) : M (Half × Quad)) s := by
      rw [slaveRun, bind_apply]
      simp only [look, id, if_neg h]
    rw [e]
    exact within_bind (within_fpuReply _) (fun _ => within_bind (within_change fun _ => .data rfl) fun _ =>
      within_bind (within_slaveSend _ _ _) fun _ => within_ite (within_abort _) (within_pure _)) s

theorem user_putFreg (s : State) (r : RegNo) (t : FSize) (v : Quad) (qs : Vector Quad 8) (ds : Vector DWord 8) :
    UserStep s (s.putFreg r t v qs ds) := by
  cases t <;> simp only [State.putFreg] <;> split <;> exact .data rfl

theorem within_writeFreg (r : RegNo) (t : FSize) (v : Quad) : Within (writeFreg r t v) :=
  within_change fun s => (user_putFreg s r t v _ _).trans (.data rfl)

theorem within_storeFloat (t : FSize) (p : Place) (v : Quad) : Within (storeFloat t p v) := by
  unfold storeFloat
  split
  · exact within_writeFreg _ _ _
  · exact within_bind (within_slaveSend _ _ _) fun _ => within_writePlace _ _ _

theorem within_storeInt (n : Nat) (p : Place) (v : Quad) : Within (storeInt n p v) :=
  within_bind (within_slaveSend _ _ _) fun _ => within_writePlace _ _ _

theorem within_floatRmw (i : Instr) (t : FSize) (src dst : Gen) (f : Quad → Quad → Option Quad) :
    Within (floatRmw i t src dst f) :=
  within_bind (within_sendHead _) fun _ => within_bind (within_issueFloat _ _) fun _ =>
    within_bind (within_placeRmw _) fun _ => within_bind (within_issuePlace _ _) fun _ =>
      within_bind (within_slaveRun _ _ _) fun _ => within_storeFloat _ _ _

theorem within_floatMove (i : Instr) (t t' : FSize) (src dst : Gen) (f : Quad → Fixed) :
    Within (floatMove i t t' src dst f) :=
  within_bind (within_sendHead _) fun _ => within_bind (within_issueFloat _ _) fun _ =>
    within_bind (within_placeWrite _) fun _ => within_bind (within_slaveRun _ _ _) fun _ => within_storeFloat _ _ _

theorem within_floatToInt (i : Instr) (t : FSize) (n : Nat) (src dst : Gen) (f : Dyadic → Int) :
    Within (floatToInt i t n src dst f) :=
  within_bind (within_sendHead _) fun _ => within_bind (within_issueFloat _ _) fun _ =>
    within_bind (within_placeWrite _) fun _ => within_bind (within_slaveRun _ _ _) fun _ => within_storeInt _ _ _

theorem within_needs381 : Within needs381 := within_look_bind fun _ => within_ite (within_abort _) (within_pure _)

theorem within_floatToF0 (i : Instr) (t : FSize) (g1 g2 : Gen) (f : Quad → Quad → Quad → Option Quad) :
    Within (floatToF0 i t g1 g2 f) :=
  within_bind within_needs381 fun _ => within_bind (within_sendHead _) fun _ =>
    within_bind (within_issueFloat _ _) fun _ => within_bind (within_issueFloat _ _) fun _ =>
      within_bind (within_slaveRun _ _ _) fun _ => within_writeFreg _ _ _

/-! ## Graphics -/

theorem within_bbResult (f : BbFun) (sh d : DWord) (x m : Half) : Within (bbResult f sh d x m) :=
  within_ite (within_pure _) (within_drawBits _)

theorem within_bbWord (f : BbFun) (o : BbOpts) (first last : Bool) : Within (bbWord f o first last) :=
  within_look_bind fun _ => within_bind (within_readMem _ _ _ _) fun _ => within_look_bind fun _ =>
    within_look_bind fun _ => within_bind (within_readMem _ _ _ _) fun _ => within_look_bind fun _ =>
      within_bind (within_bbResult _ _ _ _ _) fun _ => within_bind (within_writeMem _ _ _ _) fun _ =>
        within_change fun _ => user_addReg2 _ _ _ _ _

theorem within_bbLine (f : BbFun) (o : BbOpts) (width k : Nat) : Within (bbLine f o width k) := by
  induction k with
  | zero => exact within_pure _
  | succ k ih => exact within_bind (within_bbWord _ _ _ _) fun _ => ih

theorem within_bbPass (f : BbFun) (o : BbOpts) (width : Nat) : Within (bbPass f o width) :=
  within_bind (within_bbLine _ _ _ _) fun _ =>
    within_bind (within_change fun _ => user_addReg3 _ _ _ _ _ _ _) fun _ => within_pure _

theorem within_bbInRange (width : DWord) : Within (bbInRange width) :=
  within_look_bind fun _ => within_ite (within_refusable _) (within_pure _)

theorem within_bbRun (i : Instr) (f : BbFun) (o : BbOpts) : Within (bbRun i f o) := by
  refine within_look_bind fun _ => within_ite (within_abort _) (within_look_bind fun _ =>
    within_bind (within_readMem _ _ _ _) fun w => within_bind (within_bbInRange _) fun _ => ?_)
  have h : Within (do
      let count ← look fun s => (s.reg 3).toNat
      interruptible i id 1 count (fun s => s.reg 3 == 0) (bbPass f o (bbWidth w))
        (change fun s => (s.putFlag .k false).putFlag .j false)) :=
    within_look_bind fun _ => within_interruptible _ _ _ _ .refl (within_bbPass _ _ _)
      (within_change fun _ => (user_putFlag _ _ _ (by decide)).trans (user_putFlag _ _ _ (by decide)))
  exact within_ite (within_bind (within_change fun _ => .data rfl) fun _ => h) h

theorem within_extRead (a : Addr) : Within (extRead a) :=
  within_bind (within_readMem _ _ _ _) fun _ => within_pure _

theorem within_extWord : Within extWord :=
  within_look_bind fun b => match b with
  | .absent => within_drawBits _
  | .attached => within_look _

theorem within_extWrite (a : Addr) : Within (extWrite a) := within_bind within_extWord fun _ => within_writeMem _ _ _ _

theorem within_extDefined : Within extDefined :=
  within_look_bind fun _ => within_ite
    (within_bind (within_refusable _) fun _ => within_look_bind fun _ => within_ite (within_pure _) (within_refusable _))
    (within_look_bind fun _ => within_ite (within_pure _) (within_refusable _))

theorem within_extLine (k : Nat) : Within (extLine k) := by
  induction k with
  | zero => exact within_pure _
  | succ k ih =>
    exact within_look_bind fun _ => within_bind (within_extRead _) fun _ => within_look_bind fun _ =>
      within_bind (within_extRead _) fun _ => within_look_bind fun _ => within_bind (within_extWrite _) fun _ =>
        within_bind (within_change fun _ => user_addReg3 _ _ _ _ _ _ _) fun _ => ih

theorem within_extPass : Within extPass := by
  have h : Within (do
      extLine (← look extWords)
      change fun s => ((s.addReg 0 (s.reg 6)).addReg 1 (s.reg 7)).addReg 3 (-1)
      return false) :=
    within_look_bind fun _ => within_bind (within_extLine _) fun _ =>
      within_bind (within_change fun _ => user_addReg3 _ _ _ _ _ _ _) fun _ => within_pure _
  exact within_bind (within_change fun _ => user_setReg _ _ _) fun _ => within_look_bind fun _ =>
    within_ite h (within_look_bind fun _ =>
      within_bind (within_extRead _) fun _ =>
        within_bind (within_change fun _ => user_addReg _ _ _) fun _ => h)

theorem within_movmpPass (n : Nat) : Within (movmpPass n) :=
  within_look_bind fun _ => within_look_bind fun _ => within_bind (within_writeMem _ _ _ _) fun _ =>
    within_bind (within_change fun _ => user_addReg2 _ _ _ _ _) fun _ => within_pure _

theorem within_tbitsDefined (first : Bool) : Within (tbitsDefined first) :=
  within_look_bind fun _ => within_ite (within_refusable _) (within_pure _)

theorem within_tbitsPass (o : Bool) : Within (tbitsPass o) :=
  within_look_bind fun _ => within_bind (within_readMem _ _ _ _) fun _ => within_look_bind fun _ =>
    within_bind (within_change fun _ => user_putFlag _ _ _ (by decide)) fun _ => within_ite
      (within_bind (within_change fun _ => user_putFlag _ _ _ (by decide)) fun _ => within_pure _)
      (within_bind (within_change fun _ => user_addReg2 _ _ _ _ _) fun _ => within_pure _)

theorem within_tbitsEnd : Within tbitsEnd :=
  within_look_bind fun _ => within_look_bind fun _ => within_ite
    (within_ite (within_bind within_drawBool fun _ => within_change fun _ => user_putFlag _ _ _ (by decide))
      (within_bind (within_pure _) fun _ => within_change fun _ => user_putFlag _ _ _ (by decide)))
    (within_ite (within_change fun _ => user_putFlag _ _ _ (by decide)) (within_pure _))

theorem within_sbitpsPass : Within sbitpsPass :=
  within_look_bind fun _ => within_bind (within_readMem _ _ _ _) fun _ => within_bind (within_writeMem _ _ _ _) fun _ =>
    within_bind (within_change fun _ => user_addReg2 _ _ _ _ _) fun _ => within_pure _

end Sys2Proof.Machine
end

