-- ==== Sys2Proof/Laws/PerInstr.lean ====
section
/-!
SUPPORT. The family Length: every instruction is encoded in 1 to 25 bytes (30_encoding.md R121). One lemma per
constructor.
-/
namespace Sys2Proof.Laws

theorem disp_length (d : Disp) : 1 ≤ d.encode.length ∧ d.encode.length ≤ 4 := by cases d <;> simp [Disp.encode]

theorem imm_length (v : Imm) : v.encode.length ≤ 8 := by cases v <;> simp [Imm.encode, beDWord, beHalf]

theorem base_length (m : Base) : m.extension.length ≤ 8 := by
  cases m with
  | reg r => simp [Base.extension]
  | regRel r d => have := disp_length d; simp only [Base.extension]; omega
  | memRel a d e =>
    have := disp_length d; have := disp_length e
    simp only [Base.extension, List.length_append]; omega
  | imm v => exact imm_length v
  | abs d => have := disp_length d; simp only [Base.extension]; omega
  | ext d e =>
    have := disp_length d; have := disp_length e
    simp only [Base.extension, List.length_append]; omega
  | tos => simp [Base.extension]
  | mem a d => have := disp_length d; simp only [Base.extension]; omega

/-- The extensions of an operand take at most 9 bytes. -/
theorem gen_length (g : Gen) : g.index.length + g.extension.length ≤ 9 := by
  have h := base_length g.mode
  have : g.index.length ≤ 1 := by cases g <;> simp [Gen.index]
  unfold Gen.extension
  omega

theorem ext2_length (a b : Gen) : (ext2 a b).length ≤ 18 := by
  have := gen_length a; have := gen_length b
  simp only [ext2, List.length_append]; omega

theorem le16_length (w : Half) : (le16 w).length = 2 := rfl

theorem le24_length (w : BitVec 24) : (le24 w).length = 3 := rfl

/-- Bytes that can be an instruction: 1 to 25 of them. -/
def Bounded (l : List Byte) : Prop := 1 ≤ l.length ∧ l.length ≤ 25

theorem bounded_two {g : Gen} (w : Half) : Bounded (le16 w ++ g.index ++ g.extension) := by
  have := gen_length g
  simp only [Bounded, List.length_append, le16_length]; omega

theorem bounded_two_disp {g : Gen} (w : Half) (d : Disp) : Bounded (le16 w ++ g.index ++ g.extension ++ d.encode) := by
  have := gen_length g; have := disp_length d
  simp only [Bounded, List.length_append, le16_length]; omega

theorem bounded_fmt4 {a b : Gen} (w : Half) : Bounded (le16 w ++ ext2 a b) := by
  have := ext2_length a b
  simp only [Bounded, List.length_append, le16_length]; omega

theorem bounded_three {a b : Gen} (w : BitVec 24) : Bounded (le24 w ++ ext2 a b) := by
  have := ext2_length a b
  simp only [Bounded, List.length_append, le24_length]; omega

theorem bounded_three_disp {a b : Gen} (w : BitVec 24) (d : Disp) : Bounded (le24 w ++ ext2 a b ++ d.encode) := by
  have := ext2_length a b; have := disp_length d
  simp only [Bounded, List.length_append, le24_length]; omega

theorem bounded_three_byte {a b : Gen} (w : BitVec 24) (x : Byte) : Bounded (le24 w ++ ext2 a b ++ [x]) := by
  have := ext2_length a b
  simp only [Bounded, List.length_append, le24_length, List.length_singleton]; omega

theorem bounded_fmt9 {g : Gen} (w : BitVec 24) : Bounded (le24 w ++ g.index ++ g.extension) := by
  have := gen_length g
  simp only [Bounded, List.length_append, le24_length]; omega

theorem bounded_disp (x : Byte) (d : Disp) : Bounded ([x] ++ d.encode) := by
  have := disp_length d
  simp only [Bounded, List.length_append, List.length_singleton]; omega

theorem bounded_list_disp (x y : Byte) (d : Disp) : Bounded ([x] ++ [y] ++ d.encode) := by
  have := disp_length d
  simp only [Bounded, List.length_append, List.length_singleton]; omega

theorem bounded_small {l : List Byte} (h : 1 ≤ l.length ∧ l.length ≤ 3) : Bounded l := ⟨h.1, by have := h.2; omega⟩

namespace Length

/-- An instruction takes 1 to 25 bytes. -/
def Statement (i : Instr) : Prop := 1 ≤ i.length ∧ i.length ≤ maxLength

theorem bcond (c : Cond) (d : Disp) : Statement (.bcond c d) := bounded_disp _ _

theorem br (d : Disp) : Statement (.br d) := bounded_disp _ _

theorem bsr (d : Disp) : Statement (.bsr d) := bounded_disp _ _

theorem ret (d : Disp) : Statement (.ret d) := bounded_disp _ _

theorem cxp (d : Disp) : Statement (.cxp d) := bounded_disp _ _

theorem rxp (d : Disp) : Statement (.rxp d) := bounded_disp _ _

theorem rett (d : Disp) : Statement (.rett d) := bounded_disp _ _

theorem reti : Statement (.reti) := bounded_small ⟨Nat.le_add_left _ _, Nat.le_of_ble_eq_true rfl⟩

theorem save (l : Byte) : Statement (.save l) := bounded_small ⟨Nat.le_add_left _ _, Nat.le_of_ble_eq_true rfl⟩

theorem restore (l : Byte) : Statement (.restore l) := bounded_small ⟨Nat.le_add_left _ _, Nat.le_of_ble_eq_true rfl⟩

theorem enter (l : Byte) (d : Disp) : Statement (.enter l d) := bounded_list_disp _ _ _

theorem exit (l : Byte) : Statement (.exit l) := bounded_small ⟨Nat.le_add_left _ _, Nat.le_of_ble_eq_true rfl⟩

theorem nop : Statement (.nop) := bounded_small ⟨Nat.le_add_left _ _, Nat.le_of_ble_eq_true rfl⟩

theorem wait : Statement (.wait) := bounded_small ⟨Nat.le_add_left _ _, Nat.le_of_ble_eq_true rfl⟩

theorem dia : Statement (.dia) := bounded_small ⟨Nat.le_add_left _ _, Nat.le_of_ble_eq_true rfl⟩

theorem flag : Statement (.flag) := bounded_small ⟨Nat.le_add_left _ _, Nat.le_of_ble_eq_true rfl⟩

theorem svc : Statement (.svc) := bounded_small ⟨Nat.le_add_left _ _, Nat.le_of_ble_eq_true rfl⟩

theorem bpt : Statement (.bpt) := bounded_small ⟨Nat.le_add_left _ _, Nat.le_of_ble_eq_true rfl⟩

theorem addqi (i : Size) (q : BitVec 4) (g : Gen) : Statement (.addqi i q g) := bounded_two _

theorem cmpqi (i : Size) (q : BitVec 4) (g : Gen) : Statement (.cmpqi i q g) := bounded_two _

theorem spri (i : Size) (a : Areg) (g : Gen) : Statement (.spri i a g) := bounded_two _

theorem scondi (i : Size) (c : Cond) (g : Gen) : Statement (.scondi i c g) := bounded_two _

theorem acbi (i : Size) (q : BitVec 4) (g : Gen) (d : Disp) : Statement (.acbi i q g d) := bounded_two_disp _ _

theorem movqi (i : Size) (q : BitVec 4) (g : Gen) : Statement (.movqi i q g) := bounded_two _

theorem lpri (i : Size) (a : Areg) (g : Gen) : Statement (.lpri i a g) := bounded_two _

theorem cxpd (g : Gen) : Statement (.cxpd g) := bounded_two _

theorem bicpsri (i : Size) (g : Gen) : Statement (.bicpsri i g) := bounded_two _

theorem jump (g : Gen) : Statement (.jump g) := bounded_two _

theorem bispsri (i : Size) (g : Gen) : Statement (.bispsri i g) := bounded_two _

theorem adjspi (i : Size) (g : Gen) : Statement (.adjspi i g) := bounded_two _

theorem jsr (g : Gen) : Statement (.jsr g) := bounded_two _

theorem casei (i : Size) (g : Gen) : Statement (.casei i g) := bounded_two _

theorem undefFormat3 (g : BitVec 5) (o : BitVec 3) (i : Size) : Statement (.undefFormat3 g o i) := bounded_small ⟨Nat.le_add_left _ _, Nat.le_of_ble_eq_true rfl⟩

theorem undefFormat3Op1000 (g : BitVec 5) (i : Size) : Statement (.undefFormat3Op1000 g i) := bounded_small ⟨Nat.le_add_left _ _, Nat.le_of_ble_eq_true rfl⟩

theorem addi (i : Size) (src dst : Gen) : Statement (.addi i src dst) := bounded_fmt4 _

theorem cmpi (i : Size) (src1 src2 : Gen) : Statement (.cmpi i src1 src2) := bounded_fmt4 _

theorem bici (i : Size) (src dst : Gen) : Statement (.bici i src dst) := bounded_fmt4 _

theorem addci (i : Size) (src dst : Gen) : Statement (.addci i src dst) := bounded_fmt4 _

theorem movi (i : Size) (src dst : Gen) : Statement (.movi i src dst) := bounded_fmt4 _

theorem ori (i : Size) (src dst : Gen) : Statement (.ori i src dst) := bounded_fmt4 _

theorem subi (i : Size) (src dst : Gen) : Statement (.subi i src dst) := bounded_fmt4 _

theorem addr (src dst : Gen) : Statement (.addr src dst) := bounded_fmt4 _

theorem andi (i : Size) (src dst : Gen) : Statement (.andi i src dst) := bounded_fmt4 _

theorem subci (i : Size) (src dst : Gen) : Statement (.subci i src dst) := bounded_fmt4 _

theorem tbiti (i : Size) (off base : Gen) : Statement (.tbiti i off base) := bounded_fmt4 _

theorem xori (i : Size) (src dst : Gen) : Statement (.xori i src dst) := bounded_fmt4 _

theorem movsi (i : Size) (o : StrOpts) : Statement (.movsi i o) := bounded_small ⟨Nat.le_add_left _ _, Nat.le_of_ble_eq_true rfl⟩

theorem movst (o : StrOpts) : Statement (.movst o) := bounded_small ⟨Nat.le_add_left _ _, Nat.le_of_ble_eq_true rfl⟩

theorem cmpsi (i : Size) (o : StrOpts) : Statement (.cmpsi i o) := bounded_small ⟨Nat.le_add_left _ _, Nat.le_of_ble_eq_true rfl⟩

theorem cmpst (o : StrOpts) : Statement (.cmpst o) := bounded_small ⟨Nat.le_add_left _ _, Nat.le_of_ble_eq_true rfl⟩

theorem setcfg (o : BitVec 4) : Statement (.setcfg o) := bounded_small ⟨Nat.le_add_left _ _, Nat.le_of_ble_eq_true rfl⟩

theorem skpsi (i : Size) (o : StrOpts) : Statement (.skpsi i o) := bounded_small ⟨Nat.le_add_left _ _, Nat.le_of_ble_eq_true rfl⟩

theorem skpst (o : StrOpts) : Statement (.skpst o) := bounded_small ⟨Nat.le_add_left _ _, Nat.le_of_ble_eq_true rfl⟩

theorem bbstod (o : BbOpts) : Statement (.bbstod o) := bounded_small ⟨Nat.le_add_left _ _, Nat.le_of_ble_eq_true rfl⟩

theorem extblt : Statement (.extblt) := bounded_small ⟨Nat.le_add_left _ _, Nat.le_of_ble_eq_true rfl⟩

theorem bbor (o : BbOpts) : Statement (.bbor o) := bounded_small ⟨Nat.le_add_left _ _, Nat.le_of_ble_eq_true rfl⟩

theorem movmpi (i : Size) : Statement (.movmpi i) := bounded_small ⟨Nat.le_add_left _ _, Nat.le_of_ble_eq_true rfl⟩

theorem bitwt : Statement (.bitwt) := bounded_small ⟨Nat.le_add_left _ _, Nat.le_of_ble_eq_true rfl⟩

theorem tbits (o : Bool) : Statement (.tbits o) := bounded_small ⟨Nat.le_add_left _ _, Nat.le_of_ble_eq_true rfl⟩

theorem bband (o : BbOpts) : Statement (.bband o) := bounded_small ⟨Nat.le_add_left _ _, Nat.le_of_ble_eq_true rfl⟩

theorem sbitps : Statement (.sbitps) := bounded_small ⟨Nat.le_add_left _ _, Nat.le_of_ble_eq_true rfl⟩

theorem bbfor : Statement (.bbfor) := bounded_small ⟨Nat.le_add_left _ _, Nat.le_of_ble_eq_true rfl⟩

theorem sbits : Statement (.sbits) := bounded_small ⟨Nat.le_add_left _ _, Nat.le_of_ble_eq_true rfl⟩

theorem bbxor (o : BbOpts) : Statement (.bbxor o) := bounded_small ⟨Nat.le_add_left _ _, Nat.le_of_ble_eq_true rfl⟩

theorem roti (i : Size) (count dst : Gen) : Statement (.roti i count dst) := bounded_three _

theorem ashi (i : Size) (count dst : Gen) : Statement (.ashi i count dst) := bounded_three _

theorem cbiti (i : Size) (off base : Gen) : Statement (.cbiti i off base) := bounded_three _

theorem cbitii (i : Size) (off base : Gen) : Statement (.cbitii i off base) := bounded_three _

theorem lshi (i : Size) (count dst : Gen) : Statement (.lshi i count dst) := bounded_three _

theorem sbiti (i : Size) (off base : Gen) : Statement (.sbiti i off base) := bounded_three _

theorem sbitii (i : Size) (off base : Gen) : Statement (.sbitii i off base) := bounded_three _

theorem negi (i : Size) (src dst : Gen) : Statement (.negi i src dst) := bounded_three _

theorem noti (i : Size) (src dst : Gen) : Statement (.noti i src dst) := bounded_three _

theorem subpi (i : Size) (src dst : Gen) : Statement (.subpi i src dst) := bounded_three _

theorem absi (i : Size) (src dst : Gen) : Statement (.absi i src dst) := bounded_three _

theorem comi (i : Size) (src dst : Gen) : Statement (.comi i src dst) := bounded_three _

theorem ibiti (i : Size) (off base : Gen) : Statement (.ibiti i off base) := bounded_three _

theorem addpi (i : Size) (src dst : Gen) : Statement (.addpi i src dst) := bounded_three _

theorem movmi (i : Size) (b1 b2 : Gen) (d : Disp) : Statement (.movmi i b1 b2 d) := bounded_three_disp _ _

theorem cmpmi (i : Size) (b1 b2 : Gen) (d : Disp) : Statement (.cmpmi i b1 b2 d) := bounded_three_disp _ _

theorem movxbw (src dst : Gen) : Statement (.movxbw src dst) := bounded_three _

theorem movzbw (src dst : Gen) : Statement (.movzbw src dst) := bounded_three _

theorem movzid (i : Size) (src dst : Gen) : Statement (.movzid i src dst) := bounded_three _

theorem movxid (i : Size) (src dst : Gen) : Statement (.movxid i src dst) := bounded_three _

theorem muli (i : Size) (src dst : Gen) : Statement (.muli i src dst) := bounded_three _

theorem meii (i : Size) (src dst : Gen) : Statement (.meii i src dst) := bounded_three _

theorem deii (i : Size) (src dst : Gen) : Statement (.deii i src dst) := bounded_three _

theorem quoi (i : Size) (src dst : Gen) : Statement (.quoi i src dst) := bounded_three _

theorem remi (i : Size) (src dst : Gen) : Statement (.remi i src dst) := bounded_three _

theorem modi (i : Size) (src dst : Gen) : Statement (.modi i src dst) := bounded_three _

theorem divi (i : Size) (src dst : Gen) : Statement (.divi i src dst) := bounded_three _

theorem cvtp (r : RegNo) (base dst : Gen) : Statement (.cvtp r base dst) := bounded_three _

theorem checki (i : Size) (r : RegNo) (bounds src : Gen) : Statement (.checki i r bounds src) := bounded_three _

theorem indexi (i : Size) (r : RegNo) (len idx : Gen) : Statement (.indexi i r len idx) := bounded_three _

theorem ffsi (i : Size) (base off : Gen) : Statement (.ffsi i base off) := bounded_three _

theorem movif (i : Size) (t : FSize) (src dst : Gen) : Statement (.movif i t src dst) := bounded_three _

theorem lfsr (src : Gen) : Statement (.lfsr src) := bounded_fmt9 _

theorem movlf (src dst : Gen) : Statement (.movlf src dst) := bounded_three _

theorem movfl (src dst : Gen) : Statement (.movfl src dst) := bounded_three _

theorem roundfi (t : FSize) (i : Size) (src dst : Gen) : Statement (.roundfi t i src dst) := bounded_three _

theorem truncfi (t : FSize) (i : Size) (src dst : Gen) : Statement (.truncfi t i src dst) := bounded_three _

theorem sfsr (dst : Gen) : Statement (.sfsr dst) := bounded_fmt9 _

theorem floorfi (t : FSize) (i : Size) (src dst : Gen) : Statement (.floorfi t i src dst) := bounded_three _

theorem addf (t : FSize) (src dst : Gen) : Statement (.addf t src dst) := bounded_three _

theorem movf (t : FSize) (src dst : Gen) : Statement (.movf t src dst) := bounded_three _

theorem cmpf (t : FSize) (src1 src2 : Gen) : Statement (.cmpf t src1 src2) := bounded_three _

theorem subf (t : FSize) (src dst : Gen) : Statement (.subf t src dst) := bounded_three _

theorem negf (t : FSize) (src dst : Gen) : Statement (.negf t src dst) := bounded_three _

theorem divf (t : FSize) (src dst : Gen) : Statement (.divf t src dst) := bounded_three _

theorem mulf (t : FSize) (src dst : Gen) : Statement (.mulf t src dst) := bounded_three _

theorem absf (t : FSize) (src dst : Gen) : Statement (.absf t src dst) := bounded_three _

theorem polyf (t : FSize) (src1 src2 : Gen) : Statement (.polyf t src1 src2) := bounded_three _

theorem dotf (t : FSize) (src1 src2 : Gen) : Statement (.dotf t src1 src2) := bounded_three _

theorem scalbf (t : FSize) (src dst : Gen) : Statement (.scalbf t src dst) := bounded_three _

theorem logbf (t : FSize) (src dst : Gen) : Statement (.logbf t src dst) := bounded_three _

theorem inssi (i : Size) (src base : Gen) (off : BitVec 3) (len : BitVec 5) : Statement (.inssi i src base off len) :=
  bounded_three_byte _ _

theorem extsi (i : Size) (base dst : Gen) (off : BitVec 3) (len : BitVec 5) : Statement (.extsi i base dst off len) :=
  bounded_three_byte _ _

theorem exti (i : Size) (r : RegNo) (base dst : Gen) (len : Disp) : Statement (.exti i r base dst len) :=
  bounded_three_disp _ _

theorem insi (i : Size) (r : RegNo) (src base : Gen) (len : Disp) : Statement (.insi i r src base len) :=
  bounded_three_disp _ _

end Length

end Sys2Proof.Laws
end

