-- ==== Sys2Proof/Tests/Slice0.lean ====
section
/-!
SUPPORT. Tests: ill-formed terms that WellFormed refuses; one instruction word for every constructor, put together by
hand from the format's fields in 30_encoding.md R150 to R162 (and the spec's own byte examples); single steps with the
results of the spec's examples; and for every statement of Obligations.lean with hypotheses a state and operands that
meet them.
-/
namespace Sys2Proof.Tests

open Sys2Proof Sys2Proof.Machine Sys2Proof.Safety

/-- Register mode. -/
def r (n : Nat) : Gen := .base (.reg (BitVec.ofNat 3 n))

/-- An immediate byte. -/
def b (v : Byte) : Gen := .base (.imm (.b v))

/-- The decoder reads exactly these bytes as this instruction. -/
def reads (bs : List Byte) (i : Instr) : Bool :=
  match decode bs with
  | .ok (j, []) => j = i
  | _ => false

/-! ## WellFormed refuses -/

theorem test_refuses_immediateOperand : (Instr.addqi .b 1 (b 5)).check = some .immediateOperand := by decide
theorem test_refuses_immediateBitBase : (Instr.sbiti .b (r 0) (b 5)).check = some .immediateOperand := by decide
theorem test_refuses_registerOperand : (Instr.jump (r 1)).check = some .registerOperand := by decide
theorem test_refuses_immediateLength : (Instr.addi .w (b 5) (r 1)).check = some .immediateLength := by decide
theorem test_refuses_scaledBase : (Instr.addi .b (.scaled .tos 1 .w) (r 1)).check = some .scaledBase := by decide
theorem test_refuses_conditionOfBr : (Instr.bcond .always (.d1 4)).check = some .conditionOfBr := by decide
theorem test_refuses_size : (Instr.movzid .d (r 0) (r 1)).check = some .size := by decide
theorem test_refuses_registerSize : (Instr.lpri .w .fp (r 1)).check = some .registerSize := by decide
theorem test_refuses_blockLength :
    (Instr.movmi .w (.base .tos) (.base .tos) (.d1 16)).check = some .blockLength := by decide
theorem test_refuses_oddPair : (Instr.meii .d (r 2) (r 1)).check = some .oddPair := by decide
theorem test_refuses_fieldLength : (Instr.exti .d 0 (r 1) (r 2) (.d1 33)).check = some .fieldLength := by decide
theorem test_refuses_fieldEnd : (Instr.extsi .d (r 1) (r 2) 1 31).check = some .fieldEnd := by decide

/-! ## A word for every constructor -/

/-- Format 0. -/
theorem test_decode_format0 :
    ([
      ([0x1A, 0x7C], .bcond .ne (.d1 (-4))),
      ([0xEA, 0xBF, 0x00], .br (.d2 (-256)))] : List (List Byte × Instr)).all (fun x => reads x.1 x.2) = true := by decide

/-- Format 1. -/
theorem test_decode_format1 :
    ([
      ([0x02, 0x81, 0x2C], .bsr (.d2 300)),
      ([0x12, 0x08], .ret (.d1 8)),
      ([0x22, 0x03], .cxp (.d1 3)),
      ([0x32, 0x04], .rxp (.d1 4)),
      ([0x42, 0x00], .rett (.d1 0)),
      ([0x52], .reti),
      ([0x62, 0x07], .save 0x07),
      ([0x72, 0xE0], .restore 0xE0),
      ([0x82, 0xF8, 0x0C], .enter 0xF8 (.d1 12)),
      ([0x92, 0x1F], .exit 0x1F),
      ([0xA2], .nop),
      ([0xB2], .wait),
      ([0xC2], .dia),
      ([0xD2], .flag),
      ([0xE2], .svc),
      ([0xF2], .bpt)] : List (List Byte × Instr)).all (fun x => reads x.1 x.2) = true := by decide

/-- Format 2. -/
theorem test_decode_format2 :
    ([
      ([0x8D, 0x2F], .addqi .w (-1) (r 5)),
      ([0x9F, 0x2B], .cmpqi .d 7 (r 5)),
      ([0xAF, 0x2C], .spri .d .sp (r 5)),
      ([0x3C, 0x2B], .scondi .b .gt (r 5)),
      ([0x4F, 0x2F, 0xC0, 0x00, 0x10, 0x00], .acbi .d (-2) (r 5) (.d4 0x1000)),
      ([0x5F, 0x2C], .movqi .d (-8) (r 5)),
      ([0x6F, 0x2F], .lpri .d .intbase (r 5))] : List (List Byte × Instr)).all (fun x => reads x.1 x.2) = true := by decide

/-- Format 3. -/
theorem test_decode_format3 :
    ([
      ([0x7F, 0x68, 0x04], .cxpd (.base (.regRel 5 (.d1 4)))),
      ([0x7C, 0x29], .bicpsri .b (r 5)),
      ([0x7F, 0x6A, 0x04], .jump (.base (.regRel 5 (.d1 4)))),
      ([0x7D, 0x2B], .bispsri .w (r 5)),
      ([0x7C, 0xA5, 0xF8], .adjspi .b (.base (.imm (.b 0xF8)))),
      ([0x7F, 0x6E, 0x04], .jsr (.base (.regRel 5 (.d1 4)))),
      ([0x7F, 0x2F], .casei .d (r 5)),
      ([0xFD, 0x29], .undefFormat3 5 1 .w),
      ([0x7F, 0x2C], .undefFormat3Op1000 5 .d)] : List (List Byte × Instr)).all (fun x => reads x.1 x.2) = true := by decide

/-- Format 4. -/
theorem test_decode_format4 :
    ([
      ([0x81, 0x28], .addi .w (r 5) (r 2)),
      ([0x85, 0x28], .cmpi .w (r 5) (r 2)),
      ([0x89, 0x28], .bici .w (r 5) (r 2)),
      ([0x91, 0x28], .addci .w (r 5) (r 2)),
      ([0x95, 0x28], .movi .w (r 5) (r 2)),
      ([0x99, 0x28], .ori .w (r 5) (r 2)),
      ([0xA1, 0x28], .subi .w (r 5) (r 2)),
      ([0xA9, 0x28], .andi .w (r 5) (r 2)),
      ([0xB1, 0x28], .subci .w (r 5) (r 2)),
      ([0xB5, 0x28], .tbiti .w (r 5) (r 2)),
      ([0xB9, 0x28], .xori .w (r 5) (r 2)),
      ([0xA7, 0x68, 0x04], .addr (.base (.regRel 5 (.d1 4))) (r 2))] : List (List Byte × Instr)).all (fun x => reads x.1 x.2) = true := by decide

/-- Format 5. -/
theorem test_decode_format5 :
    ([
      ([0x0E, 0x03, 0x07], .movsi .d ⟨true, .until⟩),
      ([0x0E, 0x80, 0x01], .movst ⟨true, .none⟩),
      ([0x0E, 0x05, 0x02], .cmpsi .w ⟨false, .while⟩),
      ([0x0E, 0x84, 0x00], .cmpst ⟨false, .none⟩),
      ([0x0E, 0x0B, 0x02], .setcfg 0b0100),
      ([0x0E, 0x0C, 0x06], .skpsi .b ⟨false, .until⟩),
      ([0x0E, 0x8C, 0x02], .skpst ⟨false, .while⟩),
      ([0x0E, 0x91, 0x02], .bbstod ⟨true, true⟩),
      ([0x0E, 0x17, 0x00], .extblt),
      ([0x0E, 0x99, 0x00], .bbor ⟨false, true⟩),
      ([0x0E, 0x1D, 0x00], .movmpi .w),
      ([0x0E, 0x21, 0x00], .bitwt),
      ([0x0E, 0xA7, 0x00], .tbits true),
      ([0x0E, 0x2B, 0x03], .bband ⟨true, false⟩),
      ([0x0E, 0x2F, 0x00], .sbitps),
      ([0x0E, 0x31, 0x00], .bbfor),
      ([0x0E, 0x37, 0x00], .sbits),
      ([0x0E, 0xB9, 0x02], .bbxor ⟨true, true⟩)] : List (List Byte × Instr)).all (fun x => reads x.1 x.2) = true := by decide

/-- Format 6. -/
theorem test_decode_format6 :
    ([
      ([0x4E, 0x81, 0x28], .roti .w (r 5) (r 2)),
      ([0x4E, 0x85, 0x28], .ashi .w (r 5) (r 2)),
      ([0x4E, 0x89, 0x28], .cbiti .w (r 5) (r 2)),
      ([0x4E, 0x8D, 0x28], .cbitii .w (r 5) (r 2)),
      ([0x4E, 0x95, 0x28], .lshi .w (r 5) (r 2)),
      ([0x4E, 0x99, 0x28], .sbiti .w (r 5) (r 2)),
      ([0x4E, 0x9D, 0x28], .sbitii .w (r 5) (r 2)),
      ([0x4E, 0xA1, 0x28], .negi .w (r 5) (r 2)),
      ([0x4E, 0xA5, 0x28], .noti .w (r 5) (r 2)),
      ([0x4E, 0xAD, 0x28], .subpi .w (r 5) (r 2)),
      ([0x4E, 0xB1, 0x28], .absi .w (r 5) (r 2)),
      ([0x4E, 0xB5, 0x28], .comi .w (r 5) (r 2)),
      ([0x4E, 0xB9, 0x28], .ibiti .w (r 5) (r 2)),
      ([0x4E, 0xBD, 0x28], .addpi .w (r 5) (r 2))] : List (List Byte × Instr)).all (fun x => reads x.1 x.2) = true := by decide

/-- Format 7. -/
theorem test_decode_format7 :
    ([
      ([0xCE, 0x01, 0x6E, 0x04, 0x78, 0x06], .movmi .w (.base (.regRel 5 (.d1 4))) (.base (.mem .fp (.d1 (-8)))) (.d1 6)),
      ([0xCE, 0x04, 0x6E, 0x04, 0x78, 0x03], .cmpmi .b (.base (.regRel 5 (.d1 4))) (.base (.mem .fp (.d1 (-8)))) (.d1 3)),
      ([0xCE, 0x89, 0x28, 0x67], .inssi .w (r 5) (r 2) 3 7),
      ([0xCE, 0x8F, 0x28, 0xAA], .extsi .d (r 5) (r 2) 5 10),
      ([0xCE, 0x90, 0x28], .movxbw (r 5) (r 2)),
      ([0xCE, 0x94, 0x28], .movzbw (r 5) (r 2)),
      ([0xCE, 0x99, 0x28], .movzid .w (r 5) (r 2)),
      ([0xCE, 0x9C, 0x28], .movxid .b (r 5) (r 2)),
      ([0xCE, 0xA1, 0x28], .muli .w (r 5) (r 2)),
      ([0xCE, 0xA5, 0x28], .meii .w (r 5) (r 2)),
      ([0xCE, 0xAD, 0x28], .deii .w (r 5) (r 2)),
      ([0xCE, 0xB1, 0x28], .quoi .w (r 5) (r 2)),
      ([0xCE, 0xB5, 0x28], .remi .w (r 5) (r 2)),
      ([0xCE, 0xB9, 0x28], .modi .w (r 5) (r 2)),
      ([0xCE, 0xBD, 0x28], .divi .w (r 5) (r 2))] : List (List Byte × Instr)).all (fun x => reads x.1 x.2) = true := by decide

/-- Format 8. -/
theorem test_decode_format8 :
    ([
      ([0x2E, 0xB1, 0x28, 0x09], .exti .w 6 (r 5) (r 2) (.d1 9)),
      ([0x6E, 0xB3, 0x68, 0x04], .cvtp 6 (.base (.regRel 5 (.d1 4))) (r 2)),
      ([0xAE, 0xB1, 0x28, 0x09], .insi .w 6 (r 5) (r 2) (.d1 9)),
      ([0xEE, 0xB1, 0x68, 0x04], .checki .w 6 (.base (.regRel 5 (.d1 4))) (r 2)),
      ([0x2E, 0xB5, 0x28], .indexi .w 6 (r 5) (r 2)),
      ([0x6E, 0x85, 0x28], .ffsi .w (r 5) (r 2))] : List (List Byte × Instr)).all (fun x => reads x.1 x.2) = true := by decide

/-- Format 9. -/
theorem test_decode_format9 :
    ([
      ([0x3E, 0x81, 0x28], .movif .w .l (r 5) (r 2)),
      ([0x3E, 0x0F, 0x28], .lfsr (r 5)),
      ([0x3E, 0x96, 0x28], .movlf (r 5) (r 2)),
      ([0x3E, 0x9B, 0x28], .movfl (r 5) (r 2)),
      ([0x3E, 0xA4, 0x28], .roundfi .f .b (r 5) (r 2)),
      ([0x3E, 0xAB, 0x28], .truncfi .l .d (r 5) (r 2)),
      ([0x3E, 0xB7, 0x00], .sfsr (r 2)),
      ([0x3E, 0xBD, 0x28], .floorfi .f .w (r 5) (r 2))] : List (List Byte × Instr)).all (fun x => reads x.1 x.2) = true := by decide

/-- Format 11. -/
theorem test_decode_format11 :
    ([
      ([0xBE, 0x80, 0x28], .addf .l (r 5) (r 2)),
      ([0xBE, 0x85, 0x28], .movf .f (r 5) (r 2)),
      ([0xBE, 0x88, 0x28], .cmpf .l (r 5) (r 2)),
      ([0xBE, 0x90, 0x28], .subf .l (r 5) (r 2)),
      ([0xBE, 0x95, 0x28], .negf .f (r 5) (r 2)),
      ([0xBE, 0xA0, 0x28], .divf .l (r 5) (r 2)),
      ([0xBE, 0xB0, 0x28], .mulf .l (r 5) (r 2)),
      ([0xBE, 0xB5, 0x28], .absf .f (r 5) (r 2))] : List (List Byte × Instr)).all (fun x => reads x.1 x.2) = true := by decide

/-- Format 12. -/
theorem test_decode_format12 :
    ([
      ([0xFE, 0x88, 0x28], .polyf .l (r 5) (r 2)),
      ([0xFE, 0x8D, 0x28], .dotf .f (r 5) (r 2)),
      ([0xFE, 0x90, 0x28], .scalbf .l (r 5) (r 2)),
      ([0xFE, 0x95, 0x28], .logbf .f (r 5) (r 2))] : List (List Byte × Instr)).all (fun x => reads x.1 x.2) = true := by decide

/-- Every addressing mode (R130 to R140), as the source of MOVD to R2: W = gen1, 00010, 0101, 11. -/
theorem test_decode_modes :
    ([([0x97, 0x68, 0x04], .base (.regRel 5 (.d1 4))),
      ([0x97, 0x80, 0x7F, 0x81, 0x00], .base (.memRel .fp (.d1 (-1)) (.d2 256))),
      ([0x97, 0x88, 0x00, 0x04], .base (.memRel .sp (.d1 0) (.d1 4))),
      ([0x97, 0x90, 0x08, 0x40], .base (.memRel .sb (.d1 8) (.d1 (-64)))),
      ([0x97, 0xA0, 0x12, 0x34, 0x56, 0x78], .base (.imm (.d 0x12345678))),
      ([0x97, 0xA8, 0xC0, 0x01, 0x23, 0x45], .base (.abs (.d4 0x12345))),
      ([0x97, 0xB0, 0x03, 0x04], .base (.ext (.d1 3) (.d1 4))),
      ([0x97, 0xB8], .base .tos),
      ([0x97, 0xC0, 0x78], .base (.mem .fp (.d1 (-8)))),
      ([0x97, 0xC8, 0x04], .base (.mem .sp (.d1 4))),
      ([0x97, 0xD0, 0x04], .base (.mem .sb (.d1 4))),
      ([0x97, 0xD8, 0x0A], .base (.mem .pc (.d1 10))),
      ([0x97, 0xE8, 0x5E, 0x04], .scaled (.regRel 3 (.d1 4)) 6 .w),
      ([0x97, 0xF8, 0x25], .scaled (.reg 4) 5 .q)] : List (List Byte × Gen)).all
      (fun x => reads x.1 (.movi .d x.2 (r 2))) = true := by decide

/-- The reserved gen code 10011 (R141), in a gen field and in an Index Byte, and an unassigned Format 4 neighbour. -/
theorem test_decode_reserved :
    reads [0x97, 0x98] (.movi .d (r 3) (r 2)) = false ∧
    (decode [0x97, 0x98, 0, 0, 0]).toOption = none ∧ (decode [0x97, 0xE8, 0x9E, 0x04, 0]).toOption = none ∧
    (decode [0x4E, 0x10, 0x00, 0, 0]).toOption = none ∧ (decode [0x7E, 0, 0, 0, 0]).toOption = none := by decide

/-! ## Single steps -/

/-- A small machine in RAM: R0 to R7, both stacks, a module table entry at 20, its descriptor at 40, INTBASE 0. -/
def m : State :=
  { State.reset with
    regs := #v[0xFFFFFFFF, 1, 0x80, 0x1000, 0x20, 0x2000, 6, 7], pc := 0x100, sp0 := 0x8000, sp1 := 0x9000, fp := 0x7000,
    modReg := 0x20, icuReplies := [0x7F, 0x10],
    mem := [(0x1000, 0x81), (0x1001, 0x02), (0x1002, 0x03), (0x2000, 0x81), (0x2001, 0x09)] }

theorem ram_m : Ram m := ⟨rfl, rfl, rfl⟩

theorem answers_m : Answers m := answers_of_ram ram_m

/-- Run an instruction and look at the result. -/
def after {α : Type} (i : Instr) (s : State) (f : State → α) : Option α :=
  match exec i s with
  | .next t => some (f t)
  | _ => none

/-- R221: FFFFFFFF + 1 is 0 with a carry and no overflow. -/
theorem test_addd : after (.addi .d (r 0) (r 1)) m (fun t => (t.reg 1, t.flag .c, t.flag .f)) = some (0, true, false) := by
  decide

/-- R225: SUBD $1,R0 with R0 = 0 gives FFFFFFFF, C = 1, F = 0. -/
theorem test_subd : after (.subi .d (.base (.imm (.d 1))) (r 0)) (m.setReg 0 0)
    (fun t => (t.reg 0, t.flag .c, t.flag .f)) = some (0xFFFFFFFF, true, false) := by decide

/-- R233: MEID R2,R0 with FFFFFFFF in both gives 00000001 and FFFFFFFE. -/
theorem test_meid : after (.meii .d (r 2) (r 0)) (m.setReg 2 0xFFFFFFFF) (fun t => (t.reg 0, t.reg 1))
    = some (1, 0xFFFFFFFE) := by decide

/-- R230, R231, R232, R235: -7 by 2. -/
theorem test_divisions :
    [Instr.quoi .d (r 1) (r 0), .remi .d (r 1) (r 0), .divi .d (r 1) (r 0), .modi .d (r 1) (r 0)].map
      (fun i => after i ((m.setReg 0 (-7)).setReg 1 2) (fun t => (t.reg 0).toInt))
    = [some (-3), some (-1), some (-4), some 1] := by decide

/-- R236: 19 + 28 is 47 in decimal. -/
theorem test_addpb : after (.addpi .b (r 0) (r 1)) ((m.setReg 0 0x19).setReg 1 0x28)
    (fun t => t.reg 1) = some 0x47 := by decide

/-- R202: MOVQD -1,R0 sign-extends the constant; R21: MOVB leaves the high part. -/
theorem test_moves :
    (after (.movqi .d (-1) (r 1)) m (fun t => t.reg 1) = some 0xFFFFFFFF) ∧
    (after (.movi .b (r 1) (r 0)) m (fun t => t.reg 0) = some 0xFFFFFF01) := by decide

/-- R251: CMPB compares the second operand with the first: 80 with 01 is lower signed, higher unsigned. -/
theorem test_cmpb : after (.cmpi .b (r 1) (r 2)) m (fun t => (t.flag .z, t.flag .n, t.flag .l))
    = some (false, true, false) := by decide

/-- R265: ROTB $1,R0 turns 81 into 03. -/
theorem test_rotb : after (.roti .b (b 1) (r 1)) (m.setReg 1 0x81) (fun t => t.reg 1) = some 0x03 := by decide

/-- R289: FFSB of 28 finds bit 3. -/
theorem test_ffsb : after (.ffsi .b (r 0) (r 1)) ((m.setReg 0 0x28).setReg 1 0) (fun t => (t.reg 1, t.flag .f))
    = some (3, false) := by decide

/-- R296: INDEXD R1,$903,R0. -/
theorem test_indexd : after (.indexi .d 1 (.base (.imm (.d 903))) (r 0)) ((m.setReg 1 3).setReg 0 10)
    (fun t => t.reg 1) = some 2722 := by decide

/-- R311: MOVSB of two elements. -/
theorem test_movsb : after (.movsi .b ⟨false, .none⟩)
    (((m.setReg 0 2).setReg 1 0x1001).setReg 2 0x3000)
    (fun t => (t.byteAt 0x3000, t.byteAt 0x3001, t.reg 0, t.reg 1, t.reg 2)) = some (2, 3, 0, 0x1003, 0x3002) := by decide

/-- R336: ACBD -1 counts R1 from 1 to 0 and does not branch; R334: JUMP discards the queue. -/
theorem test_acbd : after (.acbi .d (-1) (r 1) (.d1 (-6))) m (fun t => (t.reg 1, t.pc)) = some (0, 0x103) := by decide

/-- R371: SAVE [R1,R2] stores R1 above R2. -/
theorem test_save : after (.save 0b00000110) m (fun t => (t.sp0, t.peek32 0x7FFC, t.peek32 0x7FF8))
    = some (0x7FF8, 1, 0x80) := by decide

/-- R372, R378: LPRW MOD and SETCFG [F,I]. -/
theorem test_registers :
    (after (.lpri .w .modReg (r 3)) m (fun t => t.modReg) = some 0x1000) ∧
    (after (.setcfg 0b0011) m (fun t => t.cfg) = some 3) := by decide

/-- R513, R520: SVC pushes PSR, MOD and its own address. -/
theorem test_svc : after .svc m (fun t => (t.sp0, t.peek32 0x7FF8, t.peek16 0x7FFC, t.peek16 0x7FFE))
    = some (0x7FF8, 0x100, 0x20, 0) := by decide

/-- R373: in User Mode SPRD INTBASE takes Trap(ILL), which stores nothing in R1. -/
theorem test_ill : after (.spri .d .intbase (r 1)) { m with psr := 0x0100 } (fun t => (t.reg 1, t.psr, t.sp0))
    = some (1, 0, 0x7FF8) := by decide

/-- R512: SVC fetches at the handler, here an odd address, after seven data cycles, and before three more push MOD and the
return address. -/
theorem test_service_fetch :
    after .svc { m with mem := [(0x8, 0x01), (0x9, 0x30), (0x3001, 0xA2)] }
      (fun t => (t.pc, t.queue, t.fetchPc, t.bus.length, (t.bus.drop 8).head?)) =
    some (0x3001, [0xA2], 0x3002, 12, some (.cycle ⟨.fetchBreak, false, 0x3001, 1, 0xA2, false, false, false⟩)) := by
  decide

/-- R521: a step fetches at PC and runs what it finds. -/
theorem test_step : (match step (m.withFetchWord 16 0x0057) with
    | .next t => (t.reg 1, t.pc)
    | _ => (0, 0)) = (0xFFFFFFFF, 0x102) := by decide

/-- R94, R95, R45: after a break MOVD R0,R1 is fetched by one Non-Sequential Even Word, then PFS is pulsed. -/
theorem test_fetch : (match step (m.withFetchWord 16 0x0057) with
    | .next t => t.bus
    | _ => []) = [.cycle ⟨.fetchBreak, false, 0x100, 2, 0x0057, false, false, false⟩, .pfs] := by decide

/-- R95, R94: from an odd address an Odd Byte with status 1001, then an Even Word with status 1000. -/
theorem test_fetch_odd : (match step ({ m with pc := 0x101 }.withFetchWord 16 0x0057) with
    | .next t => (t.bus.take 2, t.queue, t.fetchPc)
    | _ => ([], [], 0)) = ([.cycle ⟨.fetchBreak, false, 0x101, 1, 0x57, false, false, false⟩,
      .cycle ⟨.fetch, false, 0x102, 2, 0, false, false, false⟩], [0], 0x104) := by decide

/-- R97: another master's store falls between the two cycles of a word at an odd address. -/
theorem test_gap : after (.movi .w (.base (.abs (.d2 0x1001))) (r 1))
    { m with gaps := [[], [.store (0x1001, 0xBB), .store (0x1002, 0xAA)]] } (fun t => t.reg 1) = some 0xAA02 := by decide

/-- R97, R94: a store between a prefetch and the operand cycle after it, which reads the stored byte. -/
theorem test_turns : after (.movi .b (.base (.abs (.d2 0x1000))) (r 1))
    { m with gaps := [[.fetch, .store (0x1000, 0x55)]] } (fun t => (t.reg 1, t.queue.length)) = some (0x55, 2) := by decide

/-- R281, R288, D46: a register offset of 32, and a field that passes bit 31, are refused or run, as operandPolicy says. -/
theorem test_outside :
    let refuses (i : Instr) : Bool := match exec i m with
      | .refused e => e = .outsideField
      | _ => false
    refuses (.tbiti .b (b 32) (r 1)) = true ∧ refuses (.exti .d 7 (.base .tos) (r 1) (.d1 32)) = true ∧
    after (.tbiti .b (b 32) (r 1)) { m with operandPolicy := .free } (fun t => t.reg 1) = some 1 := by
  decide

/-- R317, R446, R460, R480: an interrupt with time for no pass suspends MOVSB before its first element, BBOR and MOVMPB
after their first line and store; with one line or store left they complete. -/
theorem test_suspension_points :
    let s : State := { (((m.setReg 0 2).setReg 2 2).setReg 3 2) with suspend := some 0, mem := [(0x8000, 1)] }
    after (.movsi .b ⟨false, .none⟩) s (fun t => (t.pc, t.reg 0)) = some (0x100, 2) ∧
    after (.bbor ⟨false, false⟩) s (fun t => (t.pc, t.reg 3)) = some (0x100, 1) ∧
    after (.bbor ⟨false, false⟩) (s.setReg 3 1) (fun t => (t.pc, t.reg 3)) = some (0x103, 0) ∧
    after (.movmpi .b) s (fun t => (t.pc, t.reg 2)) = some (0x100, 1) ∧
    after (.movmpi .b) (s.setReg 2 1) (fun t => (t.pc, t.reg 2)) = some (0x103, 0) := by decide

/-- R465: with time for one more bit a TBITS that goes on is suspended again between two bits, and ends where
the first bit meets the limit of R3. -/
theorem test_tbits_suspended :
    let s : State := { ((((m.setReg 0 0x4000).setReg 1 0).setReg 2 3).setReg 3 5).setReg 4 8 with
      suspend := some 0, heldTbits := [⟨0x100, 0, 3⟩] }
    after (.tbits false) s (fun t => (t.pc, t.reg 1, t.reg 2)) = some (0x100, 1, 4) ∧
    after (.tbits false) (s.setReg 3 4) (fun t => (t.pc, t.reg 1, t.flag .l)) = some (0x103, 1, true) := by decide

/-- D17, D18, D20: a shift of 16, an EXTBLT without a BPU, and a first TBITS with R2 = 3 are refused, each by its name; a
TBITS that an interrupt suspended with R2 = 3 goes on, and its mark is gone. -/
theorem test_refused_operands :
    let refuses (i : Instr) (s : State) (e : Refusal) : Bool := match exec i s with
      | .refused x => x = e
      | _ => false
    let s := ((m.setReg 1 8).setReg 2 3).setReg 4 9
    refuses .bitwt (m.setReg 2 16) .bbRange = true ∧ refuses .extblt m .bpuAbsent = true ∧
    refuses .extblt { m with bpu := .attached } .extbltStep = true ∧ refuses (.tbits true) s .tbitsEntry = true ∧
    after (.tbits false) ({ s with heldTbits := [⟨0x100, 8, 3⟩] }.setReg 0 0x1000) (fun t => (t.reg 1, t.reg 2, t.heldTbits)) =
      some (9, 4, []) := by
  decide

/-- R98: it does not fall between the read and the write of SBITIB, but of SBITB. -/
theorem test_interlocked :
    let s : State := { m with gaps := [[], [.store (0x1000, 0x7F)]] }
    (after (.sbitii .b (b 1) (.base (.regRel 3 (.d1 0)))) s (fun t => (t.byteAt 0x1000, t.gaps.length)) = some (0x83, 1)) ∧
    (after (.sbiti .b (b 1) (.base (.regRel 3 (.d1 0)))) s (fun t => (t.byteAt 0x1000, t.gaps.length)) = some (0x83, 0)) := by
  decide

/-- R45, R98: ILO is active on the read of an offset operand in memory, and on the read and the write of the byte. -/
theorem test_interlocked_pin :
    let locks (t : State) : List Bool := t.bus.filterMap fun
      | .cycle e => some e.interlocked
      | .pfs => none
    after (.sbitii .b (.base (.abs (.d2 0x1000))) (.base (.regRel 3 (.d1 0)))) m locks = some [true, true, true] ∧
    after (.sbiti .b (.base (.abs (.d2 0x1000))) (.base (.regRel 3 (.d1 0)))) m locks = some [false, false, false] := by
  decide

/-- R91, R601: a read of a device address gives the device's answer. -/
theorem test_device : after (.movi .b (.base (.abs (.d1 0x10))) (r 1))
    { m with memMap := [⟨0x10, 4, .device⟩], deviceReplies := [0x5A] } (fun t => (t.reg 1, t.deviceReplies.length))
    = some (0x5A, 0) := by decide

/-- R571: RSTI after the first of the two write cycles of MOVD R6,0(R3), whose bytes are in the queue, leaves the first
word stored and PC 0. -/
theorem test_reset_inside : (match step { m.setReg 6 0x11112222 with
      coherent := false, queue := [0xD7, 0x32, 0x00], inputs := [{ idleInput with resetAfter := some 1 }] } with
    | .next t => (t.peek32 0x1000, t.pc, t.bus.length)
    | _ => (0, 0, 0)) = (0x00032222, 0, 2) := by decide

/-! ## Witnesses: the hypotheses of the statements can be met -/

/-- The instruction answers a next state. -/
def completes (i : Instr) (s : State) : Bool :=
  match exec i s with
  | .next _ => true
  | _ => false

theorem next_of_completes {i : Instr} {s : State} (h : completes i s = true) : ∃ t, exec i s = .next t := by
  unfold completes at h
  split at h
  · exact ⟨_, by assumption⟩
  · cases h

/-- The step answers a next state. -/
def steps (s : State) : Bool :=
  match step s with
  | .next _ => true
  | _ => false

theorem steps_of {s : State} (h : steps s = true) : ∃ t, step s = .next t := by
  unfold steps at h
  split at h
  · exact ⟨_, by assumption⟩
  · cases h

theorem witness_AddSubtract : Answers m ∧ (Instr.addi .w (r 0) (r 1)).WF ∧ (Instr.addci .w (r 0) (r 1)).WF ∧
    (Instr.subi .w (r 0) (r 1)).WF ∧ (Instr.subci .w (r 0) (r 1)).WF ∧ (Instr.addqi .d (-8) (r 1)).WF :=
  ⟨answers_m, by decide⟩

theorem witness_MultiplyLogical : Answers m ∧ (Instr.muli .w (r 0) (r 1)).WF ∧ (Instr.andi .w (r 0) (r 1)).WF ∧
    (Instr.ori .w (r 0) (r 1)).WF ∧ (Instr.bici .w (r 0) (r 1)).WF ∧ (Instr.xori .w (r 0) (r 1)).WF :=
  ⟨answers_m, by decide⟩

/-- A divisor of 1, and the case MIN by -1 with the free result. -/
theorem witness_Divide : Answers m ∧ m.begin.operand (r 1) 4 ≠ 0 ∧ (Instr.quoi .d (r 1) (r 0)).WF ∧
    (Instr.remi .d (r 1) (r 0)).WF ∧ (Instr.divi .d (r 1) (r 0)).WF ∧ (Instr.modi .d (r 1) (r 0)).WF ∧
    (m.begin.operand (b 0xFF) 1).toInt = -1 ∧ m.begin.at (.reg 2) 1 = BitVec.intMin 8 :=
  ⟨answers_m, by decide⟩

theorem witness_DivideByZero : Ram m ∧ Memory.wf m.mem = true ∧ m.begin.operand (b 0) 1 = 0 ∧
    (Instr.quoi .b (b 0) (r 0)).WF ∧ (Instr.remi .b (b 0) (r 0)).WF ∧ (Instr.divi .b (b 0) (r 0)).WF ∧
    (Instr.modi .b (b 0) (r 0)).WF ∧ (Instr.deii .b (b 0) (r 0)).WF := ⟨ram_m, by decide⟩

theorem witness_NegateComplement : Answers m ∧ (Instr.negi .w (r 0) (r 1)).WF ∧ (Instr.absi .w (r 0) (r 1)).WF ∧
    (Instr.comi .w (r 0) (r 1)).WF ∧ (Instr.noti .w (r 0) (r 1)).WF := ⟨answers_m, by decide⟩

/-- A register pair and a pair in memory. -/
theorem witness_MultiplyExtended : Answers m ∧ (Instr.meii .d (r 1) (r 6)).WF ∧
    (Instr.meii .d (r 1) (.base (.regRel 3 (.d1 0)))).WF := ⟨answers_m, by decide⟩

theorem witness_DivideExtended : Answers m ∧ (Instr.deii .d (r 1) (r 6)).WF ∧
    (Instr.deii .d (r 1) (.base (.regRel 3 (.d1 0)))).WF ∧ m.begin.operand (r 1) 4 ≠ 0 := ⟨answers_m, by decide⟩

theorem witness_Packed : Answers m ∧ (Instr.addpi .b (b 0x99) (r 1)).WF ∧ (Instr.subpi .b (b 0x99) (r 1)).WF ∧
    decimalValue (m.begin.operand (b 0x99) 1).toNat 2 = some 99 ∧ decimalValue (m.begin.at (.reg 1) 1).toNat 2 = some 1 :=
  ⟨answers_m, by decide⟩

theorem witness_Move : Answers m ∧ (Instr.movi .w (r 0) (r 1)).WF ∧ (Instr.movzbw (r 0) (r 1)).WF ∧
    (Instr.movzid .w (r 0) (r 1)).WF ∧ (Instr.movxbw (r 0) (r 1)).WF ∧ (Instr.movxid .b (r 0) (r 1)).WF :=
  ⟨answers_m, by decide⟩

theorem witness_QuickConditionAddress : Answers m ∧ (Instr.movqi .w (-8) (.base .tos)).WF ∧
    (Instr.scondi .b .hs (r 1)).WF ∧ (Instr.addr (.base (.abs (.d1 0))) (r 1)).WF ∧
    (Instr.cvtp 0 (.base .tos) (r 1)).WF := ⟨answers_m, by decide⟩

/-- A block of 16 bytes, equal to itself; and 81 02 against 81 09, which differ in their second byte. -/
theorem witness_BlockMoveCompare : Answers m ∧
    (Instr.movmi .d (.base (.abs (.d1 0))) (.base (.abs (.d1 4))) (.d1 12)).WF ∧
    (Instr.cmpmi .d (.base (.regRel 3 (.d1 0))) (.base (.regRel 3 (.d1 0))) (.d1 12)).WF ∧
    (Instr.cmpmi .b (.base (.regRel 3 (.d1 0))) (.base (.regRel 5 (.d1 0))) (.d1 1)).WF ∧
    m.begin.peek 0x1000 1 = m.begin.peek 0x2000 1 ∧ m.begin.peek 0x1001 1 ≠ m.begin.peek 0x2001 1 :=
  ⟨answers_m, by decide⟩

theorem witness_Compare : Answers m ∧ (Instr.cmpi .w (r 0) (.base (.imm (.w 1)))).WF ∧ (Instr.cmpqi .w 7 (r 1)).WF :=
  ⟨answers_m, by decide⟩

/-- Counts of 15 and -15, the last that move a word, and 16, the first whose result is free. -/
theorem witness_Shift : Answers m ∧ (Instr.lshi .w (b 15) (r 1)).WF ∧ (Instr.ashi .w (b (-15)) (r 1)).WF ∧
    (Instr.roti .w (b 16) (r 1)).WF ∧ (m.begin.operand (b 15) 1).toInt.natAbs ≤ 15 ∧
    (m.begin.operand (b (-15)) 1).toInt.natAbs ≤ 15 ∧ ¬(m.begin.operand (b 16) 1).toInt.natAbs ≤ 15 :=
  ⟨answers_m, by decide⟩

/-- In memory; and in a register at the offsets 31 and 32. -/
theorem witness_Bits : Answers m ∧ (Instr.tbiti .b (b 31) (.base .tos)).WF ∧ (Instr.sbiti .b (b 31) (.base .tos)).WF ∧
    (∀ q, Gen.base .tos ≠ .base (.reg q)) ∧ (Instr.cbiti .b (b 31) (r 1)).WF ∧ (Instr.ibiti .b (b 32) (r 1)).WF ∧
    (m.begin.operand (b 31) 1).toInt ≤ 31 ∧ 31 < (m.begin.operand (b 32) 1).toInt ∧ m.operandPolicy = .refuse ∧
    ({ m with operandPolicy := .free } : State).operandPolicy = .free :=
  ⟨answers_m, by decide, by decide, (fun _ h => by cases h), by decide⟩

/-- FFS: 80 has its first bit at 7, none from 8 on; CHECK: 6 within 1 and 6, 7 above. -/
theorem witness_SearchCheckIndex : Answers m ∧ (Instr.ffsi .b (r 2) (b 7)).check ≠ none ∧ (Instr.ffsi .w (r 2) (r 7)).WF ∧
    (m.begin.operand (r 2) 2).getLsbD 7 = true ∧ (m.begin.at (.reg 7) 1).toNat ≤ 7 ∧
    (∀ k < 16, 8 ≤ k → (m.begin.operand (r 2) 2).getLsbD k = false) ∧
    (Instr.checki .b 1 (.base (.regRel 3 (.d1 2))) (r 6)).WF ∧ (m.begin.peek 0x1003 1).toInt ≤ 3 ∧
    (m.begin.operand (b 3) 1).toInt ≤ (m.begin.peek 0x1002 1).toInt ∧
    (m.begin.peek 0x1002 1).toInt < (m.begin.operand (b 4) 1).toInt ∧ (Instr.indexi .w 1 (r 2) (r 3)).WF :=
  ⟨answers_m, by decide⟩

/-- Fields that end at bit 31, and one that passes it. -/
theorem witness_ExtractField : Answers m ∧ (Instr.exti .d 6 (r 0) (r 1) (.d1 26)).WF ∧
    (Instr.exti .d 7 (.base .tos) (r 1) (.d1 32)).WF ∧ (Instr.extsi .b (r 0) (r 1) 1 30).WF ∧ (m.reg 6).toInt + 26 = 32 ∧
    ¬(m.reg 7).toInt % 8 + 32 ≤ 32 ∧ m.operandPolicy = .refuse ∧ ({ m with operandPolicy := .free } : State).operandPolicy = .free :=
  ⟨answers_m, by decide⟩

theorem witness_InsertField : Answers m ∧ (Instr.insi .d 6 (r 0) (r 1) (.d1 26)).WF ∧
    (Instr.insi .d 7 (r 0) (.base .tos) (.d1 32)).WF ∧ (Instr.inssi .b (r 0) (r 1) 1 30).WF ∧ (m.reg 6).toInt + 26 = 32 ∧
    ¬(m.reg 7).toInt % 8 + 32 ≤ 32 ∧ m.operandPolicy = .refuse ∧ ({ m with operandPolicy := .free } : State).operandPolicy = .free :=
  ⟨answers_m, by decide⟩

/-- An interrupt that leaves time for no pass, and for one of two; a graphics instruction makes one of two in both. -/
theorem witness_suspended :
    let s : State := { m.setReg 0 2 with suspend := some 0 }
    let t : State := { m.setReg 0 2 with suspend := some 1 }
    Answers s ∧ s.allowed (s.reg 0).toNat = 0 ∧ Answers t ∧ t.allowed (t.reg 0).toNat = 1 ∧
    s.allowedBetween (s.reg 0).toNat = 1 ∧ t.allowedBetween (t.reg 0).toNat = 1 ∧ m.suspend = none :=
  ⟨answers_of_ram ⟨rfl, rfl, rfl⟩, by decide, answers_of_ram ⟨rfl, rfl, rfl⟩, by decide⟩

theorem witness_MoveString : Answers m ∧ Quiet m ∧ m.suspend = none ∧
    (∃ t, exec (.movsi .b ⟨false, .while⟩) m = .next t) ∧ ∃ t, exec (.movst ⟨true, .none⟩) (m.setReg 0 0) = .next t :=
  ⟨answers_m, ram_m.2, rfl, next_of_completes (by decide), next_of_completes (by decide)⟩

/-- Strings 81 02 and 81 09: after one equal element the count is 0; or the next elements differ; or option U ends. -/
theorem witness_CompareSkipString :
    let s := ((m.setReg 1 0x1000).setReg 2 0x2000).setReg 0 2
    let o : StrOpts := ⟨false, .none⟩
    Answers s ∧ s.suspend = none ∧ s.ends 1 false o 0 = false ∧ s.element 1 false o 0 = s.element2 1 o 0 ∧
    (s.setReg 0 1).reg 0 = 1 ∧ 1 < (s.reg 0).toNat ∧ s.ends 1 false o 1 = false ∧
    s.element 1 false o 1 ≠ s.element2 1 o 1 ∧ (s.setReg 4 2).ends 1 false ⟨false, .until⟩ 1 = true ∧
    (s.setReg 4 2).ends 1 false ⟨false, .until⟩ 0 = false := ⟨answers_of_ram ⟨rfl, rfl, rfl⟩, by decide⟩

theorem witness_MoveStringResumes :
    let s : State := { m.setReg 0 1 with suspend := some 0 }
    Answers s ∧ s.suspend = some 0 ∧ 0 < (s.reg 0).toNat ∧ (Instr.movsi .b ⟨false, .while⟩).WF ∧ (Instr.movst ⟨true, .until⟩).WF := ⟨answers_of_ram ⟨rfl, rfl, rfl⟩, by decide⟩

theorem witness_Jump : Answers m ∧ (Instr.br (.d1 63)).WF ∧ (Instr.bcond .ne (.d4 (-16))).WF ∧ m.holds .ne = true ∧
    (Instr.bcond .eq (.d4 (-16))).WF ∧ m.holds .eq = false ∧ (Instr.jump (.base .tos)).WF ∧ (Instr.casei .b (r 1)).WF :=
  ⟨answers_m, by decide⟩

/-- R1 = 1 becomes 0, R0 = -1 becomes -2. -/
theorem witness_AddCompareBranch : Answers m ∧ (Instr.acbi .d (-1) (r 1) (.d1 (-6))).WF ∧
    m.begin.at (.reg 1) 4 + BitVec.ofInt _ (-1) = 0 ∧ (Instr.acbi .d (-1) (r 0) (.d1 (-6))).WF ∧
    m.begin.at (.reg 0) 4 + BitVec.ofInt _ (-1) ≠ 0 := ⟨answers_m, by decide⟩

theorem witness_Subroutine : Answers m ∧ (Instr.jsr (.base .tos)).WF ∧ (Instr.bsr (.d1 63)).WF ∧ (Instr.ret (.d1 8)).WF :=
  ⟨answers_m, by decide⟩

theorem witness_ExternalProcedures : Answers m ∧ (Instr.cxp (.d1 3)).WF ∧ (Instr.cxpd (.base (.abs (.d1 0)))).WF :=
  ⟨answers_m, by decide⟩

/-- The bytes 7F; and F0 and FF with CFG.I = 1. -/
theorem witness_ReturnFromException :
    let s : State := { m with cfg := 1, icuReplies := [0xF0, 0x10] }
    Answers m ∧ m.flag .u = false ∧ m.icuReplies = 0x7F :: [0x10] ∧ (0x7F : Byte).msb = false ∧
    Answers s ∧ s.flag .u = false ∧ s.cfgI = true ∧ s.icuReplies = 0xF0 :: 0x10 :: [] ∧ -16 ≤ (0xF0 : Byte).toInt ∧
    (0xFF : Byte).toInt < 0 := ⟨answers_m, by decide, by decide, by decide, answers_of_ram ⟨rfl, rfl, rfl⟩, by decide⟩

theorem witness_RestoreUndoesSave : Ram m ∧ Memory.wf m.mem = true ∧ ∃ t, exec (.save 0xFF) m = .next t :=
  ⟨ram_m, by decide, next_of_completes (by decide)⟩

/-- SAVE, RESTORE, ENTER, EXIT, the block transfers and the pattern instructions ask for memory that answers only. -/
theorem witness_Answers : Answers m ∧ m.suspend = none := ⟨answers_m, rfl⟩

/-- In Supervisor Mode for PSR and INTBASE, in User Mode for another register. -/
theorem witness_DedicatedRegisters : Answers m ∧ (Instr.lpri .w .psr (r 1)).WF ∧ (Instr.spri .d .intbase (r 1)).WF ∧
    m.flag .u = false ∧ (Instr.lpri .d .fp (r 1)).WF ∧ ({ m with psr := 0x0100 } : State).flag .u = true :=
  ⟨answers_m, by decide⟩

theorem witness_AdjustConfigure : Answers m ∧ (Instr.adjspi .b (b (-8))).WF ∧ (Instr.bispsri .b (r 1)).WF ∧
    (Instr.bicpsri .w (r 1)).WF ∧ m.flag .u = false := ⟨answers_m, by decide⟩

theorem witness_NoEffect : Answers m ∧ m.flag .f = false := ⟨answers_m, by decide⟩

/-- 1, 2, 3, 4 in single precision. -/
theorem number_1 : IsNumber .f 0x3F800000 1 := ⟨by simp [number], by decide⟩
theorem number_2 : IsNumber .f 0x40000000 2 := ⟨by simp [number], by decide⟩
theorem number_3 : IsNumber .f 0x40400000 3 := ⟨by simp [number]; norm_num, by decide⟩
theorem number_4 : IsNumber .f 0x40800000 4 := ⟨by simp [number]; norm_num, by decide⟩
/-- 2 in double precision. -/
theorem number_2l : IsNumber .l 0x4000000000000000 2 := ⟨by simp [number], by decide⟩

/-- A machine with an NS32381 whose F0 is 1 and F1 is 2, and which will report no error, then one. -/
def mf : State :=
  { m with
    cfg := 2, fpu := .ns32381, fregs := m.fregs.set 0 0x3F800000 |>.set 1 0x40000000
    fpuReplies := [⟨0, 0, 0⟩, ⟨1, 0, 5⟩] }

theorem answers_mf : Answers mf := answers_of_ram ⟨rfl, rfl, rfl⟩


/-- F0 = 1 and F1 = 2: 2 + 1 = 3, 2 - 1 = 1, 2 * 1 = 2, 2 / 1 = 2, 2 * 2^1 = 4. -/
theorem witness_FloatArithmetic : Answers mf ∧ number .f (mf.begin.floatOperand (r 0) .f) = some 1 ∧
    number .f (mf.begin.floatAt (.reg 1) .f) = some 2 ∧ (Instr.addf .f (r 0) (r 1)).WF ∧ (Instr.scalbf .f (r 0) (r 1)).WF ∧
    FpuReady (.addf .f (r 0) (r 1)) mf ∧ IsNumber .f 0x40400000 (2 + 1) ∧ IsNumber .f 0x3F800000 (2 - 1) ∧
    IsNumber .f 0x40000000 (2 * 1) ∧ IsNumber .f 0x40000000 (2 / 1) ∧ IsNumber .f 0x40800000 (2 * 2 ^ ⌊(1 : ℚ)⌋) := by
  refine ⟨answers_mf, number_1.1, number_2.1, by decide, by decide, ⟨by decide, .inl rfl⟩, ?_, ?_, ?_, ?_, ?_⟩
  · norm_num; exact number_3
  · norm_num; exact number_1
  · norm_num; exact number_2
  · norm_num; exact number_2
  · norm_num; exact number_4

/-- F1 = 2 moved, made positive, converted; F0 = 1 has the exponent 0, F1 = 2 the exponent 1; the integer 1. R0 = 0 is
no normalised number, and an FPU that reports no error moves it. -/
theorem witness_FloatMove : Answers mf ∧ number .f (mf.begin.floatOperand (r 1) .f) = some 2 ∧
    (Instr.movf .f (r 1) (r 2)).WF ∧ (Instr.movfl (r 1) (r 2)).WF ∧ FpuReady (.movfl (r 1) (r 2)) mf ∧
    FpuReady (.movfl (r 1) (r 2)) { mf with fpu := .ns32081 } ∧
    IsNumber .f 0x40000000 |(2 : ℚ)| ∧ IsNumber .l 0x4000000000000000 2 ∧ (Instr.movif .d .f (r 1) (r 2)).WF ∧
    IsNumber .f 0x3F800000 (mf.begin.operand (r 1) 4).toInt ∧ number .f (mf.begin.floatOperand (r 5) .f) = none ∧
    mf.fpuReplies = ⟨0, 0, 0⟩ :: [⟨1, 0, 5⟩] ∧ (0 : Half).getLsbD 0 = false := by
  refine ⟨answers_mf, number_2.1, by decide, by decide, ⟨by decide, .inl rfl⟩, ⟨by decide, .inr (by decide)⟩, ?_,
    number_2l, by decide, ?_, ?_, rfl, rfl⟩
  · norm_num; exact number_2
  · exact number_1
  · have e : mf.begin.floatOperand (r 5) .f = 0 := by decide
    rw [e]; simp [number]

theorem witness_FloatToInteger : Answers mf ∧ number .f (mf.begin.floatOperand (r 1) .f) = some 2 ∧
    (Instr.floorfi .f .b (r 1) (r 2)).WF ∧ FpuReady (.roundfi .f .b (r 1) (r 2)) mf ∧ (2 : Int) = ⌊(2 : ℚ)⌋ ∧
    (2 : Int) < 2 ^ (8 * 1 - 1) ∧ |(2 : ℚ) - (2 : Int)| ≤ 1 / 2 := by
  refine ⟨answers_mf, number_2.1, by decide, ⟨by decide, .inl rfl⟩, ?_, by decide, ?_⟩ <;> norm_num

theorem witness_FloatCompareStatus : Answers mf ∧ number .f (mf.begin.floatOperand (r 0) .f) = some 1 ∧
    number .f (mf.begin.floatOperand (r 1) .f) = some 2 ∧ (Instr.cmpf .f (r 0) (r 1)).WF ∧
    FpuReady (.cmpf .f (r 0) (r 1)) mf ∧ mf.fpuReplies = ⟨0, 0, 0⟩ :: [⟨1, 0, 5⟩] ∧ (0 : Half).getLsbD 0 = false ∧
    mf.cfgF = true ∧ mf.fpu ≠ .absent ∧ (Instr.lfsr (r 0)).WF ∧ (Instr.sfsr (r 0)).WF ∧ Ram mf ∧
    Memory.wf mf.mem = true ∧ ({ mf with fpuReplies := [⟨1, 0, 5⟩] } : State).fpuReplies = ⟨1, 0, 5⟩ :: [] ∧
    (1 : Half).getLsbD 0 = true :=
  ⟨answers_mf, number_1.1, number_2.1, by decide, ⟨by decide, .inl rfl⟩, rfl, rfl, by decide, by decide, by decide,
    by decide, ⟨rfl, rfl, rfl⟩, by decide, rfl, rfl⟩

/-- F0 = 1: 1 * 1 + 2 = 3, and 1 + 1 * 2 = 3. -/
theorem witness_FloatPolynomial : Answers mf ∧ FpuReady (.polyf .f (r 0) (r 1)) mf ∧
    number .f (mf.fregValue 0 .f) = some 1 ∧ number .f (mf.begin.floatOperand (r 0) .f) = some 1 ∧
    number .f (mf.begin.floatOperand (r 1) .f) = some 2 ∧ (Instr.polyf .f (r 0) (r 1)).WF ∧
    (Instr.dotf .f (r 0) (r 1)).WF ∧ IsNumber .f 0x40400000 (1 * 1 + 2) ∧ IsNumber .f 0x40400000 (1 + 1 * 2) := by
  refine ⟨answers_mf, ⟨by decide, .inl rfl⟩, number_1.1, number_1.1, number_2.1, by decide, by decide, ?_, ?_⟩
  · norm_num; exact number_3
  · norm_num; exact number_3

theorem witness_FloatUndefined : isFloat (.addf .f (r 0) (r 1)) = true ∧ m.cfgF = false ∧ Ram m ∧
    Memory.wf m.mem = true := ⟨by decide, by decide, ram_m, by decide⟩

theorem witness_FloatProtocol : Answers mf ∧ isFloat (.polyf .f (r 0) (r 1)) = true ∧ (Instr.polyf .f (r 0) (r 1)).WF ∧
    mf.cfgF = true ∧ encode (.polyf .f (r 0) (r 1)) = [0xFE, 0x49, 0x00] ∧ FpuReady (.polyf .f (r 0) (r 1)) mf ∧
    ({ mf with fpu := .absent } : State).cfgF = true :=
  ⟨answers_mf, by decide, by decide, by decide, by decide, ⟨by decide, .inl rfl⟩, by decide⟩

/-- A width of 65535 words and a shift of 15, the largest that are not refused; 65536 and 16, with both policies; K set. -/
theorem witness_BitBlockTransfer :
    let s : State := { m.setReg 2 15 with mem := [(0x8000, 0xFF), (0x8001, 0xFF)] }
    let u : State := { s with mem := [(0x8002, 0x01)] }
    Answers s ∧ Answers u ∧ s.suspend = none ∧ s.flag .k = false ∧ s.flag .j = false ∧ (s.peek32 s.sp).toNat < 2 ^ 16 ∧
    (s.reg 2).toNat ≤ 15 ∧ ¬(u.peek32 u.sp).toNat < 2 ^ 16 ∧ ¬((s.setReg 2 16).reg 2).toNat ≤ 15 ∧ s.operandPolicy = .refuse ∧
    ({ s with operandPolicy := .free } : State).operandPolicy = .free ∧ (s.putFlag .k true).flag .k = true :=
  ⟨answers_of_ram ⟨rfl, rfl, rfl⟩, answers_of_ram ⟨rfl, rfl, rfl⟩, by decide⟩

/-- R2 = 25, the last number of bits of the table, and 26; a BITWT shift of 15 and one of 16, with both policies. -/
theorem witness_WordTransferSetString : Answers m ∧ ((m.setReg 2 25).reg 2).toNat ≤ 25 ∧ 25 < ((m.setReg 2 26).reg 2).toNat ∧
    ((m.setReg 2 15).reg 2).toNat ≤ 15 ∧ ¬((m.setReg 2 16).reg 2).toNat ≤ 15 ∧ m.operandPolicy = .refuse ∧
    ({ m with operandPolicy := .free } : State).operandPolicy = .free := ⟨answers_m, by decide⟩

/-- A BPU and R4 = -2; no BPU; a BPU and R4 = 4; neither, with the policy that lets it run. -/
theorem witness_ExternalBlockTransfer :
    let s : State := { (m.setReg 2 1).setReg 4 (-2) with bpu := .attached }
    Answers s ∧ s.suspend = none ∧ s.operandPolicy = .refuse ∧ s.bpu = .attached ∧ (s.reg 4 = 2 ∨ s.reg 4 = -2) ∧ s.reg 3 ≠ 0 ∧
    ({ s with bpu := .absent } : State).bpu = .absent ∧ ¬((s.setReg 4 4).reg 4 = 2 ∨ (s.setReg 4 4).reg 4 = -2) ∧
    ({ s with bpu := .absent, operandPolicy := .free } : State).operandPolicy = .free :=
  ⟨answers_of_ram ⟨rfl, rfl, rfl⟩, by decide⟩

/-- Runs of 0 from bit 0 of zero bytes that end by a limit; a run of 1 in 81 that ends after one bit; a first entry and a
suspended TBITS with R2 = 3; an offset of 2^31. -/
theorem witness_TestBitString :
    let s := ((((m.setReg 0 0x4000).setReg 1 0).setReg 2 0).setReg 3 4).setReg 4 4
    let u := s.setReg 0 0x1000
    let v := s.setReg 2 3
    let w : State := { v.setReg 3 5 with heldTbits := [⟨v.pc, v.reg 1, v.reg 2⟩], suspend := some 1 }
    Answers s ∧ Answers w ∧ s.suspend = none ∧ (s.reg 1).toNat < 2 ^ 31 ∧ (s.reg 4).toNat < 2 ^ 31 ∧
    ((s.setReg 4 0).reg 4).toNat ≤ ((s.setReg 4 0).reg 1).toNat ∧ (s.reg 1).toNat < (s.reg 4).toNat ∧ s.reg 2 = 0 ∧ (∀ k < 4, s.runBit k = false) ∧
    (4 < ((s.setReg 4 5).reg 4).toNat) ∧ (4 < ((s.setReg 3 5).reg 3).toNat) ∧ (s.reg 3).toNat = (s.reg 4).toNat ∧
    (∀ k < 1, u.runBit k = true) ∧ u.runBit 1 ≠ true ∧ v.operandPolicy = .refuse ∧
    ((⟨v.pc, v.reg 1, v.reg 2⟩ : TbitsMark) ∉ v.heldTbits ∧ v.reg 2 ≠ 0) ∧
    (⟨w.pc, w.reg 1, w.reg 2⟩ : TbitsMark) ∈ w.heldTbits ∧ w.suspend = some 1 ∧
    w.runBit 0 = false ∧ w.reg 2 ≠ w.reg 3 ∧ w.reg 2 + 1 ≠ w.reg 3 ∧ (w.reg 1).toNat + 1 < (w.reg 4).toNat ∧ 2 ^ 31 ≤ ((s.setReg 1 (2 ^ 31)).reg 1).toNat ∧
    ({ v with operandPolicy := .free } : State).operandPolicy = .free :=
  ⟨answers_of_ram ⟨rfl, rfl, rfl⟩, answers_of_ram ⟨rfl, rfl, rfl⟩, by decide⟩

theorem witness_TrapInstructions : Ram m ∧ Memory.wf m.mem = true ∧ (m.putFlag .f true).flag .f = true :=
  ⟨ram_m, by decide⟩

theorem witness_PrivilegedInUserMode :
    let s : State := { m with psr := 0x0100 }
    Ram s ∧ Memory.wf s.mem = true ∧ s.flag .u = true ∧ (Instr.lpri .d .intbase (r 1)).WF ∧
    (Instr.bispsri .w (r 1)).WF ∧ (Instr.setcfg 0b0011).WF ∧ (Instr.rett (.d1 0)).WF ∧ Instr.reti.WF :=
  ⟨⟨rfl, rfl, rfl⟩, by decide⟩

/-- An edge on NMI; INT with an ICU's byte 127, the last ordinary vector, and 240, the first of a cascaded ICU. -/
theorem witness_Interrupts :
    let x : Input := { idleInput with nmi := true }
    let y : Input := { idleInput with int := true }
    let s : State := { m with inputs := [x] }
    let t : State := { m with inputs := [y], psr := 0x0800, cfg := 1, icuReplies := [0x7F] }
    let u : State := { t with icuReplies := [0xF0, 0x10] }
    Ram s.sample.2 ∧ Ram t.sample.2 ∧ Ram u.sample.2 ∧ s.sample.1 = x ∧ x.reset = false ∧ s.sample.2.nmiLatch = true ∧
    Memory.wf s.sample.2.mem = true ∧ t.sample.1 = y ∧ y.int = true ∧ t.sample.2.nmiLatch = false ∧
    t.sample.2.flag .i = true ∧ t.sample.2.cfgI = true ∧ t.sample.2.icuReplies = 0x7F :: [] ∧ (0x7F : Byte).toNat ≤ 127 ∧
    u.sample.2.icuReplies = 0xF0 :: 0x10 :: [] ∧ 240 ≤ (0xF0 : Byte).toNat ∧
    ({ t with cfg := 0 } : State).sample.2.cfgI = false :=
  ⟨⟨rfl, rfl, rfl⟩, ⟨rfl, rfl, rfl⟩, ⟨rfl, rfl, rfl⟩, by decide⟩

theorem witness_TraceWait :
    let s := m.putFlag .p true
    let w : State := { m with waiting := true }
    s.sample.1 = idleInput ∧ s.sample.2.nmiLatch = false ∧ s.sample.2.flag .i = false ∧ s.sample.2.waiting = false ∧
    s.sample.2.flag .p = true ∧ Memory.wf s.sample.2.mem = true ∧ w.sample.1 = idleInput ∧
    w.sample.2.waiting = true ∧ Ram s.sample.2 ∧ Quiet w.sample.2 :=
  ⟨by decide, by decide, by decide, by decide, by decide, by decide, by decide, by decide, ⟨rfl, rfl, rfl⟩, rfl, rfl⟩

theorem witness_Reset :
    let x : Input := { idleInput with reset := true }
    let y : Input := { idleInput with resetAfter := some 0 }
    let s : State := { m with inputs := [x] }
    let t : State := { m with queue := [0xA2], inputs := [y] }
    s.sample.1 = x ∧ x.reset = true ∧ t.sample.1 = y ∧ y.resetAfter ≠ none ∧ y.resetAfter = some 0 ∧
    ∃ u, step t = .next u := ⟨rfl, rfl, rfl, by decide, rfl, steps_of (by decide)⟩

theorem svc_next {s : State} (h : Ram s) : ∃ t, exec .svc s = .next t :=
  (perform_of_traps (i := .svc) (by decide) (answers_of_ram h) (traps_abort .svc _)).imp fun _ h => h.1

theorem witness_ReturnUndoesTrap : Ram m ∧ Memory.wf m.mem = true ∧ m.psr &&& 0xE000 = 0 ∧
    ∃ t, exec .svc m = .next t := ⟨ram_m, by decide, by decide, svc_next ram_m⟩

theorem witness_UserModeConfined :
    let s : State := { m with psr := 0x0100 }
    s.flag .u = true ∧ s.resetIn = none ∧ (∃ t, exec .nop s = .next t) ∧ ∃ t, exec .svc s = .next t :=
  ⟨by decide, rfl, next_of_completes (by decide),
    svc_next ⟨rfl, rfl, rfl⟩⟩

theorem witness_InvariantKept : Invariant { m with queue := [0xA2] } ∧
    ∃ t, step { m with queue := [0xA2], coherent := false } = .next t := ⟨by unfold Invariant; decide, steps_of (by decide)⟩

/-- NOP in the queue; and NOP in memory, with an empty queue. -/
theorem witness_StepRunsDecoded :
    let s : State := { m with queue := [0xA2], coherent := false }
    let t : State := { m with fetchPc := 0x100, mem := [(0x100, 0xA2)] }
    s.sample.1 = idleInput ∧ s.sample.2.nmiLatch = false ∧ s.sample.2.flag .i = false ∧ s.sample.2.waiting = false ∧
    s.sample.2.flag .p = false ∧ Instr.nop.WF ∧ s.sample.2.refreshed.queue = encode .nop ++ [] ∧
    t.sample.1 = idleInput ∧ isFloat .nop = false ∧ t.sample.2.fetchPc = t.sample.2.pc + BitVec.ofNat 24 0 ∧
    encode .nop = t.sample.2.refreshed.queue ++ loadBytes t.sample.2.mem t.sample.2.fetchPc 1 ∧ Answers t.sample.2 :=
  ⟨by decide, by decide, by decide, by decide, by decide, by decide, by decide, by decide, by decide, by decide,
    by decide, answers_of_ram ⟨rfl, rfl, rfl⟩⟩

/-- The byte 06 in memory; i = 10 of Format 6 in the queue, under both policies; an unassigned pattern of Format 11 with CFG.F = 0. -/
theorem witness_IllFormedOrUnassigned :
    let s : State := { m with fetchPc := 0x100, mem := [(0x100, 0x06)] }
    let t : State := { m with queue := [0x4E, 0x02, 0x00], coherent := false }
    let u : State := { t with queue := [0xBE, 0x0C, 0x00] }
    (Instr.jump (r 1)).check = some .registerOperand ∧ isFloat (.jump (r 1)) = false ∧
    (Instr.addf .l (b 1) (r 0)).check = some .immediateLength ∧ mf.cfgF = true ∧ mf.resetIn ≠ some 0 ∧
    Ram s.sample.2 ∧ Ram t.sample.2 ∧ Memory.wf s.mem = true ∧ s.sample.1 = idleInput ∧ s.sample.2.nmiLatch = false ∧
    s.sample.2.waiting = false ∧ s.sample.2.flag .p = false ∧ s.sample.2.fetchPc = s.sample.2.pc + BitVec.ofNat 24 0 ∧
    decode [] = .error .outOfBytes ∧ (∀ n < 2, decode (loadBytes s.mem s.fetchPc (n + 1)) = .error .undefinedFirstByte) ∧
    decode t.sample.2.refreshed.queue = .error .unassigned ∧ t.sample.2.undPolicy = .refuse ∧
    ({ t with undPolicy := .trapUnd } : State).sample.2.undPolicy = .trapUnd ∧
    decode u.sample.2.refreshed.queue = .error .unassigned ∧ u.sample.2.cfgF = false :=
  ⟨by decide, by decide, by decide, by decide, by decide, ⟨rfl, rfl, rfl⟩, ⟨rfl, rfl, rfl⟩, by decide⟩

/-- A quad-word that wraps at the top of memory. -/
theorem witness_StoreThenLoad : m.memMap = [] ∧ Memory.wf m.mem = true ∧ 8 ≤ 8 ∧
    ((m.poke 0xFFFFFC 8 (1 : Quad)).peek 0xFFFFFC 8) = (1 : Quad) := by decide

/-- Bytes 10 to 13 are nothing: the first byte of an operand at 10, and the last of a double-word at 0D. -/
theorem witness_AccessOutsideMemory :
    let s : State := { m with memMap := [⟨0x10, 4, .nothing⟩, ⟨0x20, 4, .device⟩, ⟨0x24, 4, .rom⟩], deviceReplies := [7] }
    Quiet s ∧ s.deviceReplies = 7 :: [] ∧ s.kindAt (BitVec.ofInt 24 (Disp.d1 0x27).val) = some .rom ∧
    s.kindAt (BitVec.ofInt 24 (Disp.d1 0x10).val) = some .nothing ∧
    s.kindAt (BitVec.ofInt 24 (Disp.d1 0x20).val) = some .device ∧
    s.kindAt (BitVec.ofInt 24 (Disp.d1 0x13).val) = some .nothing ∧ s.kindAt (BitVec.ofInt 24 (Disp.d1 0x14).val) = none ∧
    s.kindAt (BitVec.ofInt 24 (Disp.d1 0x0D).val + 3) = some .nothing ∧
    ∀ k < 3, s.kindAt (BitVec.ofInt 24 (Disp.d1 0x0D).val + BitVec.ofNat 24 k) ≠ some .nothing :=
  ⟨⟨rfl, rfl⟩, by decide⟩

theorem witness_DecodeEncode : (Instr.movmi .d (.scaled (.memRel .sp (.d1 (-64)) (.d4 0)) 7 .q) (.base .tos) (.d1 12)).WF := by
  decide

end Sys2Proof.Tests
end

section
/-!
A general register as an operand (10_state.md R21). `mergeLow` is described once, bit by bit; what a register holds
after a part of it is written, and what an operand reads there, follow from that and from the rules of `State.setReg`.
-/
namespace Sys2Proof.Machine

/-! ### mergeLow -/

/-- The high part is kept: beyond its width the value written contributes no bit, and the mask removes none. -/
theorem getLsbD_mergeLow {w k : Nat} (old : DWord) (v : BitVec w) (hk : k < 32) :
    (mergeLow old v).getLsbD k = if k < w then v.getLsbD k else old.getLsbD k := by
  by_cases hw : k < w
  · simp [mergeLow, hk, hw]
  · have beyond : v.getLsbD k = false := BitVec.getLsbD_of_ge v k (Nat.le_of_not_lt hw)
    simp [mergeLow, hk, hw, beyond]

theorem setWidth_mergeLow {w : Nat} (old : DWord) (v : BitVec w) (hw : w ≤ 32) :
    (mergeLow old v).setWidth w = v := by
  ext k hk
  have low := getLsbD_mergeLow old v (Nat.lt_of_lt_of_le hk hw)
  simpa [hk] using low

/-! ### A register as a place and as an operand -/

@[simp] theorem State.setRegLow_reg_same {w : Nat} (s : State) (r : RegNo) (v : BitVec w) :
    (s.setRegLow r v).reg r = mergeLow (s.reg r) v := State.setReg_reg_same s r _

theorem State.setRegLow_reg_other {w : Nat} (s : State) (r q : RegNo) (v : BitVec w) (h : r ≠ q) :
    (s.setRegLow r v).reg q = s.reg q := State.setReg_reg_other s r q _ h

@[simp] theorem State.put_reg (s : State) (r : RegNo) (n : Nat) (v : BitVec (8 * n)) :
    s.put (.reg r) n v = s.setRegLow r v := rfl

@[simp] theorem State.operand_reg (s : State) (r : RegNo) (n : Nat) :
    s.operand (.base (.reg r)) n = (s.reg r).setWidth (8 * n) := rfl

/-- An integer operand of any size fits a general register. -/
theorem bits_le_of_size (i : Size) : 8 * i.bytes ≤ 32 := by
  cases i <;> decide

theorem State.operand_setRegLow (s : State) (r : RegNo) (n : Nat) (v : BitVec (8 * n)) (h : 8 * n ≤ 32) :
    (s.setRegLow r v).operand (.base (.reg r)) n = v := by
  rw [State.operand_reg, State.setRegLow_reg_same, setWidth_mergeLow _ _ h]

/-- Settles O55: `State.put` at a register merges the low part, and the operand read there is that part again. -/
theorem registerPart : Obligations.RegisterPart := by
  intro s i r v
  simp only [State.put_reg]
  refine ⟨fun k hk => ?bits, fun q hq => ?others, ?read⟩
  case bits => rw [State.setRegLow_reg_same, getLsbD_mergeLow _ _ hk]
  case others => exact State.setRegLow_reg_other s r q v hq.symm
  case read => exact State.operand_setRegLow s r i.bytes v (bits_le_of_size i)

end Sys2Proof.Machine
end

section
/-!
A stored value read back (20_memory.md R73). A byte string is loaded address by address, and `loadBytes_poke` says which
string stands where a value was stored; the byte at each address is that string's, entry by entry.
-/
namespace Sys2Proof.Machine

/-- Byte `k` of a string is the one at the address plus `k` modulo 2^24 (R71). -/
theorem loadBytes_eq_map (m : List Host.Cell) (a : Addr) (n : Nat) :
    loadBytes m a n = (List.range n).map fun k => memGet m (a + BitVec.ofNat 24 k).toNat := by
  induction n with
  | zero => rfl
  | succ n ih => rw [loadBytes_append, ih, List.range_succ, List.map_append]; rfl

theorem State.loadBytes_poke {w : Nat} (s : State) (a : Addr) (n : Nat) (v : BitVec w)
    (hm : Memory.wf s.mem = true) (hok : ∀ a, s.storable a = true) (hn : n ≤ 2 ^ 24) :
    loadBytes (s.poke a n v).mem a n = toBytes n v := by
  have h := loadBytes_storeBytes s.storable s.mem a (toBytes n v) hm hok (by rwa [toBytes_length])
  rwa [toBytes_length] at h

theorem State.poke_byteAt_inside {w k : Nat} (s : State) (a : Addr) (n : Nat) (v : BitVec w)
    (hm : Memory.wf s.mem = true) (hok : ∀ a, s.storable a = true) (hn : n ≤ 2 ^ 24) (hk : k < n) :
    (s.poke a n v).byteAt (a + BitVec.ofNat 24 k) = v.extractLsb' (8 * k) 8 := by
  have bytes := s.loadBytes_poke a n v hm hok hn
  rw [loadBytes_eq_map, toBytes, List.map_inj_left] at bytes
  exact bytes k (List.mem_range.mpr hk)

theorem State.poke_wf {w : Nat} (s : State) (a : Addr) (n : Nat) (v : BitVec w) (hm : Memory.wf s.mem = true) :
    Memory.wf (s.poke a n v).mem = true := wf_storeBytes _ _ _ hm

/-- Settles O54: with no region but RAM every byte is storable, and eight bytes do not wrap onto themselves. -/
theorem storeThenLoad : Obligations.StoreThenLoad := by
  intro s a n v hram hm hn t
  have hok : ∀ a, s.storable a = true := storable_of_ram hram
  have short : n ≤ 2 ^ 24 := hn.trans (by decide)
  refine ⟨?value, fun k hk => ?inside, fun b hb => ?outside, ?canonical⟩
  case value => rw [State.peek_poke s a n v hm hok short, BitVec.setWidth_eq]
  case inside => exact s.poke_byteAt_inside a n v hm hok short hk
  case outside => exact s.poke_byteAt_outside a n v b hb
  case canonical => exact s.poke_wf a n v hm

end Sys2Proof.Machine
end

section
/-!
Comparison (42_compare_logical_shift.md R251 to R253). CMPi and CMPQi differ in where the first operand comes from; both
end by writing the flags of one comparison, and `completes_compare` says once what such an instruction leaves.
-/
namespace Sys2Proof.Machine

open Sys2Proof.Safety

/-! ### The flags of a comparison -/

/-- R251 in the integers: equality, the signed order and the unsigned order of the second operand and the first. -/
theorem State.putCompare_eq {w : Nat} (s : State) (a b : BitVec w) :
    s.putCompare a b = ((s.putFlag .z (decide (b = a))).putFlag .n (decide (b.toInt < a.toInt))).putFlag .l
      (decide (b.toNat < a.toNat)) := by
  rw [State.putCompare, beq_eq_decide, BitVec.slt_eq_decide, BitVec.ult_eq_decide]

@[simp] theorem State.putCompare_mem {w : Nat} (s : State) (a b : BitVec w) : (s.putCompare a b).mem = s.mem := rfl

@[simp] theorem State.putCompare_pc {w : Nat} (s : State) (a b : BitVec w) : (s.putCompare a b).pc = s.pc := rfl

theorem runs_putCompare {w : Nat} (a b : BitVec w) (s : State) :
    Runs (change fun s => s.putCompare a b) s () (s.putCompare a b) :=
  runs_change (fun s => s.putCompare a b) s (fun _ => rfl) rfl

/-- Operands read, leaving `t`, then compared: only the flags of the comparison and PC change besides, and no memory. -/
theorem completes_compare {i : Instr} {x : M Unit} {w n : Nat} {a b : BitVec w} {s t : State}
    (e : exec i s = performSeq i x s) (hi : i.WF) (hs : Answers s) (h : Runs x s.begin () (t.putCompare a b))
    (hm : t.mem = s.mem) (hp : t.pc = s.pc) :
    Completes i s { (((t.putFlag .z (decide (b = a))).putFlag .n (decide (b.toInt < a.toInt))).putFlag .l
      (decide (b.toNat < a.toNat))) with pc := s.next i } none n := by
  have frame : MemFrame s (t.putCompare a b) none n := frame_none (by rw [State.putCompare_mem, hm]) n
  have done := completes_seq e hi hs h frame (by rw [State.putCompare_pc, hp])
  rwa [State.putCompare_eq] at done

/-! ### The instructions -/

/-- CMPi reads its two operands in order and compares them (R252). -/
theorem exec_cmpi_eq (i : Size) (g1 g2 : Gen) (s : State) : exec (.cmpi i g1 g2) s =
    performSeq (.cmpi i g1 g2) (do
      let (a, b) ← readOp2 i.bytes i.bytes g1 g2
      change fun s => s.putCompare a b) s := rfl

/-- CMPQi compares the operand it reads with its constant, sign-extended (R253). -/
theorem exec_cmpqi_eq (i : Size) (q : BitVec 4) (g : Gen) (s : State) : exec (.cmpqi i q g) s =
    performSeq (.cmpqi i q g) (do
      let b ← readGen g i.bytes
      change fun s => s.putCompare (q.signExtend (8 * i.bytes)) b) s := rfl

/-- Settles O12: both instructions read operands, which leaves memory and PC, and then write one comparison's flags. -/
theorem compare : Obligations.Compare := by
  intro i q g1 g2 s hs n done s1
  refine ⟨fun hi => ?cmpi, fun hi => ?cmpqi⟩
  case cmpi =>
    refine completes_compare (exec_cmpi_eq i g1 g2 s) hi hs ?_ (by simp [s1]) (by simp [s1])
    exact runs_bind (runs_readOp2 n n g1 g2 s.begin) (runs_putCompare _ _ _)
  case cmpqi =>
    refine completes_compare (exec_cmpqi_eq i q g2 s) hi hs ?_ (by simp) (by simp)
    exact runs_bind (runs_readGen g2 n s.begin) (runs_putCompare _ _ _)

end Sys2Proof.Machine
end

section
/-!
Decoding what was encoded (30_encoding.md R120 to R169). One lemma per format takes an instruction's bytes apart: the Basic
Instruction selects a branch of the format's reader, and that branch reads the operands back. The cases of the theorem
name the branch of each instruction.
-/
namespace Sys2Proof

/-- The last part of a sequence reads nothing more. -/
theorem reads_last {α β : Type} {p : Parse α} {f : α → Parse β} {bs : List Byte} {a : α} {b : β}
    (h : Reads p bs a) (k : f a = pure b) : Reads (p >>= f) bs b := by
  intro rest
  rw [parse_bind, h]
  show f a rest = _
  rw [k]
  rfl

/-- A check that reads nothing comes before the rest. -/
theorem reads_after {α β : Type} {p : Parse α} {f : α → Parse β} {bs : List Byte} {a : α} {b : β}
    (h : Reads p [] a) (k : Reads (f a) bs b) : Reads (p >>= f) bs b := reads_bind h k

/-! ## Formats 0 and 1 -/

/-- A Format 1 byte selects its reader by the op field (R151). -/
theorem reads_fmt1 {op : BitVec 4} {p : Parse Instr} {bs : List Byte} {j : Instr}
    (e : Parse.instr (op ++ (0b0010 : BitVec 4)) = p) (h : Reads p bs j) :
    Reads (Parse.byte >>= Parse.instr) (fmt1 op ++ bs) j := reads_first e h

/-- A Format 1 instruction of one byte. -/
theorem reads_fmt1_only {op : BitVec 4} {j : Instr} (e : Parse.instr (op ++ (0b0010 : BitVec 4)) = pure j) :
    Reads (Parse.byte >>= Parse.instr) (fmt1 op) j := by
  have h := reads_fmt1 e (reads_pure j)
  rwa [List.append_nil] at h

/-- The first byte of Bcond and BR (R150). -/
theorem instr_format0 (c : BitVec 4) :
    Parse.instr (c ++ (0b1010 : BitVec 4)) = Parse.format0 (c ++ (0b1010 : BitVec 4)) := by
  have low : (c ++ (0b1010 : BitVec 4)).setWidth 4 = 0b1010 := BitVec.setWidth_append_eq_right
  unfold Parse.instr
  rw [low]
  rfl

theorem format0_cond (c : BitVec 4) : (c ++ (0b1010 : BitVec 4)).extractLsb' 4 4 = c :=
  BitVec.extractLsb'_append_eq_left

theorem reads_bcond {c : Cond} (d : Disp) (h : c ≠ .always) :
    Reads (Parse.byte >>= Parse.instr) ([c.code ++ (0b1010 : BitVec 4)] ++ d.encode) (.bcond c d) := by
  refine reads_first (instr_format0 _) (reads_last (reads_disp d) ?_)
  rw [format0_cond, condOf_code]
  cases c <;> first | rfl | exact absurd rfl h

theorem reads_br (d : Disp) :
    Reads (Parse.byte >>= Parse.instr) ([(0b1110 : BitVec 4) ++ (0b1010 : BitVec 4)] ++ d.encode) (.br d) :=
  reads_first rfl (reads_last (reads_disp d) rfl)

/-! ## Formats 2 and 3 -/

/-- The branch of Format 2's reader that the op field selects (R152). -/
theorem reads_format2 {g : Gen} {q : BitVec 4} {op : BitVec 3} {z : Size} {bs : List Byte} {j : Instr}
    {p : BitVec 5 → BitVec 4 → Parse Instr} (hop : op ≠ 0b111)
    (e : ∀ w : Half, w.extractLsb' 4 3 = op → Parse.format2 w z = p (w.extractLsb' 11 5) (w.extractLsb' 7 4))
    (h : Reads (p g.code q) (g.index ++ g.extension ++ bs) j) :
    Reads (Parse.byte >>= Parse.instr) (fmt2 g q op z ++ bs) j := by
  obtain ⟨hg, hq, ho, -, -, -⟩ := fmt2_fields g.code q op z.code
  have k := reads_fmt2 (g := g.code) (q := q) (op := op) (z := z) (bs := g.index ++ g.extension ++ bs) (i := j) hop
    (by rw [e _ ho, hg, hq]; exact h)
  simpa only [fmt2, List.append_assoc] using k

/-- A Format 2 instruction of one operand, the short field checked first. -/
theorem reads_format2_operand {α : Type} {g : Gen} {q : BitVec 4} {op : BitVec 3} {z : Size} {n : Nat} {a : α}
    {field : BitVec 4 → Parse α} (mk : α → Gen → Instr) (hop : op ≠ 0b111) (hg : g.fits n) (hq : Reads (field q) [] a)
    (e : ∀ w : Half, w.extractLsb' 4 3 = op → Parse.format2 w z =
      (do let a ← field (w.extractLsb' 7 4); let g ← Parse.gen1 (w.extractLsb' 11 5) n; return mk a g)) :
    Reads (Parse.byte >>= Parse.instr) (fmt2 g q op z) (mk a g) := by
  have h := reads_format2 (bs := []) (j := mk a g)
    (p := fun g q => do let a ← field q; let g ← Parse.gen1 g n; return mk a g) hop e
    (by rw [List.append_nil]; exact reads_after hq (reads_last (reads_gen1 g n hg) rfl))
  rwa [List.append_nil] at h

/-- ACB has a displacement after its operand. -/
theorem reads_acbi (i : Size) (q : BitVec 4) (g : Gen) (d : Disp) (hg : g.fits i.bytes) :
    Reads (Parse.byte >>= Parse.instr) (fmt2 g q 4 i ++ d.encode) (.acbi i q g d) :=
  reads_format2 (p := fun g q => do return .acbi i q (← Parse.gen1 g i.bytes) (← Parse.disp)) (by decide)
    (fun w hw => by rw [Parse.format2, hw]; rfl)
    (reads_bind (reads_gen1 g _ hg) (reads_last (reads_disp d) rfl))

/-- A Format 3 instruction of one operand, its size checked first (R153). -/
theorem reads_format3_operand {g : Gen} {op : BitVec 4} {z : Size} {n : Nat} {check : Parse Unit} (mk : Gen → Instr)
    (hg : g.fits n) (hc : Reads check [] ())
    (e : ∀ w : Half, w.extractLsb' 7 4 = op → Parse.format3 w z =
      (do check; let g ← Parse.gen1 (w.extractLsb' 11 5) n; return mk g)) :
    Reads (Parse.byte >>= Parse.instr) (fmt3 g op z) (mk g) := by
  obtain ⟨hg', ho, -, -, -, -⟩ := fmt3_fields g.code op z.code
  have k := reads_fmt3 (g := g.code) (op := op) (z := z) (bs := g.index ++ g.extension) (i := mk g)
    (by rw [e _ ho, hg']; exact reads_after hc (reads_last (reads_gen1 g n hg) rfl))
  simpa only [fmt3, fmt3Word, List.append_assoc] using k

/-- The undefined sets of Format 3 have no operand. -/
theorem reads_format3_undefined {g : BitVec 5} {op : BitVec 4} {z : Size} {j : Instr}
    (h : ∀ w : Half, w.extractLsb' 7 4 = op → w.extractLsb' 11 5 = g → w.extractLsb' 8 3 = op.extractLsb' 1 3 →
      Parse.format3 w z = pure j) : Reads (Parse.byte >>= Parse.instr) (fmt3Word g op z) j := by
  obtain ⟨hg, ho, ho3, -, -, -⟩ := fmt3_fields g op z.code
  have k := reads_fmt3 (g := g) (op := op) (z := z) (bs := []) (i := j) (by rw [h _ ho hg ho3]; exact reads_pure j)
  rwa [List.append_nil] at k

theorem reads_undefFormat3 (g : BitVec 5) (o : BitVec 3) (i : Size) :
    Reads (Parse.byte >>= Parse.instr) (fmt3Word g (o ++ (1 : BitVec 1)) i) (.undefFormat3 g o i) := by
  refine reads_format3_undefined fun w hw hg ho => ?_
  have field : (o ++ (1 : BitVec 1)).extractLsb' 1 3 = o := BitVec.extractLsb'_append_eq_left
  have odd : ∀ o : BitVec 3, (o ++ (1 : BitVec 1)).toNat % 2 = 1 := by decide
  have := odd o
  rw [Parse.format3, hw, hg, ho, field]
  split
  case h_9 => rfl
  all_goals omega

/-! ## Formats with two operands -/

/-- The branch of Format 4's reader that the op field selects (R154). -/
theorem reads_format4 {a b : Gen} {op : BitVec 4} {z : Size} {n m : Nat} {check : Parse Unit} (mk : Gen → Gen → Instr)
    (hop : op.setWidth 2 ≠ 0b11) (ha : a.fits n) (hb : b.fits m) (hc : Reads check [] ())
    (e : ∀ w : Half, w.extractLsb' 2 4 = op → Parse.format4 w z =
      (do check; let (a, b) ← Parse.gen2 (w.extractLsb' 11 5) (w.extractLsb' 6 5) n m; return mk a b)) :
    Reads (Parse.byte >>= Parse.instr) (fmt4 a b op z) (mk a b) := by
  obtain ⟨f1, f2, f3, -, -⟩ := fmt4_fields a.code b.code op z.code
  refine reads_fmt4 hop ?_
  rw [e _ f3, f1, f2]
  exact reads_after hc (reads_last (reads_gen2 a b n m ha hb) rfl)

theorem size_code (z : Size) : Parse.size z.code = pure z := by
  rw [Parse.size, sizeOf_code]

theorem sizeOrRefuse_code (z : Size) : Parse.sizeOrRefuse z.code = pure z := by
  rw [Parse.sizeOrRefuse, sizeOf_code]

/-- A three-byte Basic Instruction with two operands: a check of its fields, the operands, then the rest `k`. -/
theorem reads_operands {w : BitVec 24} {last : Byte} {f : BitVec 24 → Parse Instr} {a b : Gen} {n m : Nat}
    {check : Parse Unit} {k : Gen × Gen → Parse Instr} {bs : List Byte} {j : Instr} (first : w.setWidth 8 = last)
    (hf : Parse.instr last = (do f (← Parse.word24 last))) (hwa : w.extractLsb' 19 5 = a.code)
    (hwb : w.extractLsb' 14 5 = b.code) (ha : a.fits n) (hb : b.fits m) (hc : Reads check [] ())
    (e : f w = (do check; let p ← Parse.gen2 (w.extractLsb' 19 5) (w.extractLsb' 14 5) n m; k p))
    (hk : Reads (k (a, b)) bs j) : Reads (Parse.byte >>= Parse.instr) (le24 w ++ ext2 a b ++ bs) j := by
  rw [List.append_assoc]
  refine reads_threeByte first hf ?_
  rw [e, hwa, hwb]
  exact reads_after hc (reads_bind (reads_gen2 a b n m ha hb) hk)

/-- Formats 6 and 7: the op field selects the branch (R156, R157). -/
theorem reads_format67 {last : Byte} {f : BitVec 24 → Parse Instr} {a b : Gen} {op : BitVec 4} {z : Size} {n m : Nat}
    {check : Parse Unit} {bs : List Byte} {j : Instr} (k : Gen × Gen → Parse Instr)
    (hf : Parse.instr last = (do f (← Parse.word24 last))) (ha : a.fits n) (hb : b.fits m) (hc : Reads check [] ())
    (e : ∀ w, w.extractLsb' 10 4 = op → w.extractLsb' 8 2 = z.code →
      f w = (do check; let p ← Parse.gen2 (w.extractLsb' 19 5) (w.extractLsb' 14 5) n m; k p))
    (hk : Reads (k (a, b)) bs j) : Reads (Parse.byte >>= Parse.instr) (fmt67 a b op z last ++ bs) j := by
  obtain ⟨fa, fb, fop, fz, first⟩ := fmt67_fields a.code b.code op z.code last
  exact reads_operands first hf fa fb ha hb hc (e _ fop fz) hk

/-- A Format 6 instruction. -/
theorem reads_format6 {a b : Gen} {op : BitVec 4} {z : Size} {n m : Nat} (mk : Gen → Gen → Instr)
    (ha : a.fits n) (hb : b.fits m)
    (e : ∀ w : BitVec 24, w.extractLsb' 10 4 = op → w.extractLsb' 8 2 = z.code → Parse.format6 w =
      (do let (a, b) ← Parse.gen2 (w.extractLsb' 19 5) (w.extractLsb' 14 5) n m; return mk a b)) :
    Reads (Parse.byte >>= Parse.instr) (fmt67 a b op z 0x4E) (mk a b) := by
  have h := reads_format67 (last := 0x4E) (bs := []) (fun p => pure (mk p.1 p.2)) rfl ha hb (reads_pure ())
    (fun w ho hz => e w ho hz) (reads_pure (mk a b))
  rwa [List.append_nil] at h

/-- A Format 7 instruction with nothing after its operands. -/
theorem reads_format7 {a b : Gen} {op : BitVec 4} {z : Size} {n m : Nat} {check : Parse Unit} (mk : Gen → Gen → Instr)
    (ha : a.fits n) (hb : b.fits m) (hc : Reads check [] ())
    (e : ∀ w : BitVec 24, w.extractLsb' 10 4 = op → w.extractLsb' 8 2 = z.code → Parse.format7 w =
      (do check; let (a, b) ← Parse.gen2 (w.extractLsb' 19 5) (w.extractLsb' 14 5) n m; return mk a b)) :
    Reads (Parse.byte >>= Parse.instr) (fmt67 a b op z 0xCE) (mk a b) := by
  have h := reads_format67 (last := 0xCE) (bs := []) (fun p => pure (mk p.1 p.2)) rfl ha hb hc
    (fun w ho hz => e w ho hz) (reads_pure (mk a b))
  rwa [List.append_nil] at h

/-- Format 8: the two op fields select the branch (R158). -/
theorem reads_format8 {a b : Gen} {r : BitVec 3} {o2 : BitVec 1} {op : BitVec 2} {z : Size} {n m : Nat}
    {check : Parse Unit} {bs : List Byte} {j : Instr} (k : Gen × Gen → Parse Instr)
    (hf : Parse.instr (op ++ (0b101110 : BitVec 6)) = (do Parse.format8 (← Parse.word24 (op ++ (0b101110 : BitVec 6)))))
    (ha : a.fits n) (hb : b.fits m) (hc : Reads check [] ())
    (e : ∀ w : BitVec 24, w.extractLsb' 10 1 = o2 → w.extractLsb' 6 2 = op → w.extractLsb' 8 2 = z.code →
      w.extractLsb' 11 3 = r → Parse.format8 w =
      (do check; let p ← Parse.gen2 (w.extractLsb' 19 5) (w.extractLsb' 14 5) n m; k p))
    (hk : Reads (k (a, b)) bs j) : Reads (Parse.byte >>= Parse.instr) (fmt8 a b r o2 op z ++ bs) j := by
  obtain ⟨fa, fb, fr, fo2, fz, fop⟩ := fmt8_fields a.code b.code r o2 z.code op
  exact reads_operands (fmt8_first _ _ _ _ _ _) hf fa fb ha hb hc (e _ fo2 fop fz fr) hk

/-- A Format 8 instruction with nothing after its operands. -/
theorem reads_format8_only {a b : Gen} {r : BitVec 3} {o2 : BitVec 1} {op : BitVec 2} {z : Size} {n m : Nat}
    {check : Parse Unit} (mk : Gen → Gen → Instr)
    (hf : Parse.instr (op ++ (0b101110 : BitVec 6)) = (do Parse.format8 (← Parse.word24 (op ++ (0b101110 : BitVec 6)))))
    (ha : a.fits n) (hb : b.fits m) (hc : Reads check [] ())
    (e : ∀ w : BitVec 24, w.extractLsb' 10 1 = o2 → w.extractLsb' 6 2 = op → w.extractLsb' 8 2 = z.code →
      w.extractLsb' 11 3 = r → Parse.format8 w =
      (do check; let (a, b) ← Parse.gen2 (w.extractLsb' 19 5) (w.extractLsb' 14 5) n m; return mk a b)) :
    Reads (Parse.byte >>= Parse.instr) (fmt8 a b r o2 op z) (mk a b) := by
  have h := reads_format8 (bs := []) (fun p => pure (mk p.1 p.2)) hf ha hb hc (fun w h2 ho hz hr => e w h2 ho hz hr)
    (reads_pure (mk a b))
  rwa [List.append_nil] at h

/-- Format 9: the op, f and i fields select the branch (R159). -/
theorem reads_format9 {a b : Gen} {op : BitVec 3} {t : BitVec 1} {i : BitVec 2} {n m : Nat} {check : Parse Unit}
    (mk : Gen → Gen → Instr) (ha : a.fits n) (hb : b.fits m) (hc : Reads check [] ())
    (e : ∀ w : BitVec 24, w.extractLsb' 11 3 = op → w.extractLsb' 10 1 = t → w.extractLsb' 8 2 = i → Parse.format9 w =
      (do check; let (a, b) ← Parse.gen2 (w.extractLsb' 19 5) (w.extractLsb' 14 5) n m; return mk a b)) :
    Reads (Parse.byte >>= Parse.instr) (fmt9 a b op t i) (mk a b) := by
  obtain ⟨fa, fb, fop, ft, fi, first⟩ := fmt9_fields a.code b.code op t i
  have h := reads_operands (bs := []) (k := fun p => pure (mk p.1 p.2)) first rfl fa fb ha hb hc (e _ fop ft fi)
    (reads_pure (mk a b))
  rwa [List.append_nil] at h

/-- LFSR and SFSR have one operand, and zero in the other gen field (R159, R164). -/
theorem reads_format9_single {g1 g2 : BitVec 5} {op : BitVec 3} {t : BitVec 1} {i : BitVec 2} {bs : List Byte} {j : Instr}
    {p : BitVec 5 → BitVec 5 → Parse Instr}
    (e : ∀ w : BitVec 24, w.extractLsb' 11 3 = op → w.extractLsb' 10 1 = t → w.extractLsb' 8 2 = i →
      Parse.format9 w = p (w.extractLsb' 19 5) (w.extractLsb' 14 5))
    (h : Reads (p g1 g2) bs j) : Reads (Parse.byte >>= Parse.instr) (fmt9Word g1 g2 op t i ++ bs) j := by
  obtain ⟨fa, fb, fop, ft, fi, first⟩ := fmt9_fields g1 g2 op t i
  exact reads_threeByte first rfl (by rw [e _ fop ft fi, fa, fb]; exact h)

/-- Formats 11 and 12: the op field selects the branch (R161, R162). -/
theorem reads_format11 {last : Byte} {f : BitVec 24 → Parse Instr} {a b : Gen} {op : BitVec 4} {t : FSize}
    (mk : Gen → Gen → Instr) (hf : Parse.instr last = (do f (← Parse.word24 last)))
    (ha : a.fits t.bytes) (hb : b.fits t.bytes)
    (e : ∀ w : BitVec 24, w.extractLsb' 10 4 = op → fsizeOf (w.extractLsb' 8 1) = t → w.getLsbD 9 = false → f w =
      (do let (a, b) ← Parse.gen2 (w.extractLsb' 19 5) (w.extractLsb' 14 5) t.bytes t.bytes; return mk a b)) :
    Reads (Parse.byte >>= Parse.instr) (fmt11 a b op t last) (mk a b) := by
  obtain ⟨fa, fb, fop, ft, f9, first⟩ := fmt11_fields a.code b.code op t.code last
  have size : fsizeOf _ = t := ft ▸ fsizeOf_code t
  have h := reads_operands (bs := []) (k := fun p => pure (mk p.1 p.2)) first hf fa fb ha hb (reads_pure ())
    (e _ fop size f9) (reads_pure (mk a b))
  rwa [List.append_nil] at h

/-! ## Format 5 -/

/-- A field of a field. -/
theorem extract_extract {w : Nat} (v : BitVec w) (b m a n : Nat) (h : a + n ≤ m) :
    (v.extractLsb' b m).extractLsb' a n = v.extractLsb' (b + a) n := by
  apply BitVec.eq_of_getLsbD_eq
  intro k hk
  have inside : a + k < m := by omega
  simp [hk, inside, Nat.add_assoc]

/-- The bits of the short field, where the readers of the options look for them (R155, R169, R441). -/
theorem short_bits {w : BitVec 24} {q : BitVec 4} (h : w.extractLsb' 15 4 = q) :
    w.getLsbD 15 = q.getLsbD 0 ∧ w.getLsbD 16 = q.getLsbD 1 ∧ w.getLsbD 17 = q.getLsbD 2 ∧ w.getLsbD 18 = q.getLsbD 3 ∧
    w.extractLsb' 17 2 = q.extractLsb' 2 2 ∧ w.extractLsb' 16 3 = q.extractLsb' 1 3 := by
  subst h
  refine ⟨?_, ?_, ?_, ?_, ?_, ?_⟩
  iterate 4 simp
  · exact (extract_extract w 15 4 2 2 (by decide)).symm
  · exact (extract_extract w 15 4 1 3 (by decide)).symm

/-- A Format 5 instruction has no extensions: its fields decide it (R155, R441). -/
theorem reads_format5 {q op : BitVec 4} {i : BitVec 2} {j : Instr}
    (e : ∀ w : BitVec 24, w.extractLsb' 19 5 = 0 → w.getLsbD 14 = false → w.extractLsb' 15 4 = q →
      w.extractLsb' 10 4 = op → w.extractLsb' 8 2 = i → Parse.format5 w = pure j) :
    Reads (Parse.byte >>= Parse.instr) (fmt5 q op i) j := by
  obtain ⟨f19, fq, fop, fi, f14, first⟩ := fmt5_fields q op i
  have h := reads_threeByte (bs := []) (i := j) first (f := Parse.format5) rfl
    (by rw [e _ f19 f14 fq fop fi]; exact reads_pure j)
  rwa [List.append_nil] at h

/-- The branch of Format 5's reader for a string instruction, a size or option T in its fields (R169). -/
theorem string_fields {w : BitVec 24} {o : StrOpts} {t : Bool} (h : w.extractLsb' 15 4 = strShort o t) :
    Parse.strOpts w = pure o ∧ w.getLsbD 15 = t := by
  obtain ⟨b0, b1, -, -, ht, -⟩ := short_bits h
  obtain ⟨back, test⟩ := o
  rw [Parse.strOpts, b0, b1, ht]
  cases test <;> cases back <;> cases t <;> exact ⟨rfl, rfl⟩

theorem string_plain {w : BitVec 24} {o : StrOpts} {z : Size} (plain : Size → StrOpts → Instr)
    (translated : StrOpts → Instr) (h : w.extractLsb' 15 4 = strShort o false) (hz : w.extractLsb' 8 2 = z.code) :
    Parse.string w plain translated = pure (plain z o) := by
  obtain ⟨ho, ht⟩ := string_fields h
  rw [Parse.string, ho, ht, hz, sizeOrRefuse_code]
  rfl

theorem string_translated {w : BitVec 24} {o : StrOpts} (plain : Size → StrOpts → Instr)
    (translated : StrOpts → Instr) (h : w.extractLsb' 15 4 = strShort o true) (hz : w.extractLsb' 8 2 = 0) :
    Parse.string w plain translated = pure (translated o) := by
  obtain ⟨ho, ht⟩ := string_fields h
  rw [Parse.string, ho, ht, hz]
  rfl

/-- The fields of a BB instruction: its options, and the two bits that the row fixes (R441). -/
theorem bb_fields {w : BitVec 24} {o : BbOpts} {x : Bool} (h : w.extractLsb' 15 4 = bbShort o x) :
    bbOptsOf w = o ∧ w.getLsbD 18 = false ∧ w.getLsbD 16 = x := by
  obtain ⟨b0, b1, b2, b3, -, -⟩ := short_bits h
  obtain ⟨da, inv⟩ := o
  rw [bbOptsOf, b0, b1, b2, b3]
  cases da <;> cases inv <;> cases x <;> exact ⟨rfl, rfl, rfl⟩

/-! ## Every instruction -/

/-- What an instruction's form is checked for holds in a well-formed one. -/
theorem form_ok {e : IllFormed} {c : Bool} (h : e.unless c = none) : c = true := by
  cases c
  · cases h
  · rfl

theorem reads_noSize : Reads (Parse.noSize .d) [] () := reads_pure ()

/-- An instruction is read back from its own bytes. -/
theorem reads_encode (i : Instr) (h : i.WF) : Reads (Parse.byte >>= Parse.instr) (encode i) i := by
  have fits := fits_of_wf h
  have form := checkForm_of_wf h
  cases i with
  -- Formats 0 and 1
  | bcond c d => exact reads_bcond d (by simpa using form_ok form)
  | br d => exact reads_br d
  | bsr d => exact reads_fmt1 rfl (reads_last (reads_disp d) rfl)
  | ret d => exact reads_fmt1 rfl (reads_last (reads_disp d) rfl)
  | cxp d => exact reads_fmt1 rfl (reads_last (reads_disp d) rfl)
  | rxp d => exact reads_fmt1 rfl (reads_last (reads_disp d) rfl)
  | rett d => exact reads_fmt1 rfl (reads_last (reads_disp d) rfl)
  | reti => exact reads_fmt1_only rfl
  | nop => exact reads_fmt1_only rfl
  | wait => exact reads_fmt1_only rfl
  | dia => exact reads_fmt1_only rfl
  | flag => exact reads_fmt1_only rfl
  | svc => exact reads_fmt1_only rfl
  | bpt => exact reads_fmt1_only rfl
  | save l => exact reads_fmt1 rfl (reads_last (reads_byte l) rfl)
  | restore l => exact reads_fmt1 rfl (reads_last (reads_byte l) rfl)
  | exit l => exact reads_fmt1 rfl (reads_last (reads_byte l) rfl)
  | enter l d =>
    rw [encode, List.append_assoc]
    exact reads_fmt1 rfl (reads_bind (reads_byte l) (reads_last (reads_disp d) rfl))
  -- Format 2
  | addqi i q g =>
    exact reads_format2_operand (field := pure) (.addqi i) (by decide) (fits _ (.head _)) (reads_pure q)
      fun w hw => by rw [Parse.format2, hw]; rfl
  | cmpqi i q g =>
    exact reads_format2_operand (field := pure) (.cmpqi i) (by decide) (fits _ (.head _)) (reads_pure q)
      fun w hw => by rw [Parse.format2, hw]; rfl
  | movqi i q g =>
    exact reads_format2_operand (field := pure) (.movqi i) (by decide) (fits _ (.head _)) (reads_pure q)
      fun w hw => by rw [Parse.format2, hw]; rfl
  | spri i a g =>
    exact reads_format2_operand (.spri i) (by decide) (fits _ (.head _)) (reads_areg a)
      fun w hw => by rw [Parse.format2, hw]; rfl
  | lpri i a g =>
    exact reads_format2_operand (.lpri i) (by decide) (fits _ (.head _)) (reads_areg a)
      fun w hw => by rw [Parse.format2, hw]; rfl
  | scondi i c g =>
    exact reads_format2_operand (field := fun q => pure (condOf q)) (.scondi i) (by decide) (fits _ (.head _))
      (by rw [condOf_code]; exact reads_pure c) fun w hw => by rw [Parse.format2, hw]; rfl
  | acbi i q g d => exact reads_acbi i q g d (fits _ (.head _))
  -- Format 3
  | cxpd g => exact reads_format3_operand .cxpd (fits _ (.head _)) reads_noSize fun w hw => by rw [Parse.format3, hw]; rfl
  | jump g => exact reads_format3_operand .jump (fits _ (.head _)) reads_noSize fun w hw => by rw [Parse.format3, hw]; rfl
  | jsr g => exact reads_format3_operand .jsr (fits _ (.head _)) reads_noSize fun w hw => by rw [Parse.format3, hw]; rfl
  | bicpsri i g => exact reads_format3_operand (.bicpsri i) (fits _ (.head _)) (reads_pure ()) fun w hw => by rw [Parse.format3, hw]; rfl
  | bispsri i g => exact reads_format3_operand (.bispsri i) (fits _ (.head _)) (reads_pure ()) fun w hw => by rw [Parse.format3, hw]; rfl
  | adjspi i g => exact reads_format3_operand (.adjspi i) (fits _ (.head _)) (reads_pure ()) fun w hw => by rw [Parse.format3, hw]; rfl
  | casei i g => exact reads_format3_operand (.casei i) (fits _ (.head _)) (reads_pure ()) fun w hw => by rw [Parse.format3, hw]; rfl
  | undefFormat3 g o i => exact reads_undefFormat3 g o i
  | undefFormat3Op1000 g i => exact reads_format3_undefined fun w hw hg _ => by rw [Parse.format3, hw, hg]; rfl
  -- Format 4
  | addi i a b =>
    exact reads_format4 (.addi i) (by decide) (fits _ (.head _)) (fits _ (.tail _ (.head _))) (reads_pure ())
      fun w hw => by rw [Parse.format4, hw]; rfl
  | cmpi i a b =>
    exact reads_format4 (.cmpi i) (by decide) (fits _ (.head _)) (fits _ (.tail _ (.head _))) (reads_pure ())
      fun w hw => by rw [Parse.format4, hw]; rfl
  | bici i a b =>
    exact reads_format4 (.bici i) (by decide) (fits _ (.head _)) (fits _ (.tail _ (.head _))) (reads_pure ())
      fun w hw => by rw [Parse.format4, hw]; rfl
  | addci i a b =>
    exact reads_format4 (.addci i) (by decide) (fits _ (.head _)) (fits _ (.tail _ (.head _))) (reads_pure ())
      fun w hw => by rw [Parse.format4, hw]; rfl
  | movi i a b =>
    exact reads_format4 (.movi i) (by decide) (fits _ (.head _)) (fits _ (.tail _ (.head _))) (reads_pure ())
      fun w hw => by rw [Parse.format4, hw]; rfl
  | ori i a b =>
    exact reads_format4 (.ori i) (by decide) (fits _ (.head _)) (fits _ (.tail _ (.head _))) (reads_pure ())
      fun w hw => by rw [Parse.format4, hw]; rfl
  | subi i a b =>
    exact reads_format4 (.subi i) (by decide) (fits _ (.head _)) (fits _ (.tail _ (.head _))) (reads_pure ())
      fun w hw => by rw [Parse.format4, hw]; rfl
  | andi i a b =>
    exact reads_format4 (.andi i) (by decide) (fits _ (.head _)) (fits _ (.tail _ (.head _))) (reads_pure ())
      fun w hw => by rw [Parse.format4, hw]; rfl
  | subci i a b =>
    exact reads_format4 (.subci i) (by decide) (fits _ (.head _)) (fits _ (.tail _ (.head _))) (reads_pure ())
      fun w hw => by rw [Parse.format4, hw]; rfl
  | tbiti i a b =>
    exact reads_format4 (.tbiti i) (by decide) (fits _ (.head _)) (fits _ (.tail _ (.head _))) (reads_pure ())
      fun w hw => by rw [Parse.format4, hw]; rfl
  | xori i a b =>
    exact reads_format4 (.xori i) (by decide) (fits _ (.head _)) (fits _ (.tail _ (.head _))) (reads_pure ())
      fun w hw => by rw [Parse.format4, hw]; rfl
  | addr a b =>
    exact reads_format4 .addr (by decide) (fits _ (.head _)) (fits _ (.tail _ (.head _))) reads_noSize
      fun w hw => by rw [Parse.format4, hw]; rfl
  -- Format 5
  | movsi i o =>
    exact reads_format5 fun w h19 h14 hq ho hi => by
      rw [Parse.format5, h19, h14, ho]; exact string_plain .movsi .movst hq hi
  | movst o =>
    exact reads_format5 fun w h19 h14 hq ho hi => by
      rw [Parse.format5, h19, h14, ho]; exact string_translated .movsi .movst hq hi
  | cmpsi i o =>
    exact reads_format5 fun w h19 h14 hq ho hi => by
      rw [Parse.format5, h19, h14, ho]; exact string_plain .cmpsi .cmpst hq hi
  | cmpst o =>
    exact reads_format5 fun w h19 h14 hq ho hi => by
      rw [Parse.format5, h19, h14, ho]; exact string_translated .cmpsi .cmpst hq hi
  | skpsi i o =>
    exact reads_format5 fun w h19 h14 hq ho hi => by
      rw [Parse.format5, h19, h14, ho]; exact string_plain .skpsi .skpst hq hi
  | skpst o =>
    exact reads_format5 fun w h19 h14 hq ho hi => by
      rw [Parse.format5, h19, h14, ho]; exact string_translated .skpsi .skpst hq hi
  | setcfg o => exact reads_format5 fun w h19 h14 hq ho hi => by rw [Parse.format5, h19, h14, ho, hi, hq]; rfl
  | bbor o =>
    exact reads_format5 fun w h19 h14 hq ho hi => by
      obtain ⟨h, h18, h16⟩ := bb_fields hq
      rw [Parse.format5, h19, h14, ho, hi, h, h18, h16]; rfl
  | bband o =>
    exact reads_format5 fun w h19 h14 hq ho hi => by
      obtain ⟨h, h18, h16⟩ := bb_fields hq
      rw [Parse.format5, h19, h14, ho, hi, h, h18, h16]; rfl
  | bbxor o =>
    exact reads_format5 fun w h19 h14 hq ho hi => by
      obtain ⟨h, h18, h16⟩ := bb_fields hq
      rw [Parse.format5, h19, h14, ho, hi, h, h18, h16]; rfl
  | bbstod o =>
    exact reads_format5 fun w h19 h14 hq ho hi => by
      obtain ⟨h, h18, h16⟩ := bb_fields hq
      rw [Parse.format5, h19, h14, ho, hi, h, h18, h16]; rfl
  | extblt => exact reads_format5 fun w h19 h14 hq ho hi => by rw [Parse.format5, h19, h14, ho, hi, hq]; rfl
  | bitwt => exact reads_format5 fun w h19 h14 hq ho hi => by rw [Parse.format5, h19, h14, ho, hi, hq]; rfl
  | sbitps => exact reads_format5 fun w h19 h14 hq ho hi => by rw [Parse.format5, h19, h14, ho, hi, hq]; rfl
  | bbfor => exact reads_format5 fun w h19 h14 hq ho hi => by rw [Parse.format5, h19, h14, ho, hi, hq]; rfl
  | sbits => exact reads_format5 fun w h19 h14 hq ho hi => by rw [Parse.format5, h19, h14, ho, hi, hq]; rfl
  | movmpi i => exact reads_format5 fun w h19 h14 hq ho hi => by rw [Parse.format5, h19, h14, ho, hi, hq, size_code]; rfl
  | tbits o =>
    exact reads_format5 fun w h19 h14 hq ho hi => by
      obtain ⟨h15, -, -, -, -, h16⟩ := short_bits hq
      rw [Parse.format5, h19, h14, ho, hi, h15, h16]
      cases o <;> rfl
  -- Format 6
  | roti i a b =>
    exact reads_format6 (.roti i) (fits _ (.head _)) (fits _ (.tail _ (.head _))) fun w ho hz => by rw [Parse.format6, ho, hz, size_code]; rfl
  | ashi i a b =>
    exact reads_format6 (.ashi i) (fits _ (.head _)) (fits _ (.tail _ (.head _))) fun w ho hz => by rw [Parse.format6, ho, hz, size_code]; rfl
  | cbiti i a b =>
    exact reads_format6 (.cbiti i) (fits _ (.head _)) (fits _ (.tail _ (.head _))) fun w ho hz => by rw [Parse.format6, ho, hz, size_code]; rfl
  | cbitii i a b =>
    exact reads_format6 (.cbitii i) (fits _ (.head _)) (fits _ (.tail _ (.head _))) fun w ho hz => by rw [Parse.format6, ho, hz, size_code]; rfl
  | lshi i a b =>
    exact reads_format6 (.lshi i) (fits _ (.head _)) (fits _ (.tail _ (.head _))) fun w ho hz => by rw [Parse.format6, ho, hz, size_code]; rfl
  | sbiti i a b =>
    exact reads_format6 (.sbiti i) (fits _ (.head _)) (fits _ (.tail _ (.head _))) fun w ho hz => by rw [Parse.format6, ho, hz, size_code]; rfl
  | sbitii i a b =>
    exact reads_format6 (.sbitii i) (fits _ (.head _)) (fits _ (.tail _ (.head _))) fun w ho hz => by rw [Parse.format6, ho, hz, size_code]; rfl
  | negi i a b =>
    exact reads_format6 (.negi i) (fits _ (.head _)) (fits _ (.tail _ (.head _))) fun w ho hz => by rw [Parse.format6, ho, hz, size_code]; rfl
  | noti i a b =>
    exact reads_format6 (.noti i) (fits _ (.head _)) (fits _ (.tail _ (.head _))) fun w ho hz => by rw [Parse.format6, ho, hz, size_code]; rfl
  | subpi i a b =>
    exact reads_format6 (.subpi i) (fits _ (.head _)) (fits _ (.tail _ (.head _))) fun w ho hz => by rw [Parse.format6, ho, hz, size_code]; rfl
  | absi i a b =>
    exact reads_format6 (.absi i) (fits _ (.head _)) (fits _ (.tail _ (.head _))) fun w ho hz => by rw [Parse.format6, ho, hz, size_code]; rfl
  | comi i a b =>
    exact reads_format6 (.comi i) (fits _ (.head _)) (fits _ (.tail _ (.head _))) fun w ho hz => by rw [Parse.format6, ho, hz, size_code]; rfl
  | ibiti i a b =>
    exact reads_format6 (.ibiti i) (fits _ (.head _)) (fits _ (.tail _ (.head _))) fun w ho hz => by rw [Parse.format6, ho, hz, size_code]; rfl
  | addpi i a b =>
    exact reads_format6 (.addpi i) (fits _ (.head _)) (fits _ (.tail _ (.head _))) fun w ho hz => by rw [Parse.format6, ho, hz, size_code]; rfl
  -- Format 7
  | muli i a b =>
    exact reads_format7 (.muli i) (fits _ (.head _)) (fits _ (.tail _ (.head _))) (reads_pure ()) fun w ho hz => by rw [Parse.format7, ho, hz, size_code]; rfl
  | quoi i a b =>
    exact reads_format7 (.quoi i) (fits _ (.head _)) (fits _ (.tail _ (.head _))) (reads_pure ()) fun w ho hz => by rw [Parse.format7, ho, hz, size_code]; rfl
  | remi i a b =>
    exact reads_format7 (.remi i) (fits _ (.head _)) (fits _ (.tail _ (.head _))) (reads_pure ()) fun w ho hz => by rw [Parse.format7, ho, hz, size_code]; rfl
  | modi i a b =>
    exact reads_format7 (.modi i) (fits _ (.head _)) (fits _ (.tail _ (.head _))) (reads_pure ()) fun w ho hz => by rw [Parse.format7, ho, hz, size_code]; rfl
  | divi i a b =>
    exact reads_format7 (.divi i) (fits _ (.head _)) (fits _ (.tail _ (.head _))) (reads_pure ()) fun w ho hz => by rw [Parse.format7, ho, hz, size_code]; rfl
  | meii i a b =>
    exact reads_format7 (.meii i) (fits _ (.head _)) (fits _ (.tail _ (.head _))) (reads_pure ()) fun w ho hz => by rw [Parse.format7, ho, hz, size_code]; rfl
  | deii i a b =>
    exact reads_format7 (.deii i) (fits _ (.head _)) (fits _ (.tail _ (.head _))) (reads_pure ()) fun w ho hz => by rw [Parse.format7, ho, hz, size_code]; rfl
  | movzid i a b =>
    exact reads_format7 (.movzid i) (fits _ (.head _)) (fits _ (.tail _ (.head _))) (reads_pure ()) fun w ho hz => by rw [Parse.format7, ho, hz, size_code]; rfl
  | movxid i a b =>
    exact reads_format7 (.movxid i) (fits _ (.head _)) (fits _ (.tail _ (.head _))) (reads_pure ()) fun w ho hz => by rw [Parse.format7, ho, hz, size_code]; rfl
  | movxbw a b =>
    exact reads_format7 .movxbw (fits _ (.head _)) (fits _ (.tail _ (.head _))) (reads_pure ()) fun w ho hz => by rw [Parse.format7, ho, hz, size_code]; rfl
  | movzbw a b =>
    exact reads_format7 .movzbw (fits _ (.head _)) (fits _ (.tail _ (.head _))) (reads_pure ()) fun w ho hz => by rw [Parse.format7, ho, hz, size_code]; rfl
  | movmi i a b d =>
    exact reads_format67 (fun p => do return .movmi i p.1 p.2 (← Parse.disp)) rfl (fits _ (.head _)) (fits _ (.tail _ (.head _))) (reads_pure ())
      (fun w ho hz => by rw [Parse.format7, ho, hz, size_code]; rfl) (reads_last (reads_disp d) rfl)
  | cmpmi i a b d =>
    exact reads_format67 (fun p => do return .cmpmi i p.1 p.2 (← Parse.disp)) rfl (fits _ (.head _)) (fits _ (.tail _ (.head _))) (reads_pure ())
      (fun w ho hz => by rw [Parse.format7, ho, hz, size_code]; rfl) (reads_last (reads_disp d) rfl)
  | inssi i a b o l =>
    exact reads_format67 (fun p => do let (o, l) ← Parse.shortField; return .inssi i p.1 p.2 o l) rfl (fits _ (.head _)) (fits _ (.tail _ (.head _)))
      (reads_pure ()) (fun w ho hz => by rw [Parse.format7, ho, hz, size_code]; rfl) (reads_last (reads_shortField o l) rfl)
  | extsi i a b o l =>
    exact reads_format67 (fun p => do let (o, l) ← Parse.shortField; return .extsi i p.1 p.2 o l) rfl (fits _ (.head _)) (fits _ (.tail _ (.head _)))
      (reads_pure ()) (fun w ho hz => by rw [Parse.format7, ho, hz, size_code]; rfl) (reads_last (reads_shortField o l) rfl)
  -- Format 8
  | exti i r a b d =>
    exact reads_format8 (fun p => do return .exti i r p.1 p.2 (← Parse.disp)) rfl (fits _ (.head _)) (fits _ (.tail _ (.head _)))
      (reads_pure ()) (fun w h2 ho hz hr => by rw [Parse.format8, h2, ho, hz, hr, size_code]; rfl) (reads_last (reads_disp d) rfl)
  | insi i r a b d =>
    exact reads_format8 (fun p => do return .insi i r p.1 p.2 (← Parse.disp)) rfl (fits _ (.head _)) (fits _ (.tail _ (.head _)))
      (reads_pure ()) (fun w h2 ho hz hr => by rw [Parse.format8, h2, ho, hz, hr, size_code]; rfl) (reads_last (reads_disp d) rfl)
  | checki i r a b =>
    exact reads_format8_only (.checki i r) rfl (fits _ (.head _)) (fits _ (.tail _ (.head _)))
      (reads_pure ()) (fun w h2 ho hz hr => by rw [Parse.format8, h2, ho, hz, hr, size_code]; rfl)
  | indexi i r a b =>
    exact reads_format8_only (.indexi i r) rfl (fits _ (.head _)) (fits _ (.tail _ (.head _)))
      (reads_pure ()) (fun w h2 ho hz hr => by rw [Parse.format8, h2, ho, hz, hr, size_code]; rfl)
  | cvtp r a b =>
    exact reads_format8_only (.cvtp r) rfl (fits _ (.head _)) (fits _ (.tail _ (.head _)))
      (reads_pure ()) (fun w h2 ho hz hr => by rw [Parse.format8, h2, ho, hz, hr, size_code]; rfl)
  | ffsi i a b =>
    exact reads_format8_only (.ffsi i) rfl (fits _ (.head _)) (fits _ (.tail _ (.head _)))
      (reads_pure ()) (fun w h2 ho hz hr => by rw [Parse.format8, h2, ho, hz, hr, size_code]; rfl)
  -- Format 9
  | movif i t a b =>
    exact reads_format9 (.movif i t) (fits _ (.head _)) (fits _ (.tail _ (.head _))) (reads_pure ())
      fun w ho ht hi => by rw [Parse.format9, ho, ht, hi, fsizeOf_code, sizeOrRefuse_code]; rfl
  | roundfi t i a b =>
    exact reads_format9 (.roundfi t i) (fits _ (.head _)) (fits _ (.tail _ (.head _))) (reads_pure ())
      fun w ho ht hi => by rw [Parse.format9, ho, ht, hi, fsizeOf_code, sizeOrRefuse_code]; rfl
  | truncfi t i a b =>
    exact reads_format9 (.truncfi t i) (fits _ (.head _)) (fits _ (.tail _ (.head _))) (reads_pure ())
      fun w ho ht hi => by rw [Parse.format9, ho, ht, hi, fsizeOf_code, sizeOrRefuse_code]; rfl
  | floorfi t i a b =>
    exact reads_format9 (.floorfi t i) (fits _ (.head _)) (fits _ (.tail _ (.head _))) (reads_pure ())
      fun w ho ht hi => by rw [Parse.format9, ho, ht, hi, fsizeOf_code, sizeOrRefuse_code]; rfl
  | movlf a b =>
    exact reads_format9 .movlf (fits _ (.head _)) (fits _ (.tail _ (.head _))) (reads_pure ())
      fun w ho ht hi => by rw [Parse.format9, ho, ht, hi]; rfl
  | movfl a b =>
    exact reads_format9 .movfl (fits _ (.head _)) (fits _ (.tail _ (.head _))) (reads_pure ())
      fun w ho ht hi => by rw [Parse.format9, ho, ht, hi]; rfl
  | lfsr a =>
    rw [encode, List.append_assoc]
    exact reads_format9_single (p := fun g1 g2 => do Parse.zeroGen g2; return .lfsr (← Parse.gen1 g1 4))
      (fun w ho ht hi => by rw [Parse.format9, ho, ht, hi]; rfl)
      (reads_after (reads_pure ()) (reads_last (reads_gen1 a 4 (fits _ (.head _))) rfl))
  | sfsr b =>
    rw [encode, List.append_assoc]
    exact reads_format9_single (p := fun g1 g2 => do Parse.zeroGen g1; return .sfsr (← Parse.gen1 g2 4))
      (fun w ho ht hi => by rw [Parse.format9, ho, ht, hi]; rfl)
      (reads_after (reads_pure ()) (reads_last (reads_gen1 b 4 (fits _ (.head _))) rfl))
  -- Formats 11 and 12
  | addf t a b =>
    exact reads_format11 (.addf t) rfl (fits _ (.head _)) (fits _ (.tail _ (.head _))) fun w ho ht h9 => by
      rw [Parse.format11, h9, ho, ht]; rfl
  | movf t a b =>
    exact reads_format11 (.movf t) rfl (fits _ (.head _)) (fits _ (.tail _ (.head _))) fun w ho ht h9 => by
      rw [Parse.format11, h9, ho, ht]; rfl
  | cmpf t a b =>
    exact reads_format11 (.cmpf t) rfl (fits _ (.head _)) (fits _ (.tail _ (.head _))) fun w ho ht h9 => by
      rw [Parse.format11, h9, ho, ht]; rfl
  | subf t a b =>
    exact reads_format11 (.subf t) rfl (fits _ (.head _)) (fits _ (.tail _ (.head _))) fun w ho ht h9 => by
      rw [Parse.format11, h9, ho, ht]; rfl
  | negf t a b =>
    exact reads_format11 (.negf t) rfl (fits _ (.head _)) (fits _ (.tail _ (.head _))) fun w ho ht h9 => by
      rw [Parse.format11, h9, ho, ht]; rfl
  | divf t a b =>
    exact reads_format11 (.divf t) rfl (fits _ (.head _)) (fits _ (.tail _ (.head _))) fun w ho ht h9 => by
      rw [Parse.format11, h9, ho, ht]; rfl
  | mulf t a b =>
    exact reads_format11 (.mulf t) rfl (fits _ (.head _)) (fits _ (.tail _ (.head _))) fun w ho ht h9 => by
      rw [Parse.format11, h9, ho, ht]; rfl
  | absf t a b =>
    exact reads_format11 (.absf t) rfl (fits _ (.head _)) (fits _ (.tail _ (.head _))) fun w ho ht h9 => by
      rw [Parse.format11, h9, ho, ht]; rfl
  | polyf t a b =>
    exact reads_format11 (.polyf t) rfl (fits _ (.head _)) (fits _ (.tail _ (.head _))) fun w ho ht h9 => by
      rw [Parse.format12, h9, ho, ht]; rfl
  | dotf t a b =>
    exact reads_format11 (.dotf t) rfl (fits _ (.head _)) (fits _ (.tail _ (.head _))) fun w ho ht h9 => by
      rw [Parse.format12, h9, ho, ht]; rfl
  | scalbf t a b =>
    exact reads_format11 (.scalbf t) rfl (fits _ (.head _)) (fits _ (.tail _ (.head _))) fun w ho ht h9 => by
      rw [Parse.format12, h9, ho, ht]; rfl
  | logbf t a b =>
    exact reads_format11 (.logbf t) rfl (fits _ (.head _)) (fits _ (.tail _ (.head _))) fun w ho ht h9 => by
      rw [Parse.format12, h9, ho, ht]; rfl

/-- Settles O59: the reader of an encoded instruction takes exactly its bytes. -/
theorem decodeEncode : Obligations.DecodeEncode := fun i rest h => reads_encode i h rest

end Sys2Proof
end

section
/-!
What the decoder does with some bytes does not depend on the bytes after them (30_encoding.md R120 to R163): bytes that
name an instruction, or are refused, stay so, and an instruction whose bytes were cut short ends behind the cut. `Stable`
says this of a reader; it passes from the parts of a reader to the whole.
-/
namespace Sys2Proof

/-- More bytes at the end change nothing but what is left over; bytes that were too few are all taken. -/
structure Stable {α : Type} (p : Parse α) : Prop where
  shorter : ∀ {bs a r}, p bs = .ok (a, r) → r.length ≤ bs.length
  ok : ∀ {bs a r}, p bs = .ok (a, r) → ∀ cs, p (bs ++ cs) = .ok (a, r ++ cs)
  error : ∀ {bs e}, p bs = .error e → e ≠ .outOfBytes → ∀ cs, p (bs ++ cs) = .error e
  cut : ∀ {bs cs a r}, p bs = .error .outOfBytes → p (bs ++ cs) = .ok (a, r) → r.length < cs.length

/-! ## Sequences -/

theorem stable_pure {α : Type} (a : α) : Stable (pure a : Parse α) where
  shorter h := by cases h; exact Nat.le_refl _
  ok h cs := by cases h; rfl
  error h := nomatch h
  cut h := nomatch h

theorem stable_reject {α : Type} {e : DecodeError} (he : e ≠ .outOfBytes) : Stable (Parse.reject e : Parse α) where
  shorter h := nomatch h
  ok h := nomatch h
  error h _ cs := by cases h; rfl
  cut h := by cases h; exact absurd rfl he

theorem stable_byte : Stable Parse.byte where
  shorter {bs a r} h := by
    cases bs with
    | nil => cases h
    | cons b bs => cases h; exact Nat.le_succ _
  ok {bs a r} h cs := by
    cases bs with
    | nil => cases h
    | cons b bs => cases h; rfl
  error {bs e} h he := by
    cases bs with
    | nil => cases h; exact absurd rfl he
    | cons b bs => cases h
  cut {bs cs a r} h k := by
    cases bs with
    | cons b bs => cases h
    | nil =>
      cases cs with
      | nil => cases k
      | cons c cs => cases k; exact Nat.lt_succ_self _

theorem stable_bind {α β : Type} {p : Parse α} {f : α → Parse β} (h : Stable p) (k : ∀ a, Stable (f a)) :
    Stable (p >>= f) where
  shorter {bs b r} e := by
    rw [parse_bind] at e
    split at e
    · next a r1 e1 => exact ((k a).shorter e).trans (h.shorter e1)
    · cases e
  ok {bs b r} e cs := by
    rw [parse_bind] at e ⊢
    split at e
    · next a r1 e1 => rw [h.ok e1 cs]; exact (k a).ok e cs
    · cases e
  error {bs x} e hx cs := by
    rw [parse_bind] at e ⊢
    split at e
    · next a r1 e1 => rw [h.ok e1 cs]; exact (k a).error e hx cs
    · next y e1 => cases e; rw [h.error e1 hx cs]
  cut {bs cs b r} e e' := by
    rw [parse_bind] at e e'
    split at e
    · next a r1 e1 => rw [h.ok e1 cs] at e'; exact (k a).cut e e'
    · next y e1 =>
      cases e
      split at e'
      · next a r1 e2 => exact Nat.lt_of_le_of_lt ((k a).shorter e') (h.cut e1 e2)
      · cases e'

theorem stable_ite {α : Type} {c : Prop} [Decidable c] {p q : Parse α} (h : Stable p) (k : Stable q) :
    Stable (if c then p else q) := by split <;> assumption

/-- A last part that only puts a value together. -/
theorem stable_map {α β : Type} {p : Parse α} (f : α → β) (h : Stable p) : Stable (do let a ← p; return f a) :=
  stable_bind h fun _ => stable_pure _

/-! ## Displacements, immediates, operands -/

theorem stable_half : Stable Parse.half := stable_bind stable_byte fun _ => stable_map _ stable_byte

theorem stable_dword : Stable Parse.dword := stable_bind stable_half fun _ => stable_map _ stable_half

theorem stable_quad : Stable Parse.quad := stable_bind stable_dword fun _ => stable_map _ stable_dword

theorem stable_disp : Stable Parse.disp :=
  stable_bind stable_byte fun _ => stable_ite (stable_pure _) (stable_ite (stable_map _ stable_byte)
    (stable_bind stable_byte fun _ => stable_map _ stable_half))

theorem stable_imm (n : Nat) : Stable (Parse.imm n) := by
  unfold Parse.imm
  split
  · exact stable_map _ stable_byte
  · exact stable_map _ stable_half
  · exact stable_map _ stable_dword
  · exact stable_map _ stable_quad

theorem stable_index (g : BitVec 5) : Stable (Parse.index g) := stable_ite stable_byte (stable_pure _)

theorem stable_base (g : BitVec 5) (n : Nat) : Stable (Parse.base g n) := by
  have one (f : Disp → Base) : Stable (do let d ← Parse.disp; return f d) := stable_map f stable_disp
  have two (f : Disp → Disp → Base) : Stable (do let d ← Parse.disp; let e ← Parse.disp; return f d e) :=
    stable_bind stable_disp fun _ => stable_map _ stable_disp
  unfold Parse.base
  split
  · exact stable_pure _
  · exact one _
  · split
    · exact two (.memRel .fp)
    · exact two (.memRel .sp)
    · exact two (.memRel .sb)
    · exact stable_reject (by decide)
    · exact stable_map _ (stable_imm n)
    · exact one _
    · exact two .ext
    · exact stable_pure _
  · split
    case h_5 => exact stable_reject (by decide)
    all_goals exact one _

theorem stable_gen (g : BitVec 5) (ix : Byte) (n : Nat) : Stable (Parse.gen g ix n) :=
  stable_ite (stable_ite (stable_reject (by decide)) (stable_map _ (stable_base _ n))) (stable_map _ (stable_base g n))

theorem stable_gen1 (g : BitVec 5) (n : Nat) : Stable (Parse.gen1 g n) :=
  stable_bind (stable_index g) fun _ => stable_gen g _ n

theorem stable_gen2 (g1 g2 : BitVec 5) (n m : Nat) : Stable (Parse.gen2 g1 g2 n m) :=
  stable_bind (stable_index g1) fun _ => stable_bind (stable_index g2) fun _ =>
    stable_bind (stable_gen g1 _ n) fun _ => stable_map _ (stable_gen g2 _ m)

/-- Two operands, then the rest. -/
theorem stable_operands {g1 g2 : BitVec 5} {n m : Nat} {k : Gen → Gen → Parse Instr} (h : ∀ a b, Stable (k a b)) :
    Stable (do let (a, b) ← Parse.gen2 g1 g2 n m; k a b) :=
  stable_bind (stable_gen2 g1 g2 n m) fun ⟨a, b⟩ => h a b

/-- Two operands and nothing more. -/
theorem stable_two {g1 g2 : BitVec 5} {n m : Nat} (mk : Gen → Gen → Instr) :
    Stable (do let (a, b) ← Parse.gen2 g1 g2 n m; return mk a b) := stable_operands fun _ _ => stable_pure _

/-- One operand and nothing more. -/
theorem stable_one {g : BitVec 5} {n : Nat} (mk : Gen → Instr) :
    Stable (do let a ← Parse.gen1 g n; return mk a) := stable_map mk (stable_gen1 g n)

/-! ## Fields -/

theorem stable_size (i : BitVec 2) : Stable (Parse.size i) := by
  unfold Parse.size
  split
  · exact stable_pure _
  · exact stable_reject (by decide)

theorem stable_sizeOrRefuse (i : BitVec 2) : Stable (Parse.sizeOrRefuse i) := by
  unfold Parse.sizeOrRefuse
  split
  · exact stable_pure _
  · exact stable_reject (by decide)

theorem stable_areg (a : BitVec 4) : Stable (Parse.areg a) := by
  unfold Parse.areg
  split
  case h_8 => exact stable_reject (by decide)
  all_goals exact stable_pure _

theorem stable_noSize (z : Size) : Stable (Parse.noSize z) := stable_ite (stable_pure _) (stable_reject (by decide))

theorem stable_byteOnly (z : Size) : Stable (Parse.byteOnly z) := stable_ite (stable_pure _) (stable_reject (by decide))

theorem stable_canonical (c : Bool) : Stable (Parse.canonical c) := stable_ite (stable_pure _) (stable_reject (by decide))

theorem stable_zeroGen (g : BitVec 5) : Stable (Parse.zeroGen g) := stable_ite (stable_pure _) (stable_reject (by decide))

theorem stable_exactly (c : Bool) (i : Instr) : Stable (Parse.exactly c i) :=
  stable_ite (stable_pure _) (stable_reject (by decide))

theorem stable_strOpts (w : BitVec 24) : Stable (Parse.strOpts w) := by
  unfold Parse.strOpts
  split
  case h_4 => exact stable_reject (by decide)
  all_goals exact stable_pure _

theorem stable_string (w : BitVec 24) (plain : Size → StrOpts → Instr) (translated : StrOpts → Instr) :
    Stable (Parse.string w plain translated) :=
  stable_bind (stable_strOpts w) fun _ => stable_ite (stable_ite (stable_pure _) (stable_reject (by decide)))
    (stable_map _ (stable_sizeOrRefuse _))

theorem stable_shortField : Stable Parse.shortField := stable_map _ stable_byte

/-! ## Formats -/

theorem stable_format0 (w : Byte) : Stable (Parse.format0 w) :=
  stable_bind stable_disp fun _ => by split <;> exact stable_pure _

theorem stable_format1 (w : Byte) : Stable (Parse.format1 w) := by
  unfold Parse.format1
  split
  case h_7 | h_8 | h_10 => exact stable_map _ stable_byte
  case h_9 => exact stable_bind stable_byte fun _ => stable_map _ stable_disp
  case h_1 | h_2 | h_3 | h_4 | h_5 => exact stable_map _ stable_disp
  all_goals exact stable_pure _

theorem stable_format2 (w : Half) (z : Size) : Stable (Parse.format2 w z) := by
  unfold Parse.format2
  dsimp only
  split
  case h_3 | h_7 => exact stable_bind (stable_areg _) fun _ => stable_one _
  case h_5 => exact stable_bind (stable_gen1 _ _) fun _ => stable_map _ stable_disp
  all_goals exact stable_one _

theorem stable_format3 (w : Half) (z : Size) : Stable (Parse.format3 w z) := by
  unfold Parse.format3
  dsimp only
  split
  case h_1 | h_3 | h_7 => exact stable_bind (stable_noSize z) fun _ => stable_one _
  case h_5 | h_9 => exact stable_pure _
  all_goals exact stable_one _

theorem stable_format4 (w : Half) (z : Size) : Stable (Parse.format4 w z) := by
  unfold Parse.format4
  dsimp only
  split
  case h_8 => exact stable_bind (stable_noSize z) fun _ => stable_two _
  case h_13 => exact stable_reject (by decide)
  all_goals exact stable_two _

theorem stable_format5 (w : BitVec 24) : Stable (Parse.format5 w) := by
  unfold Parse.format5
  refine stable_ite (stable_reject (by decide)) ?_
  split
  case h_1 | h_2 | h_4 => exact stable_string _ _ _
  case h_3 => exact stable_ite (stable_pure _) (stable_reject (by decide))
  case h_8 => exact stable_bind (stable_size _) fun _ => stable_exactly _ _
  case h_16 => exact stable_reject (by decide)
  all_goals exact stable_exactly _ _

theorem stable_format6 (w : BitVec 24) : Stable (Parse.format6 w) := by
  refine stable_bind (stable_size _) fun z => ?_
  dsimp only
  split
  case h_15 => exact stable_reject (by decide)
  all_goals exact stable_two _

theorem stable_format7 (w : BitVec 24) : Stable (Parse.format7 w) := by
  refine stable_bind (stable_size _) fun z => ?_
  dsimp only
  split
  case h_1 | h_2 => exact stable_operands fun _ _ => stable_map _ stable_disp
  case h_3 | h_4 => exact stable_bind (stable_gen2 _ _ _ _) fun _ => stable_map _ stable_shortField
  case h_5 | h_6 => exact stable_bind (stable_byteOnly z) fun _ => stable_two _
  case h_16 => exact stable_reject (by decide)
  all_goals exact stable_two _

theorem stable_format8 (w : BitVec 24) : Stable (Parse.format8 w) := by
  refine stable_bind (stable_size _) fun z => ?_
  dsimp only
  split
  case h_1 | h_3 => exact stable_operands fun _ _ => stable_map _ stable_disp
  case h_2 => exact stable_bind (stable_noSize z) fun _ => stable_two _
  case h_6 => exact stable_ite (stable_two _) (stable_reject (by decide))
  case h_7 => exact stable_reject (by decide)
  all_goals exact stable_two _

theorem stable_format9 (w : BitVec 24) : Stable (Parse.format9 w) := by
  unfold Parse.format9
  dsimp only
  split
  case h_2 | h_7 =>
    exact stable_bind (stable_canonical _) fun _ => stable_bind (stable_zeroGen _) fun _ => stable_one _
  case h_3 | h_4 => exact stable_bind (stable_canonical _) fun _ => stable_two _
  all_goals exact stable_bind (stable_sizeOrRefuse _) fun _ => stable_two _

theorem stable_format11 (w : BitVec 24) : Stable (Parse.format11 w) := by
  refine stable_ite (stable_reject (by decide)) ?_
  split
  case h_9 => exact stable_reject (by decide)
  all_goals exact stable_two _

theorem stable_format12 (w : BitVec 24) : Stable (Parse.format12 w) := by
  refine stable_ite (stable_reject (by decide)) ?_
  split
  case h_5 => exact stable_reject (by decide)
  all_goals exact stable_two _

/-! ## The decoder -/

theorem stable_twoByte (b : Byte) : Stable (Parse.twoByte b) :=
  stable_bind stable_byte fun _ => stable_bind (stable_size _) fun _ =>
    stable_ite (stable_ite (stable_format3 _ _) (stable_format2 _ _)) (stable_format4 _ _)

theorem stable_threeByte (b : Byte) {f : BitVec 24 → Parse Instr} (h : ∀ w, Stable (f w)) :
    Stable (do f (← Parse.word24 b)) :=
  stable_bind (stable_bind stable_byte fun _ => stable_map _ stable_byte) h

theorem stable_instr (b : Byte) : Stable (Parse.instr b) := by
  unfold Parse.instr
  split
  · exact stable_format1 b
  · exact stable_reject (by decide)
  · exact stable_format0 b
  · split
    · exact stable_threeByte b stable_format5
    · exact stable_threeByte b stable_format6
    · exact stable_threeByte b stable_format7
    · exact stable_threeByte b stable_format8
    · exact stable_threeByte b stable_format8
    · exact stable_threeByte b stable_format8
    · exact stable_threeByte b stable_format8
    · exact stable_threeByte b stable_format9
    · exact stable_threeByte b stable_format11
    · exact stable_threeByte b stable_format12
    · exact stable_reject (by decide)
  · exact stable_twoByte b

theorem stable_decode : Stable (Parse.byte >>= Parse.instr) := stable_bind stable_byte stable_instr

/-- A beginning of an instruction's bytes, not all of them, is too short to be anything else. -/
theorem decode_prefix {bs cs : List Byte} {i : Instr} (h : decode (bs ++ cs) = .ok (i, [])) (hc : cs ≠ []) :
    decode bs = .error .outOfBytes := by
  cases e : decode bs with
  | ok a =>
    obtain ⟨j, r⟩ := a
    have whole : decode (bs ++ cs) = .ok (j, r ++ cs) := stable_decode.ok e cs
    rw [h] at whole
    injection whole with whole
    have empty : r ++ cs = [] := (Prod.mk.inj whole).2.symm
    exact absurd (List.append_eq_nil_iff.mp empty).2 hc
  | error x =>
    by_cases hx : x = .outOfBytes
    · rw [hx]
    · have whole : decode (bs ++ cs) = .error x := stable_decode.error e hx cs
      rw [h] at whole
      cases whole

end Sys2Proof
end

section
/-!
What an instruction cannot change in User Mode. `Sound i` says once of every instruction that it performs a body which takes
an unprivileged step in User Mode, or raises Trap(UND), and which in either mode leaves the count of cycles until RSTI to the
bus. The sequence that enters a handler raises no trap of its own and
leaves the PSR alone (`Steady`), and it has made one fetch cycle since the queue was discarded.
-/
namespace Sys2Proof.Machine

open Sys2Proof.Safety

/-! ## Instructions -/

/-- The body of an instruction takes an unprivileged step in User Mode. -/
def Confined (x : M Unit) : Prop := ∀ s, s.flag .u = true → WithinAt x s

/-- RSTI that is still to come in a step stays so, and RSTI that is active stays active (70_reset_and_hazards.md R571);
where nothing is to come between the bus cycles, nothing is. -/
structure Clocked (s t : State) : Prop where
  pending : s.resetIn ≠ none → t.resetIn ≠ none
  active : s.resetIn = some 0 → t.resetIn = some 0
  quiet : Quiet s → Quiet t

theorem Clocked.of_env {s t : State} (h : t.env = s.env) : Clocked s t := by
  simp only [State.env, Prod.mk.injEq] at h
  obtain ⟨-, gaps, count⟩ := h
  exact ⟨fun p => by rwa [count], fun p => by rwa [count], fun q => ⟨gaps.trans q.1, count.trans q.2⟩⟩

theorem Clocked.trans {s t u : State} (h : Clocked s t) (k : Clocked t u) : Clocked s u :=
  ⟨k.pending ∘ h.pending, k.active ∘ h.active, k.quiet ∘ h.quiet⟩

/-- A part of an instruction leaves the count of cycles until RSTI to the bus. -/
def Timed {α : Type} (x : M α) : Prop := ∀ s, Clocked s (after (x s))

theorem timed_of_within {α : Type} {x : M α} (h : Within x) : Timed x := fun s =>
  ⟨(h s).1.pending, (h s).1.active, fun q => ⟨((h s).1.calm q.1).1, (h s).1.running q.2⟩⟩

theorem timed_bind {α β : Type} {x : M α} {f : α → M β} (h : Timed x) (k : ∀ a, Timed (f a)) : Timed (x >>= f) := by
  intro s
  have first := h s
  rw [bind_apply]
  cases e : x s with
  | ok a t =>
    rw [e] at first
    exact first.trans (k a t)
  | error a t =>
    rw [e] at first
    exact first

theorem timed_change {f : State → State} (h : ∀ s, (f s).env = s.env) : Timed (change f) :=
  fun s => Clocked.of_env (h s)

/-- An instruction performs a confined and timed body; a floating-point instruction with CFG.F = 0 raises Trap(UND) without
one. -/
def Sound (i : Instr) : Prop := ∃ x, Confined x ∧ Timed x ∧ ∀ s, exec i s = perform i x s ∨
  isFloat i = true ∧ s.cfgF = false ∧ exec i s = finish s (.error (.trap .und) s.begin)

theorem confined_of_within {x : M Unit} (h : Within x) : Confined x := fun s _ => h s

/-- In User Mode a privileged instruction ends at once. -/
theorem confined_privileged {f : Unit → M Unit} : Confined (privileged >>= f) := by
  refine fun s hs => within_bind_at (within_privileged s) fun a t e => ?_
  have stops : privileged s = .error (.trap .ill) s := by
    rw [privileged, bind_apply]
    simp only [look, hs]
    rfl
  rw [stops] at e
  cases e

theorem confined_seq {x : M Unit} (i : Instr) (h : Confined x) : Confined (do x; advance i) :=
  fun s hs => within_bind_at (h s hs) fun _ t _ => within_advance i t

theorem sound_perform {i : Instr} {x : M Unit} (e : ∀ s, exec i s = perform i x s) (h : Confined x) (t : Timed x) :
    Sound i := ⟨x, h, t, fun s => .inl (e s)⟩

theorem sound_within {i : Instr} {x : M Unit} (e : ∀ s, exec i s = perform i x s) (h : Within x) : Sound i :=
  sound_perform e (confined_of_within h) (timed_of_within h)

theorem timed_seq {x : M Unit} (i : Instr) (h : Timed x) : Timed (do x; advance i) :=
  timed_bind h fun _ => timed_of_within (within_advance i)

theorem sound_performSeq {i : Instr} {x : M Unit} (e : ∀ s, exec i s = performSeq i x s) (h : Confined x) (t : Timed x) :
    Sound i := sound_perform e (confined_seq i h) (timed_seq i t)

theorem sound_seq {i : Instr} {x : M Unit} (e : ∀ s, exec i s = performSeq i x s) (h : Within x) : Sound i :=
  sound_performSeq e (confined_of_within h) (timed_of_within h)

theorem sound_float {i : Instr} {x : M Unit} (f : isFloat i = true) (e : ∀ s, exec i s = performFpu i x s) (h : Within x) : Sound i := by
  refine ⟨_, confined_seq i (confined_of_within h), timed_seq i (timed_of_within h), fun s => ?_⟩
  rw [e, performFpu]
  split
  · exact .inl rfl
  · next off => exact .inr ⟨f, Bool.eq_false_of_not_eq_true off, rfl⟩

/-- LPR: without privilege a register that User Mode may load; with it, the PSR and INTBASE too (R372). -/
theorem confined_lpri (i : Size) (a : Areg) (g : Gen) : Confined (do
    aregCheck a
    let v ← readGen g i.bytes
    change fun s => s.loadAreg i a v) := by
  have load {f : State → BitVec (8 * i.bytes) → State} (h : ∀ v s, UserStep s (f s v)) : Confined (do
      let v ← readGen g i.bytes
      change fun s => f s v) :=
    confined_of_within (within_bind (within_readGen _ _) fun v => within_change (h v))
  cases a with
  | us => exact load fun _ _ => user_setPsrLow _ _
  | fp => exact load fun _ _ => .data rfl
  | sp => exact load fun _ _ => user_setSp _ _
  | sb => exact load fun _ _ => .data rfl
  | modReg => exact load fun _ _ => .data rfl
  | intbase => exact confined_privileged
  | psr => exact confined_privileged

theorem within_aregCheck (a : Areg) : Within (aregCheck a) := within_ite within_privileged (within_pure _)

/-- BISPSR and BICPSR: the low byte in User Mode, all of the PSR with privilege (R376, R377). -/
theorem confined_psrBits (i : Size) (g : Gen) (f : Half → Half → Half) : Confined (psrBits i g f) := by
  unfold psrBits
  split
  · exact confined_of_within (within_bind (within_readGen _ _) fun _ => within_change fun _ => user_setPsrLow _ _)
  · exact confined_privileged

theorem timed_lpri (i : Size) (a : Areg) (g : Gen) : Timed (do
    aregCheck a
    let v ← readGen g i.bytes
    change fun s => s.loadAreg i a v) := by
  refine timed_bind (timed_of_within (within_aregCheck a)) fun _ => timed_bind (timed_of_within (within_readGen _ _)) fun v =>
    timed_change fun s => ?_
  cases a with
  | sp => exact setSp_env _ _
  | psr => by_cases byte : i = .b <;> simp [State.env, State.loadAreg, byte]
  | _ => rfl

theorem timed_psrBits (i : Size) (g : Gen) (f : Half → Half → Half) : Timed (psrBits i g f) := by
  unfold psrBits
  have read := timed_of_within (within_readGen g i.bytes (p := {}))
  split
  · exact timed_bind read fun _ => timed_change fun _ => rfl
  · exact timed_bind (timed_of_within within_privileged) fun _ => timed_bind read fun _ => timed_change fun _ => rfl

theorem timed_returnFromException : Timed returnFromException :=
  timed_bind (timed_of_within (within_pop _)) fun _ => timed_bind (timed_change fun _ => rfl) fun _ =>
  timed_bind (timed_of_within (within_pop _)) fun _ => timed_bind (timed_change fun _ => rfl) fun _ =>
  timed_bind (timed_of_within (within_pop _)) fun _ => timed_bind (timed_change fun _ => rfl) fun _ =>
  timed_of_within (within_look_bind fun _ => within_bind (within_readMem _ _ _ _) fun _ => within_change fun _ => .data rfl)

/-- The body of TBITS (R465): its entry, then the interruptible bits. -/
theorem within_tbitsBody (o : Bool) : Within (do
    let first ← look State.entersTbits
    tbitsDefined first
    change resumeTbits
    if ← look tbitsPast then
      change fun s => (s.putFlag .f o).putFlag .l false
      advance (.tbits o)
    else
      change fun s => s.putFlag .f o
      if first && !Config.tbitsAccumulates then change fun s => s.setReg 2 0 else pure ()
      interruptible (.tbits o) leaveTbits 1 tbitsBound tbitsAtLimit (tbitsPass o) tbitsEnd) := by
  refine within_look_bind fun first => within_bind (within_tbitsDefined first)
    fun _ => within_bind (within_change (f := resumeTbits) fun _ => .data rfl) fun _ => within_look_bind fun past => within_ite ?_ ?_
  · exact within_bind (within_change fun _ => (user_putFlag _ _ _ (by decide)).trans (user_putFlag _ _ _ (by decide)))
      fun _ => within_advance _
  · have bits := within_interruptible (.tbits o) (leave := leaveTbits) 1 tbitsBound tbitsAtLimit (fun _ => .data rfl)
      (within_tbitsPass o) within_tbitsEnd
    exact within_bind (within_change fun _ => user_putFlag _ _ _ (by decide)) fun _ =>
      within_ite (within_bind (within_change fun _ => user_setReg _ _ _) fun _ => bits) bits

/-- Every instruction performs a confined body. -/
theorem sound (i : Instr) : Sound i := by
  cases i with
  | bcond c d =>
    exact sound_within (fun _ => rfl) (within_look_bind fun _ => within_ite (within_branch _) (within_advance _))
  | br d => exact sound_within (fun _ => rfl) (within_branch _)
  | bsr d =>
    exact sound_within (fun _ => rfl) (within_look_bind fun _ => within_bind (within_push _ _) fun _ => within_branch _)
  | ret d =>
    exact sound_within (fun _ => rfl) (within_bind (within_pop _) fun _ => within_bind (within_change fun _ => user_jump _ _) fun _ => within_discard _)
  | cxp d =>
    exact sound_within (fun _ => rfl) (within_look_bind fun _ => within_bind (within_readMem _ _ _ _) fun _ => within_bind (within_readMem _ _ _ _) fun _ =>
      within_look_bind fun _ => within_callExternal _ _)
  | rxp d =>
    exact sound_within (fun _ => rfl) (within_bind (within_pop _) fun _ => within_bind (within_change fun _ => user_jump _ _) fun _ =>
      within_bind (within_pop _) fun _ => within_bind (within_change fun _ => .data rfl) fun _ => within_look_bind fun _ =>
      within_bind (within_readMem _ _ _ _) fun _ => within_bind (within_change fun _ => .data rfl) fun _ => within_discard _)
  | rett d =>
    exact sound_perform (fun _ => rfl) confined_privileged (timed_bind (timed_of_within within_privileged) fun _ =>
      timed_bind timed_returnFromException fun _ => timed_of_within (within_discard d))
  | reti =>
    exact sound_perform (fun _ => rfl) confined_privileged (timed_bind (timed_of_within within_privileged) fun _ =>
      timed_bind (timed_of_within within_endOfInterrupt) fun _ => timed_returnFromException)
  | save l => exact sound_seq (fun _ => rfl) (within_saveRegs _ _)
  | restore l => exact sound_seq (fun _ => rfl) (within_restoreRegs _ _)
  | enter l d =>
    exact sound_seq (fun _ => rfl) (within_look_bind fun _ => within_bind (within_push _ _) fun _ => within_bind (within_change fun _ => .data rfl) fun _ =>
      within_bind (within_change fun _ => user_setSp _ _) fun _ => within_saveRegs _ _)
  | exit l =>
    exact sound_seq (fun _ => rfl) (within_bind (within_restoreRegs _ _) fun _ => within_bind (within_change fun _ => user_setSp _ _) fun _ =>
      within_bind (within_pop _) fun _ => within_change fun _ => .data rfl)
  | nop => exact sound_seq (fun _ => rfl) (within_pure ())
  | wait => exact sound_seq (fun _ => rfl) (within_change (f := fun s => { s with waiting := true }) fun _ => .data rfl)
  | dia => exact sound_within (fun _ => rfl) (within_change fun _ => user_jump _ _)
  | flag => exact sound_seq (fun _ => rfl) (within_look_bind fun _ => within_ite (within_abort _) (within_pure _))
  | svc => exact sound_within (fun _ => rfl) (within_abort (.trap .svc))
  | bpt => exact sound_within (fun _ => rfl) (within_abort (.trap .bpt))
  | addqi i q g => exact sound_seq (fun _ => rfl) (within_rmwOp fun _ => within_arith _)
  | cmpqi i q g =>
    exact sound_seq (fun _ => rfl) (within_bind (within_readGen _ _) fun _ => within_change fun _ => user_putCompare _ _ _)
  | spri i a g => exact sound_seq (fun _ => rfl) (within_bind (within_aregCheck _) fun _ => within_look_bind fun _ =>
      within_bind (within_placeWrite _) fun _ => within_writePlace _ _ _)
  | scondi i c g =>
    exact sound_seq (fun _ => rfl) (within_look_bind fun _ => within_bind (within_placeWrite _) fun _ => within_writePlace _ _ _)
  | acbi i q g d =>
    exact sound_within (fun _ => rfl) (within_bind (within_placeRmw _) fun _ => within_bind (within_readPlace _ _ _) fun _ =>
      within_bind (within_writePlace _ _ _) fun _ => within_ite (within_advance _) (within_branch _))
  | movqi i q g => exact sound_seq (fun _ => rfl) (within_bind (within_placeWrite _) fun _ => within_writePlace _ _ _)
  | lpri i a g => exact sound_performSeq (fun _ => rfl) (confined_lpri i a g) (timed_lpri i a g)
  | cxpd g =>
    exact sound_within (fun _ => rfl) (within_bind (within_effAddr24 _) fun _ => within_bind (within_readMem _ _ _ _) fun _ =>
      within_look_bind fun _ => within_callExternal _ _)
  | bicpsri i g => exact sound_performSeq (fun _ => rfl) (confined_psrBits i g _) (timed_psrBits i g _)
  | jump g =>
    exact sound_within (fun _ => rfl) (within_bind (within_effAddr24 _) fun _ => within_change fun _ => user_jump _ _)
  | bispsri i g => exact sound_performSeq (fun _ => rfl) (confined_psrBits i g _) (timed_psrBits i g _)
  | adjspi i g =>
    exact sound_seq (fun _ => rfl) (within_bind (within_readGen _ _) fun _ => within_change fun _ => user_setSp _ _)
  | jsr g =>
    exact sound_within (fun _ => rfl) (within_bind (within_effAddr24 _) fun _ => within_look_bind fun _ => within_bind (within_push _ _) fun _ =>
      within_change fun _ => user_jump _ _)
  | casei i g =>
    exact sound_within (fun _ => rfl) (within_bind (within_readGen _ _) fun _ => within_change fun _ => user_jump _ _)
  | undefFormat3 g o i => exact sound_within (fun _ => rfl) (within_abort (.trap .und))
  | undefFormat3Op1000 g i => exact sound_within (fun _ => rfl) (within_abort (.trap .und))
  | addi i a b => exact sound_seq (fun _ => rfl) (within_binaryOp fun _ _ => within_arith _)
  | cmpi i a b =>
    exact sound_seq (fun _ => rfl) (within_bind (within_readOp2 _ _ _ _) fun _ => within_change fun _ => user_putCompare _ _ _)
  | bici i a b => exact sound_seq (fun _ => rfl) (within_binaryOp fun _ _ => within_pure _)
  | addci i a b => exact sound_seq (fun _ => rfl) (within_binaryOp fun _ _ => within_look_bind fun _ => within_arith _)
  | movi i a b => exact sound_seq (fun _ => rfl) (within_moveOp fun _ => within_pure _)
  | ori i a b => exact sound_seq (fun _ => rfl) (within_binaryOp fun _ _ => within_pure _)
  | subi i a b => exact sound_seq (fun _ => rfl) (within_binaryOp fun _ _ => within_arith _)
  | addr a b =>
    exact sound_seq (fun _ => rfl) (within_bind (within_effAddr _) fun _ => within_bind (within_placeWrite _) fun _ => within_writePlace _ _ _)
  | andi i a b => exact sound_seq (fun _ => rfl) (within_binaryOp fun _ _ => within_pure _)
  | subci i a b => exact sound_seq (fun _ => rfl) (within_binaryOp fun _ _ => within_look_bind fun _ => within_arith _)
  | tbiti i a b =>
    exact sound_seq (fun _ => rfl) (within_bind (within_readGen _ _) fun _ => within_bind (within_testBit _ _) fun _ =>
      within_change fun _ => user_putFlag _ _ _ (by decide))
  | xori i a b => exact sound_seq (fun _ => rfl) (within_binaryOp fun _ _ => within_pure _)
  | movsi i o =>
    exact sound_within (fun _ => rfl) (within_strRun _ _ _ _ _ (fun _ => user_putFlag _ _ _ (by decide)) (within_movsBody _))
  | movst o =>
    exact sound_within (fun _ => rfl) (within_strRun _ _ _ _ _ (fun _ => user_putFlag _ _ _ (by decide)) (within_movsBody _))
  | cmpsi i o =>
    exact sound_within (fun _ => rfl) (within_strRun _ _ _ _ _ (fun _ => (user_putFlag _ _ _ (by decide)).trans (user_putEqual _))
      (within_cmpsBody _))
  | cmpst o =>
    exact sound_within (fun _ => rfl) (within_strRun _ _ _ _ _ (fun _ => (user_putFlag _ _ _ (by decide)).trans (user_putEqual _))
      (within_cmpsBody _))
  | setcfg o =>
    exact sound_performSeq (fun _ => rfl) confined_privileged
      (timed_bind (timed_of_within within_privileged) fun _ => timed_change fun _ => rfl)
  | skpsi i o =>
    exact sound_within (fun _ => rfl) (within_strRun _ _ _ _ _ (fun _ => user_putFlag _ _ _ (by decide)) (within_skpsBody _))
  | skpst o =>
    exact sound_within (fun _ => rfl) (within_strRun _ _ _ _ _ (fun _ => user_putFlag _ _ _ (by decide)) (within_skpsBody _))
  | bbstod o => exact sound_within (fun _ => rfl) (within_bbRun _ _ _)
  | extblt =>
    exact sound_within (fun _ => rfl) (within_bind within_extDefined fun _ => within_bind (within_change fun _ => user_putFlag _ _ _ (by decide)) fun _ =>
      within_look_bind fun _ => within_interruptible _ _ _ _ .refl within_extPass (within_bind (within_drawBits _) fun _ =>
        within_bind (within_drawBits _) fun _ => within_change fun _ => (user_putFlag _ _ _ (by decide)).trans
          ((user_setReg _ _ _).trans (user_setReg _ _ _))))
  | bbor o => exact sound_within (fun _ => rfl) (within_bbRun _ _ _)
  | movmpi i =>
    exact sound_within (fun _ => rfl) (within_look_bind fun _ => within_interruptible _ _ _ _ .refl (within_movmpPass _) (within_pure _))
  | bitwt =>
    exact sound_seq (fun _ => rfl) (within_bind (within_bbInRange _) fun _ => within_look_bind fun _ => within_bind (within_readMem _ _ _ _) fun _ =>
      within_look_bind fun _ => within_bind (within_readMem _ _ _ _) fun _ => within_look_bind fun _ =>
      within_bind (within_bbResult _ _ _ _ _) fun _ => within_bind (within_writeMem _ _ _ _) fun _ =>
      within_change fun _ => user_addReg2 _ _ _ _ _)
  | tbits o => exact sound_within (fun _ => rfl) (within_tbitsBody o)
  | bband o => exact sound_within (fun _ => rfl) (within_bbRun _ _ _)
  | sbitps =>
    exact sound_within (fun _ => rfl) (within_look_bind fun _ => within_interruptible _ _ _ _ .refl within_sbitpsPass (within_pure _))
  | bbfor => exact sound_within (fun _ => rfl) (within_bbRun _ _ _)
  | sbits =>
    exact sound_seq (fun _ => rfl) (within_look_bind fun _ => within_ite (within_change fun _ => user_putFlag _ _ _ (by decide))
      (within_bind (within_change fun _ => user_putFlag _ _ _ (by decide)) fun _ => within_look_bind fun _ =>
        within_look_bind fun _ => within_bind (within_readMem _ _ _ _) fun _ => within_bind (within_readMem _ _ _ _) fun _ =>
        within_writeMem _ _ _ _))
  | bbxor o => exact sound_within (fun _ => rfl) (within_bbRun _ _ _)
  | roti i a b => exact sound_seq (fun _ => rfl) (within_binaryOp fun _ _ => within_shiftOrDraw _ _ _)
  | ashi i a b => exact sound_seq (fun _ => rfl) (within_binaryOp fun _ _ => within_shiftOrDraw _ _ _)
  | cbiti i a b => exact sound_seq (fun _ => rfl) (within_bitOp _ _ _ _ _)
  | cbitii i a b => exact sound_seq (fun _ => rfl) (within_bitOp _ _ _ _ _)
  | lshi i a b => exact sound_seq (fun _ => rfl) (within_binaryOp fun _ _ => within_shiftOrDraw _ _ _)
  | sbiti i a b => exact sound_seq (fun _ => rfl) (within_bitOp _ _ _ _ _)
  | sbitii i a b => exact sound_seq (fun _ => rfl) (within_bitOp _ _ _ _ _)
  | negi i a b => exact sound_seq (fun _ => rfl) (within_moveOp fun _ => within_arith _)
  | noti i a b => exact sound_seq (fun _ => rfl) (within_moveOp fun _ => within_pure _)
  | subpi i a b => exact sound_seq (fun _ => rfl) (within_binaryOp (within_packed _ _))
  | absi i a b =>
    exact sound_seq (fun _ => rfl) (within_moveOp fun _ => within_bind (within_change fun _ => user_putFlag _ _ _ (by decide)) fun _ => within_pure _)
  | comi i a b => exact sound_seq (fun _ => rfl) (within_moveOp fun _ => within_pure _)
  | ibiti i a b => exact sound_seq (fun _ => rfl) (within_bitOp _ _ _ _ _)
  | addpi i a b => exact sound_seq (fun _ => rfl) (within_binaryOp (within_packed _ _))
  | movmi i a b d =>
    exact sound_seq (fun _ => rfl) (within_bind (within_effAddr24 _) fun _ => within_bind (within_effAddr24 _) fun _ => within_copyBlock _ _ _ _)
  | cmpmi i a b d =>
    exact sound_seq (fun _ => rfl) (within_bind (within_effAddr24 _) fun _ => within_bind (within_effAddr24 _) fun _ =>
      within_bind (within_change user_putEqual) fun _ => within_compareBlock _ _ _ _)
  | inssi i a b o l => exact sound_seq (fun _ => rfl) (within_bind (within_readGen _ _) fun _ => within_insertField _ _ _ _)
  | extsi i a b o l =>
    exact sound_seq (fun _ => rfl) (within_bind (within_extractField _ _ _) fun _ => within_bind (within_placeWrite _) fun _ =>
      within_writePlace _ _ _)
  | movxbw a b => exact sound_seq (fun _ => rfl) (within_moveOp fun _ => within_pure _)
  | movzbw a b => exact sound_seq (fun _ => rfl) (within_moveOp fun _ => within_pure _)
  | movzid i a b => exact sound_seq (fun _ => rfl) (within_moveOp fun _ => within_pure _)
  | movxid i a b => exact sound_seq (fun _ => rfl) (within_moveOp fun _ => within_pure _)
  | muli i a b => exact sound_seq (fun _ => rfl) (within_binaryOp fun _ _ => within_pure _)
  | meii i a b =>
    exact sound_seq (fun _ => rfl) (within_bind (within_readGen _ _) fun _ => within_bind (within_placeRmw _) fun p =>
      within_bind (within_readPlace _ _ _) fun _ => match p with
      | .reg _ => within_change fun _ => .data rfl
      | .mem _ => within_bind (within_writeMem _ _ _ _) fun _ => within_writeMem _ _ _ _
      | .push => within_pure _)
  | deii i a b =>
    exact sound_seq (fun _ => rfl) (within_bind (within_readGen _ _) fun _ => within_bind (within_placeRmw _) fun p => match p with
      | .reg _ => within_look_bind fun _ => within_look_bind fun _ => within_bind (within_extendedDivide _ _) fun _ =>
          within_change fun _ => .data rfl
      | .mem _ => within_bind (within_readMem _ _ _ _) fun _ => within_bind (within_extendedDivide _ _) fun _ =>
          within_writeMem _ _ _ _
      | .push => within_pure _)
  | quoi i a b => exact sound_seq (fun _ => rfl) (within_binaryOp (within_divide _))
  | remi i a b => exact sound_seq (fun _ => rfl) (within_binaryOp (within_divide _))
  | modi i a b => exact sound_seq (fun _ => rfl) (within_binaryOp (within_divide _))
  | divi i a b => exact sound_seq (fun _ => rfl) (within_binaryOp (within_divide _))
  | exti i r a b l =>
    exact sound_seq (fun _ => rfl) (within_look_bind fun _ => within_bind (within_extractField _ _ _) fun _ => within_bind (within_placeWrite _) fun _ =>
      within_writePlace _ _ _)
  | cvtp r a b =>
    exact sound_seq (fun _ => rfl) (within_look_bind fun _ => within_bind (within_effAddr _) fun _ => within_bind (within_placeWrite _) fun _ =>
      within_writePlace _ _ _)
  | insi i r a b l =>
    exact sound_seq (fun _ => rfl) (within_bind (within_readGen _ _) fun _ => within_look_bind fun _ => within_insertField _ _ _ _)
  | checki i r a b =>
    exact sound_seq (fun _ => rfl) (within_bind (within_effAddr24 _) fun _ => within_bind (within_readMem _ _ _ _) fun _ =>
      within_bind (within_readMem _ _ _ _) fun _ => within_bind (within_readGen _ _) fun _ => within_ite
        (within_change fun _ => (user_putFlag _ _ _ (by decide)).trans (user_setReg _ _ _))
        (within_bind (within_drawBits _) fun _ =>
          within_change fun _ => (user_putFlag _ _ _ (by decide)).trans (user_setReg _ _ _)))
  | indexi i r a b =>
    exact sound_seq (fun _ => rfl) (within_bind (within_readOp2 _ _ _ _) fun _ => within_change fun _ => user_setReg _ _ _)
  | ffsi i a b => exact sound_seq (fun _ => rfl) (within_bind (within_readGen _ _) fun _ => within_rmwOp fun _ => by
      split
      · exact within_bind (within_change fun _ => user_putFlag _ _ _ (by decide)) fun _ => within_pure _
      · exact within_bind (within_change fun _ => user_putFlag _ _ _ (by decide)) fun _ => within_pure _)
  | movif i t a b =>
    exact sound_float rfl (fun _ => rfl) (within_bind (within_sendHead _) fun _ => within_bind (within_readGen _ _) fun _ =>
      within_bind (within_issue _ _) fun _ => within_bind (within_placeWrite _) fun _ =>
      within_bind (within_slaveRun _ _ _) fun _ => within_storeFloat _ _ _)
  | lfsr a =>
    exact sound_float rfl (fun _ => rfl) (within_bind (within_sendHead _) fun _ => within_bind (within_issueInt _ _) fun _ =>
      within_bind (within_slaveRun _ _ _) fun _ => within_change fun _ => .data rfl)
  | movlf a b => exact sound_float rfl (fun _ => rfl) (within_floatMove _ _ _ _ _ _)
  | movfl a b => exact sound_float rfl (fun _ => rfl) (within_floatMove _ _ _ _ _ _)
  | roundfi t i a b => exact sound_float rfl (fun _ => rfl) (within_floatToInt _ _ _ _ _ _)
  | truncfi t i a b => exact sound_float rfl (fun _ => rfl) (within_floatToInt _ _ _ _ _ _)
  | sfsr a =>
    exact sound_float rfl (fun _ => rfl) (within_bind (within_sendHead _) fun _ => within_bind (within_placeWrite _) fun _ => within_look_bind fun _ =>
      within_bind (within_slaveRun _ _ _) fun _ => within_bind (within_change fun _ => .data rfl) fun _ =>
      within_storeInt _ _ _)
  | floorfi t i a b => exact sound_float rfl (fun _ => rfl) (within_floatToInt _ _ _ _ _ _)
  | addf t a b => exact sound_float rfl (fun _ => rfl) (within_floatRmw _ _ _ _ _)
  | movf t a b => exact sound_float rfl (fun _ => rfl) (within_floatMove _ _ _ _ _ _)
  | cmpf t a b =>
    exact sound_float rfl (fun _ => rfl) (within_bind (within_sendHead _) fun _ => within_bind (within_issueFloat _ _) fun _ =>
      within_bind (within_issueFloat _ _) fun _ => within_bind (within_slaveRun _ _ _) fun _ =>
      within_change fun _ => (user_putFlag _ _ _ (by decide)).trans ((user_putFlag _ _ _ (by decide)).trans
        (user_putFlag _ _ _ (by decide))))
  | subf t a b => exact sound_float rfl (fun _ => rfl) (within_floatRmw _ _ _ _ _)
  | negf t a b => exact sound_float rfl (fun _ => rfl) (within_floatMove _ _ _ _ _ _)
  | divf t a b => exact sound_float rfl (fun _ => rfl) (within_floatRmw _ _ _ _ _)
  | mulf t a b => exact sound_float rfl (fun _ => rfl) (within_floatRmw _ _ _ _ _)
  | absf t a b => exact sound_float rfl (fun _ => rfl) (within_floatMove _ _ _ _ _ _)
  | polyf t a b => exact sound_float rfl (fun _ => rfl) (within_floatToF0 _ _ _ _ _)
  | dotf t a b => exact sound_float rfl (fun _ => rfl) (within_floatToF0 _ _ _ _ _)
  | scalbf t a b => exact sound_float rfl (fun _ => rfl) (within_bind within_needs381 fun _ => within_floatRmw _ _ _ _ _)
  | logbf t a b => exact sound_float rfl (fun _ => rfl) (within_bind within_needs381 fun _ => within_floatMove _ _ _ _ _ _)

end Sys2Proof.Machine
end

section
/-! What User Mode cannot reach: the sequence that enters a handler, and the statement. -/
namespace Sys2Proof.Machine

open Sys2Proof.Safety

/-! ## The entry of a handler -/

/-- A part that leaves the PSR alone, whether it ends or aborts, and raises no trap. -/
def Steady {α : Type} (x : M α) : Prop := ∀ s, (after (x s)).psr = s.psr ∧ ∀ k t, x s ≠ .error (.trap k) t

theorem steady_bind {α β : Type} {x : M α} {f : α → M β} (h : Steady x) (k : ∀ a, Steady (f a)) :
    Steady (x >>= f) := by
  intro s
  obtain ⟨psr, untrapped⟩ := h s
  rw [bind_apply]
  cases e : x s with
  | ok a t =>
    rw [e] at psr
    exact ⟨(k a t).1.trans psr, (k a t).2⟩
  | error a t =>
    rw [e] at psr untrapped
    exact ⟨psr, fun q u hu => untrapped q u (by cases hu; rfl)⟩

theorem steady_pure {α : Type} (a : α) : Steady (pure a : M α) := fun _ => ⟨rfl, fun _ _ h => nomatch h⟩

theorem steady_look {α : Type} (f : State → α) : Steady (look f) := fun _ => ⟨rfl, fun _ _ h => nomatch h⟩

theorem steady_look_bind {α β : Type} {g : State → α} {f : α → M β} (k : ∀ a, Steady (f a)) : Steady (look g >>= f) :=
  steady_bind (steady_look g) k

theorem steady_change {f : State → State} (h : ∀ s, (f s).psr = s.psr) : Steady (change f) :=
  fun s => ⟨h s, fun _ _ h => nomatch h⟩

theorem steady_fault {α : Type} (e : Fault) : Steady (abort (.fault e) : M α) := fun _ => ⟨rfl, fun _ _ h => by cases h⟩

theorem steady_ite {α : Type} {c : Prop} [Decidable c] {x y : M α} (h : Steady x) (k : Steady y) :
    Steady (if c then x else y) := by split <;> assumption

theorem answer_psr (s : State) (a : Addr) (n : Nat) : (s.answer a n).2.psr = s.psr := by
  induction n generalizing s a with
  | zero => rfl
  | succ n ih =>
    have k : (if s.kindAt a = some .device then s.deviceByte else (s.byteAt a, s)).2.psr = s.psr := by
      unfold State.deviceByte
      split
      · split <;> rfl
      · rfl
    exact (ih _ _).trans k

theorem turn_psr (f : Bool) (s : State) (x : Turn) : (s.turn f x).psr = s.psr := by
  cases x with
  | store c => rfl
  | fetch =>
    have fetch : s.fetchCycle.psr = s.psr := answer_psr s _ _
    show (if f then s.prefetch else s).psr = s.psr
    unfold State.prefetch
    split
    · split
      · exact fetch
      · rfl
    · rfl

theorem turns_psr (f : Bool) (g : Gap) (s : State) : (g.foldl (State.turn f) s).psr = s.psr := by
  induction g generalizing s with
  | nil => rfl
  | cons x g ih => exact (ih _).trans (turn_psr f s x)

theorem gap_psr (s : State) (f : Bool) : (s.gap f).psr = s.psr := by
  unfold State.gap
  split
  · rfl
  · exact turns_psr f _ _

theorem steady_unlessReset : Steady unlessReset := by
  intro s
  unfold unlessReset
  split <;> exact ⟨rfl, fun _ _ h => by cases h⟩

theorem steady_between (m : Seam) : Steady (between m) :=
  steady_look_bind fun _ => steady_ite steady_unlessReset
    (steady_bind (steady_change fun s => gap_psr s _) fun _ => steady_unlessReset)

theorem steady_readCycle (st : BusStatus) (p : Pins) (m : Seam) (a : Addr) (n : Nat) :
    Steady (readCycle st p m a n) := by
  refine steady_bind (steady_between m) fun _ => steady_look_bind fun e => ?_
  cases e with
  | some f => exact steady_fault f
  | none => exact fun s => ⟨answer_psr s a n, fun _ _ h => nomatch h⟩

theorem steady_readCycles (st : BusStatus) (p : Pins) (m : Seam) (cs : List (Addr × Nat)) :
    Steady (readCycles st p m cs) := by
  induction cs generalizing m with
  | nil => exact steady_pure _
  | cons c cs ih =>
    exact steady_bind (steady_readCycle _ _ _ _ _) fun _ => steady_bind (ih _) fun _ => steady_pure _

theorem steady_writeCycle (p : Pins) (m : Seam) (a : Addr) (bs : List Byte) : Steady (writeCycle p m a bs) := by
  refine steady_bind (steady_between m) fun _ => steady_look_bind fun e => ?_
  cases e with
  | some f => exact steady_fault f
  | none => exact steady_change fun _ => rfl

theorem steady_writeCycles (p : Pins) (m : Seam) (cs : List (Addr × Nat)) (bs : List Byte) :
    Steady (writeCycles p m cs bs) := by
  induction cs generalizing m bs with
  | nil => exact steady_pure _
  | cons c cs ih => exact steady_bind (steady_writeCycle _ _ _ _) fun _ => ih _ _

theorem steady_settled {w : Nat} (v : BitVec w) : Steady (settled v) := by rw [settled_eq]; exact steady_pure _

theorem steady_readMem (st : BusStatus) (a : Addr) (n : Nat) (p : Pins) : Steady (readMem st a n p) :=
  steady_bind (steady_settled _) fun _ => steady_bind (steady_readCycles _ _ _ _) fun _ =>
    steady_bind (steady_readCycles _ _ _ _) fun _ => steady_settled _

theorem steady_writeMem {w : Nat} (a : Addr) (n : Nat) (v : BitVec w) (p : Pins) : Steady (writeMem a n v p) :=
  steady_bind (steady_settled _) fun _ => steady_bind (steady_settled _) fun _ =>
    steady_bind (steady_writeCycles _ _ _ _) fun _ => steady_writeCycles _ _ _ _

theorem steady_push {w : Nat} (n : Nat) (v : BitVec w) : Steady (push n v) :=
  steady_bind (steady_change fun _ => State.setSp_psr _ _) fun _ => steady_look_bind fun _ => steady_writeMem _ _ _ _

theorem steady_moduleEntry (d : Half) : Steady (moduleEntry d) :=
  steady_look_bind fun _ => steady_bind (steady_readMem _ _ _ _) fun _ => steady_bind (steady_change fun _ => rfl) fun _ =>
    steady_look_bind fun _ => steady_bind (steady_readMem _ _ _ _) fun _ => steady_settled _

theorem steady_demandFetch : Steady demandFetch := by
  refine steady_bind (steady_between _) fun _ => steady_look_bind fun e => ?_
  cases e with
  | some f => exact steady_fault f
  | none => exact fun s => ⟨answer_psr s _ _, fun _ _ h => nomatch h⟩

theorem steady_service (k : Nat) (ra : Addr) : Steady (service k ra) :=
  steady_look_bind fun _ => steady_look_bind fun _ => steady_bind (steady_readMem _ _ _ _) fun _ =>
    steady_bind (steady_change fun _ => rfl) fun _ => steady_bind (steady_moduleEntry _) fun _ =>
      steady_bind (steady_bind (steady_change fun _ => rfl) fun _ => steady_demandFetch) fun _ =>
        steady_bind (steady_push _ _) fun _ => steady_push _ _

/-- A part that leaves in the queue what one fetch cycle has brought, where nothing comes between the bus cycles. -/
def Fresh {α : Type} (x : M α) : Prop :=
  ∀ s a t, s.gaps = [] → x s = .ok a t → t.gaps = [] ∧ t.queue.length ≤ 2

/-- The parts of a sequence that has ended. -/
theorem bind_ok {α β : Type} {x : M α} {f : α → M β} {s t : State} {b : β} (h : (x >>= f) s = .ok b t) :
    ∃ a u, x s = .ok a u ∧ f a u = .ok b t := by
  rw [bind_apply] at h
  cases e : x s with
  | ok a u => rw [e] at h; exact ⟨a, u, rfl, h⟩
  | error a u => rw [e] at h; cases h

theorem fresh_after {α β : Type} {x : M α} {f : α → M β} (h : Within x) (k : ∀ a, Fresh (f a)) :
    Fresh (x >>= f) := by
  intro s b t hs e
  obtain ⟨a, u, hx, hf⟩ := bind_ok e
  have step := (h s).1
  rw [hx] at step
  exact k a u b t (step.calm hs).1 hf

theorem fresh_before {α β : Type} {x : M α} {f : α → M β} (h : Fresh x) (k : ∀ a, Within (f a)) :
    Fresh (x >>= f) := by
  intro s b t hs e
  obtain ⟨a, u, hx, hf⟩ := bind_ok e
  obtain ⟨gaps, queue⟩ := h s a u hs hx
  have step := (k a u).1
  rw [hf] at step
  obtain ⟨gaps', queue'⟩ := step.calm gaps
  exact ⟨gaps', queue'.elim (fun e => e ▸ queue) id⟩

theorem fresh_flushAndFetch (a : Addr) : Fresh (flushAndFetch a) := by
  intro s b t hs e
  have step := (within_demandFetch (s.jump a) rfl).1
  have e' : demandFetch (s.jump a) = .ok b t := e
  rw [e'] at step
  obtain ⟨gaps, queue⟩ := step.calm hs
  refine ⟨gaps, queue.elim (fun e => ?_) id⟩
  have e : t.queue = [] := e
  rw [e]
  decide

theorem fresh_service (k : Nat) (ra : Addr) : Fresh (service k ra) :=
  fresh_after (within_look _) fun _ => fresh_after (within_look _) fun _ => fresh_after (within_readMem _ _ _ _) fun _ =>
    fresh_after (within_change fun _ => .data rfl) fun _ => fresh_after (within_moduleEntry _) fun _ =>
      fresh_before (fresh_flushAndFetch _) fun _ => within_bind (within_push _ _) fun _ => within_push _ _

/-! ## User Mode -/

/-- What an instruction that was executed in User Mode leaves. -/
structure Confines (s t : State) : Prop where
  cfg : t.cfg = s.cfg
  intbase : t.intbase = s.intbase
  nmiLatch : t.nmiLatch = s.nmiLatch
  memMap : t.memMap = s.memMap
  i : t.flag .i = s.flag .i
  mode : (t.flag .u = true ∧ t.flag .s = s.flag .s) ∨
    (t.flag .u = false ∧ t.flag .s = false ∧ t.flag .t = false ∧ t.flag .p = false ∧
      (s.gaps = [] → t.queue.length ≤ 2))

/-- The bits of the PSR of a handler. -/
theorem psrClear_trap (v : Half) : (psrClear v [.s, .u, .p, .t]).getLsbD PsrBit.i.pos = v.getLsbD PsrBit.i.pos ∧
    ∀ q ∈ [PsrBit.s, .u, .p, .t], (psrClear v [.s, .u, .p, .t]).getLsbD q.pos = false := by
  simp only [psrClear, List.foldl_cons, List.foldl_nil, psrPut_getLsbD, PsrBit.pos, List.forall_mem_cons]
  simp

theorem confines_of_kept {s t : State} (hs : s.flag .u = true) (h : Kept s t) : Confines s t :=
  ⟨h.cfg, h.intbase, h.nmiLatch, h.memMap, h.i, .inl ⟨h.u.trans hs, h.ss⟩⟩

/-- What a sequence answers as a step from a state where RSTI does not become active. -/
theorem settle_next {x : M Unit} {s t : State} (hs : s.resetIn = none) (within : Within x) (steady : Steady x)
    (h : settle (x s) = .next t) : x s = .ok () t := by
  obtain ⟨step, unreset⟩ := within s
  have untrapped := (steady s).2
  have running : (after (x s)).resetIn = none := step.running hs
  cases e : x s with
  | ok a u => rw [e] at h; cases h; rfl
  | error a u =>
    rw [e] at h running
    cases a with
    | trap k => exact absurd e (untrapped k u)
    | reset => exact absurd e (unreset hs u)
    | fault f => simp [settle, State.stop, show u.resetIn = none from running] at h
    | refused r => simp [settle, State.stop, show u.resetIn = none from running] at h

/-- A trap leaves User Mode, and what else it changes is confined. -/
theorem confines_of_trap {s u t : State} {k : Trap} (step : UserStep s u) (hs : s.resetIn = none)
    (h : settle (takeTrap k s u) = .next t) : Confines s t := by
  let v : State := { (({ u with psr := s.psr } : State).setSp s.sp) with psr := psrClear s.psr [.s, .u, .p, .t] }
  have entered : v.cfg = u.cfg ∧ v.intbase = u.intbase ∧ v.nmiLatch = u.nmiLatch ∧ v.memMap = u.memMap ∧
      v.gaps = u.gaps ∧ v.resetIn = u.resetIn := by
    simp [v]
  obtain ⟨cfg, intbase, latch, map, gaps, reset⟩ := entered
  have within : Within (do push 2 s.psr; service k.vector s.pc) :=
    within_bind (within_push _ _) fun _ => within_service _ _
  have steady : Steady (do push 2 s.psr; service k.vector s.pc) :=
    steady_bind (steady_push _ _) fun _ => steady_service _ _
  have ended := settle_next (reset.trans (step.running hs)) within steady (s := v) h
  have kept := (within v).1
  have psr := (steady v).1
  rw [ended] at kept psr
  have flag (q : PsrBit) : t.flag q = (psrClear s.psr [.s, .u, .p, .t]).getLsbD q.pos := by
    unfold State.flag
    rw [show t.psr = v.psr from psr]
  refine ⟨kept.cfg.trans (cfg.trans step.cfg), kept.intbase.trans (intbase.trans step.intbase),
    kept.nmiLatch.trans (latch.trans step.nmiLatch), kept.memMap.trans (map.trans step.memMap), ?_, .inr ⟨?_, ?_, ?_, ?_, ?_⟩⟩
  · exact (flag .i).trans (psrClear_trap _).1
  · exact (flag .u).trans ((psrClear_trap _).2 _ (by decide))
  · exact (flag .s).trans ((psrClear_trap _).2 _ (by decide))
  · exact (flag .t).trans ((psrClear_trap _).2 _ (by decide))
  · exact (flag .p).trans ((psrClear_trap _).2 _ (by decide))
  · intro hg
    exact (fresh_after (within_push 2 s.psr) (fun _ => fresh_service k.vector s.pc) v () t
      (gaps.trans (step.calm hg).1) ended).2

theorem confines_of_finish {s t : State} {x : M Unit} (user : s.flag .u = true) (hs : s.resetIn = none)
    (h : WithinAt x s.begin) (e : finish s (x s.begin) = .next t) : Confines s t := by
  obtain ⟨step, unreset⟩ := h
  have step := (user_begin s).trans step
  have running := step.running hs
  cases r : x s.begin with
  | ok a u =>
    rw [r] at e step
    cases e
    exact confines_of_kept user step.toKept
  | error a u =>
    rw [r] at e step running
    cases a with
    | trap k => exact confines_of_trap step hs e
    | reset => exact absurd r (unreset ((user_begin s).running hs) u)
    | fault f => simp [finish, settle, State.stop, show u.resetIn = none from running] at e
    | refused f => simp [finish, settle, State.stop, show u.resetIn = none from running] at e

theorem confines (j : Instr) {s t : State} (user : s.flag .u = true) (hs : s.resetIn = none)
    (h : exec j s = .next t) : Confines s t := by
  obtain ⟨x, confined, -, e⟩ := sound j
  rcases e s with e | ⟨-, -, e⟩ <;> rw [e] at h
  · unfold perform at h
    split at h
    · simp [State.stop, hs] at h
    · exact confines_of_finish user hs (confined _ ((user_begin s).u.trans user)) h
  · exact confines_of_finish user hs (within_abort (.trap .und) (by simp) s.begin) h

/-- Settles O50: every instruction performs a body that takes an unprivileged step in User Mode; a trap it raises enters
Supervisor Mode. -/
theorem userModeConfined : Obligations.UserModeConfined := by
  intro j s t user hs h
  obtain ⟨cfg, intbase, latch, map, i, mode⟩ := confines j user hs h
  exact ⟨cfg, intbase, latch, map, i, mode⟩

end Sys2Proof.Machine
end

section
/-!
The invariant of InvariantKept is not kept: with PREFETCH_COHERENT another master may overwrite the first byte of an
instruction that the queue holds in part, while the CPU waits for the rest of it. The queue, 10 bytes after the fetch, then
begins with a one-byte instruction, and 9 bytes stay in it.
-/
namespace Sys2Proof.Machine

open Sys2Proof.Safety

/-- MOVD of one absolute address to another, displacements of four bytes: 10 bytes, of which the queue holds 8. -/
def longMove : Instr := .movi .d (.base (.abs (.d4 0))) (.base (.abs (.d4 0)))

/-- PC is at `longMove`; before the first bus cycle of the step another master stores a NOP at PC. -/
def overwritten : State :=
  { State.reset with
    pc := 0x100
    fetchPc := 0x108
    broken := false
    mem := storeBytes (fun _ => true) [] 0x100 (encode longMove)
    queue := (encode longMove).take 8
    inputs := [{ idleInput with gaps := [[.store (0x100, 0xA2)]] }] }

theorem overwritten_invariant : Invariant overwritten := by unfold Invariant; decide

/-- The step completes with 9 bytes in the queue. -/
def stepOverfills (s : State) : Bool :=
  match step s with
  | .next t => t.queue.length == 9
  | _ => false

theorem overwritten_overfills : stepOverfills overwritten = true := by decide

theorem next_of_stepOverfills {s : State} (h : stepOverfills s = true) : ∃ t, step s = .next t ∧ t.queue.length = 9 := by
  unfold stepOverfills at h
  split at h
  · next t e => exact ⟨t, e, by simpa using h⟩
  · cases h

/-- Refutes O51: 9 bytes in the queue after a step from `overwritten`. -/
theorem not_invariantKept : ¬ Obligations.InvariantKept := by
  intro h
  obtain ⟨t, ht, hq⟩ := next_of_stepOverfills overwritten_overfills
  have := (h _ _ overwritten_invariant ht).2.2
  omega

end Sys2Proof.Machine
end

section
/-!
Integer arithmetic (41_integer_arithmetic.md). The sums and differences are described once, as exact integers; an
instruction that sets C and F and rewrites its destination then follows from `completes_arith`.
-/
namespace Sys2Proof.Machine

open Sys2Proof.Safety

/-! ### Sum and difference (R221) -/

theorem not_inSigned_eq (w : Nat) (x : Int) :
    (!inSigned w x) = decide (¬(-(2 ^ (w - 1) : Int) ≤ x ∧ x < (2 ^ (w - 1) : Int))) := by
  simp only [inSigned, ← Bool.decide_and, decide_not]

/-- R221 in the integers: the sum with its carry and its overflow. -/
theorem addC_eq {w : Nat} (a b : BitVec w) (c : Bool) : addC a b c =
    { result := a + b + BitVec.ofNat w c.toNat
      carry := decide (2 ^ w ≤ a.toNat + b.toNat + c.toNat)
      overflow := decide (¬(-(2 ^ (w - 1) : Int) ≤ a.toInt + b.toInt + c.toNat ∧
        a.toInt + b.toInt + c.toNat < (2 ^ (w - 1) : Int))) } := by
  simp only [addC, not_inSigned_eq, BitVec.ofNat_add, BitVec.ofNat_toNat, BitVec.setWidth_eq]

theorem addC_false {w : Nat} (a b : BitVec w) : addC a b false =
    { result := a + b
      carry := decide (2 ^ w ≤ a.toNat + b.toNat)
      overflow := decide (¬(-(2 ^ (w - 1) : Int) ≤ a.toInt + b.toInt ∧ a.toInt + b.toInt < (2 ^ (w - 1) : Int))) } := by
  simp [addC_eq]

/-- R221 in the integers: the difference with its borrow and its overflow. -/
theorem subC_eq {w : Nat} (a b : BitVec w) (c : Bool) : subC a b c =
    { result := a - b - BitVec.ofNat w c.toNat
      carry := decide (a.toNat < b.toNat + c.toNat)
      overflow := decide (¬(-(2 ^ (w - 1) : Int) ≤ a.toInt - b.toInt - c.toNat ∧
        a.toInt - b.toInt - c.toNat < (2 ^ (w - 1) : Int))) } := by
  have result : BitVec.ofInt w ((a.toNat : Int) - b.toNat - c.toNat) = a - b - BitVec.ofNat w c.toNat := by
    rw [Int.sub_eq_add_neg, Int.sub_eq_add_neg, BitVec.ofInt_add, BitVec.ofInt_add, BitVec.ofInt_neg, BitVec.ofInt_neg]
    simp only [BitVec.ofInt_natCast, BitVec.ofNat_toNat, BitVec.setWidth_eq, BitVec.sub_eq_add_neg]
  simp only [subC, not_inSigned_eq, result]

theorem subC_false {w : Nat} (a b : BitVec w) : subC a b false =
    { result := a - b
      carry := decide (a.toNat < b.toNat)
      overflow := decide (¬(-(2 ^ (w - 1) : Int) ≤ a.toInt - b.toInt ∧ a.toInt - b.toInt < (2 ^ (w - 1) : Int))) } := by
  simp [subC_eq]

theorem runs_arith {w : Nat} (r : Arith w) (s : State) : Runs (arith r) s r.result (s.putCF r.carry r.overflow) :=
  runs_bind (runs_change (fun s => s.putCF r.carry r.overflow) s (fun _ => rfl) rfl) (runs_pure _ _)

theorem runs_carry_arith {w : Nat} (r : Bool → Arith w) (s : State) :
    Runs (do arith (r (← look fun s => s.flag .c))) s (r (s.flag .c)).result
      (s.putCF (r (s.flag .c)).carry (r (s.flag .c)).overflow) :=
  runs_bind (runs_look (fun s => s.flag .c) s fun _ => rfl) (runs_arith _ _)

/-! ### Shapes of instructions -/

/-- C, F and the destination are written, the destination from its old value and the source. -/
theorem completes_arith {j : Instr} {n : Nat} {src dst : Gen} {f : BitVec (8 * n) → BitVec (8 * n) → M (BitVec (8 * n))}
    {s : State} {r : Arith (8 * n)} (e : exec j s = performSeq j (binaryOp n n src dst f) s) (hj : j.WF) (hs : Answers s)
    (h : Runs (f (s.begin.operand src n) ((s.begin.afterRead src n).at ((s.begin.afterRead src n).rmwPlace dst) n))
      (s.begin.afterRead src n) r.result ((s.begin.afterRead src n).putCF r.carry r.overflow)) :
    let s1 := s.begin.afterRead src n
    let p := s1.rmwPlace dst
    Completes j s { ((s1.putCF r.carry r.overflow).put p n r.result) with pc := s.next j } (s1.storeAddr p n) n := by
  intro s1 p
  rw [← State.storeAddr_congr (State.putCF_sp s1 r.carry r.overflow)]
  exact completes_binaryOp e hj hs h (by simp [s1]) (by simp [s1])

/-- C, F and the destination are written, the destination from its old value. -/
theorem completes_rmwArith {j : Instr} {n : Nat} {dst : Gen} {f : BitVec (8 * n) → M (BitVec (8 * n))} {s : State}
    {r : Arith (8 * n)} (e : exec j s = performSeq j (rmwOp n dst f) s) (hj : j.WF) (hs : Answers s)
    (h : Runs (f (s.begin.at (s.begin.rmwPlace dst) n)) s.begin r.result (s.begin.putCF r.carry r.overflow)) :
    let p := s.begin.rmwPlace dst
    Completes j s { ((s.begin.putCF r.carry r.overflow).put p n r.result) with pc := s.next j } (s.begin.storeAddr p n) n := by
  intro p
  rw [← State.storeAddr_congr (State.putCF_sp s.begin r.carry r.overflow)]
  exact completes_seq e hj hs (runs_rmwOp h) (frame_put (by simp) _ _ _) (by simp)

/-- The destination is rewritten by a value of the old one and the source; no flag changes. -/
theorem completes_pureOp {j : Instr} {n : Nat} {src dst : Gen} {f : BitVec (8 * n) → BitVec (8 * n) → BitVec (8 * n)}
    {s : State} (e : exec j s = performSeq j (binaryOp n n src dst fun a b => return f a b) s) (hj : j.WF)
    (hs : Answers s) :
    let s1 := s.begin.afterRead src n
    let p := s1.rmwPlace dst
    Completes j s { (s1.put p n (f (s.begin.operand src n) (s1.at p n))) with pc := s.next j } (s1.storeAddr p n) n :=
  completes_binaryOp e hj hs (runs_pure _ _) (by simp) (by simp)

/-- Settles O1: the sum or the difference as R221 has it is computed between the reads and the store. -/
theorem addSubtract : Obligations.AddSubtract := by
  constructor
  · intro i src dst s hs n a s1 p b c done
    refine ⟨fun hi => ?addi, fun hi => ?addci, fun hi => ?subi, fun hi => ?subci⟩
    case addi =>
      have h := completes_arith rfl hi hs (runs_arith (addC _ _ false) _)
      rw [addC_false] at h
      exact h
    case addci =>
      have h := completes_arith rfl hi hs (runs_carry_arith (fun c => addC _ _ c) _)
      simp only [addC_eq, State.afterRead_flag, State.begin_flag, if_neg (show PsrBit.c ≠ .p by decide)] at h
      exact h
    case subi =>
      have h := completes_arith rfl hi hs (runs_arith (subC _ _ false) _)
      rw [subC_false] at h
      exact h
    case subci =>
      have h := completes_arith rfl hi hs (runs_carry_arith (fun c => subC _ _ c) _)
      simp only [subC_eq, State.afterRead_flag, State.begin_flag, if_neg (show PsrBit.c ≠ .p by decide)] at h
      exact h
  · intro i q dst s hs n j a p b x c f hi
    have h := completes_rmwArith (j := j) (dst := dst) rfl hi hs (runs_arith (addC b a false) s.begin)
    rw [addC_false] at h
    exact h

end Sys2Proof.Machine
end

section
/-! Products, logical operations, negation and complement (41_integer_arithmetic.md, 42_compare_logical_shift.md). -/
namespace Sys2Proof.Machine

open Sys2Proof.Safety

/-- The low part of the signed product. -/
theorem mul_eq_ofInt {w : Nat} (a b : BitVec w) : a * b = BitVec.ofInt w (a.toInt * b.toInt) := by
  rw [BitVec.ofInt_mul, BitVec.ofInt_toInt, BitVec.ofInt_toInt]

/-- Settles O2: each instruction rewrites its destination by a value of the two operands. -/
theorem multiplyLogical : Obligations.MultiplyLogical := by
  intro i src dst s hs n a s1 p b done
  refine ⟨fun hi => ?muli, fun hi => ?andi, fun hi => ?ori, fun hi => ?bici, fun hi => ?xori⟩
  case muli =>
    have h := completes_pureOp (f := fun a b => b * a) rfl hi hs
    simp only [mul_eq_ofInt] at h
    exact h
  case andi => exact completes_pureOp (f := fun a b => b &&& a) rfl hi hs
  case ori => exact completes_pureOp (f := fun a b => b ||| a) rfl hi hs
  case bici => exact completes_pureOp (f := fun a b => b &&& ~~~a) rfl hi hs
  case xori => exact completes_pureOp (f := fun a b => b ^^^ a) rfl hi hs

/-! ### Negation, absolute value, complement -/

/-- The source is read, flags may be written, and a value of the source goes to the destination. -/
theorem completes_unaryOp {j : Instr} {n m : Nat} {src dst : Gen} {f : BitVec (8 * n) → M (BitVec (8 * m))}
    {s t : State} {v : BitVec (8 * m)} (e : exec j s = performSeq j (moveOp n m src dst f) s) (hj : j.WF) (hs : Answers s)
    (h : Runs (f (s.begin.operand src n)) (s.begin.afterRead src n) v t)
    (hm : t.mem = s.mem) (hp : t.pc = s.pc) (sp : t.sp = (s.begin.afterRead src n).sp) :
    let s1 := s.begin.afterRead src n
    let p := s1.writePlaceOf dst
    Completes j s { (t.put p m v) with pc := s.next j } (s1.storeAddr p m) m := by
  intro s1 p
  rw [← State.storeAddr_congr sp]
  exact completes_moveOp e hj hs h hm hp

/-- A value of the source goes to the destination, no flag changes. -/
theorem completes_pureMove {j : Instr} {n m : Nat} {src dst : Gen} {f : BitVec (8 * n) → BitVec (8 * m)} {s : State}
    (e : exec j s = performSeq j (moveOp n m src dst fun a => return f a) s) (hj : j.WF) (hs : Answers s) :
    let s1 := s.begin.afterRead src n
    let p := s1.writePlaceOf dst
    Completes j s { (s1.put p m (f (s.begin.operand src n))) with pc := s.next j } (s1.storeAddr p m) m :=
  completes_unaryOp e hj hs (runs_pure _ _) (by simp) (by simp) rfl

/-- The borrow of `0 - a`, and its overflow: only the most negative number has no negative in range. -/
theorem subC_zero {w : Nat} (hw : 0 < w) (a : BitVec w) : subC 0 a false =
    { result := -a, carry := decide (a ≠ 0), overflow := decide (a = BitVec.intMin w) } := by
  have range := BitVec.le_toInt a
  have range' := BitVec.toInt_lt (x := a)
  have least : a = BitVec.intMin w ↔ a.toInt = -2 ^ (w - 1) := by
    rw [← BitVec.toInt_inj, BitVec.toInt_intMin_of_pos hw]
  have carry : decide ((0 : BitVec w).toNat < a.toNat) = decide (a ≠ 0) := by
    rw [decide_eq_decide, ne_eq, BitVec.toNat_eq]
    simp only [BitVec.ofNat_eq_ofNat, BitVec.toNat_zero]
    omega
  have overflow : decide (¬(-(2 ^ (w - 1) : Int) ≤ (0 : BitVec w).toInt - a.toInt ∧
      (0 : BitVec w).toInt - a.toInt < (2 ^ (w - 1) : Int))) = decide (a = BitVec.intMin w) := by
    rw [decide_eq_decide, least]
    simp only [BitVec.ofNat_eq_ofNat, BitVec.toInt_zero]
    omega
  have result : 0 - a = -a := BitVec.zero_sub a
  rw [subC_false, carry, overflow, result]

theorem abs_eq_ofInt {w : Nat} (a : BitVec w) : (if a.slt 0 then -a else a) = BitVec.ofInt w |a.toInt| := by
  simp only [BitVec.slt_iff_toInt_lt, BitVec.ofNat_eq_ofNat, BitVec.toInt_zero]
  split
  · next h => rw [abs_of_neg h, BitVec.ofInt_neg, BitVec.ofInt_toInt]
  · next h => rw [abs_of_nonneg (not_lt.mp h), BitVec.ofInt_toInt]

theorem bits_pos_of_size (i : Size) : 0 < 8 * i.bytes := by cases i <;> decide

/-- Settles O5: NEG is a subtraction from zero; the others write at most F. -/
theorem negateComplement : Obligations.NegateComplement := by
  intro i src dst s hs n a s1 p least done
  refine ⟨fun hi => ?negi, fun hi => ?absi, fun hi => ?comi, fun hi => ?noti⟩
  case negi =>
    have h := completes_unaryOp (j := .negi i src dst) rfl hi hs (runs_arith (subC 0 a false) _) (by simp) (by simp)
      (State.putCF_sp _ _ _)
    rw [subC_zero (bits_pos_of_size i)] at h
    exact h
  case absi =>
    have h := completes_unaryOp (j := .absi i src dst) rfl hi hs (runs_bind (runs_change
      (fun s => s.putFlag .f (a == BitVec.intMin _)) s1 (fun _ => rfl) rfl) (runs_pure _ _)) (by simp [s1]) (by simp [s1])
      (State.putFlag_sp _ .f _ (by decide))
    rw [abs_eq_ofInt, beq_eq_decide] at h
    exact h
  case comi => exact completes_pureMove (f := fun a => ~~~a) rfl hi hs
  case noti => exact completes_pureMove (f := fun a => a ^^^ 1) rfl hi hs

/-! ### Moves -/

/-- Settles O9: the source as it is, or extended. -/
theorem move : Obligations.Move := by
  intro i src dst s hs done
  refine ⟨fun hi => ?movi, fun hi => ?movzbw, fun hi => ?movzid, fun hi => ?movxbw, fun hi => ?movxid⟩
  case movi => exact completes_pureMove (f := id) rfl hi hs
  case movzbw => exact completes_pureMove (f := fun a => BitVec.ofNat _ a.toNat) (by simp only [BitVec.ofNat_toNat]; rfl) hi hs
  case movzid => exact completes_pureMove (f := fun a => BitVec.ofNat _ a.toNat) (by simp only [BitVec.ofNat_toNat]; rfl) hi hs
  case movxbw => exact completes_pureMove (f := fun a => BitVec.ofInt _ a.toInt) rfl hi hs
  case movxid => exact completes_pureMove (f := fun a => BitVec.ofInt _ a.toInt) rfl hi hs

end Sys2Proof.Machine
end

section
/-! Division (41_integer_arithmetic.md R230 to R235): the quotients stay within the signed range. -/
namespace Sys2Proof.Machine

open Sys2Proof.Safety

/-! ### Quotients and remainders in range -/

/-- Of a dividend in the signed range the quotient rounded down is in range, except for the least by -1. -/
theorem fdiv_range {M a b : Int} (hM : 0 < M) (ha : a ≠ 0) (hb : -M ≤ b) (hb' : b < M) (h : ¬(b = -M ∧ a = -1)) :
    -M ≤ b.fdiv a ∧ b.fdiv a < M := by
  have positive {c d : Int} (hc : 0 < c) (hd : -M ≤ d) (hd' : d < M ∨ (d = M ∧ c ≠ 1)) :
      -M ≤ d.fdiv c ∧ d.fdiv c < M := by
    have split := Int.mul_fdiv_add_fmod d c
    have rest := Int.fmod_nonneg_of_pos d hc
    have rest' := Int.fmod_lt_of_pos d hc
    constructor
    · by_contra below
      have : c * d.fdiv c ≤ c * (-M - 1) := Int.mul_le_mul_of_nonneg_left (by omega) (by omega)
      nlinarith
    · by_contra above
      have : c * M ≤ c * d.fdiv c := Int.mul_le_mul_of_nonneg_left (by omega) (by omega)
      rcases hd' with hd' | ⟨hd', hc'⟩
      · nlinarith
      · have : 2 * M ≤ c * M := Int.mul_le_mul_of_nonneg_right (by omega) (by omega)
        omega
  rcases Int.lt_or_gt_of_ne ha with neg | pos
  · rw [← Int.neg_fdiv_neg]
    exact positive (by omega) (by omega) (by omega)
  · exact positive pos hb (.inl hb')

/-- The quotient rounded toward zero, likewise. -/
theorem tdiv_range {M a b : Int} (hM : 0 < M) (ha : a ≠ 0) (hb : -M ≤ b) (hb' : b < M) (h : ¬(b = -M ∧ a = -1)) :
    -M ≤ b.tdiv a ∧ b.tdiv a < M := by
  have size : (b.tdiv a).natAbs = b.natAbs / a.natAbs := Int.natAbs_tdiv b a
  have le : b.natAbs / a.natAbs ≤ b.natAbs := Nat.div_le_self _ _
  refine ⟨by omega, ?_⟩
  by_contra upper
  have least : b = -M := by omega
  rcases Nat.lt_or_ge 1 a.natAbs with large | unit
  · have := Nat.div_lt_self (show 0 < b.natAbs by omega) large
    omega
  · have one : a = 1 := by omega
    rw [one, Int.tdiv_one] at upper
    omega

theorem fmod_range {M a b : Int} (ha : a ≠ 0) (hM : -M ≤ a) (hM' : a < M) : -M ≤ b.fmod a ∧ b.fmod a < M := by
  rcases Int.lt_or_gt_of_ne ha with neg | pos
  · have rest := Int.fmod_nonneg_of_pos (-b) (show 0 < -a by omega)
    have rest' := Int.fmod_lt_of_pos (-b) (show 0 < -a by omega)
    rw [Int.neg_fmod_neg] at rest rest'
    omega
  · have rest := Int.fmod_nonneg_of_pos b pos
    have rest' := Int.fmod_lt_of_pos b pos
    omega

theorem tmod_range {M a b : Int} (ha : a ≠ 0) (hM : -M ≤ a) (hM' : a < M) : -M ≤ b.tmod a ∧ b.tmod a < M := by
  have size : (b.tmod a).natAbs < a.natAbs := by
    rw [Int.natAbs_tmod]
    exact Nat.mod_lt _ (by omega)
  omega

/-! ### Division of operands -/

/-- The result of a division is the exact one where it is in range, and a free value for the least number by -1. -/
theorem runs_divide {w : Nat} (op : Int → Int → Int) (a b : BitVec w) (hw : 0 < w) (ha : a ≠ 0) (s : State) :
    ∃ (r : BitVec w) (k : Nat),
      (¬(b = BitVec.intMin w ∧ a.toInt = -1) → r = BitVec.ofInt w (op b.toInt a.toInt) ∧ k = s.draws) ∧
      Runs (divide op a b) s r { s with draws := k } := by
  have minus : a = BitVec.allOnes w ↔ a.toInt = -1 := by
    rw [← BitVec.toInt_inj, BitVec.toInt_allOnes, if_pos hw]
  unfold divide
  rw [if_neg ha, ← minus]
  by_cases h : b = BitVec.intMin w ∧ a = BitVec.allOnes w
  · rw [if_pos h]
    exact ⟨_, _, fun k => absurd h k, runs_drawBits s w⟩
  · rw [if_neg h]
    exact ⟨_, s.draws, fun _ => ⟨rfl, rfl⟩, runs_pure _ s⟩

theorem put_draws (s : State) (k : Nat) (p : Place) (n : Nat) (v : BitVec (8 * n)) :
    ({ s with draws := k } : State).put p n v = { s.put p n v with draws := k } := by
  cases p with
  | push =>
    have flag : ({ s with draws := k } : State).flag .s = s.flag .s := rfl
    have sp : ({ s with draws := k } : State).sp = s.sp := rfl
    simp only [State.put, State.pushed, sp]
    unfold State.setSp
    rw [flag]
    split <;> rfl
  | _ => rfl

/-- The destination by the source, with a result in the signed range. -/
theorem completes_divide {j : Instr} {n : Nat} {src dst : Gen} {op : Int → Int → Int} {s : State}
    (e : exec j s = performSeq j (binaryOp n n src dst (divide op)) s) (hj : j.WF) (hs : Answers s) (hw : 0 < 8 * n)
    (ha : s.begin.operand src n ≠ 0)
    (range : ∀ {M a b : Int}, 0 < M → a ≠ 0 → -M ≤ a → a < M → -M ≤ b → b < M → ¬(b = -M ∧ a = -1) →
      -M ≤ op b a ∧ op b a < M) :
    let a := s.begin.operand src n
    let s1 := s.begin.afterRead src n
    let p := s1.rmwPlace dst
    let b := s1.at p n
    ∃ (r : BitVec (8 * n)) (k : Nat),
      (¬(b = BitVec.intMin (8 * n) ∧ a.toInt = -1) → r.toInt = op b.toInt a.toInt ∧ k = s.draws) ∧
      Completes j s { (s1.put p n r) with pc := s.next j, draws := k } (s1.storeAddr p n) n := by
  intro a s1 p b
  obtain ⟨r, k, value, runs⟩ := runs_divide op a b hw ha s1
  refine ⟨r, k, fun h => ?_, ?_⟩
  · obtain ⟨hr, hk⟩ := value h
    have least : b = BitVec.intMin (8 * n) ↔ b.toInt = -2 ^ (8 * n - 1) := by
      rw [← BitVec.toInt_inj, BitVec.toInt_intMin_of_pos hw]
    have nonzero : a.toInt ≠ 0 := by
      rw [← BitVec.toInt_zero (w := 8 * n), ne_eq, BitVec.toInt_inj]
      exact ha
    rw [least] at h
    obtain ⟨low, high⟩ := range (by positivity) nonzero (BitVec.le_toInt a) BitVec.toInt_lt (BitVec.le_toInt b)
      BitVec.toInt_lt h
    rw [hr, BitVec.toInt_ofInt_eq_self hw low high]
    exact ⟨rfl, hk.trans (State.afterRead_draws _ _ _)⟩
  · have h := completes_binaryOp e hj hs runs (State.afterRead_mem _ _ _) (State.afterRead_pc _ _ _)
    rw [put_draws] at h
    exact h

end Sys2Proof.Machine

namespace Sys2Proof

open Sys2Proof.Machine Sys2Proof.Safety

/-- Settles O3: quotient and remainder are in range but for the least number by -1. -/
theorem divide : Obligations.Divide := by
  intro i src dst s hs n a s1 p b overflow done ha
  have hw := bits_pos_of_size i
  refine ⟨fun hi => ?quoi, fun hi => ?remi, fun hi => ?divi, fun hi => ?modi⟩
  case quoi =>
    exact completes_divide rfl hi hs hw ha fun hM ha _ _ => tdiv_range hM ha
  case remi =>
    obtain ⟨r, k, value, h⟩ := completes_divide (j := .remi i src dst) rfl hi hs hw ha fun _ ha low high _ _ _ =>
      tmod_range ha low high
    exact ⟨r, k, fun o => ⟨(value o).1.trans (Int.tmod_def _ _), (value o).2⟩, h⟩
  case divi =>
    exact completes_divide rfl hi hs hw ha fun hM ha _ _ => fdiv_range hM ha
  case modi =>
    obtain ⟨r, k, value, h⟩ := completes_divide (j := .modi i src dst) rfl hi hs hw ha fun _ ha low high _ _ _ =>
      fmod_range ha low high
    exact ⟨r, k, fun o => ⟨(value o).1.trans (Int.fmod_def _ _), (value o).2⟩, h⟩

end Sys2Proof
end

section
/-! Double-length products and dividends (41_integer_arithmetic.md R233, R234). -/
namespace Sys2Proof.Machine

open Sys2Proof.Safety

/-- An operand that is rewritten is in a register or in memory. -/
theorem rmwPlace_cases (s : State) (g : Gen) : (∃ r, s.rmwPlace g = .reg r) ∨ ∃ e, s.rmwPlace g = .mem e := by
  rcases g with m | ⟨m, x, sc⟩
  · cases m with
    | reg r => exact .inl ⟨r, rfl⟩
    | _ => exact .inr ⟨_, rfl⟩
  · exact .inr ⟨_, rfl⟩

/-- Addresses outside a range are outside its parts. -/
theorem outside_add {a b : Addr} {n m : Nat} :
    Outside a b (n + m) ↔ Outside a b n ∧ Outside a (b + BitVec.ofNat 24 n) m := by
  constructor
  · refine fun h => ⟨fun k hk => h k (by omega), fun k hk => ?_⟩
    have := h (n + k) (by omega)
    rwa [BitVec.ofNat_add, ← BitVec.add_assoc] at this
  · rintro ⟨h, h'⟩ k hk
    rcases Nat.lt_or_ge k n with low | high
    · exact h k low
    · have := h' (k - n) (by omega)
      rwa [BitVec.add_assoc, ← BitVec.ofNat_add, Nat.add_sub_cancel' high] at this

/-! ### MEI -/

/-- The product of MEI stored: the high half first. -/
def storeProduct {n : Nat} (p : Place) (lo hi : BitVec (8 * n)) : M Unit :=
  match p with
  | .reg r => change fun s => (s.setRegLow (r + 1) hi).setRegLow r lo
  | .mem e => do
    writeMem (e + BitVec.ofNat 24 n) n hi
    writeMem e n lo
  | .push => return ()

theorem exec_meii_eq (i : Size) (src dst : Gen) (s : State) : exec (.meii i src dst) s =
    performSeq (.meii i src dst) (do
      let a ← readGen src i.bytes
      let p ← placeRmw dst
      let b ← readPlace .readRmw p i.bytes
      storeProduct p (extendedProduct a b).1 (extendedProduct a b).2) s := rfl

@[simp] theorem State.setRegLow_mem {w : Nat} (s : State) (r : RegNo) (v : BitVec w) : (s.setRegLow r v).mem = s.mem := rfl

@[simp] theorem State.setRegLow_pc {w : Nat} (s : State) (r : RegNo) (v : BitVec w) : (s.setRegLow r v).pc = s.pc := rfl

/-- MEI with its destination at `p`. -/
theorem completes_meii {i : Size} {src dst : Gen} {s t : State} {p : Place} {a : Option Addr} {m : Nat}
    (hj : (Instr.meii i src dst).WF) (hs : Answers s) (hp : (s.begin.afterRead src i.bytes).rmwPlace dst = p)
    (h : let s1 := s.begin.afterRead src i.bytes
      let x := extendedProduct (s.begin.operand src i.bytes) (s1.at p i.bytes)
      Runs (storeProduct p x.1 x.2) s1 () t)
    (frame : MemFrame s t a m) (pc : t.pc = s.pc) :
    Completes (.meii i src dst) s { t with pc := s.next (.meii i src dst) } a m := by
  have place := runs_placeRmw dst (s.begin.afterRead src i.bytes)
  rw [hp] at place
  exact completes_seq (exec_meii_eq i src dst s) hj hs (runs_bind (runs_readGen _ _ _) (runs_bind place
    (runs_bind (runs_readPlace _ _ _ _) h))) frame pc

/-- Two neighbouring stores leave the memory outside both. -/
theorem frame_poke_poke {w w' : Nat} {s t : State} (h : t.mem = s.mem) (e : Addr) (n : Nat) (hi : BitVec w)
    (lo : BitVec w') : MemFrame s ((t.poke (e + BitVec.ofNat 24 n) n hi).poke e n lo) (some e) (2 * n) := by
  intro x hx
  rw [two_mul, outside_add] at hx
  rw [State.poke_byteAt_outside _ _ _ _ _ hx.1, State.poke_byteAt_outside _ _ _ _ _ hx.2]
  unfold State.byteAt
  rw [h]

/-- Settles O6: the product is stored at the place of the low half and after it. -/
theorem multiplyExtended : Obligations.MultiplyExtended := by
  intro i src dst s hs n j a s1 p x lo hi hj
  cases hp : p with
  | reg r =>
    dsimp only [x, lo, hi]
    rw [hp]
    refine completes_meii hj hs hp ?_ (frame_none ?_ _) ?_
    · exact runs_change (fun s => (s.setRegLow (r + 1) _).setRegLow r _) s1 (fun _ => rfl) rfl
    · simp [s1]
    · simp [s1]
  | mem e =>
    dsimp only [x, lo, hi]
    rw [hp]
    refine completes_meii hj hs hp ?_ (frame_poke_poke (State.afterRead_mem _ _ _) _ _ _ _) ?_
    · exact runs_bind (runs_writeMem _ _ _ _ s1) (runs_writeMem _ _ _ _ _)
    · simp [s1]
  | push =>
    rcases rmwPlace_cases s1 dst with ⟨r, h⟩ | ⟨e, h⟩
    · exact nomatch hp.symm.trans h
    · exact nomatch hp.symm.trans h

/-! ### DEI -/

/-- The quotient of DEI and its remainder are exact where the quotient fits, and free values elsewhere. -/
theorem runs_extendedDivide {w : Nat} (a : BitVec w) (d : Nat) (ha : a ≠ 0) (s : State) :
    ∃ (rem quo : BitVec w) (k : Nat),
      (d / a.toNat < 2 ^ w → rem.toNat = d % a.toNat ∧ quo.toNat = d / a.toNat ∧ k = s.draws) ∧
      Runs (extendedDivide a d) s (rem, quo) { s with draws := k } := by
  have pos : 0 < a.toNat := by
    have : a.toNat ≠ 0 := fun e => ha (BitVec.eq_of_toNat_eq (by simpa using e))
    omega
  unfold extendedDivide
  rw [if_neg ha]
  by_cases h : d / a.toNat < 2 ^ w
  · have small : d % a.toNat < 2 ^ w := (Nat.mod_lt _ pos).trans a.isLt
    rw [if_pos h]
    exact ⟨BitVec.ofNat w _, BitVec.ofNat w _, s.draws, fun _ => ⟨Nat.mod_eq_of_lt small, Nat.mod_eq_of_lt h, rfl⟩, runs_pure _ s⟩
  · rw [if_neg h]
    exact ⟨_, _, _, fun k => absurd k h, runs_bind (runs_drawBits s w) (runs_bind (runs_drawBits _ w) (runs_pure _ _))⟩

/-- The dividend of DEI at a place, divided and replaced. -/
def divideAt {n : Nat} (a : BitVec (8 * n)) (p : Place) : M Unit :=
  match p with
  | .reg r => do
    let lo : BitVec (8 * n) ← look fun s => (s.reg r).setWidth (8 * n)
    let hi : BitVec (8 * n) ← look fun s => (s.reg (r + 1)).setWidth (8 * n)
    let (rem, quo) ← extendedDivide a (hi.toNat * 2 ^ (8 * n) + lo.toNat)
    change fun s => (s.setRegLow r rem).setRegLow (r + 1) quo
  | .mem e => do
    let d ← readMem .readRmw e (2 * n)
    let (rem, quo) ← extendedDivide a d.toNat
    writeMem e (2 * n) (quo ++ rem)
  | .push => return ()

theorem exec_deii_eq (i : Size) (src dst : Gen) (s : State) : exec (.deii i src dst) s =
    performSeq (.deii i src dst) (do
      let a ← readGen src i.bytes
      let p ← placeRmw dst
      divideAt a p) s := rfl

/-- DEI with its destination at `p`. -/
theorem completes_deii {i : Size} {src dst : Gen} {s t : State} {p : Place} {a : Option Addr} {m : Nat}
    (hj : (Instr.deii i src dst).WF) (hs : Answers s) (hp : (s.begin.afterRead src i.bytes).rmwPlace dst = p)
    (h : Runs (divideAt (s.begin.operand src i.bytes) p) (s.begin.afterRead src i.bytes) () t)
    (frame : MemFrame s t a m) (pc : t.pc = s.pc) :
    Completes (.deii i src dst) s { t with pc := s.next (.deii i src dst) } a m := by
  have place := runs_placeRmw dst (s.begin.afterRead src i.bytes)
  rw [hp] at place
  exact completes_seq (exec_deii_eq i src dst s) hj hs (runs_bind (runs_readGen _ _ _) (runs_bind place h)) frame pc

/-- Settles O7: the dividend is read, divided and replaced at the place of the destination. -/
theorem divideExtended : Obligations.DivideExtended := by
  intro i src dst s hs n j a s1 hj ha
  have draws : s1.draws = s.draws := State.afterRead_draws _ _ _
  have mem : s1.mem = s.mem := State.afterRead_mem _ _ _
  cases hp : s1.rmwPlace dst with
  | reg r =>
    let d := (s1.reg (r + 1)).toNat % 2 ^ (8 * n) * 2 ^ (8 * n) + (s1.reg r).toNat % 2 ^ (8 * n)
    have dividend : ((s1.reg (r + 1)).setWidth (8 * n)).toNat * 2 ^ (8 * n) + ((s1.reg r).setWidth (8 * n)).toNat = d := by
      simp only [BitVec.toNat_setWidth, d]
    obtain ⟨rem, quo, k, value, divided⟩ := runs_extendedDivide a d ha s1
    refine ⟨rem, quo, k, draws ▸ value, ?_⟩
    rw [← dividend] at divided
    refine completes_deii (t := { ((s1.setRegLow r rem).setRegLow (r + 1) quo) with draws := k }) hj hs hp ?_
      (frame_none ?_ _) ?_
    · exact runs_bind (runs_look (fun s => (s.reg r).setWidth (8 * n)) s1 fun _ => rfl)
        (runs_bind (runs_look (fun s => (s.reg (r + 1)).setWidth (8 * n)) s1 fun _ => rfl) (runs_bind divided
          (runs_change (fun s => (s.setRegLow r rem).setRegLow (r + 1) quo) { s1 with draws := k } (fun _ => rfl) rfl)))
    · simp [s1]
    · simp [s1]
  | mem e =>
    obtain ⟨rem, quo, k, value, divided⟩ := runs_extendedDivide a (s1.peek e (2 * n)).toNat ha s1
    refine ⟨rem, quo, k, draws ▸ value, ?_⟩
    refine completes_deii (t := { (s1.poke e (2 * n) (quo ++ rem)) with draws := k }) hj hs hp ?_
      (frame_of_mem (frame_poke mem e (2 * n) (quo ++ rem)) rfl) ?_
    · exact runs_bind (runs_readMem _ _ _ _ s1) (runs_bind divided
        (runs_writeMem e (2 * n) (quo ++ rem) _ { s1 with draws := k }))
    · simp [s1]
  | push =>
    rcases rmwPlace_cases s1 dst with ⟨r, h⟩ | ⟨e, h⟩
    · exact nomatch hp.symm.trans h
    · exact nomatch hp.symm.trans h

end Sys2Proof.Machine
end

section
/-!
Packed decimal arithmetic (41_integer_arithmetic.md R236, R237). A packed number is read from its low digit by `decimalValue`
and from its high one by `bcdVal`; `decimalValue_succ` reads it from the high digit too, and the two agree digit by digit.
-/
namespace Sys2Proof.Machine

open Sys2Proof.Safety

/-! ### Packed numbers -/

/-- The value of a packed number, from its highest digit. -/
theorem decimalValue_succ (x d : Nat) : decimalValue x (d + 1) =
    (decimalValue x d).bind fun v => if x / 16 ^ d % 16 ≤ 9 then some (v + x / 16 ^ d % 16 * 10 ^ d) else none := by
  induction d generalizing x with
  | zero =>
    simp [decimalValue]
  | succ d ih =>
    rw [decimalValue, ih (x / 16), decimalValue, Nat.div_div_eq_div_mul, ← Nat.pow_succ']
    cases decimalValue (x / 16) d with
    | none => rfl
    | some v =>
      by_cases low : x % 16 ≤ 9 <;> by_cases high : x / 16 ^ (d + 1) % 16 ≤ 9
      · simp only [Option.bind_some, if_pos low, if_pos high, Option.some.injEq]
        ring
      · simp [low, high]
      · simp [low, high]
      · simp [low, high]

theorem decimalValue_lt {x d v : Nat} (h : decimalValue x d = some v) : v < 10 ^ d := by
  induction d generalizing v with
  | zero => simp only [decimalValue, Option.some.injEq] at h; omega
  | succ d ih =>
    rw [decimalValue_succ, Option.bind_eq_some_iff] at h
    obtain ⟨u, hu, h⟩ := h
    have := ih hu
    split at h
    · next digit =>
      have : x / 16 ^ d % 16 * 10 ^ d ≤ 9 * 10 ^ d := Nat.mul_le_mul_right _ digit
      rw [Nat.pow_succ]
      simp only [Option.some.injEq] at h
      omega
    · cases h

/-- Only the low digits count. -/
theorem decimalValue_add (x y d : Nat) : decimalValue (x + y * 16 ^ d) d = decimalValue x d := by
  induction d generalizing x with
  | zero => rfl
  | succ d ih =>
    have low : (x + y * 16 ^ (d + 1)) % 16 = x % 16 := by
      rw [Nat.pow_succ, ← Nat.mul_assoc, Nat.add_mul_mod_self_right]
    have high : (x + y * 16 ^ (d + 1)) / 16 = x / 16 + y * 16 ^ d := by
      rw [Nat.pow_succ, ← Nat.mul_assoc, Nat.add_mul_div_right _ _ (by decide)]
    rw [decimalValue, low, high, ih, decimalValue]

theorem bcdDigit_eq {w : Nat} (v : BitVec w) (k : Nat) : bcdDigit v k = v.toNat / 16 ^ k % 16 := by
  rw [bcdDigit, BitVec.extractLsb'_toNat, Nat.shiftRight_eq_div_pow, Nat.pow_mul]

/-- The digits of a packed number that has a value are decimal, and `bcdVal` is that value. -/
theorem bcd_of_decimalValue {w : Nat} {v : BitVec w} {d x : Nat} (h : decimalValue v.toNat d = some x) :
    bcdOk v d = true ∧ bcdVal v d = x := by
  induction d generalizing x with
  | zero =>
    simp only [decimalValue, Option.some.injEq] at h
    exact ⟨rfl, h⟩
  | succ d ih =>
    rw [decimalValue_succ, Option.bind_eq_some_iff] at h
    obtain ⟨u, hu, h⟩ := h
    obtain ⟨ok, value⟩ := ih hu
    split at h
    · next digit =>
      simp only [Option.some.injEq] at h
      rw [bcdOk, List.range_succ, List.all_append, ← bcdOk, ok, bcdVal, value, bcdDigit_eq, h]
      simp [bcdDigit_eq, digit]
    · cases h

theorem toBcd_lt (x d : Nat) : toBcd x d < 16 ^ d := by
  induction d with
  | zero => exact Nat.one_pos
  | succ d ih =>
    have digit : x / 10 ^ d % 10 * 16 ^ d ≤ 9 * 16 ^ d := Nat.mul_le_mul_right _ (by omega)
    rw [toBcd, Nat.pow_succ]
    omega

/-- Packing a number and reading its value. -/
theorem decimalValue_toBcd (x d : Nat) : decimalValue (toBcd x d) d = some (x % 10 ^ d) := by
  induction d with
  | zero => simp [decimalValue, Nat.mod_one]
  | succ d ih =>
    have digit : x / 10 ^ d % 10 ≤ 9 := by omega
    have top : (toBcd x d + x / 10 ^ d % 10 * 16 ^ d) / 16 ^ d % 16 = x / 10 ^ d % 10 := by
      rw [Nat.add_mul_div_right _ _ (by positivity), Nat.div_eq_of_lt (toBcd_lt x d), Nat.zero_add]
      exact Nat.mod_eq_of_lt (by omega)
    rw [toBcd, decimalValue_succ, decimalValue_add, ih, top]
    simp only [Option.bind_some, if_pos digit, Option.some.injEq]
    rw [Nat.mod_pow_succ, Nat.mul_comm]

/-! ### The instructions -/

/-- A packed operation gives some result, carry and F; with decimal digits in both operands the result and the carry are
those of the operation on their values. -/
theorem runs_packed (n : Nat) (op : Nat → Nat → Nat → Nat × Bool) (a b : BitVec (8 * n)) (s : State) :
    ∃ (r : BitVec (8 * n)) (carry f : Bool) (k : Nat),
      (∀ x y, decimalValue a.toNat (2 * n) = some x → decimalValue b.toNat (2 * n) = some y →
        r = BitVec.ofNat _ (toBcd (op y x (s.flag .c).toNat).1 (2 * n)) ∧ carry = (op y x (s.flag .c).toNat).2) ∧
      Runs (packed n op a b) s r { (s.putCF carry f) with draws := k } := by
  have carryIn := runs_look (fun s => s.flag .c) s fun _ => rfl
  unfold packed
  by_cases h : (bcdOk a (2 * n) && bcdOk b (2 * n)) = true
  · let z := op (bcdVal b (2 * n)) (bcdVal a (2 * n)) (s.flag .c).toNat
    refine ⟨BitVec.ofNat _ (toBcd z.1 (2 * n)), z.2, (Config.freeBits s.draws).getLsbD 0, s.draws + 1,
      fun x y hx hy => ?_, runs_bind carryIn (runs_bind (runs_drawBool s) ?_)⟩
    · rw [← (bcd_of_decimalValue hx).2, ← (bcd_of_decimalValue hy).2]
      exact ⟨rfl, rfl⟩
    · rw [if_pos h]
      exact runs_bind (runs_change (fun s => s.putCF z.2 _) _ (fun _ => rfl) rfl) (runs_pure _ _)
  · refine ⟨(Config.freeBits (s.draws + 2)).setWidth _, (Config.freeBits (s.draws + 1)).getLsbD 0,
      (Config.freeBits s.draws).getLsbD 0, s.draws + 3, fun x y hx hy => ?_,
      runs_bind carryIn (runs_bind (runs_drawBool s) ?_)⟩
    · rw [(bcd_of_decimalValue hx).1, (bcd_of_decimalValue hy).1] at h
      exact absurd rfl h
    · rw [if_neg h]
      exact runs_bind (runs_drawBool _) (runs_bind (runs_drawBits _ _)
        (runs_bind (runs_change (fun s => s.putCF _ _) _ (fun _ => rfl) rfl) (runs_pure _ _)))

/-- A packed instruction, its result read as a decimal number. -/
theorem completes_packed {j : Instr} {n : Nat} {src dst : Gen} {op : Nat → Nat → Nat → Nat × Bool} {s : State}
    (e : exec j s = performSeq j (binaryOp n n src dst (packed n op)) s) (hj : j.WF) (hs : Answers s) :
    let a := s.begin.operand src n
    let s1 := s.begin.afterRead src n
    let p := s1.rmwPlace dst
    let b := s1.at p n
    let c := (s.flag .c).toNat
    ∃ (r : BitVec (8 * n)) (carry f : Bool) (k : Nat),
      (∀ x y, decimalValue a.toNat (2 * n) = some x → decimalValue b.toNat (2 * n) = some y →
        decimalValue r.toNat (2 * n) = some ((op y x c).1 % 10 ^ (2 * n)) ∧ carry = (op y x c).2) ∧
      Completes j s { ((s1.putCF carry f).put p n r) with pc := s.next j, draws := k } (s1.storeAddr p n) n := by
  intro a s1 p b c
  obtain ⟨r, carry, f, k, value, runs⟩ := runs_packed n op a b s1
  have carryIn : s1.flag .c = s.flag .c := by simp [s1]
  refine ⟨r, carry, f, k, fun x y hx hy => ?_, ?_⟩
  · obtain ⟨hr, hc⟩ := value x y hx hy
    have small : toBcd (op y x (s1.flag .c).toNat).1 (2 * n) < 2 ^ (8 * n) := by
      have := toBcd_lt (op y x (s1.flag .c).toNat).1 (2 * n)
      rwa [show 16 = 2 ^ 4 from rfl, ← Nat.pow_mul, ← Nat.mul_assoc] at this
    rw [hr, BitVec.toNat_ofNat, Nat.mod_eq_of_lt small, decimalValue_toBcd, hc, carryIn]
    exact ⟨rfl, rfl⟩
  · have h := completes_binaryOp e hj hs runs (by simp [s1]) (by simp [s1])
    rw [put_draws, State.storeAddr_congr (t := { (s1.putCF carry f) with draws := k }) (State.putCF_sp s1 carry f)] at h
    exact h

end Sys2Proof.Machine

namespace Sys2Proof

open Sys2Proof.Machine Sys2Proof.Safety

/-- The decimal difference of R237, as one formula. -/
theorem subDecimal_eq {d y x c : Nat} (hy : y < 10 ^ d) (hx : x < 10 ^ d) :
    (subDecimal d y x c).1 % 10 ^ d = (y + 10 ^ d - (x + c)) % 10 ^ d ∧
    (subDecimal d y x c).2 = decide (y < x + c) := by
  unfold subDecimal
  split
  · next borrow => exact ⟨rfl, (decide_eq_true borrow).symm⟩
  · next enough =>
    refine ⟨?_, (decide_eq_false enough).symm⟩
    rw [show y + 10 ^ d - (x + c) = y - (x + c) + 10 ^ d by omega, Nat.add_mod_right]

/-- Settles O8: the packed operations on the values of their operands. -/
theorem packed : Obligations.Packed := by
  intro i src dst s hs n a s1 p b c done digits
  refine ⟨fun hi => ?addpi, fun hi => ?subpi⟩
  case addpi =>
    obtain ⟨r, carry, f, k, value, h⟩ := completes_packed (j := .addpi i src dst) rfl hi hs
    refine ⟨r, carry, f, k, fun x hx y hy => ?_, h⟩
    obtain ⟨result, hc⟩ := value x y hx hy
    exact ⟨result.trans (by rw [addDecimal, Nat.mod_mod]), hc⟩
  case subpi =>
    obtain ⟨r, carry, f, k, value, h⟩ := completes_packed (j := .subpi i src dst) rfl hi hs
    refine ⟨r, carry, f, k, fun x hx y hy => ?_, h⟩
    obtain ⟨result, hc⟩ := value x y hx hy
    obtain ⟨difference, borrow⟩ := subDecimal_eq (decimalValue_lt hy) (decimalValue_lt hx)
    exact ⟨result.trans (congrArg some difference), hc.trans borrow⟩

end Sys2Proof
end

section
/-! Constants, conditions and addresses as values (40_moves.md, 42_compare_logical_shift.md, 43_bits_fields_arrays.md). -/
namespace Sys2Proof.Machine

open Sys2Proof.Safety

theorem State.begin_holds (s : State) (c : Cond) : s.begin.holds c = s.holds c := by
  cases c <;> simp [State.holds]

/-- A value goes to an operand of class write. -/
theorem runs_write {n : Nat} (dst : Gen) (v : BitVec (8 * n)) (s : State) :
    Runs (do writePlace (← placeWrite dst) n v) s () (s.put (s.writePlaceOf dst) n v) :=
  runs_bind (runs_placeWrite dst s) (runs_writePlace _ _ _ s)

/-- An instruction that only stores a value of the state. -/
theorem completes_write {j : Instr} {x : M Unit} {n : Nat} {dst : Gen} {v : BitVec (8 * n)} {s : State}
    (e : exec j s = performSeq j x s) (hj : j.WF) (hs : Answers s)
    (h : Runs x s.begin () (s.begin.put (s.begin.writePlaceOf dst) n v)) :
    let p := s.begin.writePlaceOf dst
    Completes j s { (s.begin.put p n v) with pc := s.next j } (s.begin.storeAddr p n) n :=
  completes_seq e hj hs h (frame_put rfl _ _ _) (by simp)

/-- Settles O10: the value is computed from the state, then stored; the table of conditions is that of `condOf` and
`State.holds`. -/
theorem quickConditionAddress : Obligations.QuickConditionAddress := by
  refine ⟨fun i q c dst s hs => ⟨fun hi => ?movqi, fun hi => ?scondi⟩, fun s => ?conditions,
    fun r src dst s hs => ⟨fun hi => ?addr, fun hi => ?cvtp⟩⟩
  case movqi => exact completes_write rfl hi hs (runs_write dst (q.signExtend (8 * i.bytes)) _)
  case scondi =>
    rw [← State.begin_holds]
    exact completes_write rfl hi hs (runs_bind (runs_look (fun s => s.holds c) _ fun _ => by cases c <;> rfl)
      (runs_write dst _ _))
  case conditions =>
    simp only [List.forall_mem_cons, List.not_mem_nil, false_implies, implies_true, and_true]
    repeat' constructor
  case addr => exact completes_write rfl hi hs (runs_bind (runs_effAddr src _) (runs_write dst (n := 4) _ _))
  case cvtp =>
    exact completes_write rfl hi hs (runs_bind (runs_look (fun s => s.reg r) _ fun _ => rfl)
      (runs_bind (runs_effAddr src _) (runs_write dst (n := 4) _ _)))

/-! ### Shifts -/

/-- A logical shift in the natural numbers (R263). -/
theorem toNat_lshBy {w : Nat} (b : BitVec w) (c : Byte) : (lshBy b c).toNat =
    if 0 ≤ c.toInt then b.toNat * 2 ^ c.toInt.toNat % 2 ^ w else b.toNat / 2 ^ (-c.toInt).toNat := by
  unfold lshBy
  split
  · next h =>
    rw [BitVec.toNat_shiftLeft, Nat.shiftLeft_eq, show c.toInt.toNat = c.toInt.natAbs by omega]
  · next h =>
    rw [BitVec.toNat_ushiftRight, Nat.shiftRight_eq_div_pow, show (-c.toInt).toNat = c.toInt.natAbs by omega]

/-- An arithmetic shift: the left one in the natural numbers, the right one in the integers (R264). -/
theorem ashBy_eq {w : Nat} (b : BitVec w) (c : Byte) : if 0 ≤ c.toInt
    then (ashBy b c).toNat = b.toNat * 2 ^ c.toInt.toNat % 2 ^ w
    else (ashBy b c).toInt = b.toInt.fdiv (2 ^ (-c.toInt).toNat) := by
  unfold ashBy
  split
  · next h => rw [BitVec.toNat_shiftLeft, Nat.shiftLeft_eq, show c.toInt.toNat = c.toInt.natAbs by omega]
  · next h =>
    rw [BitVec.toInt_sshiftRight, Int.shiftRight_eq_div_pow, Int.fdiv_eq_ediv_of_nonneg _ (by positivity),
      show (-c.toInt).toNat = c.toInt.natAbs by omega]
    norm_cast

/-- A rotation left by `m` places in the natural numbers. -/
theorem rotate_eq {w m x : Nat} (hm : m < w) (hx : x < 2 ^ w) :
    x <<< m % 2 ^ w ||| x >>> (w - m) = (x * 2 ^ m + x / 2 ^ (w - m)) % 2 ^ w := by
  have whole : 2 ^ w = 2 ^ (w - m) * 2 ^ m := by rw [← Nat.pow_add, Nat.sub_add_cancel hm.le]
  have high : x <<< m % 2 ^ w = (x % 2 ^ (w - m)) <<< m := by
    rw [Nat.shiftLeft_eq, Nat.shiftLeft_eq, whole, Nat.mul_mod_mul_right]
  have low : x / 2 ^ (w - m) < 2 ^ m := by rwa [Nat.div_lt_iff_lt_mul (by positivity), Nat.mul_comm, ← whole]
  have fits : (x % 2 ^ (w - m)) * 2 ^ m + x / 2 ^ (w - m) < 2 ^ w := by
    have : x % 2 ^ (w - m) + 1 ≤ 2 ^ (w - m) := Nat.mod_lt _ (by positivity)
    have := Nat.mul_le_mul_right (2 ^ m) this
    rw [← whole, Nat.add_mul] at this
    omega
  have total : (x * 2 ^ m + x / 2 ^ (w - m)) % 2 ^ w = x % 2 ^ (w - m) * 2 ^ m + x / 2 ^ (w - m) := by
    rw [← Nat.mod_add_mod, ← Nat.shiftLeft_eq x, high, Nat.shiftLeft_eq, Nat.mod_eq_of_lt fits]
  rw [high, Nat.shiftRight_eq_div_pow, ← Nat.shiftLeft_add_eq_or_of_lt low, Nat.shiftLeft_eq, total]

/-- A rotation by a count within the width, to the right if it is negative (R265). -/
theorem toNat_rotBy {w : Nat} (b : BitVec w) (c : Byte) (hc : c.toInt.natAbs < w) : (rotBy b c).toNat =
    (b.toNat * 2 ^ (c.toInt % (w : Nat)).toNat + b.toNat / 2 ^ (w - (c.toInt % (w : Nat)).toNat)) % 2 ^ w := by
  unfold rotBy
  split
  · next h =>
    have places : (c.toInt % (w : Nat)).toNat = c.toInt.natAbs := by rw [Int.emod_eq_of_lt h (by omega)]; omega
    rw [BitVec.toNat_rotateLeft, Nat.mod_eq_of_lt hc, places, rotate_eq hc b.isLt]
  · next h =>
    have places : (c.toInt % (w : Nat)).toNat = w - c.toInt.natAbs := by
      rw [← Int.add_emod_right, Int.emod_eq_of_lt (by omega) (by omega)]
      omega
    have back : w - (w - c.toInt.natAbs) = c.toInt.natAbs := by omega
    rw [BitVec.toNat_rotateRight, Nat.mod_eq_of_lt hc, places, ← rotate_eq (by omega) b.isLt, back, Nat.or_comm]

/-- A count within the width shifts; any other draws a free value. -/
theorem runs_shiftOrDraw {w : Nat} (f : BitVec w → Byte → BitVec w) (c : Byte) (b : BitVec w) (s : State) :
    ∃ (r : BitVec w) (k : Nat), (c.toInt.natAbs < w → r = f b c ∧ k = s.draws) ∧
      Runs (shiftOrDraw f c b) s r { s with draws := k } := by
  unfold shiftOrDraw countOk
  by_cases h : c.toInt.natAbs < w
  · rw [if_pos (decide_eq_true h)]
    exact ⟨_, s.draws, fun _ => ⟨rfl, rfl⟩, runs_pure _ s⟩
  · rw [if_neg (by simpa using h)]
    exact ⟨_, _, fun k => absurd k h, runs_drawBits s w⟩

/-- A shift of the destination by the count that the source gives. -/
theorem completes_shift {j : Instr} {n : Nat} {count dst : Gen} {f : BitVec (8 * n) → Byte → BitVec (8 * n)} {s : State}
    (e : exec j s = performSeq j (binaryOp 1 n count dst (shiftOrDraw f)) s) (hj : j.WF) (hs : Answers s) (hn : 0 < 8 * n)
    {ok : BitVec (8 * n) → Prop}
    (value : let c : Byte := s.begin.operand count 1
      let s1 := s.begin.afterRead count 1
      c.toInt.natAbs < 8 * n → ok (f (s1.at (s1.rmwPlace dst) n) c)) :
    let c := (s.begin.operand count 1).toInt
    let s1 := s.begin.afterRead count 1
    let p := s1.rmwPlace dst
    ∃ (r : BitVec (8 * n)) (k : Nat), (c.natAbs ≤ 8 * n - 1 → ok r ∧ k = s.draws) ∧
      Completes j s { (s1.put p n r) with pc := s.next j, draws := k } (s1.storeAddr p n) n := by
  intro c s1 p
  obtain ⟨r, k, within, runs⟩ := runs_shiftOrDraw f (s.begin.operand count 1) (s1.at p n) s1
  refine ⟨r, k, fun h => ?_, ?_⟩
  · have h : c.natAbs < 8 * n := by omega
    obtain ⟨hr, hk⟩ := within h
    exact ⟨hr ▸ value h, hk.trans (State.afterRead_draws _ _ _)⟩
  · have h := completes_binaryOp e hj hs runs (State.afterRead_mem _ _ _) (State.afterRead_pc _ _ _)
    rw [put_draws] at h
    exact h

/-- Settles O13: a count within the width shifts or rotates, any other gives a free value. -/
theorem shift : Obligations.Shift := by
  intro i count dst s hs n c s1 p b done left
  have hn := bits_pos_of_size i
  refine ⟨fun hi => ?lshi, fun hi => ?ashi, fun hi => ?roti⟩
  case lshi => exact completes_shift rfl hi hs hn fun _ => toNat_lshBy b _
  case ashi => exact completes_shift rfl hi hs hn fun _ => ashBy_eq b _
  case roti => exact completes_shift rfl hi hs hn fun h => toNat_rotBy b _ h

end Sys2Proof.Machine
end

section
/-! Block moves and comparisons (40_moves.md R203, 42_compare_logical_shift.md R254). -/
namespace Sys2Proof.Machine

open Sys2Proof.Safety

/-! ### Copying -/

theorem runs_copyBlock (n k : Nat) (a b : Addr) (s : State) : Runs (copyBlock n k a b) s () (State.copied n k a b s) := by
  induction k generalizing a b s with
  | zero => exact runs_pure _ _
  | succ k ih => exact runs_bind (runs_readMem _ _ _ _ _) (runs_bind (runs_writeMem _ _ _ _ _) (ih _ _ _))

theorem State.copied_pc (n k : Nat) (a b : Addr) (s : State) : (State.copied n k a b s).pc = s.pc := by
  induction k generalizing a b s with
  | zero => rfl
  | succ k ih => exact ih _ _ _

/-- A copy changes the bytes of the destination block only. -/
theorem State.copied_byteAt (n k : Nat) (a b x : Addr) (s : State) (h : Outside x b (k * n)) :
    (State.copied n k a b s).byteAt x = s.byteAt x := by
  induction k generalizing a b s with
  | zero => rfl
  | succ k ih =>
    rw [Nat.add_mul, Nat.one_mul, Nat.add_comm, outside_add] at h
    exact (ih _ _ _ h.2).trans (State.poke_byteAt_outside _ _ _ _ _ h.1)

/-- How many elements a well-formed block has (R203). -/
theorem blockCount_eq {i : Size} {d : Disp} (h : blockOk i d = true) : blockCount i d = (d.val / i.bytes + 1).toNat := by
  simp only [blockOk, Bool.and_eq_true, decide_eq_true_eq] at h
  obtain ⟨⟨nonneg, -⟩, -⟩ := h
  obtain ⟨m, hm⟩ := Int.eq_ofNat_of_zero_le nonneg
  rw [blockCount, hm, Int.toNat_natCast, ← Int.natCast_ediv]
  rfl

/-- Of a well-formed block instruction the displacement is in range. -/
theorem blockOk_of_check {i : Size} {d : Disp} {o : Option IllFormed}
    (h : o.or (IllFormed.blockLength.unless (blockOk i d)) = none) : blockOk i d = true := by
  rw [Option.or_eq_none_iff] at h
  by_contra bad
  simp [IllFormed.unless, bad] at h

theorem exec_movmi_eq (i : Size) (b1 b2 : Gen) (d : Disp) (s : State) : exec (.movmi i b1 b2 d) s =
    performSeq (.movmi i b1 b2 d) (do
      let a ← effAddr24 b1
      let b ← effAddr24 b2
      copyBlock i.bytes (blockCount i d) a b) s := rfl

/-! ### Comparing -/

theorem runs_compareBlock_equal (n k : Nat) (p q : Addr) (s : State)
    (h : ∀ m < k, s.peek (p + BitVec.ofNat 24 (m * n)) n = s.peek (q + BitVec.ofNat 24 (m * n)) n) :
    Runs (compareBlock n k p q) s () s := by
  induction k generalizing p q with
  | zero => exact runs_pure _ _
  | succ k ih =>
    have first := h 0 (by omega)
    rw [Nat.zero_mul, BitVec.add_zero, BitVec.add_zero] at first
    refine runs_bind (runs_readMem _ _ _ _ _) (runs_bind (runs_readMem _ _ _ _ _) ?_)
    rw [if_pos first]
    refine ih _ _ fun m hm => ?_
    have next := h (m + 1) (by omega)
    rwa [Nat.add_mul, Nat.one_mul, Nat.add_comm, BitVec.ofNat_add, ← BitVec.add_assoc, ← BitVec.add_assoc] at next

theorem runs_compareBlock_differ (n k j : Nat) (p q : Addr) (s : State) (hj : j < k)
    (h : ∀ m < j, s.peek (p + BitVec.ofNat 24 (m * n)) n = s.peek (q + BitVec.ofNat 24 (m * n)) n)
    (hd : s.peek (p + BitVec.ofNat 24 (j * n)) n ≠ s.peek (q + BitVec.ofNat 24 (j * n)) n) :
    Runs (compareBlock n k p q) s () (s.putCompare (s.peek (p + BitVec.ofNat 24 (j * n)) n)
      (s.peek (q + BitVec.ofNat 24 (j * n)) n)) := by
  induction k generalizing p q j with
  | zero => omega
  | succ k ih =>
    refine runs_bind (runs_readMem _ _ _ _ _) (runs_bind (runs_readMem _ _ _ _ _) ?_)
    have shift (m : Nat) (a : Addr) : a + BitVec.ofNat 24 ((m + 1) * n) = a + BitVec.ofNat 24 n + BitVec.ofNat 24 (m * n) := by
      rw [Nat.add_mul, Nat.one_mul, Nat.add_comm, BitVec.ofNat_add, ← BitVec.add_assoc]
    cases j with
    | zero =>
      rw [Nat.zero_mul, BitVec.add_zero, BitVec.add_zero] at hd ⊢
      rw [if_neg hd]
      exact runs_putCompare _ _ s
    | succ j =>
      have first := h 0 (by omega)
      rw [Nat.zero_mul, BitVec.add_zero, BitVec.add_zero] at first
      rw [if_pos first, shift, shift]
      rw [shift, shift] at hd
      exact ih j _ _ (by omega) (fun m hm => by have := h (m + 1) (by omega); rwa [shift, shift] at this) hd

theorem psrPut_same (v : Half) (q : PsrBit) (x y : Bool) : psrPut (psrPut v q x) q y = psrPut v q y := by
  apply BitVec.eq_of_getLsbD_eq
  intro k _
  simp only [psrPut_getLsbD]
  split <;> rfl

theorem psrPut_comm (v : Half) {q r : PsrBit} (h : q.pos ≠ r.pos) (x y : Bool) :
    psrPut (psrPut v q x) r y = psrPut (psrPut v r y) q x := by
  apply BitVec.eq_of_getLsbD_eq
  intro k _
  simp only [psrPut_getLsbD]
  split
  · next e => rw [if_neg (e ▸ h.symm)]
  · rfl

theorem State.putFlag_same (s : State) (q : PsrBit) (x y : Bool) : (s.putFlag q x).putFlag q y = s.putFlag q y := by
  simp only [State.putFlag, psrPut_same]

theorem State.putFlag_comm (s : State) {q r : PsrBit} (h : q.pos ≠ r.pos) (x y : Bool) :
    (s.putFlag q x).putFlag r y = (s.putFlag r y).putFlag q x := by
  simp only [State.putFlag, psrPut_comm s.psr h]

/-- Flags that a comparison writes are not those of the comparison before it. -/
theorem State.putEqual_putCompare {w : Nat} (s : State) (a b : BitVec w) :
    s.putEqual.putCompare a b = s.putCompare a b := by
  unfold State.putCompare State.putEqual
  rw [State.putFlag_comm _ (q := .l) (r := .z) (by decide), State.putFlag_comm _ (q := .n) (r := .z) (by decide),
    State.putFlag_same, State.putFlag_comm _ (q := .l) (r := .n) (by decide), State.putFlag_same, State.putFlag_same]

/-- A comparison of unequal operands. -/
theorem completes_unequal {i : Instr} {x : M Unit} {w n : Nat} {a b : BitVec w} {s t : State} (hab : a ≠ b)
    (e : exec i s = performSeq i x s) (hi : i.WF) (hs : Answers s) (h : Runs x s.begin () (t.putCompare a b))
    (hm : t.mem = s.mem) (hp : t.pc = s.pc) :
    Completes i s { (((t.putFlag .z false).putFlag .n (decide (b.toInt < a.toInt))).putFlag .l
      (decide (b.toNat < a.toNat))) with pc := s.next i } none n := by
  have h := completes_compare (n := n) e hi hs h hm hp
  rwa [decide_eq_false hab.symm] at h

theorem exec_cmpmi_eq (i : Size) (b1 b2 : Gen) (d : Disp) (s : State) : exec (.cmpmi i b1 b2 d) s =
    performSeq (.cmpmi i b1 b2 d) (do
      let p ← effAddr24 b1
      let q ← effAddr24 b2
      change State.putEqual
      compareBlock i.bytes (blockCount i d) p q) s := rfl

/-- Settles O11: the block in ascending order, up to its end or to the first unequal pair. -/
theorem blockMoveCompare : Obligations.BlockMoveCompare := by
  constructor
  · intro i b1 b2 d s hs j a b k hj
    have count := blockCount_eq (blockOk_of_check hj)
    refine completes_seq (exec_movmi_eq i b1 b2 d s) hj hs (runs_bind (runs_effAddr24 _ _)
      (runs_bind (runs_effAddr24 _ _) ?_)) (fun x hx => State.copied_byteAt _ _ _ _ _ _ hx) (State.copied_pc _ _ _ _ _)
    rw [count]
    exact runs_copyBlock _ _ _ _ _
  · intro i b1 b2 d s hs n j x y done count hj
    have blocks := blockCount_eq (blockOk_of_check hj)
    have compared {t : State} (h : Runs (compareBlock n count ((s.begin.ea b1).setWidth 24) ((s.begin.ea b2).setWidth 24))
        s.begin.putEqual () t) : Runs (do
          let p ← effAddr24 b1
          let q ← effAddr24 b2
          change State.putEqual
          compareBlock i.bytes (blockCount i d) p q) s.begin () t := by
      rw [blocks]
      exact runs_bind (runs_effAddr24 _ _) (runs_bind (runs_effAddr24 _ _)
        (runs_bind (runs_change State.putEqual s.begin (fun _ => rfl) rfl) h))
    constructor
    · intro equal
      exact completes_seq (t := s.begin.putEqual) (exec_cmpmi_eq i b1 b2 d s) hj hs
        (compared (runs_compareBlock_equal _ _ _ _ _ equal)) (frame_none (by simp [State.putEqual]) _) (by simp [State.putEqual])
    · intro k hk equal differ
      have h := compared (runs_compareBlock_differ _ _ k _ _ _ hk equal differ)
      rw [State.putEqual_putCompare] at h
      exact completes_unequal (t := s.begin) differ (exec_cmpmi_eq i b1 b2 d s) hj hs h rfl rfl

end Sys2Proof.Machine
end

section
/-! FFS, CHECK and INDEX (43_bits_fields_arrays.md), and the instructions without an effect (48_misc.md). -/
namespace Sys2Proof.Machine

open Sys2Proof.Safety

/-! ### FFS -/

theorem firstSet_eq_some {w k o : Nat} {v : BitVec w} (hk : k < w) (ho : o ≤ k) (set : v.getLsbD k = true)
    (first : ∀ m < k, o ≤ m → v.getLsbD m = false) : firstSet v o = some k := by
  rw [firstSet, List.find?_range_eq_some]
  refine ⟨by simp [ho, set], List.mem_range.mpr hk, fun m hm => ?_⟩
  by_cases h : o ≤ m
  · simp [first m hm h]
  · simp [h]

theorem firstSet_eq_none {w o : Nat} {v : BitVec w} (clear : ∀ m < w, o ≤ m → v.getLsbD m = false) :
    firstSet v o = none := by
  rw [firstSet, List.find?_range_eq_none]
  intro m hm
  by_cases h : o ≤ m
  · simp [clear m hm h]
  · simp [h]

/-- The position that FFS stores and the flag it sets. -/
def foundAt {w : Nat} : Option Nat → M (BitVec w)
  | some k => do
    change fun s => s.putFlag .f false
    return BitVec.ofNat _ k
  | none => do
    change fun s => s.putFlag .f true
    return 0

theorem exec_ffsi_eq (i : Size) (base off : Gen) (s : State) : exec (.ffsi i base off) s =
    performSeq (.ffsi i base off) (do
      let v ← readGen base i.bytes
      rmwOp 1 off fun o => foundAt (firstSet v o.toNat)) s := rfl

theorem runs_foundAt {w : Nat} (x : Option Nat) (s : State) :
    Runs (foundAt x : M (BitVec w)) s (BitVec.ofNat w (x.getD 0)) (s.putFlag .f x.isNone) := by
  cases x <;> exact runs_bind (runs_change (fun s => s.putFlag .f _) s (fun _ => rfl) rfl) (runs_pure _ _)

/-- FFS with what it finds. -/
theorem completes_ffsi {i : Size} {base off : Gen} {s : State} {x : Option Nat} (hj : (Instr.ffsi i base off).WF)
    (hs : Answers s) (hx : let s1 := s.begin.afterRead base i.bytes
      firstSet (s.begin.operand base i.bytes) (s1.at (s1.rmwPlace off) 1).toNat = x) :
    let s1 := s.begin.afterRead base i.bytes
    let p := s1.rmwPlace off
    Completes (.ffsi i base off) s { ((s1.putFlag .f x.isNone).put p 1 (BitVec.ofNat _ (x.getD 0))) with
      pc := s.next (.ffsi i base off) } (s1.storeAddr p 1) 1 := by
  intro s1 p
  have found := runs_foundAt x s1 (w := 8 * 1)
  rw [← hx] at found
  rw [← State.storeAddr_congr (State.putFlag_sp s1 .f x.isNone (by decide))]
  rw [← hx]
  exact completes_seq (exec_ffsi_eq i base off s) hj hs (runs_bind (runs_readGen _ _ _) (runs_rmwOp found))
    (frame_put (by simp [s1]) _ _ _) (by simp [s1])

/-! ### CHECK and INDEX -/

/-- The index of CHECK against its bounds: a free value outside them. -/
def checked {n : Nat} (r : RegNo) (l u x : BitVec (8 * n)) : M Unit :=
  if l.toInt ≤ x.toInt ∧ x.toInt ≤ u.toInt then
    change fun s => (s.putFlag .f false).setReg r (BitVec.ofInt 32 (x.toInt - l.toInt))
  else do
    let v ← drawBits 32
    change fun s => (s.putFlag .f true).setReg r v

theorem exec_checki_eq (i : Size) (r : RegNo) (bounds src : Gen) (s : State) : exec (.checki i r bounds src) s =
    performSeq (.checki i r bounds src) (do
      let e ← effAddr24 bounds
      let u ← readMem .data e i.bytes
      let l ← readMem .data (e + BitVec.ofNat 24 i.bytes) i.bytes
      let x ← readGen src i.bytes
      checked r l u x) s := rfl

theorem completes_checki {i : Size} {r : RegNo} {bounds src : Gen} {s t : State} {n : Nat}
    (hj : (Instr.checki i r bounds src).WF) (hs : Answers s)
    (h : let e : Addr := (s.begin.ea bounds).setWidth 24
      Runs (checked r (s.begin.peek (e + BitVec.ofNat 24 i.bytes) i.bytes) (s.begin.peek e i.bytes)
        (s.begin.operand src i.bytes)) (s.begin.afterRead src i.bytes) () t)
    (mem : t.mem = s.mem) (pc : t.pc = s.pc) :
    Completes (.checki i r bounds src) s { t with pc := s.next (.checki i r bounds src) } none n :=
  completes_seq (exec_checki_eq i r bounds src s) hj hs (runs_bind (runs_effAddr24 _ _) (runs_bind (runs_readMem _ _ _ _ _)
    (runs_bind (runs_readMem _ _ _ _ _) (runs_bind (runs_readGen _ _ _) h)))) (frame_none mem _) pc

/-- An operand of INDEX is extended as the number that INDEX_EXT makes it. -/
theorem indexExtend_eq {w : Nat} (v : BitVec w) :
    indexExtend v = BitVec.ofInt 32 (if Config.indexSigned then v.toInt else v.toNat) := by
  have unsigned : BitVec.ofInt 32 (v.toNat : Int) = v.setWidth 32 := by
    rw [BitVec.ofInt_natCast, BitVec.ofNat_toNat]
  unfold indexExtend
  split
  · next plain =>
    split
    · rcases Bool.or_eq_true_iff.mp plain with wide | positive
      · have : w = 32 := by simpa using wide
        subst this
        rw [BitVec.ofInt_toInt, BitVec.setWidth_eq]
      · rw [BitVec.toInt_eq_toNat_of_msb (by simpa using positive), unsigned]
    · rw [unsigned]
  · split
    · rfl
    · rw [unsigned]

theorem index_eq {w : Nat} (r : DWord) (a b : BitVec w) :
    let ext (v : BitVec w) : Int := if Config.indexSigned then v.toInt else v.toNat
    r * (indexExtend a + 1) + indexExtend b = BitVec.ofInt 32 (r.toNat * (ext a + 1) + ext b) := by
  intro ext
  rw [BitVec.ofInt_add, BitVec.ofInt_mul, BitVec.ofInt_add, indexExtend_eq, indexExtend_eq, BitVec.ofInt_natCast,
    BitVec.ofNat_toNat, BitVec.setWidth_eq]
  rfl

theorem exec_indexi_eq (i : Size) (r : RegNo) (len idx : Gen) (s : State) : exec (.indexi i r len idx) s =
    performSeq (.indexi i r len idx) (do
      let x ← readOp2 i.bytes i.bytes len idx
      change fun s => s.setReg r (s.reg r * (indexExtend x.1 + 1) + indexExtend x.2)) s := rfl

/-- Settles O15: the first set bit by its position, the bounds in the integers, the index modulo 2^32. -/
theorem searchCheckIndex : Obligations.SearchCheckIndex := by
  refine ⟨?ffs, ?check, ?index⟩
  case ffs =>
    intro i base off s hs n j v s1 p o done hj
    exact ⟨fun k hk ho set first => completes_ffsi (x := some k) hj hs (firstSet_eq_some hk ho set first),
      fun clear => completes_ffsi (x := none) hj hs (firstSet_eq_none clear)⟩
  case check =>
    intro i r bounds src s hs n j e u l x s1 done hj
    have draws : s1.draws = s.draws := State.afterRead_draws _ _ _
    refine ⟨fun inside => ?_, fun outside => ⟨(Config.freeBits s1.draws).setWidth 32, s1.draws + 1, ?_⟩⟩
    · have h : Runs (checked r (s.begin.peek (e + BitVec.ofNat 24 n) n) (s.begin.peek e n) (s.begin.operand src n)) s1 ()
          { ((s1.putFlag .f false).setReg r (BitVec.ofInt 32 (x - l))) with draws := s.draws } := by
        rw [checked, if_pos inside, ← draws]
        exact runs_change (fun s => (s.putFlag .f false).setReg r (BitVec.ofInt 32 (x - l))) s1 (fun _ => rfl) rfl
      exact completes_checki hj hs h (by simp [s1]) (by simp [s1])
    · have h : Runs (checked r (s.begin.peek (e + BitVec.ofNat 24 n) n) (s.begin.peek e n) (s.begin.operand src n)) s1 ()
          { ((s1.putFlag .f true).setReg r ((Config.freeBits s1.draws).setWidth 32)) with draws := s1.draws + 1 } := by
        rw [checked, if_neg (by omega)]
        exact runs_bind (runs_drawBits s1 32) (runs_change (fun s => (s.putFlag .f true).setReg r _) _ (fun _ => rfl) rfl)
      exact completes_checki hj hs h (by simp [s1]) (by simp [s1])
  case index =>
    intro i r len idx s hs n j s1 ext v hj
    let a := s.begin.operand len n
    let b := s1.operand idx n
    have value : s.reg r * (indexExtend a + 1) + indexExtend b = BitVec.ofInt 32 v := index_eq _ _ _
    have stored := runs_change (fun u => u.setReg r (u.reg r * (indexExtend a + 1) + indexExtend b)) (s1.afterRead idx n)
      (fun _ => rfl) rfl
    have old : (s1.afterRead idx n).reg r = s.reg r := by simp [s1]
    rw [old, value] at stored
    exact completes_seq (exec_indexi_eq i r len idx s) hj hs (runs_bind (runs_readOp2 _ _ _ _ _) stored)
      (frame_none (by simp [s1]) _) (by simp [s1])

end Sys2Proof.Machine
end

section
/-! Effective addresses, jumps and the stack (30_encoding.md, 45_jumps_linkage.md, 48_misc.md). -/
namespace Sys2Proof.Machine

open Sys2Proof.Safety

/-! ### Displacements and addresses -/

/-- A displacement as a 32-bit number. -/
theorem Disp.word_eq (d : Disp) : d.word = BitVec.ofInt 32 d.val := by cases d <;> rfl

theorem setWidth_ofInt (x : Int) : (BitVec.ofInt 32 x).setWidth 24 = BitVec.ofInt 24 x := by
  apply BitVec.eq_of_toNat_eq
  rw [BitVec.toNat_setWidth, BitVec.toNat_ofInt, BitVec.toNat_ofInt]
  omega

theorem word_setWidth (d : Disp) : d.word.setWidth 24 = BitVec.ofInt 24 d.val := by rw [Disp.word_eq, setWidth_ofInt]

/-- Addresses are computed modulo 2^24. -/
theorem setWidth24_add (x y : DWord) : (x + y).setWidth 24 = x.setWidth 24 + y.setWidth 24 :=
  BitVec.setWidth_add x y (by decide)

theorem setWidth24_setWidth32 (a : Addr) : (a.setWidth 32).setWidth 24 = a :=
  (BitVec.setWidth_setWidth_of_le a (by decide)).trans (BitVec.setWidth_eq a)

theorem State.linkEntry_eq (s : State) (d : Disp) : linkEntry (s.peek32 s.linkAddr) d =
    (s.peek32 ((s.modReg.setWidth 32 + 4).setWidth 24) + 4 * BitVec.ofInt 32 d.val).setWidth 24 := by
  have address : (s.modReg.setWidth 32 + 4 : DWord).setWidth 24 = s.linkAddr := by
    rw [setWidth24_add, State.linkAddr, State.modAddr, BitVec.setWidth_setWidth_of_le _ (by decide)]
    rfl
  rw [linkEntry, address, Disp.word_eq]

theorem State.pointerAddr_eq (s : State) (a : RelReg) (d : Disp) :
    s.pointerAddr a d = ((s.relReg a).setWidth 32 + BitVec.ofInt 32 d.val).setWidth 24 := by
  rw [State.pointerAddr, setWidth24_add, setWidth24_setWidth32, Disp.word_eq]

theorem shiftLeft_scaleShift (x : DWord) (sc : Scale) :
    x <<< scaleShift sc = (match sc with | .b => 1 | .w => 2 | .d => 4 | .q => 8) * x := by
  rw [BitVec.shiftLeft_eq_mul_twoPow, BitVec.mul_comm]
  cases sc <;> rfl

/-- Settles O58: the addressing modes, one by one. -/
theorem effectiveAddress : Obligations.EffectiveAddress := by
  intro s r x d1 d2 m sc num load
  have rel (a : RelReg) : s.ea (.base (.memRel a d1 d2)) = load ((s.relReg a).setWidth 32 + num d1) + num d2 := by
    simp only [State.ea, State.baseEa, State.pointerAddr_eq, Disp.word_eq, load, num]
  have ext : s.ea (.base (.ext d1 d2)) = load (load (s.modReg.setWidth 32 + 4) + 4 * num d1) + num d2 := by
    simp only [State.ea, State.baseEa, State.linkEntry_eq, Disp.word_eq, load, num]
  have scaled : s.ea (.scaled m x sc) = s.ea (.base m) +
      (match sc with | .b => 1 | .w => 2 | .d => 4 | .q => 8) * s.reg x := by
    simp only [State.ea, shiftLeft_scaleShift]
  refine ⟨rfl, ?_, ?_, ?_, ?_, ?_, rel .fp, rel .sp, rel .sb, ext, ?_, rfl, scaled⟩ <;>
    simp only [State.ea, State.baseEa, State.spaceReg, Disp.word_eq, num]

/-! ### Instructions without operands -/

theorem exec_flag_eq (s : State) : exec .flag s =
    performSeq .flag (do if ← look fun s => s.flag .f then abort (.trap .flg) else return ()) s := rfl

/-- Settles O31. -/
theorem noEffect : Obligations.NoEffect := by
  intro s hs
  have frame (t : State) (h : t.mem = s.mem) : MemFrame s t none 0 := frame_none h 0
  refine ⟨?nop, ?wait, ?dia, fun clear => ?flag⟩
  case nop => exact completes_seq (t := s.begin) (x := pure ()) rfl (by decide) hs (runs_pure () _) (frame _ rfl) rfl
  case wait =>
    exact completes_seq (t := { s.begin with waiting := true }) rfl (by decide) hs
      (runs_change (fun s => { s with waiting := true }) s.begin (fun _ => rfl) rfl) (frame _ rfl) rfl
  case dia =>
    exact completes_perform rfl (by decide) hs (runs_change (fun s => s.jump s.pc) s.begin (fun _ => rfl) rfl) (frame _ rfl)
  case flag =>
    refine completes_seq (t := s.begin) (exec_flag_eq s) (by decide) hs
      (runs_bind (runs_look (fun s => s.flag .f) _ fun _ => rfl) ?_) (frame _ rfl) rfl
    rw [State.begin_flag, if_neg (show PsrBit.f ≠ .p by decide), clear]
    exact runs_pure _ _

/-! ### Jumps -/

theorem runs_branch (d : Disp) (s : State) : Runs (branch d) s () (s.jump (s.pc + BitVec.ofInt 24 d.val)) := by
  have h := runs_change (fun s => s.jump (s.target d)) s (fun _ => rfl) rfl
  rw [State.target, word_setWidth] at h
  exact h

theorem runs_advance (j : Instr) (s : State) : Runs (advance j) s () { s with pc := s.next j } :=
  runs_change (fun s => { s with pc := s.next j }) s (fun _ => rfl) rfl

theorem exec_bcond_eq (c : Cond) (d : Disp) (s : State) : exec (.bcond c d) s =
    perform (.bcond c d) (do if ← look fun s => s.holds c then branch d else advance (.bcond c d)) s := rfl

theorem runs_holds (c : Cond) (s : State) : Runs (look fun s => s.holds c) s.begin (s.holds c) s.begin := by
  rw [← State.begin_holds]
  exact runs_look (fun s => s.holds c) _ fun _ => by cases c <;> rfl

/-- Settles O21: a transfer of control goes to an address computed from PC or from the operand. -/
theorem jump : Obligations.Jump := by
  intro i c d g s hs done target
  have same {t : State} (h : t.mem = s.mem) : MemFrame s t none 0 := frame_none h 0
  refine ⟨fun hi => ?br, fun hi h => ?taken, fun hi h => ?untaken, fun hi => ?jump, fun hi => ?casei⟩
  case br => exact completes_perform rfl hi hs (runs_branch d s.begin) (same (by simp))
  case taken =>
    refine completes_perform (exec_bcond_eq c d s) hi hs (runs_bind (runs_holds c s) ?_) (same (by simp))
    rw [h]
    exact runs_branch d s.begin
  case untaken =>
    refine completes_perform (exec_bcond_eq c d s) hi hs (runs_bind (runs_holds c s) ?_) (same rfl)
    rw [h]
    exact runs_advance _ s.begin
  case jump =>
    exact completes_perform rfl hi hs (runs_bind (runs_effAddr24 g s.begin)
      (runs_change (fun s => s.jump _) s.begin (fun _ => rfl) rfl)) (same (by simp))
  case casei =>
    have extended : ((s.begin.operand g i.bytes).signExtend 32).setWidth 24 =
        BitVec.ofInt 24 (s.begin.operand g i.bytes).toInt := setWidth_ofInt _
    have jumped := runs_change (fun u => u.jump (u.pc + ((s.begin.operand g i.bytes).signExtend 32).setWidth 24))
      (s.begin.afterRead g i.bytes) (fun _ => rfl) rfl
    rw [extended, State.afterRead_pc, State.begin_pc] at jumped
    refine completes_perform rfl hi hs (runs_bind (runs_readGen g i.bytes s.begin) ?_) (same (by simp))
    rw [extended]
    exact jumped

theorem exec_acbi_eq (i : Size) (q : BitVec 4) (g : Gen) (d : Disp) (s : State) : exec (.acbi i q g d) s =
    perform (.acbi i q g d) (do
      let p ← placeRmw g
      let x ← readPlace .readRmw p i.bytes
      writePlace p i.bytes (x + q.signExtend _)
      if x + q.signExtend _ = 0 then advance (.acbi i q g d) else branch d) s := rfl

/-- ACB with the end that the new index decides. -/
theorem completes_acbi {i : Size} {q : BitVec 4} {g : Gen} {d : Disp} {s t : State} (hj : (Instr.acbi i q g d).WF)
    (hs : Answers s) (h : let p := s.begin.rmwPlace g
      let r := s.begin.at p i.bytes + q.signExtend _
      Runs (if r = 0 then advance (.acbi i q g d) else branch d) (s.begin.put p i.bytes r) () t)
    (mem : t.mem = (s.begin.put (s.begin.rmwPlace g) i.bytes (s.begin.at (s.begin.rmwPlace g) i.bytes + q.signExtend _)).mem) :
    Completes (.acbi i q g d) s t (s.begin.storeAddr (s.begin.rmwPlace g) i.bytes) i.bytes :=
  completes_perform (exec_acbi_eq i q g d s) hj hs (runs_bind (runs_placeRmw g _) (runs_bind (runs_readPlace _ _ _ _)
    (runs_bind (runs_writePlace _ _ _ _) h))) (frame_of_mem (frame_put rfl _ _ _) mem)

/-- Settles O22: the index is stored back, and decides the branch. -/
theorem addCompareBranch : Obligations.AddCompareBranch := by
  intro i q g d s hs n j p r hj
  refine ⟨fun zero => ?_, fun nonzero => ?_⟩
  · refine completes_acbi hj hs ?_ rfl
    have h := runs_advance j (s.begin.put p n r)
    have next : (s.begin.put p n r).next j = s.next j := by simp [State.next]
    rw [next] at h
    show Runs (if r = 0 then advance j else branch d) (s.begin.put p n r) () _
    rw [if_pos zero]
    exact h
  · refine completes_acbi hj hs ?_ rfl
    have h := runs_branch d (s.begin.put p n r)
    rw [State.put_pc, State.begin_pc] at h
    show Runs (if r = 0 then advance j else branch d) (s.begin.put p n r) () _
    rw [if_neg nonzero]
    exact h

end Sys2Proof.Machine
end

section
/-!
The stack (00_scope.md R11): pushes and pops as updates of the selected stack pointer and of memory, and the instructions of
linkage that push and pop a fixed number of values (45_jumps_linkage.md R337 to R342).
-/
namespace Sys2Proof.Machine

open Sys2Proof.Safety

/-! ### The stack pointer as an update -/

theorem State.setSp_interrupt {s : State} (h : s.flag .s = false) (a : Addr) : s.setSp a = { s with sp0 := a } := by
  rw [State.setSp, h]
  rfl

theorem State.setSp_user {s : State} (h : s.flag .s = true) (a : Addr) : s.setSp a = { s with sp1 := a } := if_pos h

@[simp] theorem State.setSp_setSp (s : State) (a b : Addr) : (s.setSp a).setSp b = s.setSp b := by
  cases h : s.flag .s with
  | false => rw [State.setSp_interrupt h, State.setSp_interrupt h, State.setSp_interrupt (s := { s with sp0 := a }) h]
  | true => rw [State.setSp_user h, State.setSp_user h, State.setSp_user (s := { s with sp1 := a }) h]

/-- Setting the stack pointer to what it is changes nothing. -/
theorem State.setSp_self (s : State) : s.setSp s.sp = s := by
  unfold State.setSp State.sp
  split <;> rfl

/-- An update that leaves PSR bit S and the stack pointers alone commutes with setting the stack pointer. -/
theorem State.setSp_update {f : State → State} {s : State} (a : Addr) (flag : (f s).flag .s = s.flag .s)
    (sp0 : f { s with sp0 := a } = { f s with sp0 := a }) (sp1 : f { s with sp1 := a } = { f s with sp1 := a }) :
    (f s).setSp a = f (s.setSp a) := by
  unfold State.setSp
  rw [flag]
  split
  · exact sp1.symm
  · exact sp0.symm

theorem State.poke_setSp {w : Nat} (s : State) (a b : Addr) (n : Nat) (v : BitVec w) :
    (s.poke b n v).setSp a = (s.setSp a).poke b n v := State.setSp_update (f := fun s => s.poke b n v) a rfl rfl rfl

theorem State.jump_setSp (s : State) (a b : Addr) : (s.jump b).setSp a = (s.setSp a).jump b :=
  State.setSp_update (f := fun s => s.jump b) a rfl rfl rfl

theorem State.modReg_setSp (s : State) (a : Addr) (m : Half) :
    ({ s with modReg := m } : State).setSp a = { s.setSp a with modReg := m } :=
  State.setSp_update (f := fun s => { s with modReg := m }) a rfl rfl rfl

theorem State.sb_setSp (s : State) (a b : Addr) : ({ s with sb := b } : State).setSp a = { s.setSp a with sb := b } :=
  State.setSp_update (f := fun s => { s with sb := b }) a rfl rfl rfl

/-- Of a value only the bytes that are stored count. -/
theorem toBytes_setWidth {w m : Nat} (n : Nat) (v : BitVec w) (h : w ≤ m) : toBytes n (v.setWidth m) = toBytes n v := by
  unfold toBytes
  refine List.map_congr_left fun k _ => BitVec.eq_of_getLsbD_eq fun i hi => ?_
  rw [BitVec.getLsbD_extractLsb', BitVec.getLsbD_extractLsb', BitVec.getLsbD_setWidth]
  by_cases inside : 8 * k + i < m
  · simp [inside]
  · simp [inside, BitVec.getLsbD_of_ge v (8 * k + i) (by omega)]

theorem State.poke_setWidth {w m : Nat} (s : State) (a : Addr) (n : Nat) (v : BitVec w) (h : w ≤ m) :
    s.poke a n (v.setWidth m) = s.poke a n v := by
  unfold State.poke
  rw [toBytes_setWidth n v h]

/-! ### Pushes and pops -/

theorem State.pushed_sp {w : Nat} (s : State) (n : Nat) (v : BitVec w) : (s.pushed n v).sp = s.sp - BitVec.ofNat 24 n := by
  rw [State.pushed, State.poke_sp, State.setSp_sp]

theorem State.popped_sp (s : State) (n : Nat) : (s.popped n).sp = s.sp + BitVec.ofNat 24 n := State.setSp_sp _ _

@[simp] theorem State.popped_mem (s : State) (n : Nat) : (s.popped n).mem = s.mem := State.setSp_mem _ _

@[simp] theorem State.popped_pc (s : State) (n : Nat) : (s.popped n).pc = s.pc := State.setSp_pc _ _

theorem peek_congr {s t : State} (h : t.mem = s.mem) (a : Addr) (n : Nat) : t.peek a n = s.peek a n := by
  unfold State.peek
  rw [h]

/-- Two double-words on the stack. -/
theorem State.pushed_pushed {w w' : Nat} (s : State) (v : BitVec w) (v' : BitVec w') :
    (s.pushed 4 v).pushed 4 v' = ((s.setSp (s.sp - 8)).poke (s.sp - 4) 4 v).poke (s.sp - 8) 4 v' := by
  have second : s.sp - BitVec.ofNat 24 4 - BitVec.ofNat 24 4 = s.sp - 8 := by
    rw [BitVec.sub_sub]
    rfl
  rw [State.pushed, State.pushed_sp, second, State.pushed, State.poke_setSp, State.setSp_setSp]
  rfl

theorem runs_discard (d : Disp) (s : State) : Runs (discard d) s () (s.setSp (s.sp + BitVec.ofInt 24 d.val)) := by
  rw [← word_setWidth]
  exact runs_setSp (fun s => s.sp + d.word.setWidth 24) s fun _ => rfl

theorem runs_next (j : Instr) (s : State) : Runs (look fun s => s.next j) s (s.next j) s :=
  runs_look (fun s => s.next j) s fun _ => rfl

theorem exec_ret_eq (d : Disp) (s : State) : exec (.ret d) s =
    perform (.ret d) (do
      let a ← pop 4
      change fun s => s.jump (a.setWidth 24)
      discard d) s := rfl

/-- The state of a call of a procedure of the same module. -/
theorem State.begin_pushed_jump (s : State) (a b : Addr) : (s.begin.pushed 4 b).jump a =
    ((s.begin.setSp (s.sp - 4)).poke (s.sp - 4) 4 (b.setWidth 32)).jump a := by
  rw [State.pushed, State.begin_sp, State.poke_setWidth _ _ _ _ (by decide)]
  rfl

/-- Settles O23. -/
theorem subroutine : Obligations.Subroutine := by
  intro g d s hs call
  have frame (a b : Addr) : MemFrame s (((s.begin.setSp (s.sp - 4)).poke (s.sp - 4) 4 (b.setWidth 32)).jump a)
      (some (s.sp - 4)) 4 := 
    frame_of_mem (frame_poke (t := s.begin.setSp (s.sp - 4)) (by simp) _ 4 (b.setWidth 32)) rfl
  refine ⟨fun hi => ?jsr, fun hi => ?bsr, fun hi => ?ret⟩
  case jsr =>
    refine completes_perform rfl hi hs ?_ (frame _ _)
    rw [← State.begin_pushed_jump]
    exact runs_bind (runs_effAddr24 g s.begin) (runs_bind (runs_next (.jsr g) s.begin) (runs_bind (runs_push 4 _ _)
      (runs_change (fun s => s.jump _) _ (fun _ => rfl) rfl)))
  case bsr =>
    refine completes_perform rfl hi hs ?_ (frame _ _)
    rw [← State.begin_pushed_jump]
    have branched := runs_branch d (s.begin.pushed 4 (s.next (.bsr d)))
    rw [State.pushed_pc, State.begin_pc] at branched
    exact runs_bind (runs_next (.bsr d) s.begin) (runs_bind (runs_push 4 _ _) branched)
  case ret =>
    have discarded := runs_discard d ((s.begin.popped 4).jump ((s.peek32 s.sp).setWidth 24))
    have top : s.begin.top 4 = s.peek32 s.sp := by rw [State.top, State.begin_sp]; rfl
    have ends (a : Addr) : ((s.begin.popped 4).jump a).setSp (((s.begin.popped 4).jump a).sp + BitVec.ofInt 24 d.val) =
        (s.begin.setSp (s.sp + 4 + BitVec.ofInt 24 d.val)).jump a := by
      rw [State.jump_setSp, State.jump_sp, State.popped_sp, State.popped, State.setSp_setSp, State.begin_sp]
      rfl
    rw [ends] at discarded
    refine completes_perform (exec_ret_eq d s) hi hs (runs_bind (runs_pop 4 s.begin)
      (runs_bind (runs_change (fun s => s.jump _) _ (fun _ => rfl) rfl) ?_)) (frame_none (by simp) _)
    rw [top]
    exact discarded

/-! ### External procedures -/

/-- The state of a call of an external procedure by its descriptor. -/
theorem State.called_eq (s : State) (desc : DWord) (ra : Addr) :
    let m := ((s.setSp (s.sp - 8)).poke (s.sp - 4) 4 (s.modReg.setWidth 32)).poke (s.sp - 8) 4 (ra.setWidth 32)
    let base : Addr := (desc.setWidth 16 : Half).setWidth 24
    s.called desc ra = { (m.jump ((m.peek32 (base + 8) + (desc.extractLsb' 16 16).setWidth 32).setWidth 24)) with
      modReg := desc.setWidth 16, sb := (m.peek32 base).setWidth 24 } := by
  intro m base
  have pushed : (s.pushed 4 s.modReg).pushed 4 ra = m := by
    rw [State.pushed_pushed, ← State.poke_setWidth _ _ 4 s.modReg (show 16 ≤ 32 by decide),
      ← State.poke_setWidth _ _ 4 ra (show 24 ≤ 32 by decide)]
  have entry : ({ m with modReg := desc.setWidth 16 } : State).modAddr 0 = base := BitVec.add_zero _
  unfold State.called
  rw [pushed]
  unfold State.entered State.based State.entry
  rw [entry]
  rfl

theorem runs_callExternal (desc : DWord) (ra : Addr) (s : State) : Runs (callExternal desc ra) s () (s.called desc ra) :=
  runs_bind (runs_look State.modReg s fun _ => rfl) (runs_bind (runs_push 4 _ _) (runs_bind (runs_push 4 _ _)
    (runs_bind (runs_change (fun s => { s with modReg := desc.setWidth 16 }) _ (fun _ => rfl) rfl) (runs_enterModule _ _))))

/-- An instruction that calls an external procedure. -/
theorem completes_call {j : Instr} {x : M Unit} {desc : DWord} {s : State} (e : exec j s = perform j x s) (hj : j.WF)
    (hs : Answers s) (h : Runs x s.begin () (s.begin.called desc (s.next j))) :
    let m := ((s.begin.setSp (s.sp - 8)).poke (s.sp - 4) 4 (s.modReg.setWidth 32)).poke (s.sp - 8) 4
      ((s.next j).setWidth 32)
    let base : Addr := (desc.setWidth 16 : Half).setWidth 24
    Completes j s { (m.jump ((m.peek32 (base + 8) + (desc.extractLsb' 16 16).setWidth 32).setWidth 24)) with
      modReg := desc.setWidth 16, sb := (m.peek32 base).setWidth 24 } (some (s.sp - 8)) 8 := by
  intro m base
  rw [State.called_eq, State.begin_sp] at h
  have frame := frame_poke_poke (s := s) (t := s.begin.setSp (s.sp - 8)) (by simp) (s.sp - 8) 4 (s.modReg.setWidth 32)
    ((s.next j).setWidth 32)
  have high : s.sp - 8 + BitVec.ofNat 24 4 = s.sp - 4 := by
    bv_omega
  rw [high] at frame
  exact completes_perform e hj hs h (frame_of_mem frame rfl)

theorem exec_rxp_eq (d : Disp) (s : State) : exec (.rxp d) s = perform (.rxp d) (do
    let a ← pop 4
    change fun s => s.jump (a.setWidth 24)
    let t ← pop 4
    change fun s => { s with modReg := t.setWidth 16 }
    let b ← readMem .data (← look fun s => s.modAddr 0) 4
    change fun s => { s with sb := b.setWidth 24 }
    discard d) s := rfl

/-- The state after PC is popped by a return. -/
def State.poppedPc (s : State) : State := (s.popped 4).jump ((s.top 4).setWidth 24)

theorem runs_popPc {β : Type} {f : Unit → M β} {s t : State} {b : β} (h : Runs (f ()) s.poppedPc b t) :
    Runs (pop 4 >>= fun a => change (fun s => s.jump (a.setWidth 24)) >>= f) s b t :=
  runs_bind (runs_pop 4 s) (runs_bind (runs_change (fun u => u.jump _) _ (fun _ => rfl) rfl) h)

theorem State.poppedPc_eq (s : State) : s.poppedPc = (s.setSp (s.sp + 4)).jump ((s.peek32 s.sp).setWidth 24) := rfl

theorem runs_setModReg (m : Half) (s : State) : Runs (change fun u => { u with modReg := m }) s () { s with modReg := m } :=
  runs_change _ _ (fun _ => rfl) rfl

/-- SB reloaded through MOD. -/
theorem runs_reload {β : Type} {f : Unit → M β} {s t : State} {b : β} (h : Runs (f ()) s.based b t) :
    Runs (look (fun s => s.modAddr 0) >>= fun a => readMem .data a 4 >>= fun b =>
      change (fun s => { s with sb := b.setWidth 24 }) >>= f) s b t :=
  runs_bind (runs_look (fun s => s.modAddr 0) s fun _ => rfl) (runs_bind (runs_readMem _ _ _ _ s)
    (runs_bind (runs_change (fun u => { u with sb := (s.peek32 (s.modAddr 0)).setWidth 24 }) s (fun _ => rfl) rfl) h))

/-- Settles O24: a call pushes MOD and the return address and enters the module of its descriptor. -/
theorem externalProcedures : Obligations.ExternalProcedures := by
  constructor
  · intro d g s hs call
    refine ⟨fun hi => ?cxp, fun hi => ?cxpd⟩
    case cxp =>
      have entry : linkEntry (s.begin.peek32 s.begin.linkAddr) d =
          (s.peek32 (s.modReg.setWidth 24 + 4) + 4 * BitVec.ofInt 32 d.val).setWidth 24 := by
        rw [linkEntry, Disp.word_eq]
        rfl
      rw [← entry]
      exact completes_call rfl hi hs (runs_bind (runs_look State.linkAddr s.begin fun _ => rfl)
        (runs_bind (runs_readMem _ _ _ _ _) (runs_bind (runs_readMem _ _ _ _ _)
          (runs_bind (runs_next (.cxp d) s.begin) (runs_callExternal _ _ _)))))
    case cxpd =>
      exact completes_call rfl hi hs (runs_bind (runs_effAddr24 g s.begin) (runs_bind (runs_readMem _ _ _ _ _)
        (runs_bind (runs_next (.cxpd g) s.begin) (runs_callExternal _ _ _))))
  · intro d s hs m
    let t : State := { (s.begin.poppedPc.popped 4) with modReg := m }
    have sp : s.begin.poppedPc.sp = s.sp + 4 := by
      rw [State.poppedPc_eq, State.jump_sp, State.setSp_sp, State.begin_sp]
    have top : ((s.begin.poppedPc).top 4).setWidth 16 = m := by
      rw [State.top, sp, peek_congr (s := s) (by simp [State.poppedPc_eq])]
      rfl
    have mem : t.mem = s.mem := by simp [t, State.poppedPc_eq]
    have sb : t.based = { t with sb := (s.peek32 (m.setWidth 24)).setWidth 24 } := by
      have base : t.modAddr 0 = m.setWidth 24 := BitVec.add_zero _
      rw [State.based, base, State.peek32, peek_congr mem]
      rfl
    have discarded := runs_discard d t.based
    have ends : t.based.setSp (t.based.sp + BitVec.ofInt 24 d.val) =
        { ((s.begin.setSp (s.sp + 8 + BitVec.ofInt 24 d.val)).jump ((s.peek32 s.sp).setWidth 24)) with
          modReg := m, sb := (s.peek32 (m.setWidth 24)).setWidth 24 } := by
      have tsp : t.based.sp = s.sp + 8 := by
        have h : t.based.sp = (s.begin.poppedPc.popped 4).sp := rfl
        rw [h, State.popped_sp, sp, BitVec.add_assoc]
        rfl
      have popped : s.begin.peek32 s.begin.sp = s.peek32 s.sp := by
        rw [State.begin_sp]
        rfl
      rw [tsp, sb, State.sb_setSp, State.modReg_setSp, State.popped, State.setSp_setSp, State.poppedPc_eq,
        State.jump_setSp, State.setSp_setSp, popped]
    rw [ends] at discarded
    refine completes_perform (exec_rxp_eq d s) rfl hs (runs_popPc (runs_bind (runs_pop 4 _)
      (runs_bind (runs_setModReg (((s.begin.poppedPc).top 4).setWidth 16) _) ?_)))
      (frame_none (by simp) _)
    rw [top]
    exact runs_reload discarded

end Sys2Proof.Machine
end

section
/-! Returning from exceptions (45_jumps_linkage.md R343, R349). -/
namespace Sys2Proof.Machine

open Sys2Proof.Safety

/-- What a return restores: PC, MOD and PSR from the selected stack, SB through the new MOD. -/
theorem State.returned_eq (s : State) : s.returned =
    { ((s.setSp (s.sp + 8)).jump ((s.peek32 s.sp).setWidth 24)) with
      modReg := s.peek16 (s.sp + 4), psr := s.peek16 (s.sp + 6) &&& 0x1FFF,
      sb := (s.peek32 ((s.peek16 (s.sp + 4)).setWidth 24)).setWidth 24 } := by
  let s2 : State := { (s.poppedPc.popped 2) with modReg := s.poppedPc.top 2 }
  have sp1 : s.poppedPc.sp = s.sp + 4 := by rw [State.poppedPc_eq, State.jump_sp, State.setSp_sp]
  have sp2 : s2.sp = s.sp + 6 := by
    have h : s2.sp = (s.poppedPc.popped 2).sp := rfl
    rw [h, State.popped_sp, sp1, BitVec.add_assoc]
    rfl
  have mod : s.poppedPc.top 2 = s.peek16 (s.sp + 4) := by
    rw [State.top, sp1, peek_congr (s := s) (by simp [State.poppedPc_eq])]
    rfl
  have psr : s2.top 2 = s.peek16 (s.sp + 6) := by
    rw [State.top, sp2, peek_congr (s := s) (by simp [s2, State.poppedPc_eq])]
    rfl
  have popped : s2.popped 2 = { ((s.setSp (s.sp + 8)).jump ((s.peek32 s.sp).setWidth 24)) with
      modReg := s.peek16 (s.sp + 4) } := by
    rw [State.popped, sp2, State.modReg_setSp, mod, State.popped, State.setSp_setSp, State.poppedPc_eq, State.jump_setSp,
      State.setSp_setSp, BitVec.add_assoc]
    rfl
  have restored : s.returned = { ((s2.popped 2).setPsr (s2.top 2)) with
      sb := (((s2.popped 2).setPsr (s2.top 2)).peek32 (((s2.popped 2).setPsr (s2.top 2)).modAddr 0)).setWidth 24 } := rfl
  have base : ((s2.popped 2).setPsr (s2.top 2)).modAddr 0 = (s.peek16 (s.sp + 4)).setWidth 24 := by
    rw [popped]
    exact BitVec.add_zero _
  rw [restored, base, State.peek32, peek_congr (s := s) (by simp [popped]), popped, psr]
  rfl

theorem State.returned_mem (s : State) : s.returned.mem = s.mem := by rw [State.returned_eq]; simp

/-! ### The cycles of interrupt control -/

theorem runs_logCycle (st : BusStatus) (wr : Bool) (p : Pins) (a : Addr) (bs : List Byte) (s : State) :
    Runs (change fun s => s.logCycle st wr p a bs) s () s :=
  fun hs => ⟨hs, fun b => ⟨_, congrArg (EStateM.Result.ok ()) (logCycle_quiet (s := s.withBus b) hs.2 st wr p a bs)⟩⟩

/-- The ICU answers with its next byte. -/
theorem runs_icuRead (st : BusStatus) (a : Addr) {s : State} {r : Byte} {rs : List Byte} (h : s.icuReplies = r :: rs) :
    Runs (icuRead st a) s r { s with icuReplies := rs } := by
  refine runs_bind (runs_between _ s) (runs_bind (runs_bind (runs_look State.icuReplies s fun _ => rfl) ?_)
    (runs_bind (runs_logCycle _ _ _ _ _ _) (runs_pure _ _)))
  rw [h]
  exact runs_bind (runs_change (fun s => { s with icuReplies := rs }) s (fun _ => rfl) rfl) (runs_pure _ _)

/-- With no answer listed the ICU's byte is a free value. -/
theorem runs_icuRead_free (st : BusStatus) (a : Addr) {s : State} (h : s.icuReplies = []) :
    Runs (icuRead st a) s ((Config.freeBits s.draws).setWidth 8) { s with draws := s.draws + 1 } := by
  refine runs_bind (runs_between _ s) (runs_bind (runs_bind (runs_look State.icuReplies s fun _ => rfl) ?_)
    (runs_bind (runs_logCycle _ _ _ _ _ _) (runs_pure _ _)))
  split
  · next e => exact nomatch h.symm.trans e
  · exact runs_drawBits s 8

theorem runs_endOfInterrupt {s : State} {b : Byte} {rs : List Byte} (h : s.icuReplies = b :: rs) (hb : 0 ≤ b.toInt) :
    Runs endOfInterrupt s () { s with icuReplies := rs } := by
  refine runs_bind (runs_icuRead _ _ h) ?_
  rw [if_pos hb]
  exact runs_pure _ _

theorem runs_endOfInterrupt_cascaded {s : State} {b c : Byte} {rs : List Byte} (h : s.icuReplies = b :: c :: rs)
    (hI : s.cfgI = true) (low : -16 ≤ b.toInt) (high : b.toInt < 0) :
    Runs endOfInterrupt s () { s with icuReplies := rs } := by
  refine runs_bind (runs_icuRead _ _ h) ?_
  rw [if_neg (by omega)]
  refine runs_bind (runs_look State.cfgI _ fun _ => rfl) ?_
  have regular : ¬(decide (b.toInt < -16) || !({ s with icuReplies := c :: rs } : State).cfgI) = true := by
    simp [show ({ s with icuReplies := c :: rs } : State).cfgI = true from hI, low]
  rw [if_neg regular]
  exact runs_bind (runs_look (fun s => cascadeEntry s b) _ fun _ => rfl) (runs_bind (runs_readMem _ _ _ _ _)
    (runs_bind (runs_icuRead _ _ (s := { s with icuReplies := c :: rs }) rfl) (runs_pure _ _)))

/-- What an interrupt-control cycle changes is not what a return restores. -/
theorem State.returned_icuReplies (s : State) (rs : List Byte) :
    ({ s with icuReplies := rs } : State).returned = { s.returned with icuReplies := rs } := by
  rw [State.returned_eq, State.returned_eq, State.setSp_update (f := fun s => { s with icuReplies := rs }) _ rfl rfl rfl]
  rfl

theorem exec_rett_eq (d : Disp) (s : State) : exec (.rett d) s = perform (.rett d) (do
    privileged
    returnFromException
    discard d) s := rfl

theorem exec_reti_eq (s : State) : exec .reti s = perform .reti (do
    privileged
    endOfInterrupt
    returnFromException) s := rfl

theorem State.begin_user {s : State} (h : s.flag .u = false) : s.begin.flag .u = false := by
  rw [State.begin_flag, if_neg (by decide), h]

/-- RETI after an End of Interrupt that has taken some of the ICU's bytes. -/
theorem completes_reti {s : State} {rs : List Byte} (hs : Answers s) (hu : s.flag .u = false)
    (h : Runs endOfInterrupt s.begin () { s.begin with icuReplies := rs }) :
    Completes .reti s { s.begin.returned with icuReplies := rs } none 8 := by
  rw [← State.returned_icuReplies]
  exact completes_perform (exec_reti_eq s) rfl hs (runs_bind (runs_privileged (State.begin_user hu))
    (runs_bind h (runs_returnFromException _))) (frame_none (by rw [State.returned_mem]; rfl) _)

end Sys2Proof.Machine

namespace Sys2Proof

open Sys2Proof.Machine Sys2Proof.Safety

/-- Settles O25: what is popped is what `State.returned_eq` says. -/
theorem returnFromException : Obligations.ReturnFromException := by
  constructor
  · intro d b rest s hs hu m s1
    have returned : s.begin.returned = s1 := by
      rw [State.returned_eq, State.begin_sp]
      rfl
    rw [← returned]
    refine ⟨?_, fun replies plus => ?_⟩
    · exact completes_perform (exec_rett_eq d s) rfl hs (runs_bind (runs_privileged (State.begin_user hu))
        (runs_bind (runs_returnFromException _) (runs_discard d _)))
        (frame_none (by rw [State.setSp_mem, State.returned_mem]; rfl) _)
    · have nonneg : 0 ≤ b.toInt := by
        rw [BitVec.toInt_eq_toNat_of_msb plus]
        omega
      exact completes_reti hs hu (runs_endOfInterrupt replies nonneg)
  · intro b c rest s hs hu hI replies low high m
    have h := completes_reti hs hu (runs_endOfInterrupt_cascaded (s := s.begin) replies hI low high)
    rw [State.returned_eq, State.begin_sp] at h
    exact h

end Sys2Proof
end

section
/-! Registers saved on the stack and restored from it (46_cpu_register.md R371, R374; 45_jumps_linkage.md R347, R348). -/
namespace Sys2Proof.Machine

open Sys2Proof.Safety

/-! ### Saving -/

/-- The state after one register of a list is pushed, if the list names it. -/
def State.savedOne (l : Byte) (n : Nat) (s : State) : State :=
  if l.getLsbD n then s.pushed 4 (s.reg (BitVec.ofNat 3 n)) else s

theorem State.saved_cons (l : Byte) (n : Nat) (ns : List Nat) (s : State) :
    State.saved l (n :: ns) s = State.saved l ns (s.savedOne l n) := rfl

theorem runs_saveRegs (l : Byte) (ns : List Nat) (s : State) : Runs (saveRegs l ns) s () (State.saved l ns s) := by
  induction ns generalizing s with
  | nil => exact runs_pure _ _
  | cons n ns ih =>
    rw [saveRegs, State.saved_cons, State.savedOne]
    split
    · exact runs_bind (runs_look (fun s => s.reg (BitVec.ofNat 3 n)) s fun _ => rfl) (runs_bind (runs_push 4 _ s) (ih _))
    · exact ih s

/-- How many of the given registers a list names. -/
def listedIn (l : Byte) (ns : List Nat) : Nat := (ns.filter fun n => l.getLsbD n).length

theorem listedIn_cons (l : Byte) (n : Nat) (ns : List Nat) :
    listedIn l (n :: ns) = (if l.getLsbD n then 1 else 0) + listedIn l ns := by
  unfold listedIn
  rw [List.filter_cons]
  split
  · rw [List.length_cons, Nat.add_comm]
  · rw [Nat.zero_add]

theorem listedIn_le (l : Byte) (ns : List Nat) : listedIn l ns ≤ ns.length := List.length_filter_le _ _

/-- What pushing one register leaves alone. -/
theorem State.savedOne_keeps (l : Byte) (n : Nat) (s : State) :
    (s.savedOne l n).regs = s.regs ∧ (s.savedOne l n).pc = s.pc ∧ (s.savedOne l n).memMap = s.memMap := by
  unfold State.savedOne
  split <;> simp [State.pushed]

theorem State.saved_keeps (l : Byte) (ns : List Nat) (s : State) :
    (State.saved l ns s).regs = s.regs ∧ (State.saved l ns s).pc = s.pc := by
  induction ns generalizing s with
  | nil => exact ⟨rfl, rfl⟩
  | cons n ns ih =>
    obtain ⟨regs, pc, -⟩ := s.savedOne_keeps l n
    obtain ⟨regs', pc'⟩ := ih (s.savedOne l n)
    exact ⟨regs'.trans regs, pc'.trans pc⟩

theorem State.savedOne_sp (l : Byte) (n : Nat) (s : State) :
    (s.savedOne l n).sp = s.sp - BitVec.ofNat 24 (4 * if l.getLsbD n then 1 else 0) := by
  unfold State.savedOne
  split
  · exact State.pushed_sp _ _ _
  · exact (BitVec.sub_zero _).symm

theorem State.saved_sp (l : Byte) (ns : List Nat) (s : State) :
    (State.saved l ns s).sp = s.sp - BitVec.ofNat 24 (4 * listedIn l ns) := by
  induction ns generalizing s with
  | nil => exact (BitVec.sub_zero _).symm
  | cons n ns ih =>
    rw [State.saved_cons, ih, State.savedOne_sp, listedIn_cons, Nat.mul_add, BitVec.ofNat_add, BitVec.sub_sub]

/-- Only the bytes that the pushed registers occupy change. -/
theorem State.saved_byteAt (l : Byte) (ns : List Nat) (s : State) (x : Addr)
    (h : Outside x (State.saved l ns s).sp (4 * listedIn l ns)) : (State.saved l ns s).byteAt x = s.byteAt x := by
  induction ns generalizing s with
  | nil => rfl
  | cons n ns ih =>
    rw [State.saved_cons, listedIn_cons, Nat.add_comm, Nat.mul_add, outside_add] at h
    obtain ⟨below, above⟩ := h
    rw [State.saved_sp, BitVec.sub_add_cancel] at above
    rw [State.saved_cons, ih _ below]
    unfold State.savedOne at above ⊢
    split at above
    · next listed =>
      rw [State.pushed_sp] at above
      rw [if_pos listed]
      exact (State.poke_byteAt_outside _ _ _ _ _ above).trans (State.setSp_byteAt _ _ _)
    · next unlisted => rw [if_neg unlisted]

/-! ### Restoring -/

/-- The state after one register of a RESTORE list is popped, if the list names it. -/
def State.restoredOne (l : Byte) (n : Nat) (s : State) : State :=
  if l.getLsbD n then (s.popped 4).setReg (BitVec.ofNat 3 (7 - n)) (s.top 4) else s

theorem State.restored_cons (l : Byte) (n : Nat) (ns : List Nat) (s : State) :
    State.restored l (n :: ns) s = State.restored l ns (s.restoredOne l n) := rfl

theorem runs_restoreRegs (l : Byte) (ns : List Nat) (s : State) :
    Runs (restoreRegs l ns) s () (State.restored l ns s) := by
  induction ns generalizing s with
  | nil => exact runs_pure _ _
  | cons n ns ih =>
    rw [restoreRegs, State.restored_cons, State.restoredOne]
    split
    · exact runs_bind (runs_pop 4 s) (runs_bind (runs_change (fun s => s.setReg _ _) _ (fun _ => rfl) rfl) (ih _))
    · exact ih s

theorem State.restoredOne_keeps (l : Byte) (n : Nat) (s : State) : (s.restoredOne l n).mem = s.mem ∧
    (s.restoredOne l n).pc = s.pc ∧ (s.restoredOne l n).fp = s.fp := by
  unfold State.restoredOne
  split <;> simp [State.popped]

theorem State.restored_keeps (l : Byte) (ns : List Nat) (s : State) : (State.restored l ns s).mem = s.mem ∧
    (State.restored l ns s).pc = s.pc ∧ (State.restored l ns s).fp = s.fp := by
  induction ns generalizing s with
  | nil => exact ⟨rfl, rfl, rfl⟩
  | cons n ns ih =>
    obtain ⟨mem, pc, fp⟩ := s.restoredOne_keeps l n
    obtain ⟨mem', pc', fp'⟩ := ih (s.restoredOne l n)
    exact ⟨mem'.trans mem, pc'.trans pc, fp'.trans fp⟩

theorem completes_save (l : Byte) {s : State} (hs : Answers s) :
    Completes (.save l) s { (State.saved l listBits s.begin) with pc := s.next (.save l) }
      (some (State.saved l listBits s.begin).sp) (4 * listed l) :=
  completes_seq rfl rfl hs (runs_saveRegs l listBits _) (fun x hx => State.saved_byteAt l listBits _ x hx)
    (State.saved_keeps l listBits _).2

theorem completes_restore (l : Byte) {s : State} (hs : Answers s) :
    Completes (.restore l) s { (State.restored l listBits s.begin) with pc := s.next (.restore l) } none 0 :=
  completes_seq rfl rfl hs (runs_restoreRegs l listBits _) (frame_none (s := s) (State.restored_keeps l listBits s.begin).1 0)
    (State.restored_keeps l listBits _).2.1

/-- Settles O26. -/
theorem saveRestoreRegisters : Obligations.SaveRestoreRegisters := by
  intro l s hs t
  refine ⟨completes_save l hs, ?_, (State.saved_keeps l listBits _).1, completes_restore l hs⟩
  exact (State.saved_sp l listBits s.begin).trans (by rw [State.begin_sp]; rfl)

/-! ### ENTER and EXIT -/

/-- A sequential instruction, whatever it stores. -/
theorem ends_seq {i : Instr} {x : M Unit} {s t : State} (e : exec i s = performSeq i x s) (hi : i.WF) (hs : Answers s)
    (h : Runs x s.begin () t) (hp : t.pc = s.pc) : Ends i s { t with pc := s.next i } := by
  obtain ⟨u, run, agree⟩ := performSeq_of_runs hi hs h
  rw [State.next, hp] at agree
  exact ⟨u, e.trans run, agree⟩

theorem exec_enter_eq (l : Byte) (d : Disp) (s : State) : exec (.enter l d) s = performSeq (.enter l d) (do
    push 4 (← look State.fp)
    change fun s => { s with fp := s.sp }
    change fun s => s.setSp (s.sp - d.word.setWidth 24)
    saveRegs l listBits) s := rfl

theorem exec_exit_eq (l : Byte) (s : State) : exec (.exit l) s = performSeq (.exit l) (do
    restoreRegs l listBits
    change fun s => s.setSp s.fp
    let v ← pop 4
    change fun s => { s with fp := v.setWidth 24 }) s := rfl

theorem runs_setFp (f : State → Addr) (s : State) (h : ∀ b, f (s.withBus b) = f s) :
    Runs (change fun u => { u with fp := f u }) s () { s with fp := f s } :=
  runs_change _ _ (fun b => by rw [h]; rfl) rfl

/-- Settles O28. -/
theorem enterExit : Obligations.EnterExit := by
  intro l d s hs a s1 t
  have sp : t.sp = a - BitVec.ofInt 24 d.val - BitVec.ofNat 24 (4 * listed l) := by
    refine (State.saved_sp l listBits _).trans ?_
    rw [State.setSp_sp]
    rfl
  have pushed : ({ s.begin.pushed 4 s.fp with fp := a } : State) = s1 := by
    rw [State.pushed, State.begin_sp, ← State.poke_setWidth _ _ _ s.fp (show 24 ≤ 32 by decide)]
    rfl
  have fp : (s.begin.pushed 4 s.fp).sp = a := by
    rw [State.pushed_sp, State.begin_sp]
    rfl
  have s1sp : s1.sp = a := by rw [← pushed]; exact fp
  refine ⟨?enter, sp, fun x outside below => ?_, ?exit⟩
  case enter =>
    have framed := runs_setFp State.sp (s.begin.pushed 4 s.fp) fun _ => rfl
    have allocated := runs_setSp (fun s => s.sp - d.word.setWidth 24) s1 fun _ => rfl
    rw [fp, pushed] at framed
    rw [show s1.sp - d.word.setWidth 24 = a - BitVec.ofInt 24 d.val by rw [s1sp, word_setWidth]] at allocated
    exact ends_seq (exec_enter_eq l d s) rfl hs (runs_bind (runs_look State.fp s.begin fun _ => rfl)
      (runs_bind (runs_push 4 _ _) (runs_bind framed (runs_bind allocated (runs_saveRegs l listBits _)))))
      ((State.saved_keeps l listBits _).2.trans (by simp [s1]))
  case exit =>
    let r := State.restored l listBits s.begin
    obtain ⟨mem, pc, hfp⟩ := State.restored_keeps l listBits s.begin
    have atFp := runs_setSp State.fp r fun _ => rfl
    have top : (r.setSp r.fp).top 4 = s.peek32 s.fp := by
      rw [State.top, State.setSp_sp, peek_congr (s := s) (by rw [State.setSp_mem]; exact mem), hfp]
      rfl
    have popped : (r.setSp r.fp).popped 4 = r.setSp (s.fp + 4) := by
      rw [State.popped, State.setSp_sp, State.setSp_setSp, hfp]
      rfl
    have loaded := runs_setFp (fun _ => (s.peek32 s.fp).setWidth 24) (r.setSp (s.fp + 4)) fun _ => rfl
    have pop := runs_pop 4 (p := {}) (r.setSp r.fp)
    rw [top, popped] at pop
    exact completes_seq (exec_exit_eq l s) rfl hs (runs_bind (runs_restoreRegs l listBits _) (runs_bind atFp
      (runs_bind pop loaded))) (frame_none (by simpa using mem) _) (by simpa using pc)
  · refine (State.saved_byteAt l listBits _ x below).trans ?_
    rw [State.setSp_byteAt]
    exact (State.poke_byteAt_outside (s.begin.setSp a) a 4 (s.fp.setWidth 32) x outside).trans (State.setSp_byteAt _ _ _)

end Sys2Proof.Machine
end

section
/-! RESTORE as the inverse of SAVE (46_cpu_register.md R374): the values come back from the bytes they were pushed to. -/
namespace Sys2Proof.Machine

open Sys2Proof.Safety

/-- States that agree have the same value of anything that does not depend on the bus log. -/
theorem agree_value {α : Type} {s t : State} (h : Agree s t) (f : State → α) (free : ∀ u b, f (u.withBus b) = f u) :
    f s = f t := (free s t.bus).symm.trans (congrArg f h)

/-- The state after register `n` is popped, if the SAVE list `l` names it. -/
def State.reloadedOne (l : Byte) (n : Nat) (s : State) : State :=
  if l.getLsbD n then (s.popped 4).setReg (BitVec.ofNat 3 n) (s.top 4) else s

/-- The state after the given registers are popped in order, those of them that the SAVE list `l` names. -/
def State.reloaded (l : Byte) (ns : List Nat) (s : State) : State := ns.foldl (fun s n => s.reloadedOne l n) s

/-- Bit n of a RESTORE list names R(7-n) (30_encoding.md R168). -/
theorem State.restoredOne_reverse (l : Byte) {n : Nat} (h : n < 8) (s : State) :
    s.restoredOne l.reverse n = s.reloadedOne l (7 - n) := by
  have bit : l.reverse.getLsbD n = l.getLsbD (7 - n) := by
    rw [BitVec.getLsbD_reverse, BitVec.getMsbD_eq_getLsbD]
    simp [h]
  rw [State.restoredOne, State.reloadedOne, bit]

theorem State.restored_reverse (l : Byte) (ns : List Nat) (h : ∀ n ∈ ns, n < 8) (s : State) :
    State.restored l.reverse ns s = State.reloaded l (ns.map fun n => 7 - n) s := by
  induction ns generalizing s with
  | nil => rfl
  | cons n ns ih =>
    rw [State.restored_cons, State.restoredOne_reverse l (h n List.mem_cons_self),
      ih fun m hm => h m (List.mem_cons_of_mem _ hm)]
    rfl

theorem State.reloaded_concat (l : Byte) (ns : List Nat) (n : Nat) (s : State) :
    State.reloaded l (ns ++ [n]) s = (State.reloaded l ns s).reloadedOne l n := by
  rw [State.reloaded, List.foldl_append]
  rfl

theorem State.savedOne_wf (l : Byte) (n : Nat) {s : State} (h : Memory.wf s.mem = true) :
    Memory.wf (s.savedOne l n).mem = true := by
  unfold State.savedOne
  split
  · exact State.poke_wf _ _ _ _ (by simpa using h)
  · exact h

/-- The double-word at the stack pointer that the registers are pushed below stays as it is. -/
theorem State.saved_top (l : Byte) (ns : List Nat) (s : State) (short : ns.length ≤ 8) :
    (State.saved l ns s).peek s.sp 4 = s.peek s.sp 4 := by
  unfold State.peek
  refine congrArg _ (loadBytes_congr _ _ fun k hk => State.saved_byteAt l ns s _ fun j hj => ?_)
  rw [State.saved_sp]
  have count := listedIn_le l ns
  generalize listedIn l ns = c at *
  generalize s.sp = a
  rw [Ne, ← BitVec.toNat_inj]
  simp only [BitVec.toNat_add, BitVec.toNat_sub, BitVec.toNat_ofNat]
  have := a.isLt
  norm_num at *
  omega

/-- A register that was pushed is on top of the stack. -/
theorem State.savedOne_top {l : Byte} {n : Nat} (listed : l.getLsbD n) {s : State} (ram : s.memMap = [])
    (wf : Memory.wf s.mem = true) : (s.savedOne l n).peek (s.savedOne l n).sp 4 = s.reg (BitVec.ofNat 3 n) := by
  rw [State.savedOne, if_pos listed, State.pushed_sp, State.pushed]
  refine (State.peek_poke _ _ _ _ (by simpa using wf) (storable_of_ram (by simpa using ram)) (by decide)).trans ?_
  exact BitVec.setWidth_eq _

/-- Registers pushed and popped in the opposite order, with anything in the registers between. -/
theorem State.reloaded_saved (l : Byte) (ns : List Nat) (short : ns.length ≤ 8) {s v : State} (ram : s.memMap = [])
    (wf : Memory.wf s.mem = true) (mem : v.mem = (State.saved l ns s).mem) (sp : v.sp = (State.saved l ns s).sp) :
    let u := State.reloaded l ns.reverse v
    u.mem = v.mem ∧ u.sp = s.sp ∧ ∀ r : RegNo, u.reg r =
      if ∃ n ∈ ns, l.getLsbD n = true ∧ BitVec.ofNat 3 n = r then s.reg r else v.reg r := by
  induction ns generalizing s with
  | nil => exact ⟨rfl, sp, fun r => (if_neg (by simp)).symm⟩
  | cons n ns ih =>
    intro u
    obtain ⟨regs, -, map⟩ := s.savedOne_keeps l n
    obtain ⟨mem', sp', reg'⟩ := ih (Nat.le_of_succ_le short) (map.trans ram) (State.savedOne_wf l n wf) mem sp
    have hu : u = (State.reloaded l ns.reverse v).reloadedOne l n := by
      rw [← State.reloaded_concat, ← List.reverse_cons]
    have same (r : RegNo) : (s.savedOne l n).reg r = s.reg r := by
      unfold State.reg
      rw [regs]
    simp only [same] at reg'
    rw [State.reloadedOne] at hu
    split at hu
    · next listed =>
      have top : (State.reloaded l ns.reverse v).top 4 = s.reg (BitVec.ofNat 3 n) := by
        rw [State.top, sp', peek_congr (mem'.trans mem), State.saved_cons,
          State.saved_top l ns _ (Nat.le_of_succ_le short)]
        exact State.savedOne_top listed ram wf
      rw [top] at hu
      refine ⟨by rw [hu]; simpa using mem', ?_, fun r => ?_⟩
      · rw [hu, State.setReg_sp, State.popped_sp, sp', State.savedOne_sp, if_pos listed]
        exact BitVec.sub_add_cancel _ _
      · rw [hu]
        by_cases e : BitVec.ofNat 3 n = r
        · rw [← e, State.setReg_reg_same, if_pos ⟨n, List.mem_cons_self, listed, rfl⟩]
        · rw [State.setReg_reg_other _ _ _ _ e, State.popped, State.setSp_reg, reg']
          simp [e]
    · next unlisted =>
      refine ⟨by rw [hu]; exact mem', ?_, fun r => ?_⟩
      · rw [hu, sp', State.savedOne_sp, if_neg unlisted]
        exact BitVec.sub_zero _
      · rw [hu, reg']
        simp [unlisted]

theorem listBits_reversed : (listBits.map fun n => 7 - n) = listBits.reverse := by decide

/-- A list names a register by its number. -/
theorem exists_listBits (l : Byte) (r : RegNo) :
    (∃ n ∈ listBits, l.getLsbD n = true ∧ BitVec.ofNat 3 n = r) ↔ l.getLsbD r.toNat = true := by
  constructor
  · rintro ⟨n, hn, listed, rfl⟩
    have small : n < 8 := by
      simp only [listBits, List.mem_cons, List.not_mem_nil, or_false] at hn
      omega
    rwa [BitVec.toNat_ofNat, Nat.mod_eq_of_lt small]
  · intro listed
    exact ⟨r.toNat, List.mem_range.mpr r.isLt, listed, BitVec.ofNat_toNat 3 r |>.trans (BitVec.setWidth_eq r)⟩

/-- Settles O27. -/
theorem restoreUndoesSave : Obligations.RestoreUndoesSave := by
  intro l s t regs ram wf et
  have hs := answers_of_ram ram
  obtain ⟨⟨t', run, agree⟩, -⟩ := completes_save l hs
  obtain rfl : t = t' := by simpa [et] using run
  let w := State.saved l listBits s.begin
  let v : State := { t with regs := regs }
  have hv : Answers v := by
    have kept := (runs_saveRegs l listBits s.begin (answers_congr rfl hs)).1
    exact answers_congr (s := w) (agree_value agree State.env fun _ _ => rfl) kept
  have sp : v.begin.sp = w.sp := by
    rw [State.begin_sp]
    exact agree_value agree State.sp fun _ _ => rfl
  have mem : v.begin.mem = w.mem := agree_value agree State.mem fun _ _ => rfl
  obtain ⟨-, sp', reg'⟩ := State.reloaded_saved l listBits (by decide) (s := s.begin) ram.1 wf mem sp
  obtain ⟨⟨u, runs, agrees⟩, -⟩ := completes_restore l.reverse hv
  rw [State.restored_reverse l listBits (by decide), listBits_reversed] at agrees
  refine ⟨u, runs, ?_, fun r => ?_⟩
  · exact (agree_value agrees State.sp fun _ _ => rfl).trans (sp'.trans (State.begin_sp s))
  · refine (agree_value agrees (State.reg · r) fun _ _ => rfl).trans ((reg' r).trans ?_)
    simp only [exists_listBits]
    rfl

end Sys2Proof.Machine
end

section
/-! The dedicated registers (46_cpu_register.md R372 to R378). -/
namespace Sys2Proof.Machine

open Sys2Proof.Safety

/-! ### Part of a value -/

/-- A part of a value, widened to a double-word on the way. -/
theorem setWidth_through {w k : Nat} (v : BitVec w) (h : k ≤ 32) : (v.setWidth 32).setWidth k = v.setWidth k :=
  BitVec.setWidth_setWidth_of_le v h

/-- The value of a short register, as an operand of any size. -/
theorem setWidth_ofNat {w k : Nat} (v : BitVec w) (h : w ≤ 32) : (v.setWidth 32).setWidth k = BitVec.ofNat k v.toNat := by
  apply BitVec.eq_of_toNat_eq
  have small : v.toNat < 2 ^ 32 := v.isLt.trans_le (Nat.pow_le_pow_right (by decide) h)
  rw [BitVec.toNat_setWidth, BitVec.toNat_setWidth, BitVec.toNat_ofNat, Nat.mod_eq_of_lt small]

/-- A PSR with the low byte replaced. -/
theorem psr_low_eq (p : Half) (v : Byte) : (p &&& 0xFF00) ||| v.setWidth 16 = p.extractLsb' 8 8 ++ v := by
  refine BitVec.eq_of_getLsbD_eq fun k hk => ?_
  have high : (0xFF00 : Half).getLsbD k = decide (8 ≤ k) := by
    interval_cases k <;> rfl
  rw [BitVec.getLsbD_or, BitVec.getLsbD_and, high, BitVec.getLsbD_setWidth, BitVec.getLsbD_append,
    BitVec.getLsbD_extractLsb']
  by_cases low : k < 8
  · simp [low, hk]
  · simp [low, hk, show 8 ≤ k by omega, show k - 8 < 8 by omega,
      show 8 + (k - 8) = k by omega]

/-- A change of the PSR that keeps the high byte is a change of the low byte. -/
theorem psr_low_of_high {p q : Half} (h : q &&& 0xFF00 = p &&& 0xFF00) :
    (p &&& 0xFF00) ||| (q.setWidth 8).setWidth 16 = q := by
  rw [← h, psr_low_eq]
  refine BitVec.eq_of_getLsbD_eq fun k hk => ?_
  rw [BitVec.getLsbD_append, BitVec.getLsbD_extractLsb', BitVec.getLsbD_setWidth]
  by_cases low : k < 8
  · simp [low]
  · simp [low, show k - 8 < 8 by omega, show 8 + (k - 8) = k by omega]

/-! ### Loading and storing dedicated registers -/

/-- PSR and INTBASE ask for Supervisor Mode. -/
theorem runs_aregCheck {r : Areg} {s : State} (h : r = .psr ∨ r = .intbase → s.flag .u = false) :
    Runs (aregCheck r) s () s := by
  cases r with
  | psr => exact runs_privileged (h (.inl rfl))
  | intbase => exact runs_privileged (h (.inr rfl))
  | _ => exact runs_pure _ _

theorem runs_loadAreg {w : Nat} (i : Size) (r : Areg) (v : BitVec w) (s : State) :
    Runs (change fun s => s.loadAreg i r v) s () (s.loadAreg i r v) := by
  cases r with
  | sp => exact runs_setSp (fun _ => v.setWidth 24) s fun _ => rfl
  | psr =>
    refine runs_change (fun s => s.loadAreg i .psr v) s (fun b => ?_) ?_
    · by_cases byte : i = .b <;> simp only [State.loadAreg, byte, if_true, if_false] <;> rfl
    · by_cases byte : i = .b <;> simp only [State.loadAreg, byte, if_true, if_false] <;> rfl
  | _ => exact runs_change (fun s => s.loadAreg i _ v) s (fun _ => rfl) rfl

theorem State.loadAreg_keeps {w : Nat} (i : Size) (r : Areg) (v : BitVec w) (s : State) :
    (s.loadAreg i r v).mem = s.mem ∧ (s.loadAreg i r v).pc = s.pc := by
  cases r with
  | sp => exact ⟨State.setSp_mem _ _, State.setSp_pc _ _⟩
  | psr => by_cases byte : i = .b <;> simp [State.loadAreg, byte]
  | _ => exact ⟨rfl, rfl⟩

theorem exec_lpri_eq (i : Size) (r : Areg) (g : Gen) (s : State) : exec (.lpri i r g) s = performSeq (.lpri i r g) (do
    aregCheck r
    let v ← readGen g i.bytes
    change fun s => s.loadAreg i r v) s := rfl

theorem exec_spri_eq (i : Size) (r : Areg) (g : Gen) (s : State) : exec (.spri i r g) s = performSeq (.spri i r g) (do
    aregCheck r
    let v ← look fun s => s.aregValue r
    writePlace (← placeWrite g) i.bytes (v.setWidth _)) s := rfl

/-- The value that SPR stores, as a number. -/
theorem State.aregValue_eq (s : State) (r : Areg) (k : Nat) : (s.aregValue r).setWidth k = BitVec.ofNat k (match r with
    | .us => s.psr.toNat % 256
    | .fp => s.fp.toNat
    | .sp => s.sp.toNat
    | .sb => s.sb.toNat
    | .psr => s.psr.toNat
    | .intbase => s.intbase.toNat
    | .modReg => s.modReg.toNat) := by
  cases r with
  | us => exact (setWidth_ofNat _ (by decide)).trans (congrArg _ (BitVec.toNat_setWidth 8 s.psr))
  | _ => exact setWidth_ofNat _ (by decide)

/-- Settles O29. -/
theorem dedicatedRegisters : Obligations.DedicatedRegisters := by
  refine ⟨?lpri, ?spri⟩
  case lpri =>
    intro i r src s hs j v s1 low t hj hu
    have checked := runs_aregCheck (s := s.begin) fun h => State.begin_user (hu h)
    obtain ⟨mem, pc⟩ := s1.loadAreg_keeps i r (s.begin.operand src i.bytes)
    have done := completes_seq (exec_lpri_eq i r src s) hj hs (runs_bind checked
      (runs_bind (runs_readGen src i.bytes s.begin) (runs_loadAreg i r (s.begin.operand src i.bytes) s1)))
      (frame_none (by rw [mem]; simp [s1]) 0) (by rw [pc]; simp [s1])
    have part {k : Nat} (h : k ≤ 32) : (s.begin.operand src i.bytes).setWidth k = v.setWidth k :=
      (setWidth_through _ h).symm
    have byte : s1.setPsrLow ((s.begin.operand src i.bytes).setWidth 8) = { s1 with psr := low } := by
      rw [State.setPsrLow, psr_low_eq, part (by decide)]
    have loaded : s1.loadAreg i r (s.begin.operand src i.bytes) = t := by
      cases r with
      | us => exact byte
      | psr =>
        show (if i = Size.b then _ else _) = { s1 with psr := if i = Size.b then low else v.setWidth 16 &&& 0x1FFF }
        split
        · exact byte
        · rw [part (by decide)]; rfl
      | sp =>
        have flag : s1.flag .s = s.flag .s := by simp [s1]
        show s1.setSp _ = if s.flag .s then _ else _
        rw [State.setSp, flag, part (by decide)]
      | _ =>
        simp only [State.loadAreg, t]
        rw [part (by decide)]
    rwa [loaded] at done
  case spri =>
    intro i r dst s hs n j p v hj hu
    have checked := runs_aregCheck (s := s.begin) fun h => State.begin_user (hu h)
    have value : (s.begin.aregValue r).setWidth (8 * i.bytes) = BitVec.ofNat (8 * i.bytes) v := by
      rw [State.aregValue_eq]
      cases r with
      | sp =>
        rw [State.begin_sp]
        exact congrArg _ (apply_ite BitVec.toNat _ _ _)
      | _ => rfl
    refine completes_write (exec_spri_eq i r dst s) hj hs (runs_bind checked
      (runs_bind (runs_look (fun s => s.aregValue r) s.begin fun _ => by cases r <;> rfl) ?_))
    rw [value]
    exact runs_write dst _ _

/-! ### ADJSP, BISPSR, BICPSR, SETCFG -/

theorem runs_psrBits_byte (g : Gen) (f : Half → Half → Half) (s : State) : Runs (psrBits .b g f) s ()
    (let s1 := s.afterRead g 1
    s1.setPsrLow ((f s1.psr ((s.operand g 1).setWidth 16)).setWidth 8)) :=
  runs_bind (runs_readGen g 1 s) (runs_change (fun s => s.setPsrLow _) _ (fun _ => rfl) rfl)

theorem runs_psrBits_word {i : Size} (h : i ≠ .b) (g : Gen) (f : Half → Half → Half) {s : State}
    (hu : s.flag .u = false) : Runs (psrBits i g f) s ()
    (let s1 := s.afterRead g i.bytes
    s1.setPsr (f s1.psr ((s.operand g i.bytes).setWidth 16))) := by
  rw [psrBits, if_neg h]
  exact runs_bind (runs_privileged hu) (runs_bind (runs_readGen g _ s)
    (runs_change (fun s => s.setPsr _) _ (fun _ => rfl) rfl))

/-- BISPSR and BICPSR, for a change of the PSR that an operand of one byte confines to the low byte. -/
theorem completes_psrBits {j : Instr} {i : Size} {g : Gen} {f : Half → Half → Half} {s : State}
    (e : exec j s = performSeq j (psrBits i g f) s) (hj : j.WF) (hs : Answers s) (hu : i = .b ∨ s.flag .u = false)
    (low : ∀ (p : Half) (v : Byte), f p (v.setWidth 16) &&& 0xFF00 = p &&& 0xFF00) :
    Completes j s { s.begin.afterRead g i.bytes with
      psr := f (s.begin.afterRead g i.bytes).psr ((s.begin.operand g i.bytes).setWidth 16) &&&
        (if i = .b then 0xFFFF else 0x1FFF), pc := s.next j } none 0 := by
  by_cases byte : i = .b
  · subst byte
    have done := completes_seq e hj hs (runs_psrBits_byte g f s.begin) (frame_none (by simp) 0) (by simp)
    dsimp only at done
    rw [State.setPsrLow, psr_low_of_high (low _ _)] at done
    rwa [if_pos rfl, show (0xFFFF : Half) = BitVec.allOnes 16 from rfl, BitVec.and_allOnes]
  · have done := completes_seq e hj hs (runs_psrBits_word byte g f (State.begin_user (hu.resolve_left byte)))
      (frame_none (by simp) 0) (by simp)
    rw [if_neg byte]
    exact done

theorem high_or (p : Half) (v : Byte) : (p ||| v.setWidth 16) &&& 0xFF00 = p &&& 0xFF00 := by
  have h : (v.setWidth 16 : Half) &&& 0xFF00 = 0 := by
    revert v
    decide
  rw [BitVec.and_or_distrib_right, h]
  exact BitVec.or_zero

theorem high_and_not (p : Half) (v : Byte) : (p &&& ~~~(v.setWidth 16)) &&& 0xFF00 = p &&& 0xFF00 := by
  have h : ~~~(v.setWidth 16 : Half) &&& 0xFF00 = 0xFF00 := by
    revert v
    decide
  rw [BitVec.and_assoc, h]

theorem exec_adjspi_eq (i : Size) (g : Gen) (s : State) : exec (.adjspi i g) s = performSeq (.adjspi i g) (do
    let v ← readGen g i.bytes
    change fun s => s.setSp (s.sp - (v.signExtend 32).setWidth 24)) s := rfl

theorem exec_setcfg_eq (o : BitVec 4) (s : State) : exec (.setcfg o) s = performSeq (.setcfg o) (do
    privileged
    change fun s => { s with cfg := o }) s := rfl

/-- The low 24 bits of an operand sign-extended to a double-word. -/
theorem signExtend_setWidth24 {w : Nat} (v : BitVec w) : (v.signExtend 32).setWidth 24 = BitVec.ofInt 24 v.toInt := by
  rw [BitVec.signExtend, setWidth_ofInt]

/-- Settles O30. -/
theorem adjustConfigure : Obligations.AdjustConfigure := by
  constructor
  · intro i src s hs n v s1 mask
    refine ⟨fun hi => ?adjsp, fun hi hu => ?bispsr, fun hi hu => ?bicpsr⟩
    case bispsr => exact completes_psrBits (f := fun p v => p ||| v) rfl hi hs hu high_or
    case bicpsr => exact completes_psrBits (f := fun p v => p &&& ~~~v) rfl hi hs hu high_and_not
    have moved := runs_setSp (fun s => s.sp - (v.signExtend 32).setWidth 24) s1 fun _ => rfl
    have ends : s1.setSp (s1.sp - BitVec.ofInt 24 v.toInt) = s1.setSp (s1.sp - (v.signExtend 32).setWidth 24) := by
      rw [signExtend_setWidth24]
    rw [ends]
    exact completes_seq (exec_adjspi_eq i src s) hi hs (runs_bind (runs_readGen src n s.begin) moved)
      (frame_none (by simp [s1]) 0) (by simp [s1])
  · intro o s hs hu
    exact completes_seq (exec_setcfg_eq o s) rfl hs (runs_bind (runs_privileged (State.begin_user hu))
      (runs_change (fun s => { s with cfg := o }) _ (fun _ => rfl) rfl)) (frame_none rfl 0) rfl

end Sys2Proof.Machine
end

section
/-! Bits in registers and memory (43_bits_fields_arrays.md R281 to R287), and what the spec refuses of them. -/
namespace Sys2Proof.Machine

open Sys2Proof.Safety

/-! ### Refusals -/

/-- Where memory answers, `x` refuses the instruction, whatever the bus log is. -/
def Refuses {α : Type} (x : M α) (s : State) (r : Refusal) : Prop :=
  Answers s → ∀ b, ∃ u, Answers u ∧ x (s.withBus b) = .error (.refused r) u

theorem refuses_bind {α β : Type} {x : M α} {f : α → M β} {s : State} {r : Refusal} (h : Refuses x s r) :
    Refuses (x >>= f) s r := by
  intro hs b
  obtain ⟨u, hu, e⟩ := h hs b
  exact ⟨u, hu, by rw [bind_apply, e]⟩

theorem refuses_after {α β : Type} {x : M α} {f : α → M β} {s t : State} {a : α} {r : Refusal} (h : Runs x s a t)
    (k : Refuses (f a) t r) : Refuses (x >>= f) s r := by
  intro hs b
  obtain ⟨ht, run⟩ := h hs
  obtain ⟨b', e⟩ := run b
  obtain ⟨u, hu, e'⟩ := k ht b'
  exact ⟨u, hu, by rw [bind_apply, e]; exact e'⟩

theorem refuses_refusable (r : Refusal) {s : State} (h : s.operandPolicy = .refuse) : Refuses (refusable r) s r := by
  intro hs b
  have policy : (s.withBus b).operandPolicy = .refuse := h
  exact ⟨s.withBus b, answers_congr rfl hs, by rw [refusable_apply, policy]⟩

theorem perform_of_refuses {i : Instr} {x : M Unit} {s : State} {r : Refusal} (hi : i.WF) (hs : Answers s)
    (h : Refuses x s.begin r) : perform i x s = .refused r := by
  obtain ⟨u, hu, e⟩ := h (answers_congr rfl hs) s.begin.bus
  have e' : x s.begin = .error (.refused r) u := e
  have hi' : i.check = none := hi
  have active : u.resetIn ≠ some 0 := by rw [hu.2.2]; decide
  simp only [perform, hi', e', finish, settle, State.stop, if_neg active]

theorem performSeq_of_refuses {i : Instr} {x : M Unit} {s : State} {r : Refusal} (hi : i.WF) (hs : Answers s)
    (h : Refuses x s.begin r) : performSeq i x s = .refused r := perform_of_refuses hi hs (refuses_bind h)

/-! ### The place of a bit -/

/-- The signed offset that an operand of any size is. -/
theorem bitOffset_toInt {w : Nat} (v : BitVec w) (h : w ≤ 32) : (bitOffset v).toInt = v.toInt :=
  BitVec.toInt_signExtend_of_le h

/-- The byte and the bit of a bit in memory, by floor division of the signed offset (R281). -/
theorem bitAddr_eq (base off : DWord) : bitAddr base off =
    ((base + BitVec.ofInt 32 (off.toInt.fdiv 8)).setWidth 24, (off.toInt % 8).toNat) := by
  have high : off.sshiftRight 3 = BitVec.ofInt 32 (off.toInt.fdiv 8) := by
    rw [BitVec.sshiftRight, Int.shiftRight_eq_div_pow, Int.fdiv_eq_ediv_of_nonneg _ (by decide)]
    rfl
  have low : (off.setWidth 3).toNat = (off.toInt % 8).toNat := by
    have := off.isLt
    rw [BitVec.toNat_setWidth, BitVec.toInt_eq_toNat_cond]
    split <;> omega
  rw [bitAddr, high, low]

/-- A register has the bits 0 to 31. -/
theorem ult_32_iff (d : DWord) : d.ult 32 = true ↔ 0 ≤ d.toInt ∧ d.toInt ≤ 31 := by
  have := d.isLt
  rw [BitVec.ult_iff_lt, BitVec.lt_def, BitVec.toInt_eq_toNat_cond]
  have : (32 : DWord).toNat = 32 := rfl
  split <;> omega

theorem toNat_of_nonneg {d : DWord} (h : 0 ≤ d.toInt) : d.toNat = d.toInt.toNat := by
  have := d.isLt
  rw [BitVec.toInt_eq_toNat_cond] at *
  split at * <;> omega

/-- Both ways to replace one bit. -/
theorem putBit_eq_withBit {w : Nat} (v : BitVec w) (k : Nat) (x : Bool) : putBit v k x = withBit v k x := by
  refine BitVec.eq_of_getLsbD_eq fun i hi => ?_
  have bit : (BitVec.ofNat w 1 <<< k).getLsbD i = decide (k = i) := by
    rw [show BitVec.ofNat w 1 <<< k = BitVec.twoPow w k from rfl, BitVec.getLsbD_twoPow]
    by_cases e : k = i
    · simp [e, hi]
    · simp [e]
  have flip (b : Bool) : ((BitVec.ofBool b).setWidth w <<< k).getLsbD i = (decide (k = i) && b) := by
    cases b with
    | false => simp
    | true =>
      have one : (BitVec.ofBool true).setWidth w = BitVec.ofNat w 1 := BitVec.eq_of_toNat_eq (by simp)
      rw [one, bit, Bool.and_true]
  unfold putBit withBit
  rw [BitVec.getLsbD_xor, flip]
  cases x with
  | true =>
    rw [if_pos rfl, BitVec.getLsbD_or, bit]
    by_cases e : k = i <;> simp [e]
  | false =>
    rw [if_neg Bool.false_ne_true, BitVec.getLsbD_and, BitVec.getLsbD_not, bit]
    by_cases e : k = i <;> simp [e, hi]

/-- One byte as a value. -/
theorem State.peek_one (s : State) (a : Addr) : s.peek a 1 = s.byteAt a := by
  apply BitVec.eq_of_toNat_eq
  have := (s.byteAt a).isLt
  rw [State.peek, ofBytes, loadBytes, loadBytes, bytesNat, bytesNat, BitVec.toNat_ofNat]
  exact Nat.mod_eq_of_lt this

/-! ### A bit in memory -/

/-- The base of a bit in memory is no register. -/
theorem testBit_memory {g : Gen} (h : ∀ r, g ≠ .base (.reg r)) (off : DWord) : testBit g off = do
    let e ← effAddr g
    let x ← readMem .data (bitAddr e off).1 1
    return x.getLsbD (bitAddr e off).2 := by
  rcases g with m | ⟨m, x, sc⟩
  · cases m with
    | reg r => exact absurd rfl (h r)
    | _ => rfl
  · rfl

theorem changeBit_memory {g : Gen} (h : ∀ r, g ≠ .base (.reg r)) (off : DWord) (lock : Bool) (f : Bool → Bool) :
    changeBit g off lock f = do
    let e ← effAddr g
    let y ← readMem .readRmw (bitAddr e off).1 1 { lock := lock }
    writeMem (bitAddr e off).1 1 (putBit y (bitAddr e off).2 (f (y.getLsbD (bitAddr e off).2))) { lock := lock }
    return y.getLsbD (bitAddr e off).2 := by
  rcases g with m | ⟨m, x, sc⟩
  · cases m with
    | reg r => exact absurd rfl (h r)
    | _ => rfl
  · rfl

theorem runs_testBit_memory {g : Gen} (h : ∀ r, g ≠ .base (.reg r)) (off : DWord) (s : State) :
    let a := (s.ea g + BitVec.ofInt 32 (off.toInt.fdiv 8)).setWidth 24
    Runs (testBit g off) s ((s.byteAt a).getLsbD (off.toInt % 8).toNat) s := by
  intro a
  rw [testBit_memory h, ← State.peek_one]
  refine runs_bind (runs_effAddr g s) ?_
  rw [bitAddr_eq]
  exact runs_map _ (runs_readMem _ _ _ _ _)

theorem runs_changeBit_memory {g : Gen} (h : ∀ r, g ≠ .base (.reg r)) (off : DWord) (lock : Bool) (f : Bool → Bool)
    (s : State) :
    let a := (s.ea g + BitVec.ofInt 32 (off.toInt.fdiv 8)).setWidth 24
    let k := (off.toInt % 8).toNat
    let x := (s.byteAt a).getLsbD k
    Runs (changeBit g off lock f) s x (s.poke a 1 (withBit (s.byteAt a) k (f x))) := by
  intro a k x
  rw [changeBit_memory h]
  refine runs_bind (runs_effAddr g s) ?_
  rw [bitAddr_eq]
  have read := runs_readMem .readRmw a 1 { lock := lock } s
  rw [State.peek_one] at read
  rw [← putBit_eq_withBit]
  exact runs_bind read (runs_bind (runs_writeMem _ _ _ _ _) (runs_pure _ _))

/-! ### A bit of a register -/

/-- A bit of a register inside it; outside it is refused or free. -/
theorem runs_testBit_reg {r : RegNo} {off : DWord} (s : State)
    (h : 0 ≤ off.toInt ∧ off.toInt ≤ 31 ∨ s.operandPolicy = .free) : ∃ (f : Bool) (k : Nat),
    (0 ≤ off.toInt ∧ off.toInt ≤ 31 → f = (s.reg r).getLsbD off.toInt.toNat ∧ k = s.draws) ∧
    Runs (testBit (.base (.reg r)) off) s f { s with draws := k } := by
  unfold testBit
  by_cases inside : 0 ≤ off.toInt ∧ off.toInt ≤ 31
  · refine ⟨_, _, fun _ => ⟨rfl, rfl⟩, runs_bind (runs_look (fun s => s.reg r) s fun _ => rfl) ?_⟩
    rw [if_pos ((ult_32_iff off).mpr inside), toNat_of_nonneg inside.1]
    exact runs_pure _ s
  · refine ⟨(Config.freeBits s.draws).getLsbD 0, s.draws + 1, fun i => absurd i inside, runs_bind (runs_look (fun s => s.reg r) s fun _ => rfl) ?_⟩
    rw [if_neg fun u => inside ((ult_32_iff off).mp u)]
    exact runs_bind (runs_refusable _ (h.resolve_left inside)) (runs_drawBool s)

theorem refuses_testBit {r : RegNo} {off : DWord} {s : State} (h : ¬(0 ≤ off.toInt ∧ off.toInt ≤ 31))
    (policy : s.operandPolicy = .refuse) : Refuses (testBit (.base (.reg r)) off) s .outsideField := by
  unfold testBit
  refine refuses_after (runs_look (fun s => s.reg r) s fun _ => rfl) ?_
  rw [if_neg fun u => h ((ult_32_iff off).mp u)]
  exact refuses_bind (refuses_refusable _ policy)

theorem runs_changeBit_reg {r : RegNo} {off : DWord} (lock : Bool) (f : Bool → Bool) (s : State)
    (h : 0 ≤ off.toInt ∧ off.toInt ≤ 31 ∨ s.operandPolicy = .free) : ∃ (v : DWord) (y : Bool) (k : Nat),
    (0 ≤ off.toInt ∧ off.toInt ≤ 31 → let x := (s.reg r).getLsbD off.toInt.toNat
      v = withBit (s.reg r) off.toInt.toNat (f x) ∧ y = x ∧ k = s.draws) ∧
    Runs (changeBit (.base (.reg r)) off lock f) s y { s.setReg r v with draws := k } := by
  unfold changeBit
  by_cases inside : 0 ≤ off.toInt ∧ off.toInt ≤ 31
  · refine ⟨_, _, _, fun _ => ⟨rfl, rfl, rfl⟩, runs_bind (runs_look (fun s => s.reg r) s fun _ => rfl) ?_⟩
    rw [if_pos ((ult_32_iff off).mpr inside), toNat_of_nonneg inside.1, ← putBit_eq_withBit]
    exact runs_bind (runs_change (fun s => s.setReg r _) s (fun _ => rfl) rfl) (runs_pure _ _)
  · refine ⟨(Config.freeBits s.draws).setWidth 32, (Config.freeBits (s.draws + 1)).getLsbD 0, s.draws + 2,
      fun i => absurd i inside, runs_bind (runs_look (fun s => s.reg r) s fun _ => rfl) ?_⟩
    rw [if_neg fun u => inside ((ult_32_iff off).mp u)]
    exact runs_bind (runs_refusable _ (h.resolve_left inside)) (runs_bind (runs_drawBits s 32)
      (runs_bind (runs_change (fun s => s.setReg r _) _ (fun _ => rfl) rfl) (runs_drawBool _)))

theorem refuses_changeBit {r : RegNo} {off : DWord} {lock : Bool} {f : Bool → Bool} {s : State}
    (h : ¬(0 ≤ off.toInt ∧ off.toInt ≤ 31)) (policy : s.operandPolicy = .refuse) :
    Refuses (changeBit (.base (.reg r)) off lock f) s .outsideField := by
  unfold changeBit
  refine refuses_after (runs_look (fun s => s.reg r) s fun _ => rfl) ?_
  rw [if_neg fun u => h ((ult_32_iff off).mp u)]
  exact refuses_bind (refuses_refusable _ policy)

/-! ### The instructions -/

theorem runs_putFlag (q : PsrBit) (x : Bool) (s : State) : Runs (change fun s => s.putFlag q x) s () (s.putFlag q x) :=
  runs_change (fun s => s.putFlag q x) s (fun _ => rfl) rfl

@[simp] theorem State.afterRead_operandPolicy (s : State) (g : Gen) (n : Nat) :
    (s.afterRead g n).operandPolicy = s.operandPolicy := by
  rcases g with m | ⟨m, x, sc⟩
  · cases m with
    | tos => exact State.setSp_operandPolicy _ _
    | _ => rfl
  · rfl

section
variable {j : Instr} {i : Size} {off : Gen} {s : State} {lock : Bool} {f : Bool → Bool}

/-- A bit instruction other than TBIT on a bit in memory. -/
theorem completes_bitOp {base : Gen} (e : exec j s = performSeq j (bitOp i.bytes off base lock f) s)
    (h : ∀ r, base ≠ .base (.reg r)) (hj : j.WF) (hs : Answers s) :
    let o := (s.begin.operand off i.bytes).toInt
    let s1 := s.begin.afterRead off i.bytes
    let a : Addr := (s1.ea base + BitVec.ofInt 32 (o.fdiv 8)).setWidth 24
    let k := (o % 8).toNat
    let x := (s1.byteAt a).getLsbD k
    Completes j s { ((s1.poke a 1 (withBit (s1.byteAt a) k (f x))).putFlag .f x) with pc := s.next j } (some a) 1 := by
  intro o s1 a k x
  have changed := runs_changeBit_memory h (bitOffset (s.begin.operand off i.bytes)) lock f s1
  rw [bitOffset_toInt _ (bits_le_of_size i)] at changed
  exact completes_seq e hj hs (runs_bind (runs_readGen off _ _) (runs_bind changed (runs_putFlag .f x _)))
    (frame_of_mem (frame_poke (t := s1) (by simp [s1]) _ _ _) rfl) (by simp [s1])

/-- A bit instruction other than TBIT on a bit of a register. -/
theorem completes_bitOp_reg {r : RegNo} (e : exec j s = performSeq j (bitOp i.bytes off (.base (.reg r)) lock f) s)
    (hj : j.WF) (hs : Answers s) :
    let o := (s.begin.operand off i.bytes).toInt
    let s1 := s.begin.afterRead off i.bytes
    let x := (s.reg r).getLsbD o.toNat
    let inside := 0 ≤ o ∧ o ≤ 31
    (¬inside → s.operandPolicy = .refuse → exec j s = .refused .outsideField) ∧
    (inside ∨ s.operandPolicy = .free → ∃ (v : DWord) (y : Bool) (k : Nat),
      (inside → v = withBit (s.reg r) o.toNat (f x) ∧ y = x ∧ k = s.draws) ∧
      Completes j s { ((s1.setReg r v).putFlag .f y) with pc := s.next j, draws := k } none 1) := by
  intro o s1 x inside
  have offset : (bitOffset (s.begin.operand off i.bytes)).toInt = o := bitOffset_toInt _ (bits_le_of_size i)
  have policy : s1.operandPolicy = s.operandPolicy := State.afterRead_operandPolicy _ _ _
  constructor
  · intro outside refuse
    rw [e]
    refine performSeq_of_refuses hj hs (refuses_after (runs_readGen off _ _) (refuses_bind (refuses_changeBit ?_ ?_)))
    · rwa [offset]
    · rwa [policy]
  · intro free
    change (0 ≤ o ∧ o ≤ 31) ∨ _ at free
    rw [← policy, ← offset] at free
    obtain ⟨v, y, k, value, run⟩ := runs_changeBit_reg (r := r) lock f s1 free
    rw [offset, State.afterRead_reg, State.begin_reg, State.afterRead_draws] at value
    refine ⟨v, y, k, value, ?_⟩
    exact completes_seq e hj hs (runs_bind (runs_readGen off _ _) (runs_bind run (runs_putFlag .f y _)))
      (frame_none (by simp [s1]) 1) (by simp [s1])

end

theorem exec_tbiti_eq (i : Size) (off base : Gen) (s : State) : exec (.tbiti i off base) s =
    performSeq (.tbiti i off base) (do
      let o ← readGen off i.bytes
      let x ← testBit base (bitOffset o)
      change fun s => s.putFlag .f x) s := rfl

/-- Settles O14. -/
theorem bits : Obligations.Bits := by
  constructor
  · intro i off base s hs n o s1 a k x done memory
    refine ⟨fun hi => ?tbit, fun hi => completes_bitOp (f := fun _ => true) rfl memory hi hs,
      fun hi => completes_bitOp (f := fun _ => true) rfl memory hi hs,
      fun hi => completes_bitOp (f := fun _ => false) rfl memory hi hs,
      fun hi => completes_bitOp (f := fun _ => false) rfl memory hi hs,
      fun hi => completes_bitOp (f := fun x => !x) rfl memory hi hs⟩
    have tested := runs_testBit_memory memory (bitOffset (s.begin.operand off i.bytes)) s1
    rw [bitOffset_toInt _ (bits_le_of_size i)] at tested
    exact completes_seq (exec_tbiti_eq i off base s) hi hs (runs_bind (runs_readGen off _ _)
      (runs_bind tested (runs_putFlag .f x _))) (frame_none (by simp [s1]) 1) (by simp [s1])
  · intro i off r s hs n base o s1 x inside runs done
    refine ⟨fun hi => ⟨fun outside refuse => ?refused, fun free => ?ran⟩,
      fun hi => completes_bitOp_reg (f := fun _ => true) rfl hi hs,
      fun hi => completes_bitOp_reg (f := fun _ => true) rfl hi hs,
      fun hi => completes_bitOp_reg (f := fun _ => false) rfl hi hs,
      fun hi => completes_bitOp_reg (f := fun _ => false) rfl hi hs,
      fun hi => completes_bitOp_reg (f := fun x => !x) rfl hi hs⟩
    all_goals
      have offset : (bitOffset (s.begin.operand off n)).toInt = o := bitOffset_toInt _ (bits_le_of_size i)
      have policy : s1.operandPolicy = s.operandPolicy := State.afterRead_operandPolicy _ _ _
    case refused =>
      rw [exec_tbiti_eq]
      refine performSeq_of_refuses hi hs (refuses_after (runs_readGen off _ _) (refuses_bind (refuses_testBit ?_ ?_)))
      · rwa [offset]
      · rwa [policy]
    case ran =>
      change (0 ≤ o ∧ o ≤ 31) ∨ _ at free
      rw [← policy, ← offset] at free
      obtain ⟨f, k, value, run⟩ := runs_testBit_reg (r := r) s1 free
      rw [offset, State.afterRead_reg, State.begin_reg, State.afterRead_draws] at value
      refine ⟨f, k, value, ?_⟩
      exact completes_seq (exec_tbiti_eq i off base s) hi hs (runs_bind (runs_readGen off _ _)
        (runs_bind run (runs_putFlag .f f _))) (frame_none (by simp [s1]) 1) (by simp [s1])

end Sys2Proof.Machine
end

section
/-! Bit fields in registers and memory (43_bits_fields_arrays.md R288 to R293). -/
namespace Sys2Proof.Machine

open Sys2Proof.Safety

/-! ### Fields of a double-word -/

theorem getLsbD_fieldMask {k len m : Nat} (h : m < 32) :
    (fieldMask k len).getLsbD m = decide (k ≤ m ∧ m < k + len) := by
  rw [fieldMask, BitVec.getLsbD_ofNat, Nat.testBit_mul_two_pow, Nat.testBit_two_pow_sub_one]
  by_cases low : k ≤ m
  · simp [h, low, show m - k < len ↔ m < k + len by omega]
  · simp [low]

theorem fieldGet_toNat (d : DWord) {k len : Nat} (h : len ≤ 32) : (fieldGet d k len).toNat = d.toNat / 2 ^ k % 2 ^ len := by
  have small : 2 ^ len - 1 < 2 ^ 32 := by
    have := Nat.pow_le_pow_right (n := 2) (by decide) h
    have := Nat.two_pow_pos len
    omega
  rw [fieldGet, fieldMask, BitVec.toNat_and, BitVec.toNat_ushiftRight, BitVec.toNat_ofNat, pow_zero, Nat.mul_one,
    Nat.mod_eq_of_lt small, Nat.and_two_pow_sub_one_eq_mod, Nat.shiftRight_eq_div_pow]

theorem getLsbD_fieldPut (d v : DWord) {k len m : Nat} (h : m < 32) :
    (fieldPut d k len v).getLsbD m = if k ≤ m ∧ m < k + len then v.getLsbD (m - k) else d.getLsbD m := by
  rw [fieldPut, BitVec.getLsbD_or, BitVec.getLsbD_and, BitVec.getLsbD_not, getLsbD_fieldMask h, BitVec.getLsbD_shiftLeft]
  split
  · next inside =>
    obtain ⟨low, high⟩ := inside
    rw [BitVec.getLsbD_and, getLsbD_fieldMask (show m - k < 32 by omega)]
    simp [h, low, high, show m - k < len by omega]
  · next outside =>
    by_cases low : k ≤ m
    · have high : ¬m < k + len := fun high => outside ⟨low, high⟩
      rw [BitVec.getLsbD_and, getLsbD_fieldMask (show m - k < 32 by omega)]
      simp [h, high, show ¬(m - k < len) by omega]
    · simp [h, low, show m < k by omega]

/-- Where the field of a register is. -/
theorem inRegister_iff {off : DWord} {len : Nat} (h : 1 ≤ len) :
    (off.ult 32 && off.toNat + len ≤ 32) = true ↔ 0 ≤ off.toInt ∧ off.toInt + len ≤ 32 := by
  rw [Bool.and_eq_true, decide_eq_true_iff, ult_32_iff]
  constructor
  · rintro ⟨⟨nonneg, -⟩, fits⟩
    have := toNat_of_nonneg nonneg
    omega
  · rintro ⟨nonneg, fits⟩
    have := toNat_of_nonneg nonneg
    omega

theorem fieldLength_of_check {d : Disp} {o : Option IllFormed}
    (h : o.or (IllFormed.fieldLength.unless (1 ≤ d.val && d.val ≤ 32)) = none) : 1 ≤ d.val.toNat ∧ d.val.toNat ≤ 32 := by
  rw [Option.or_eq_none_iff] at h
  by_contra bad
  have out : ¬(1 ≤ d.val ∧ d.val ≤ 32) := by omega
  rw [not_and_or] at out
  rcases out with low | high
  · simp [IllFormed.unless, low] at h
  · simp [IllFormed.unless, high] at h

/-- The offset of a constant field. -/
theorem shortOffset_toInt (o : BitVec 3) : (o.setWidth 32 : DWord).toInt = o.toNat := by
  have := o.isLt
  rw [BitVec.toInt_eq_toNat_of_lt] <;> rw [BitVec.toNat_setWidth] <;> omega

/-! ### Extracting -/

theorem extractField_of_memory {g : Gen} (h : ∀ r, g ≠ .base (.reg r)) (off : DWord) (len : Nat) :
    extractField g off len = (do
    let e ← effAddr g
    let d ← readMem .data (bitAddr e off).1 4
    if (bitAddr e off).2 + len ≤ 32 then return fieldGet d (bitAddr e off).2 len
    else do
      refusable .outsideField
      drawBits 32) := by
  rcases g with m | ⟨m, x, sc⟩
  · cases m with
    | reg r => exact absurd rfl (h r)
    | _ => rfl
  · rfl

/-- A field extracted: the number of it, if there is one, else a refusal or a free value. -/
def Extracts (base : Gen) (off : DWord) (len : Nat) (s : State) (field : Option Nat) : Prop :=
  (field = none → s.operandPolicy = .refuse → Refuses (extractField base off len) s .outsideField) ∧
  (field ≠ none ∨ s.operandPolicy = .free → ∃ (x : DWord) (k : Nat), (∀ y ∈ field, x.toNat = y ∧ k = s.draws) ∧
    Runs (extractField base off len) s x { s with draws := k })

theorem extracts_register (q : RegNo) (off : DWord) {len : Nat} (pos : 1 ≤ len) (s : State) :
    Extracts (.base (.reg q)) off len s
      (if 0 ≤ off.toInt ∧ off.toInt + len ≤ 32 then some ((s.reg q).toNat / 2 ^ off.toInt.toNat % 2 ^ len) else none) := by
  have read := runs_look (fun s => s.reg q) s fun _ => rfl
  unfold Extracts extractField
  by_cases inside : 0 ≤ off.toInt ∧ off.toInt + len ≤ 32
  · rw [if_pos inside]
    refine ⟨fun h => (nomatch h), fun _ => ⟨fieldGet (s.reg q) off.toNat len, s.draws, fun y hy => ?_, ?_⟩⟩
    · cases hy
      rw [fieldGet_toNat _ (by omega), toNat_of_nonneg inside.1]
      exact ⟨rfl, rfl⟩
    · refine runs_bind read ?_
      rw [if_pos ((inRegister_iff pos).mpr inside)]
      exact runs_pure _ s
  · rw [if_neg inside]
    have outside : ¬(off.ult 32 && off.toNat + len ≤ 32) = true := fun h => inside ((inRegister_iff pos).mp h)
    refine ⟨fun _ refuse => refuses_after read ?_, fun free => ⟨(Config.freeBits s.draws).setWidth 32, s.draws + 1,
      fun y hy => (nomatch hy), runs_bind read ?_⟩⟩
    · rw [if_neg outside]
      exact refuses_bind (refuses_refusable _ refuse)
    · rw [if_neg outside]
      exact runs_bind (runs_refusable _ (free.resolve_left fun h => h rfl)) (runs_drawBits s 32)

theorem extracts_memory {g : Gen} (h : ∀ r, g ≠ .base (.reg r)) (off : DWord) (len : Nat) (s : State) :
    let k := (off.toInt % 8).toNat
    let d := s.peek32 ((s.ea g + BitVec.ofInt 32 (off.toInt.fdiv 8)).setWidth 24)
    Extracts g off len s (if k + len ≤ 32 then some (d.toNat / 2 ^ k % 2 ^ len) else none) := by
  intro k d
  have read := runs_effAddr g s
  have value := runs_readMem .data ((s.ea g + BitVec.ofInt 32 (off.toInt.fdiv 8)).setWidth 24) 4 {} s
  unfold Extracts
  rw [extractField_of_memory h]
  by_cases inside : (off.toInt % 8).toNat + len ≤ 32
  · rw [if_pos inside]
    refine ⟨fun h => (nomatch h), fun _ => ⟨fieldGet d k len, s.draws, fun y hy => ?_, ?_⟩⟩
    · cases hy
      exact ⟨fieldGet_toNat _ (by omega), rfl⟩
    · refine runs_bind read ?_
      simp only [bitAddr_eq, if_pos inside]
      exact runs_bind value (runs_pure _ s)
  · rw [if_neg inside]
    refine ⟨fun _ refuse => refuses_after read ?_, fun free => ⟨(Config.freeBits s.draws).setWidth 32, s.draws + 1,
      fun y hy => (nomatch hy), runs_bind read ?_⟩⟩
    · simp only [bitAddr_eq, if_neg inside]
      exact refuses_after value (refuses_bind (refuses_refusable _ refuse))
    · simp only [bitAddr_eq, if_neg inside]
      exact runs_bind value (runs_bind (runs_refusable _ (free.resolve_left fun h => h rfl)) (runs_drawBits s 32))

/-- EXT and EXTS once the offset is known. -/
def extractTo (n : Nat) (base dst : Gen) (len : Nat) (off : DWord) : M Unit := do
  let x ← extractField base off len
  writePlace (← placeWrite dst) n (x.setWidth _)

theorem exec_exti_eq (i : Size) (r : RegNo) (base dst : Gen) (len : Disp) (s : State) :
    exec (.exti i r base dst len) s = performSeq (.exti i r base dst len) (do
      let off ← look fun s => s.reg r
      extractTo i.bytes base dst len.val.toNat off) s := rfl

theorem exec_extsi_eq (i : Size) (base dst : Gen) (o : BitVec 3) (l : BitVec 5) (s : State) :
    exec (.extsi i base dst o l) s = performSeq (.extsi i base dst o l) (do
      let off ← look fun _ => o.setWidth 32
      extractTo i.bytes base dst (l.toNat + 1) off) s := rfl

/-- A field extracted and stored. -/
theorem completes_extract {j : Instr} {n len : Nat} {base dst : Gen} {f : State → DWord} {s : State} {field : Option Nat}
    (e : exec j s = performSeq j (do let off ← look f; extractTo n base dst len off) s) (hj : j.WF) (hs : Answers s)
    (free : ∀ b, f (s.begin.withBus b) = f s.begin) (h : Extracts base (f s.begin) len s.begin field) :
    let p := s.begin.writePlaceOf dst
    (field = none → s.operandPolicy = .refuse → exec j s = .refused .outsideField) ∧
    (field ≠ none ∨ s.operandPolicy = .free → ∃ (v : BitVec (8 * n)) (k : Nat),
      (∀ x ∈ field, v = BitVec.ofNat _ x ∧ k = s.draws) ∧
      Completes j s { (s.begin.put p n v) with pc := s.next j, draws := k } (s.begin.storeAddr p n) n) := by
  intro p
  obtain ⟨refused, ran⟩ := h
  constructor
  · intro none refuse
    exact e.trans (performSeq_of_refuses hj hs (refuses_after (runs_look f s.begin free)
      (refuses_bind (refused none refuse))))
  · intro some
    obtain ⟨x, k, value, run⟩ := ran some
    refine ⟨x.setWidth _, k, fun y hy => ?_, ?_⟩
    · obtain ⟨rfl, hk⟩ := value y hy
      exact ⟨(BitVec.ofNat_toNat _ x).symm, hk⟩
    · have stored := runs_write dst (x.setWidth (8 * n)) { s.begin with draws := k }
      rw [put_draws] at stored
      exact completes_seq e hj hs (runs_bind (runs_look f s.begin free) (runs_bind run stored))
        (frame_of_mem (frame_put (t := s.begin) rfl p n _) rfl) (by simp)

/-! ### Inserting -/

theorem insertField_of_memory {g : Gen} (h : ∀ r, g ≠ .base (.reg r)) (off : DWord) (len : Nat) (v : DWord) :
    insertField g off len v = (do
    let e ← effAddr g
    let d ← readMem .readRmw (bitAddr e off).1 4
    let d' ← (do
      if (bitAddr e off).2 + len ≤ 32 then return fieldPut d (bitAddr e off).2 len v
      else
        refusable .outsideField
        return fieldPut d (bitAddr e off).2 (32 - (bitAddr e off).2) (← drawBits 32))
    writeMem (bitAddr e off).1 4 d') := by
  rcases g with m | ⟨m, x, sc⟩
  · cases m with
    | reg r => exact absurd rfl (h r)
    | _ => rfl
  · rfl

/-- The bits that an insertion takes from an operand are those of the operand. -/
theorem insertedBits {w : Nat} (v : BitVec w) {m : Nat} (h : m < 32) : (v.setWidth 32).getLsbD m = v.getLsbD m := by
  simp [h]

/-- A field inserted: refused, or `put` applied to a double-word of which `ok` holds. -/
def Inserts (base : Gen) (off : DWord) (len : Nat) (v : DWord) (s : State) (inside : Prop) (ok : DWord → Nat → Prop)
    (put : DWord → State) : Prop :=
  (¬inside → s.operandPolicy = .refuse → Refuses (insertField base off len v) s .outsideField) ∧
  (inside ∨ s.operandPolicy = .free → ∃ (d : DWord) (k : Nat), ok d k ∧
    Runs (insertField base off len v) s () { put d with draws := k })

theorem inserts_register {w : Nat} (q : RegNo) (off : DWord) {len : Nat} (pos : 1 ≤ len) (v : BitVec w) (s : State) :
    let inside := 0 ≤ off.toInt ∧ off.toInt + len ≤ 32
    Inserts (.base (.reg q)) off len (v.setWidth 32) s inside (fun d k => inside → k = s.draws ∧ ∀ m : Nat, m < 32 → d.getLsbD m =
      if off.toInt ≤ m ∧ m < off.toInt + len then v.getLsbD (m - off.toInt.toNat) else (s.reg q).getLsbD m)
      (fun d => s.setReg q d) := by
  intro inside
  have read := runs_look (fun s => s.reg q) s fun _ => rfl
  have stored (d : DWord) (t : State) := runs_change (fun s => s.setReg q d) t (fun _ => rfl) rfl
  unfold Inserts insertField
  by_cases h : inside
  · refine ⟨fun outside => absurd h outside, fun _ => ⟨fieldPut (s.reg q) off.toNat len (v.setWidth 32), s.draws,
      fun _ => ⟨rfl, fun m hm => ?_⟩, runs_bind read ?_⟩⟩
    · rw [getLsbD_fieldPut _ _ hm, toNat_of_nonneg h.1]
      have place : off.toInt.toNat ≤ m ∧ m < off.toInt.toNat + len ↔ off.toInt ≤ m ∧ m < off.toInt + len := by
        have := h.1
        omega
      simp only [place, insertedBits v (show m - off.toInt.toNat < 32 by omega)]
    · rw [if_pos ((inRegister_iff pos).mpr h)]
      exact runs_bind (runs_pure _ s) (stored _ s)
  · have outside : ¬(off.ult 32 && off.toNat + len ≤ 32) = true := fun u => h ((inRegister_iff pos).mp u)
    refine ⟨fun _ refuse => refuses_after read ?_, fun free => ⟨(Config.freeBits s.draws).setWidth 32, s.draws + 1,
      fun i => absurd i h, runs_bind read ?_⟩⟩
    · rw [if_neg outside]
      exact refuses_bind (refuses_bind (refuses_refusable _ refuse))
    · rw [if_neg outside]
      exact runs_bind (runs_bind (runs_refusable _ (free.resolve_left h)) (runs_drawBits s 32)) (stored _ _)

theorem inserts_memory {g : Gen} (h : ∀ r, g ≠ .base (.reg r)) (off : DWord) (len : Nat)
    {w : Nat} (v : BitVec w) (s : State) :
    let a : Addr := (s.ea g + BitVec.ofInt 32 (off.toInt.fdiv 8)).setWidth 24
    let b := (off.toInt % 8).toNat
    let inside := b + len ≤ 32
    Inserts g off len (v.setWidth 32) s inside (fun d k => (∀ m < b, d.getLsbD m = (s.peek32 a).getLsbD m) ∧
        (inside → k = s.draws ∧ ∀ m < 32,
          d.getLsbD m = if b ≤ m ∧ m < b + len then v.getLsbD (m - b) else (s.peek32 a).getLsbD m))
      (fun d => s.poke a 4 d) := by
  intro a b inside
  have read := runs_effAddr g s
  have value := runs_readMem .readRmw a 4 {} s
  have small : b ≤ 32 := by omega
  have below (d w : DWord) (n : Nat) : ∀ m < b, (fieldPut d b n w).getLsbD m = d.getLsbD m := fun m hm => by
    rw [getLsbD_fieldPut _ _ (by omega), if_neg (by omega)]
  unfold Inserts
  rw [insertField_of_memory h]
  by_cases fits : (off.toInt % 8).toNat + len ≤ 32
  · refine ⟨fun outside => absurd fits outside, fun _ => ⟨fieldPut (s.peek32 a) b len (v.setWidth 32), s.draws,
      ⟨below _ _ _, fun _ => ⟨rfl, fun m hm => ?_⟩⟩, runs_bind read ?_⟩⟩
    · rw [getLsbD_fieldPut _ _ hm, insertedBits v (show m - b < 32 by omega)]
    · simp only [bitAddr_eq, if_pos fits]
      exact runs_bind value (runs_bind (runs_pure _ s) (runs_writeMem _ _ _ _ s))
  · refine ⟨fun _ refuse => refuses_after read ?_, fun free => ⟨fieldPut (s.peek32 a) b (32 - b)
      ((Config.freeBits s.draws).setWidth 32), s.draws + 1, ⟨below _ _ _, fun i => absurd i fits⟩, runs_bind read ?_⟩⟩
    · simp only [bitAddr_eq, if_neg fits]
      exact refuses_after value (refuses_bind (refuses_bind (refuses_refusable _ refuse)))
    · simp only [bitAddr_eq, if_neg fits]
      exact runs_bind value (runs_bind (runs_bind (runs_refusable _ (free.resolve_left fits))
        (runs_map _ (runs_drawBits s 32))) (runs_writeMem a 4 _ _ { s with draws := s.draws + 1 }))

/-- INS and INSS once the source and the offset are known. -/
def insertFrom {w : Nat} (base : Gen) (len : Nat) (v : BitVec w) (off : DWord) : M Unit :=
  insertField base off len (v.setWidth 32)

theorem exec_insi_eq (i : Size) (r : RegNo) (src base : Gen) (len : Disp) (s : State) :
    exec (.insi i r src base len) s = performSeq (.insi i r src base len) (do
      let v ← readGen src i.bytes
      let off ← look fun s => s.reg r
      insertFrom base len.val.toNat v off) s := rfl

theorem exec_inssi_eq (i : Size) (src base : Gen) (o : BitVec 3) (l : BitVec 5) (s : State) :
    exec (.inssi i src base o l) s = performSeq (.inssi i src base o l) (do
      let v ← readGen src i.bytes
      let off ← look fun _ => o.setWidth 32
      insertFrom base (l.toNat + 1) v off) s := rfl

/-- A source read and inserted as a field. -/
theorem completes_insert {j : Instr} {i : Size} {len k : Nat} {src base : Gen} {f : State → DWord} {s : State}
    {inside : Prop} {ok : DWord → Nat → Prop} {put : DWord → State} {stored : Option Addr}
    (e : exec j s = performSeq j (do let v ← readGen src i.bytes; let off ← look f; insertFrom base len v off) s)
    (hj : j.WF) (hs : Answers s) (free : ∀ s b, f (s.withBus b) = f s)
    (h : let s1 := s.begin.afterRead src i.bytes
      Inserts base (f s1) len ((s.begin.operand src i.bytes).setWidth 32) s1 inside ok put)
    (frame : ∀ d, MemFrame s (put d) stored k) (pc : ∀ d, (put d).pc = s.pc) :
    (¬inside → s.operandPolicy = .refuse → exec j s = .refused .outsideField) ∧
    (inside ∨ s.operandPolicy = .free → ∃ (d : DWord) (k' : Nat), ok d k' ∧
      Completes j s { put d with pc := s.next j, draws := k' } stored k) := by
  obtain ⟨refused, ran⟩ := h
  rw [State.afterRead_operandPolicy] at refused ran
  have read := runs_readGen src i.bytes (p := {}) s.begin
  have looked := runs_look f (s.begin.afterRead src i.bytes) fun b => free _ b
  constructor
  · intro outside refuse
    exact e.trans (performSeq_of_refuses hj hs (refuses_after read (refuses_after looked (refused outside refuse))))
  · intro some
    obtain ⟨d, k', good, run⟩ := ran some
    exact ⟨d, k', good, completes_seq e hj hs (runs_bind read (runs_bind looked run)) (frame_of_mem (frame d) rfl) (pc d)⟩

section
variable {j : Instr} {i : Size} {len : Nat} {src : Gen} {f : State → DWord} {s : State}

theorem completes_insert_register {q : RegNo} (pos : 1 ≤ len) (hj : j.WF) (hs : Answers s)
    (e : exec j s = performSeq j (do
      let v ← readGen src i.bytes
      let off ← look f
      insertFrom (.base (.reg q)) len v off) s) (free : ∀ s b, f (s.withBus b) = f s) :
    let v := s.begin.operand src i.bytes
    let s1 := s.begin.afterRead src i.bytes
    let o := (f s1).toInt
    let inside := 0 ≤ o ∧ o + len ≤ 32
    (¬inside → s.operandPolicy = .refuse → exec j s = .refused .outsideField) ∧
    (inside ∨ s.operandPolicy = .free → ∃ (d : DWord) (k : Nat), (inside → k = s.draws ∧ ∀ m : Nat, m < 32 →
      d.getLsbD m = if o ≤ m ∧ m < o + len then v.getLsbD (m - o.toNat) else (s.reg q).getLsbD m) ∧
      Completes j s { (s1.setReg q d) with pc := s.next j, draws := k } none 4) := by
  intro v s1 o inside
  have inserts := inserts_register q (f s1) pos v s1
  rw [State.afterRead_reg, State.begin_reg, State.afterRead_draws] at inserts
  exact completes_insert e hj hs free inserts (fun d => frame_none (by simp [s1]) 4) (fun d => by simp [s1])

theorem completes_insert_memory {base : Gen} (h : ∀ r, base ≠ .base (.reg r)) (hj : j.WF) (hs : Answers s)
    (e : exec j s = performSeq j (do
      let v ← readGen src i.bytes
      let off ← look f
      insertFrom base len v off) s) (free : ∀ s b, f (s.withBus b) = f s) :
    let v := s.begin.operand src i.bytes
    let s1 := s.begin.afterRead src i.bytes
    let o := (f s1).toInt
    let a : Addr := (s1.ea base + BitVec.ofInt 32 (o.fdiv 8)).setWidth 24
    let b := (o % 8).toNat
    let inside := b + len ≤ 32
    (¬inside → s.operandPolicy = .refuse → exec j s = .refused .outsideField) ∧
    (inside ∨ s.operandPolicy = .free → ∃ (d : DWord) (k : Nat), (∀ m < b, d.getLsbD m = (s1.peek32 a).getLsbD m) ∧
      (inside → k = s.draws ∧ ∀ m < 32,
        d.getLsbD m = if b ≤ m ∧ m < b + len then v.getLsbD (m - b) else (s1.peek32 a).getLsbD m) ∧
      Completes j s { (s1.poke a 4 d) with pc := s.next j, draws := k } (some a) 4) := by
  intro v s1 o a b inside
  have inserts := inserts_memory h (f s1) len v s1
  rw [State.afterRead_draws] at inserts
  obtain ⟨refused, ran⟩ := completes_insert e hj hs free inserts
    (fun d => frame_poke (t := s1) (by simp [s1]) a 4 d) (fun d => by simp [s1])
  refine ⟨refused, fun free => ?_⟩
  obtain ⟨d, k, ⟨below, value⟩, completes⟩ := ran free
  exact ⟨d, k, below, value, completes⟩

end

end Sys2Proof.Machine
end

section
/-! The two obligations on bit fields, whose names are those of the model's operations. -/
namespace Sys2Proof

open Sys2Proof.Machine Sys2Proof.Safety

/-- Settles O16. -/
theorem extractField : Obligations.ExtractField := by
  intro i r base dst len o3 l5 s hs n p field done
  refine ⟨fun hi => ?ext, fun hi => ?exts⟩
  case ext =>
    obtain ⟨pos, short⟩ := fieldLength_of_check hi
    have extract {x : Option Nat} (h : Extracts base (s.reg r) len.val.toNat s.begin x) :=
      completes_extract (exec_exti_eq i r base dst len s) hi hs (fun _ => rfl) h
    rcases base with m | ⟨m, x, sc⟩
    · cases m with
      | reg q => exact extract (extracts_register q (s.reg r) pos s.begin)
      | _ => exact extract (extracts_memory (by simp) (s.reg r) _ s.begin)
    · exact extract (extracts_memory (by simp) (s.reg r) _ s.begin)
  case exts =>
    have extract {x : Option Nat} (h : Extracts base (o3.setWidth 32) (l5.toNat + 1) s.begin x) :=
      completes_extract (exec_extsi_eq i base dst o3 l5 s) hi hs (fun _ => rfl) h
    have offset := shortOffset_toInt o3
    rcases base with m | ⟨m, x, sc⟩
    · cases m with
      | reg q => exact extract (offset ▸ extracts_register q (o3.setWidth 32) (Nat.le_add_left _ _) s.begin)
      | _ => exact extract (offset ▸ extracts_memory (by simp) (o3.setWidth 32) _ s.begin)
    · exact extract (offset ▸ extracts_memory (by simp) (o3.setWidth 32) _ s.begin)

/-- Settles O17. -/
theorem insertField : Obligations.InsertField := by
  intro i r src base len o3 l5 s hs n v s1 runs done
  refine ⟨fun hi => ?ins, fun hi => ?inss⟩
  case ins =>
    have free : ∀ s b, (State.withBus s b).reg r = s.reg r := fun _ _ => rfl
    have inMemory (h : ∀ q, base ≠ .base (.reg q)) := completes_insert_memory h hi hs (exec_insi_eq i r src base len s) free
    rcases base with m | ⟨m, x, sc⟩
    · cases m with
      | reg q => exact completes_insert_register (fieldLength_of_check hi).1 hi hs (exec_insi_eq i r src _ len s) free
      | _ => exact inMemory (by simp)
    · exact inMemory (by simp)
  case inss =>
    have free : ∀ (s : State) (b : List PinEvent), (o3.setWidth 32 : DWord) = o3.setWidth 32 := fun _ _ => rfl
    have offset := shortOffset_toInt o3
    have inMemory (h : ∀ q, base ≠ .base (.reg q)) := completes_insert_memory h hi hs (exec_inssi_eq i src base o3 l5 s) free
    rw [offset] at inMemory
    rcases base with m | ⟨m, x, sc⟩
    · cases m with
      | reg q =>
        have inRegister := completes_insert_register (Nat.le_add_left _ _) hi hs (exec_inssi_eq i src _ o3 l5 s) free
        rw [offset] at inRegister
        exact inRegister
      | _ => exact inMemory (by simp)
    · exact inMemory (by simp)

end Sys2Proof
end

section
/-! The sequence of an exception (60_exceptions.md R512, R520): the frame on the interrupt stack and the handler entered. -/
namespace Sys2Proof.Machine

open Sys2Proof.Safety

/-! ### The interrupt stack -/

theorem State.sp_interrupt {s : State} (h : s.flag .s = false) : s.sp = s.sp0 := by
  rw [State.sp, h]
  rfl

/-- A push on the interrupt stack. -/
theorem State.pushed_interrupt {w : Nat} {s : State} (h : s.flag .s = false) (n : Nat) (v : BitVec w) :
    s.pushed n v = { s.poke (s.sp0 - BitVec.ofNat 24 n) n v with sp0 := s.sp0 - BitVec.ofNat 24 n } := by
  rw [State.pushed, State.setSp_interrupt h, State.sp_interrupt h]
  rfl

/-- What the Service sequence reads and where it goes, from the state in which the PSR copy is on the stack. -/
def State.vectored (s : State) (vector : Nat) : State :=
  let desc := s.peek32 (s.intbase + BitVec.ofNat 24 (4 * vector))
  let base : Addr := (desc.setWidth 16 : Half).setWidth 24
  let pc : Addr := (s.peek32 (base + 8) + (desc.extractLsb' 16 16).setWidth 32).setWidth 24
  let n := if pc.getLsbD 0 then 1 else 2
  { s with modReg := desc.setWidth 16, sb := (s.peek32 base).setWidth 24, pc := pc, queue := loadBytes s.mem pc n,
           fetchPc := pc + BitVec.ofNat 24 n, broken := false }

theorem State.serviced_eq (s : State) (vector : Nat) (ra : Addr) :
    s.serviced vector ra = ((s.vectored vector).pushed 2 s.modReg).pushed 4 ra := by
  have zero (m : Half) : m.setWidth 24 + BitVec.ofNat 24 0 = m.setWidth 24 := BitVec.add_zero _
  unfold State.serviced State.vectored State.based State.flushed State.entry State.modAddr
  simp only [zero]
  rfl

/-- Three values on the interrupt stack. -/
def State.framed (s : State) (copy mod : Half) (ra : Addr) : State :=
  ((s.poke (s.sp0 - 2) 2 copy).poke (s.sp0 - 4) 2 mod).poke (s.sp0 - 8) 4 ra

/-- The state after an exception: the frame pushed, the handler entered. -/
theorem State.pushed_serviced {s : State} (h : s.flag .s = false) (copy : Half) (vector : Nat) (ra : Addr) :
    (s.pushed 2 copy).serviced vector ra = { (s.poke (s.sp0 - 2) 2 copy).vectored vector with
      mem := (s.framed copy s.modReg ra).mem, sp0 := s.sp0 - 8 } := by
  have two : s.sp0 - BitVec.ofNat 24 2 - BitVec.ofNat 24 2 = s.sp0 - 4 := by rw [BitVec.sub_sub]; rfl
  have four : s.sp0 - BitVec.ofNat 24 2 - BitVec.ofNat 24 2 - BitVec.ofNat 24 4 = s.sp0 - 8 := by
    rw [BitVec.sub_sub, BitVec.sub_sub]; rfl
  let s1 : State := { s.poke (s.sp0 - BitVec.ofNat 24 2) 2 copy with sp0 := s.sp0 - BitVec.ofNat 24 2 }
  let s2 := s1.vectored vector
  let s3 : State := { s2.poke (s2.sp0 - BitVec.ofNat 24 2) 2 s.modReg with sp0 := s2.sp0 - BitVec.ofNat 24 2 }
  have first : s.pushed 2 copy = s1 := State.pushed_interrupt h 2 copy
  have second : s2.pushed 2 s.modReg = s3 := State.pushed_interrupt (s := s2) h 2 s.modReg
  have third := State.pushed_interrupt (s := s3) h 4 ra
  rw [State.serviced_eq, first, show s1.modReg = s.modReg from rfl, second, third]
  unfold State.framed
  rw [← two, ← four]
  rfl

/-! ### The frame -/

/-- Two states have the same memory and the same registers but for the PSR, PC and the instruction queue. -/
structure Handed (s t : State) : Prop where
  mem : t.mem = s.mem
  memMap : t.memMap = s.memMap
  sp0 : t.sp0 = s.sp0
  sp1 : t.sp1 = s.sp1
  modReg : t.modReg = s.modReg
  intbase : t.intbase = s.intbase
  regs : t.regs = s.regs
  fp : t.fp = s.fp
  cfg : t.cfg = s.cfg
  fregs : t.fregs = s.fregs
  fsingles : t.fsingles = s.fsingles
  fsr : t.fsr = s.fsr

/-- What is stored depends on memory and its map only. -/
theorem poke_mem_congr {w : Nat} {s t : State} (mem : t.mem = s.mem) (memMap : t.memMap = s.memMap) (a : Addr) (n : Nat)
    (v : BitVec w) : (t.poke a n v).mem = (s.poke a n v).mem := by
  have ok : t.storable = s.storable := by
    funext b
    unfold State.storable State.kindAt
    rw [memMap]
  rw [State.poke_mem, State.poke_mem, ok, mem]

section
variable {s : State} (copy mod : Half) (ra : Addr)

/-- The three values of a frame occupy eight bytes. -/
theorem State.framed_byteAt (x : Addr) (h : Outside x (s.sp0 - 8) 8) : (s.framed copy mod ra).byteAt x = s.byteAt x := by
  obtain ⟨low, high⟩ := outside_add.mp (show Outside x (s.sp0 - 8) (4 + (2 + 2)) from h)
  obtain ⟨middle, top⟩ := outside_add.mp high
  have second : s.sp0 - 8 + BitVec.ofNat 24 4 = s.sp0 - 4 := by bv_omega
  have third : s.sp0 - 4 + BitVec.ofNat 24 2 = s.sp0 - 2 := by bv_omega
  rw [second] at middle top
  rw [third] at top
  exact (State.poke_byteAt_outside _ _ _ _ _ low).trans ((State.poke_byteAt_outside _ _ _ _ _ middle).trans
    (State.poke_byteAt_outside _ _ _ _ _ top))

/-- The three values of a frame are read back. -/
theorem State.framed_peek (ram : s.memMap = []) (wf : Memory.wf s.mem = true) :
    (s.framed copy mod ra).peek32 (s.sp0 - 8) = ra.setWidth 32 ∧
    (s.framed copy mod ra).peek16 (s.sp0 - 4) = mod ∧ (s.framed copy mod ra).peek16 (s.sp0 - 2) = copy := by
  let s1 := s.poke (s.sp0 - 2) 2 copy
  let s2 := s1.poke (s.sp0 - 4) 2 mod
  have wf1 : Memory.wf s1.mem = true := s.poke_wf _ _ _ wf
  have wf2 : Memory.wf s2.mem = true := s1.poke_wf _ _ _ wf1
  have apart (i k : Nat) (hi : i < 4) (hk : k < 2) : s.sp0 - 4 + BitVec.ofNat 24 k ≠ s.sp0 - 8 + BitVec.ofNat 24 i ∧
      s.sp0 - 2 + BitVec.ofNat 24 k ≠ s.sp0 - 8 + BitVec.ofNat 24 i := by
    interval_cases i <;> interval_cases k <;> constructor <;> bv_omega
  have apart' (i k : Nat) (hi : i < 2) (hk : k < 2) : s.sp0 - 2 + BitVec.ofNat 24 k ≠ s.sp0 - 4 + BitVec.ofNat 24 i := by
    interval_cases i <;> interval_cases k <;> bv_omega
  refine ⟨?_, ?_, ?_⟩
  · exact s2.peek_poke _ 4 ra wf2 (storable_of_ram ram) (by decide)
  · refine (State.peek_poke_outside s2 _ _ 4 2 ra fun i k hi hk => (apart i k hi hk).1).trans ?_
    exact (s1.peek_poke _ 2 mod wf1 (storable_of_ram ram) (by decide)).trans (BitVec.setWidth_eq _)
  · refine (State.peek_poke_outside s2 _ _ 4 2 ra fun i k hi hk => (apart i k hi hk).2).trans ?_
    refine (State.peek_poke_outside s1 _ _ 2 2 mod fun i k hi hk => apart' i k hi hk).trans ?_
    exact (s.peek_poke _ 2 copy wf (storable_of_ram ram) (by decide)).trans (BitVec.setWidth_eq _)

end

theorem State.framed_mem_congr {s t : State} (h : Handed s t) (copy mod : Half) (ra : Addr) :
    (t.framed copy mod ra).mem = (s.framed copy mod ra).mem := by
  unfold State.framed
  rw [h.sp0]
  exact poke_mem_congr (poke_mem_congr (poke_mem_congr h.mem h.memMap _ _ _) h.memMap _ _ _) h.memMap _ _ _

/-- The sequence of an exception, in RAM, from a state that uses the interrupt stack. -/
theorem frame_serviced {s t : State} (h : Handed s t) (int : t.flag .s = false) (ram : s.memMap = [])
    (wf : Memory.wf s.mem = true) (copy : Half) (vector : Nat) (ra : Addr) :
    Frame s ((t.pushed 2 copy).serviced vector ra) vector copy ra := by
  have saved : (t.poke (t.sp0 - 2) 2 copy).mem = (s.poke (s.sp0 - 2) 2 copy).mem := by
    rw [h.sp0]
    exact poke_mem_congr h.mem h.memMap _ _ _
  have peek (a : Addr) (n : Nat) : (t.poke (t.sp0 - 2) 2 copy).peek a n = (s.poke (s.sp0 - 2) 2 copy).peek a n :=
    peek_congr saved a n
  have framed : (t.framed copy t.modReg ra).mem = (s.framed copy s.modReg ra).mem := by
    rw [h.modReg]
    exact State.framed_mem_congr h _ _ _
  obtain ⟨return_, mod, psr⟩ := s.framed_peek copy s.modReg ra ram wf
  let m := s.poke (s.sp0 - 2) 2 copy
  let desc := m.peek32 (s.intbase + BitVec.ofNat 24 (4 * vector))
  let base : Addr := (desc.setWidth 16 : Half).setWidth 24
  let pc : Addr := (m.peek32 (base + 8) + (desc.extractLsb' 16 16).setWidth 32).setWidth 24
  let n := if pc.getLsbD 0 then 1 else 2
  have entered : (t.poke (t.sp0 - 2) 2 copy).vectored vector = { t.poke (t.sp0 - 2) 2 copy with
      modReg := desc.setWidth 16, sb := (m.peek32 base).setWidth 24, pc := pc, queue := loadBytes m.mem pc n,
      fetchPc := pc + BitVec.ofNat 24 n, broken := false } := by
    unfold State.vectored
    have intbase : (t.poke (t.sp0 - 2) 2 copy).intbase = s.intbase := h.intbase
    simp only [State.peek32, peek, saved, intbase]
    rfl
  rw [State.pushed_serviced int, entered]
  have first : s.sp0 - 8 + 4 = s.sp0 - 4 := by bv_omega
  have second : s.sp0 - 8 + 6 = s.sp0 - 2 := by bv_omega
  have sp0 : t.sp0 - 8 = s.sp0 - 8 := by rw [h.sp0]
  refine ⟨sp0, ?_, ?_, ?_, fun x outside => ?_, rfl, rfl, rfl, rfl, rfl, rfl, h.regs, h.sp1, h.fp, h.intbase, h.cfg,
    h.fregs, h.fsingles, h.fsr⟩
  · exact (peek_congr framed _ 4).trans return_
  · rw [first]
    exact (peek_congr framed _ 2).trans mod
  · rw [second]
    exact (peek_congr framed _ 2).trans psr
  · refine Eq.trans ?_ (State.framed_byteAt copy s.modReg ra x outside)
    unfold State.byteAt
    exact congrArg (memGet · x.toNat) framed

/-! ### Traps -/

/-- The PSR of a handler (R520). -/
theorem psrClear_trap_eq (v : Half) : psrClear v [.s, .u, .p, .t] = v &&& ~~~0x0702 := by
  refine BitVec.eq_of_getLsbD_eq fun k hk => ?_
  simp only [psrClear, List.foldl_cons, List.foldl_nil, psrPut_getLsbD, PsrBit.pos, BitVec.getLsbD_and]
  interval_cases k <;> simp

theorem Handed.withPsr {s t : State} (h : Handed s t) (v : Half) : Handed s { t with psr := v } := by
  cases h
  constructor <;> assumption

theorem trapped_of_handed {s t : State} (k : Trap) (h : Handed s (({ t with psr := s.psr } : State).setSp s.sp))
    (ram : s.memMap = []) (wf : Memory.wf s.mem = true) : Trapped s (t.trapped k s) k.vector := by
  have int : ({ (({ t with psr := s.psr } : State).setSp s.sp) with psr := psrClear s.psr [.s, .u, .p, .t] } : State).flag .s =
      false := (psrClear_trap s.psr).2 .s (by decide)
  refine ⟨frame_serviced (h.withPsr _) int ram wf s.psr k.vector s.pc, ?_⟩
  rw [State.trapped, State.pushed_serviced int]
  exact psrClear_trap_eq s.psr

/-- An operand read from the stack before a trap leaves no trace. -/
theorem handed_setSp (s : State) (a : Addr) : Handed s (({ s.begin.setSp a with psr := s.psr } : State).setSp s.sp) := by
  have flag : s.begin.flag .s = s.flag .s := by simp
  cases h : s.flag .s with
  | false =>
    rw [State.setSp_interrupt (flag.trans h), State.setSp_interrupt (by exact h), State.sp_interrupt h]
    constructor <;> rfl
  | true =>
    rw [State.setSp_user (flag.trans h), State.setSp_user (by exact h), State.sp, if_pos h]
    constructor <;> rfl

theorem handed_begin (s : State) : Handed s (({ s.begin with psr := s.psr } : State).setSp s.sp) := by
  have same := handed_setSp s s.begin.sp
  rwa [State.setSp_self] at same

theorem State.afterRead_eq (s : State) (g : Gen) (n : Nat) : ∃ a, s.afterRead g n = s.setSp a := by
  rcases g with m | ⟨m, x, sc⟩
  · cases m with
    | tos => exact ⟨_, rfl⟩
    | _ => exact ⟨s.sp, s.setSp_self.symm⟩
  · exact ⟨s.sp, s.setSp_self.symm⟩

theorem handed_afterRead (s : State) (g : Gen) (n : Nat) :
    Handed s (({ s.begin.afterRead g n with psr := s.psr } : State).setSp s.sp) := by
  obtain ⟨a, e⟩ := s.begin.afterRead_eq g n
  rw [e]
  exact handed_setSp s a

theorem trapped_of_agree {s t u : State} {vector : Nat} (h : Agree u t) (trapped : Trapped s t vector) :
    Trapped s u vector := by
  unfold Agree at h
  rw [← h] at trapped
  exact trapped

/-- An instruction that raises a trap takes it. -/
theorem takes_of_traps {j : Instr} {x : M Unit} {s t : State} {k : Trap} (e : exec j s = perform j x s) (hj : j.WF)
    (ram : Ram s) (wf : Memory.wf s.mem = true) (h : Traps x s.begin k t)
    (handed : Handed s (({ t with psr := s.psr } : State).setSp s.sp)) :
    ∃ u, exec j s = .next u ∧ Trapped s u k.vector := by
  obtain ⟨u, run, agree⟩ := perform_of_traps hj (answers_of_ram ram) h
  exact ⟨u, e.trans run, trapped_of_agree agree (trapped_of_handed k handed ram.1 wf)⟩

theorem takes_of_traps_seq {j : Instr} {x : M Unit} {s t : State} {k : Trap} (e : exec j s = performSeq j x s) (hj : j.WF)
    (ram : Ram s) (wf : Memory.wf s.mem = true) (h : Traps x s.begin k t)
    (handed : Handed s (({ t with psr := s.psr } : State).setSp s.sp)) :
    ∃ u, exec j s = .next u ∧ Trapped s u k.vector :=
  takes_of_traps e hj ram wf (traps_bind h) handed

/-! ### The trap instructions -/

/-- An instruction that is nothing but a trap. -/
theorem takes_of_abort {j : Instr} {s : State} {k : Trap} (e : exec j s = perform j (abort (.trap k)) s) (hj : j.WF)
    (ram : Ram s) (wf : Memory.wf s.mem = true) : ∃ u, exec j s = .next u ∧ Trapped s u k.vector :=
  takes_of_traps e hj ram wf (traps_abort k s.begin) (handed_begin s)

/-- Settles O44. -/
theorem trapInstructions : Obligations.TrapInstructions := by
  intro g o i s ram wf takes
  refine ⟨takes_of_abort (k := .svc) rfl rfl ram wf, takes_of_abort (k := .bpt) rfl rfl ram wf,
    takes_of_abort (k := .und) rfl rfl ram wf, takes_of_abort (k := .und) rfl rfl ram wf, fun set => ?flag⟩
  refine takes_of_traps_seq (k := .flg) (exec_flag_eq s) rfl ram wf
    (runs_traps_bind (runs_look (fun s => s.flag .f) s.begin fun _ => rfl) ?_) (handed_begin s)
  rw [State.begin_flag, if_neg (show PsrBit.f ≠ .p by decide), set]
  exact traps_abort _ _

/-! ### Privileged instructions in User Mode -/

theorem traps_psrBits {i : Size} (h : i ≠ .b) (g : Gen) (f : Half → Half → Half) {s : State} (hu : s.flag .u = true) :
    Traps (psrBits i g f) s .ill s := by
  rw [psrBits, if_neg h]
  exact traps_bind (traps_privileged hu)

/-- Settles O45. -/
theorem privilegedInUserMode : Obligations.PrivilegedInUserMode := by
  intro i g d c s ram wf user takes
  have hu : s.begin.flag .u = true := by rw [State.begin_flag, if_neg (by decide), user]
  have ill {β : Type} {f : Unit → M β} : Traps (privileged >>= f) s.begin .ill s.begin := traps_bind (traps_privileged hu)
  refine ⟨fun hj => ?lpr, fun hj => ?lpr', fun hj => ?spr, fun hj => ?spr', fun size => ⟨fun hj => ?bis, fun hj => ?bic⟩,
    fun hj => ?cfg, fun hj => ?rett, fun hj => ?reti⟩
  case lpr => exact takes_of_traps_seq (k := .ill) (exec_lpri_eq i .psr g s) hj ram wf ill (handed_begin s)
  case lpr' => exact takes_of_traps_seq (k := .ill) (exec_lpri_eq i .intbase g s) hj ram wf ill (handed_begin s)
  case spr => exact takes_of_traps_seq (k := .ill) (exec_spri_eq i .psr g s) hj ram wf ill (handed_begin s)
  case spr' => exact takes_of_traps_seq (k := .ill) (exec_spri_eq i .intbase g s) hj ram wf ill (handed_begin s)
  case bis => exact takes_of_traps_seq (k := .ill) rfl hj ram wf (traps_psrBits size g (fun p v => p ||| v) hu) (handed_begin s)
  case bic => exact takes_of_traps_seq (k := .ill) rfl hj ram wf (traps_psrBits size g (fun p v => p &&& ~~~v) hu) (handed_begin s)
  case cfg => exact takes_of_traps_seq (k := .ill) (exec_setcfg_eq c s) hj ram wf ill (handed_begin s)
  case rett => exact takes_of_traps (k := .ill) (exec_rett_eq d s) hj ram wf ill (handed_begin s)
  case reti => exact takes_of_traps (k := .ill) (exec_reti_eq s) hj ram wf ill (handed_begin s)

/-! ### A zero divisor -/

theorem traps_divide {w : Nat} (op : Int → Int → Int) {a : BitVec w} (h : a = 0) (b : BitVec w) (s : State) :
    Traps (divide op a b) s .dvz s := by
  rw [divide, if_pos h]
  exact traps_abort _ _

theorem traps_extendedDivide {w : Nat} {a : BitVec w} (h : a = 0) (x : Nat) (s : State) :
    Traps (extendedDivide a x) s .dvz s := by
  rw [extendedDivide, if_pos h]
  exact traps_abort _ _

theorem traps_divideAt {n : Nat} {a : BitVec (8 * n)} (h : a = 0) {p : Place} (place : p ≠ .push) (s : State) :
    Traps (divideAt a p) s .dvz s := by
  cases p with
  | push => exact absurd rfl place
  | reg r =>
    exact runs_traps_bind (runs_look (fun s => (s.reg r).setWidth (8 * n)) s fun _ => rfl)
      (runs_traps_bind (runs_look (fun s => (s.reg (r + 1)).setWidth (8 * n)) s fun _ => rfl)
        (traps_bind (traps_extendedDivide h _ s)))
  | mem e => exact runs_traps_bind (runs_readMem _ _ _ _ s) (traps_bind (traps_extendedDivide h _ s))

theorem rmwPlace_ne_push (s : State) (g : Gen) : s.rmwPlace g ≠ .push := by
  rcases rmwPlace_cases s g with ⟨r, e⟩ | ⟨a, e⟩ <;> rw [e] <;> exact Place.noConfusion

/-- QUO, REM, DIV and MOD by zero. -/
theorem takes_divideByZero {j : Instr} {n : Nat} {src dst : Gen} {s : State} {op : Int → Int → Int}
    (e : exec j s = performSeq j (binaryOp n n src dst (divide op)) s) (hj : j.WF) (ram : Ram s)
    (wf : Memory.wf s.mem = true) (zero : s.begin.operand src n = 0) : ∃ u, exec j s = .next u ∧ Trapped s u 6 :=
  takes_of_traps_seq (k := .dvz) e hj ram wf (traps_binaryOp (traps_divide op zero _ _)) (handed_afterRead s src n)

/-- Settles O4. -/
theorem divideByZero : Obligations.DivideByZero := by
  intro i src dst s ram wf zero j member
  simp only [List.mem_cons, List.not_mem_nil, or_false] at member
  rcases member with rfl | rfl | rfl | rfl | rfl <;> intro hj
  · exact takes_divideByZero rfl hj ram wf zero
  · exact takes_divideByZero rfl hj ram wf zero
  · exact takes_divideByZero rfl hj ram wf zero
  · exact takes_divideByZero rfl hj ram wf zero
  · exact takes_of_traps_seq (k := .dvz) (exec_deii_eq i src dst s) hj ram wf (runs_traps_bind (runs_readGen src _ _)
      (runs_traps_bind (runs_placeRmw dst _) (traps_divideAt zero (rmwPlace_ne_push _ _) _))) (handed_afterRead s src i.bytes)

end Sys2Proof.Machine
end

section
/-! A return right after a trap (45_jumps_linkage.md R343, 60_exceptions.md R535), and the exceptions taken between
instructions (R514 to R528). -/
namespace Sys2Proof.Machine

open Sys2Proof.Safety

/-! ### RETT after SVC -/

theorem psr_used {v : Half} (h : v &&& 0xE000 = 0) : v &&& 0x1FFF = v := by
  refine BitVec.eq_of_getLsbD_eq fun k hk => ?_
  have zero := congrArg (fun x => BitVec.getLsbD x k) h
  rw [BitVec.getLsbD_and] at *
  interval_cases k <;> simp_all

/-- A trap leaves a machine whose memory answers. -/
theorem answers_of_svc {s t : State} (ram : Ram s) (e : exec .svc s = .next t) : Answers t := by
  obtain ⟨u, run, agree⟩ := perform_of_traps (i := .svc) rfl (answers_of_ram ram) (traps_abort .svc s.begin)
  have same : u = t := by
    have both : Host.Outcome.next u = Host.Outcome.next t := run.symm.trans e
    simpa using both
  have answers := (runs_takeTrap .svc s s.begin (answers_congr rfl (answers_of_ram ram))).1
  exact answers_congr (same ▸ agree_value agree State.env fun _ _ => rfl) answers

/-- Settles O49. -/
theorem returnUndoesTrap : Obligations.ReturnUndoesTrap := by
  intro s t ram wf used e
  obtain ⟨t', run, frame, psr⟩ := takes_of_abort (j := .svc) (k := .svc) rfl rfl ram wf
  obtain rfl : t' = t := by simpa [e] using run.symm
  obtain ⟨sp0, pc, mod, copy, -, -, -, -, -, -, -, regs, sp1, fp, intbase, cfg, -, -, -⟩ := frame
  have bit (q : PsrBit) (hq : q = .s ∨ q = .u) : t'.flag q = false := by
    unfold State.flag
    rw [psr, BitVec.getLsbD_and]
    rcases hq with rfl | rfl <;> simp [PsrBit.pos]
  have sp : t'.sp = s.sp0 - 8 := (State.sp_interrupt (bit .s (.inl rfl))).trans sp0
  obtain ⟨⟨u, back, agree⟩, -⟩ := (Sys2Proof.returnFromException.1 (.d1 0) 0 [] t' (answers_of_svc ram e) (bit .u (.inr rfl))).1
  have still (a : Addr) : a + BitVec.ofInt 24 (Disp.val (.d1 0)) = a := BitVec.add_zero a
  rw [still, State.setSp_self, sp, pc, mod, copy, psr_used used,
    State.setSp_interrupt (by rw [State.begin_flag]; exact bit .s (.inl rfl))] at agree
  have value {α : Type} (f : State → α) (free : ∀ u b, f (u.withBus b) = f u) := agree_value agree f free
  refine ⟨u, back, ?_, value State.modReg fun _ _ => rfl, value State.psr fun _ _ => rfl, ?_,
    (value State.sp1 fun _ _ => rfl).trans sp1, (value State.regs fun _ _ => rfl).trans regs,
    (value State.fp fun _ _ => rfl).trans fp, (value State.intbase fun _ _ => rfl).trans intbase,
    (value State.cfg fun _ _ => rfl).trans cfg, ?_⟩
  · refine (value State.pc fun _ _ => rfl).trans ?_
    exact (BitVec.setWidth_setWidth_of_le s.pc (show 24 ≤ 32 by decide)).trans (BitVec.setWidth_eq _)
  · exact (value State.sp0 fun _ _ => rfl).trans (BitVec.sub_add_cancel _ _)
  · have mem : u.mem = t'.mem := value State.mem fun _ _ => rfl
    rw [State.peek32, peek_congr mem]
    exact value State.sb fun _ _ => rfl

/-! ### Steps -/

/-- A quiet state is the end of a step. -/
theorem close_quiet {s : State} (h : Quiet s) : s.close = s := by
  unfold State.close
  rw [h.1, h.2]

theorem step_of_boundary {s s1 t : State} {x : Input} (sampled : s.sample = (x, s1)) (h : s1.boundary x = .next t)
    (quiet : Quiet t) : step s = .next t := by
  unfold step State.cycle
  rw [sampled]
  simp only [h, close_quiet quiet]

/-- A sequence that no trap can leave, run to its end as a step. -/
theorem settle_of_runs {x : M Unit} {s t : State} (h : Runs x s () t) (hs : Answers s) :
    ∃ u, settle (x s) = .next u ∧ Agree u t ∧ Quiet u := by
  obtain ⟨ht, run⟩ := h hs
  obtain ⟨b, e⟩ := run s.bus
  have e' : x s = .ok () (t.withBus b) := e
  exact ⟨t.withBus b, by rw [e']; rfl, rfl, ht.2⟩

/-! ### Interrupts -/

/-- The vector of an interrupt and what its acknowledgement changes (R515 steps 4 to 7). -/
def acknowledged (nmi : Bool) : M Nat := do
  if nmi then
    let _ ← icuRead .intAckMaster 0xFFFF00
    change fun s => { s with nmiLatch := false }
    return 1
  else intVector

theorem takeInterrupt_eq (nmi : Bool) : takeInterrupt nmi = (do
    let ra ← look State.pc
    let copy ← look State.psr
    change fun s => { s with psr := psrClear copy [.s, .u, .t, .p, .i, .b] }
    let v ← acknowledged nmi
    push 2 copy
    service v ra) := rfl

/-- The PSR of the handler of an interrupt (R515). -/
theorem psrClear_interrupt_eq (v : Half) : psrClear v [.s, .u, .t, .p, .i, .b] = v &&& ~~~0x1F02 := by
  refine BitVec.eq_of_getLsbD_eq fun k hk => ?_
  simp only [psrClear, List.foldl_cons, List.foldl_nil, psrPut_getLsbD, PsrBit.pos, BitVec.getLsbD_and]
  interval_cases k <;> simp

/-- What the acknowledgement of an interrupt can change. -/
def State.acknowledgedWith (s : State) (latch : Bool) (rs : List Byte) (k : Nat) : State :=
  { s with nmiLatch := latch, icuReplies := rs, draws := k }

/-- An interrupt whose vector is `v`, taken in RAM. -/
theorem interrupt_frame {nmi latch : Bool} {s : State} {v k : Nat} {rs : List Byte} (ram : Ram s)
    (wf : Memory.wf s.mem = true)
    (h : let s1 : State := { s with waiting := false, psr := s.psr &&& ~~~0x1F02 }
      Runs (acknowledged nmi) s1 v (s1.acknowledgedWith latch rs k)) :
    ∃ t, settle (takeInterrupt nmi { s with waiting := false }) = .next t ∧ Quiet t ∧ Frame s t v s.psr s.pc ∧
      t.psr = s.psr &&& ~~~0x1F02 ∧ t.nmiLatch = latch ∧ t.waiting = false := by
  let s0 : State := { s with waiting := false }
  let s1 : State := { s with waiting := false, psr := s.psr &&& ~~~0x1F02 }
  let s2 := s1.acknowledgedWith latch rs k
  have cleared : Runs (change fun t : State => { t with psr := psrClear s0.psr [.s, .u, .t, .p, .i, .b] }) s0 () s1 := by
    rw [psrClear_interrupt_eq]
    exact runs_change (fun t : State => { t with psr := s0.psr &&& ~~~0x1F02 }) s0 (fun _ => rfl) rfl
  have run : Runs (takeInterrupt nmi) s0 () ((s2.pushed 2 s.psr).serviced v s.pc) := by
    rw [takeInterrupt_eq]
    exact runs_bind (runs_look State.pc s0 fun _ => rfl) (runs_bind (runs_look State.psr s0 fun _ => rfl)
      (runs_bind cleared (runs_bind h (runs_bind (runs_push 2 _ s2) (runs_service v _ _)))))
  obtain ⟨t, e, agree, quiet⟩ := settle_of_runs run (answers_congr rfl (answers_of_ram ram))
  have int : s2.flag .s = false := by
    show (s.psr &&& ~~~0x1F02).getLsbD 9 = false
    rw [BitVec.getLsbD_and]
    simp
  have handed : Handed s s2 := by constructor <;> rfl
  have frame := frame_serviced handed int ram.1 wf s.psr v s.pc
  rw [State.pushed_serviced int] at agree frame
  have value {α : Type} (f : State → α) (free : ∀ u b, f (u.withBus b) = f u) := agree_value agree f free
  refine ⟨t, e, quiet, ?_, value State.psr fun _ _ => rfl, value State.nmiLatch fun _ _ => rfl,
    value State.waiting fun _ _ => rfl⟩
  unfold Agree at agree
  rw [← agree] at frame
  exact frame

/-- The ICU answers with the byte that is listed, or with a free one. -/
theorem runs_icuRead_any (st : BusStatus) (a : Addr) (s : State) : ∃ r rs k,
    Runs (icuRead st a) s r (s.acknowledgedWith s.nmiLatch rs k) := by
  cases h : s.icuReplies with
  | nil => exact ⟨_, s.icuReplies, _, runs_icuRead_free st a h⟩
  | cons r rs => exact ⟨r, rs, s.draws, runs_icuRead st a h⟩

/-- The vector of an interrupt on INT from the ICU's byte (R515 steps 4 to 7). -/
def vectorOf (b : Byte) : M Nat := do
  if !(← look State.cfgI) then return 0
  else if 0 ≤ b.toInt then return b.toNat
  else if -16 ≤ b.toInt then
    let ca ← readMem .data (← look fun s => cascadeEntry s b) 4
    let v ← icuRead .intAckCascaded (ca.setWidth 24)
    return v.toNat
  else abort (.refused (.icuReserved b))

theorem runs_vectorOf_fixed {s : State} (h : s.cfgI = false) (b : Byte) : Runs (vectorOf b) s 0 s := by
  refine runs_bind (runs_look State.cfgI s fun _ => rfl) ?_
  rw [h]
  exact runs_pure _ _

theorem runs_vectorOf_master {s : State} (h : s.cfgI = true) {b : Byte} (hb : b.toNat ≤ 127) :
    Runs (vectorOf b) s b.toNat s := by
  refine runs_bind (runs_look State.cfgI s fun _ => rfl) ?_
  have nonneg : 0 ≤ b.toInt := by
    rw [BitVec.toInt_eq_toNat_of_lt (by omega)]
    omega
  rw [h, if_neg (by decide), if_pos nonneg]
  exact runs_pure _ _

theorem runs_vectorOf_cascaded {s : State} (h : s.cfgI = true) {b c : Byte} {rs : List Byte} (hb : 240 ≤ b.toNat)
    (replies : s.icuReplies = c :: rs) : Runs (vectorOf b) s c.toNat { s with icuReplies := rs } := by
  refine runs_bind (runs_look State.cfgI s fun _ => rfl) ?_
  have value : b.toInt = b.toNat - 256 := by
    rw [BitVec.toInt_eq_toNat_cond, if_neg (by omega)]
    rfl
  have := b.isLt
  rw [h, if_neg (by decide), if_neg (by omega), if_pos (by omega)]
  exact runs_bind (runs_look (fun s => cascadeEntry s b) s fun _ => rfl) (runs_bind (runs_readMem _ _ _ _ s)
    (runs_bind (runs_icuRead _ _ replies) (runs_pure _ _)))

/-- Settles O46. -/
theorem interrupts : Obligations.Interrupts := by
  constructor
  · intro x s s1 sampled reset latched ram wf
    obtain ⟨r, rs, k, read⟩ := runs_icuRead_any .intAckMaster 0xFFFF00
      { s1 with waiting := false, psr := s1.psr &&& ~~~0x1F02 }
    obtain ⟨t, e, quiet, frame, psr, latch, waiting⟩ := interrupt_frame (nmi := true) (latch := false) ram wf
      (runs_bind read (runs_bind (runs_change (fun s => { s with nmiLatch := false }) _ (fun _ => rfl) rfl) (runs_pure _ _)))
    refine ⟨t, step_of_boundary sampled ?_ quiet, frame, psr, latch, waiting⟩
    rw [State.boundary, if_neg (by simp [reset]), if_pos latched]
    exact e
  · intro x s s1 b c rest sampled reset latched int enabled ram wf takes
    have taken {v k : Nat} {rs : List Byte} (h : let s2 : State := { s1 with waiting := false, psr := s1.psr &&& ~~~0x1F02 }
        Runs (acknowledged false) s2 v (s2.acknowledgedWith s1.nmiLatch rs k)) : takes v := by
      obtain ⟨t, e, quiet, frame, psr, -, waiting⟩ := interrupt_frame ram wf h
      refine ⟨t, step_of_boundary sampled ?_ quiet, frame, psr, waiting⟩
      rw [State.boundary, if_neg (by simp [reset]), if_neg (by simp [latched]), if_pos (by simp [int, enabled])]
      exact e
    let s2 : State := { s1 with waiting := false, psr := s1.psr &&& ~~~0x1F02 }
    refine ⟨fun fixed => ?_, fun vectored replies small => ?_, fun vectored replies cascaded => ?_⟩
    · obtain ⟨r, rs, k, read⟩ := runs_icuRead_any .intAckMaster 0xFFFE00 s2
      exact taken (runs_bind read (runs_vectorOf_fixed (s := s2.acknowledgedWith s1.nmiLatch rs k) fixed r))
    · exact taken (k := s1.draws) (runs_bind (runs_icuRead _ _ replies)
        (runs_vectorOf_master (s := { s2 with icuReplies := rest }) vectored small))
    · exact taken (k := s1.draws) (runs_bind (runs_icuRead _ _ replies)
        (runs_vectorOf_cascaded (s := { s2 with icuReplies := c :: rest }) vectored cascaded rfl))

/-! ### The trace trap -/

theorem psrClear_trace_eq (v : Half) : psrClear (psrPut v .p false) [.s, .u, .t] = v &&& ~~~0x0702 ∧
    psrPut v .p false = v &&& ~~~0x0400 := by
  constructor
  · refine BitVec.eq_of_getLsbD_eq fun k hk => ?_
    simp only [psrClear, List.foldl_cons, List.foldl_nil, psrPut_getLsbD, PsrBit.pos, BitVec.getLsbD_and]
    interval_cases k <;> simp
  · refine BitVec.eq_of_getLsbD_eq fun k hk => ?_
    simp only [psrPut_getLsbD, PsrBit.pos, BitVec.getLsbD_and]
    interval_cases k <;> simp

/-- The trace trap, taken in RAM. -/
theorem trace_frame {s : State} (ram : Ram s) (wf : Memory.wf s.mem = true) :
    ∃ t, settle (takeTrace s) = .next t ∧ Quiet t ∧ Frame s t 9 (s.psr &&& ~~~0x0400) s.pc ∧
      t.psr = s.psr &&& ~~~0x0702 := by
  let copy := psrPut s.psr .p false
  let s1 : State := { s with psr := psrClear copy [.s, .u, .t] }
  have run : Runs takeTrace s () ((s1.pushed 2 copy).serviced 9 (s1.pushed 2 copy).pc) :=
    runs_bind (runs_change (fun s => s.putFlag .p false) s (fun _ => rfl) rfl)
      (runs_bind (runs_look State.psr _ fun _ => rfl) (runs_bind (runs_change
        (fun s => { s with psr := psrClear copy [.s, .u, .t] }) _ (fun _ => rfl) rfl) (runs_bind (runs_push 2 copy s1)
        (runs_bind (runs_look State.pc _ fun _ => rfl) (runs_service 9 _ _)))))
  rw [State.pushed_pc] at run
  obtain ⟨t, e, agree, quiet⟩ := settle_of_runs run (answers_of_ram ram)
  obtain ⟨psr, saved⟩ := psrClear_trace_eq s.psr
  have int : s1.flag .s = false := by
    show (psrClear copy [.s, .u, .t]).getLsbD 9 = false
    rw [psr, BitVec.getLsbD_and]
    simp
  have handed : Handed s s1 := by constructor <;> rfl
  have frame := frame_serviced handed int ram.1 wf copy 9 s.pc
  refine ⟨t, e, quiet, ?_, ?_⟩
  · unfold Agree at agree
    rw [show s1.pc = s.pc from rfl] at agree
    rw [← agree] at frame
    rw [← saved]
    exact frame
  · rw [State.pushed_serviced int] at agree
    exact (agree_value agree State.psr fun _ _ => rfl).trans psr

/-- Settles O47. -/
theorem traceWait : Obligations.TraceWait := by
  have masked {x : Input} {s1 : State} (h : x.int = false ∨ s1.flag .i = false) : (x.int && s1.flag .i) = false := by
    rcases h with h | h <;> simp [h]
  constructor
  · intro x s s1 sampled reset latch int waiting traced ram wf
    obtain ⟨t, e, quiet, frame, psr⟩ := trace_frame ram wf
    refine ⟨t, step_of_boundary sampled ?_ quiet, frame, psr⟩
    rw [State.boundary, if_neg (by simp [reset]), if_neg (by simp [latch]), if_neg (by simp [masked int]),
      if_neg (by simp [waiting]), if_pos traced]
    exact e
  · intro x s s1 sampled reset latch int waiting quiet
    refine step_of_boundary sampled ?_ quiet
    rw [State.boundary, if_neg (by simp [reset]), if_neg (by simp [latch]), if_neg (by simp [masked int]),
      if_pos waiting]

end Sys2Proof.Machine
end

section
/-! The parts of the machine that instructions share: bus cycles (20_memory.md R84, R85), accesses outside memory (R77, R91)
and the decoder's examples. -/
namespace Sys2Proof.Machine

open Sys2Proof.Safety

/-- Settles O60: the decoder evaluates on each of the words. -/
theorem decodeExamples : Obligations.DecodeExamples := by
  refine ⟨?_, ?_, ?_, ?_, ?_, ?_, ?_, ?_, ?_, ?_, ?_, ?_⟩ <;> rfl

/-! ### Bus cycles -/

/-- The event of one write cycle. -/
def State.writeEvent (s : State) (p : Pins) (a : Addr) (bs : List Byte) : PinEvent :=
  .cycle ⟨.data, true, a, bs.length, BitVec.ofNat 16 (bytesNat bs), p.lock, p.bpu, s.flag .u⟩

/-- The state after one write cycle. -/
def State.wrote (s : State) (p : Pins) (a : Addr) (bs : List Byte) : State :=
  { s with mem := storeBytes s.storable s.mem a bs, bus := s.bus ++ [s.writeEvent p a bs] }

theorem writeCycle_apply {s : State} (hs : Answers s) (p : Pins) (m : Seam) (a : Addr) (bs : List Byte) :
    writeCycle p m a bs s = .ok () (s.wrote p a bs) := by
  unfold writeCycle
  rw [bind_apply, between_quiet hs.2]
  show (look (fun s => s.blocked a bs.length) >>= _) s = _
  rw [bind_apply]
  have reset : s.resetIn.map Nat.pred = s.resetIn := by
    rw [hs.2.2]
    rfl
  simp only [look, blocked_of_answers hs, change, State.logCycle, reset]
  rfl

theorem answers_wrote {s : State} (hs : Answers s) (p : Pins) (a : Addr) (bs : List Byte) : Answers (s.wrote p a bs) :=
  answers_congr rfl hs

/-- The write cycles of an operand are made one after the other. -/
theorem writeCycles_apply_cons {s : State} (hs : Answers s) (p : Pins) (m : Seam) (a : Addr) (n : Nat)
    (cs : List (Addr × Nat)) (bs : List Byte) :
    writeCycles p m ((a, n) :: cs) bs s = writeCycles p .within cs (bs.drop n) (s.wrote p a (bs.take n)) := by
  rw [writeCycles_cons, bind_apply, writeCycle_apply hs]

/-- What a cycle of one byte of a double-word shows on the bus. -/
theorem shown_byte (v : DWord) (k : Nat) : BitVec.ofNat 16 (bytesNat [v.extractLsb' (8 * k) 8]) =
    (v >>> (8 * k)).setWidth 16 &&& 0x00FF := by
  apply BitVec.eq_of_toNat_eq
  rw [BitVec.toNat_and, show (0x00FF : BitVec 16).toNat = 2 ^ 8 - 1 from rfl, Nat.and_two_pow_sub_one_eq_mod]
  simp only [bytesNat, BitVec.toNat_ofNat, BitVec.extractLsb'_toNat, BitVec.toNat_setWidth, BitVec.toNat_ushiftRight]
  omega

/-- What a cycle of one word of a double-word shows on the bus. -/
theorem shown_word (v : DWord) (k : Nat) :
    BitVec.ofNat 16 (bytesNat [v.extractLsb' (8 * k) 8, v.extractLsb' (8 * k + 8) 8]) =
    (v >>> (8 * k)).setWidth 16 &&& 0xFFFF := by
  apply BitVec.eq_of_toNat_eq
  rw [BitVec.toNat_and, show (0xFFFF : BitVec 16).toNat = 2 ^ 16 - 1 from rfl, Nat.and_two_pow_sub_one_eq_mod]
  simp only [bytesNat, BitVec.toNat_ofNat, BitVec.extractLsb'_toNat, BitVec.toNat_setWidth, BitVec.toNat_ushiftRight,
    Nat.shiftRight_add]
  generalize v.toNat >>> (8 * k) = x
  rw [Nat.shiftRight_eq_div_pow]
  omega

theorem odd_iff (a : Addr) : a.getLsbD 0 = true ↔ a.toNat % 2 = 1 := by
  rw [BitVec.getLsbD, Nat.testBit_zero, decide_eq_true_iff]

theorem cyclesFrom_even {a : Addr} (h : ¬a.getLsbD 0 = true) : cyclesFrom a 4 = [(a, 2), (a + 2, 2)] := by
  have next : ¬(a + 2).getLsbD 0 = true := by
    rw [odd_iff] at *
    bv_omega
  rw [cyclesFrom, if_neg h, cyclesFrom, if_neg next, cyclesFrom]

theorem cyclesFrom_odd {a : Addr} (h : a.getLsbD 0 = true) : cyclesFrom a 4 = [(a, 1), (a + 1, 2), (a + 3, 1)] := by
  have next : ¬(a + 1).getLsbD 0 = true := by
    rw [odd_iff] at *
    bv_omega
  have third : a + 1 + 2 = a + 3 := by bv_omega
  rw [cyclesFrom, if_pos h, cyclesFrom, if_neg next, cyclesFrom, third]

/-- A double-word is stored by the cycles of its bytes. -/
theorem writeMem_apply (a : Addr) (v : DWord) (s : State) :
    writeMem a 4 v {} s = writeCycles {} .apart (cyclesFrom a 4) (toBytes 4 v) s := by
  unfold writeMem
  rw [settled_eq, settled_eq]
  show (writeCycles {} .apart (cyclesFrom a 4) (toBytes 4 v) >>= fun _ => pure ()) s = _
  rw [bind_apply]
  cases writeCycles {} .apart (cyclesFrom a 4) (toBytes 4 v) s <;> rfl

/-- Settles O56. -/
theorem busCycles : Obligations.BusCycles := by
  intro s a v hs cycle
  let b (k : Nat) : Byte := v.extractLsb' (8 * k) 8
  have bytes : toBytes 4 v = [b 0, b 1, b 2, b 3] := rfl
  have byte (t : State) (k : Nat) (user : t.flag .u = s.flag .u) :
      t.writeEvent {} (a + BitVec.ofNat 24 k) [b k] = cycle k 1 := by
    rw [State.writeEvent, shown_byte, user]
    rfl
  have word (t : State) (k : Nat) (user : t.flag .u = s.flag .u) :
      t.writeEvent {} (a + BitVec.ofNat 24 k) [b k, b (k + 1)] = cycle k 2 := by
    rw [State.writeEvent, show b (k + 1) = v.extractLsb' (8 * k + 8) 8 from rfl, shown_word, user]
    rfl
  have poke : (s.poke a 4 v).mem = storeBytes s.storable s.mem a [b 0, b 1, b 2, b 3] := by rw [State.poke_mem, bytes]
  have first : a + BitVec.ofNat 24 0 = a := BitVec.add_zero a
  have ends {t : State} {es : List PinEvent} (mem : t.mem = (s.poke a 4 v).mem) (bus : t.bus = s.bus ++ es)
      (rest : { t with mem := s.mem, bus := s.bus } = s) : t = { s.poke a 4 v with bus := s.bus ++ es } := by
    rw [← bus]
    show t = { s with mem := (s.poke a 4 v).mem, bus := t.bus }
    rw [← mem, ← rest]
  rw [writeMem_apply, bytes]
  by_cases odd : a.getLsbD 0 = true
  · let s1 := s.wrote {} a [b 0]
    let s2 := s1.wrote {} (a + 1) [b 1, b 2]
    let s3 := s2.wrote {} (a + 3) [b 3]
    have stored : s3.mem = (s.poke a 4 v).mem := by
      have third : a + 1 + BitVec.ofNat 24 2 = a + 3 := by bv_omega
      rw [poke]
      refine Eq.symm ((storeBytes_append s.storable s.mem a [b 0] [b 1, b 2, b 3]).trans ?_)
      refine (storeBytes_append s.storable s1.mem (a + 1) [b 1, b 2] [b 3]).trans ?_
      rw [show [b 1, b 2].length = 2 from rfl, third]
      rfl
    have logged : s3.bus = s.bus ++ [cycle 0 1, cycle 1 2, cycle 3 1] := by
      show s.bus ++ [s.writeEvent {} a [b 0]] ++ [s1.writeEvent {} _ [b 1, b (1 + 1)]] ++ [s2.writeEvent {} _ [b 3]] = _
      rw [← byte s 0 rfl, first, ← word s1 1 rfl, ← byte s2 3 rfl, List.append_assoc, List.append_assoc]
      rfl
    have cycles : writeCycles {} .apart (cyclesFrom a 4) [b 0, b 1, b 2, b 3] s = .ok () s3 := by
      rw [cyclesFrom_odd odd, writeCycles_apply_cons hs, writeCycles_apply_cons (answers_wrote hs _ _ _),
        writeCycles_apply_cons (answers_wrote (answers_wrote hs _ _ _) _ _ _)]
      rfl
    rw [if_pos odd, cycles]
    exact congrArg (EStateM.Result.ok ()) (ends stored logged rfl)
  · let s1 := s.wrote {} a [b 0, b 1]
    let s2 := s1.wrote {} (a + 2) [b 2, b 3]
    have stored : s2.mem = (s.poke a 4 v).mem := by
      rw [poke]
      exact (storeBytes_append s.storable s.mem a [b 0, b 1] [b 2, b 3]).symm
    have logged : s2.bus = s.bus ++ [cycle 0 2, cycle 2 2] := by
      show s.bus ++ [s.writeEvent {} a [b 0, b (0 + 1)]] ++ [s1.writeEvent {} _ [b 2, b (2 + 1)]] = _
      rw [← word s 0 rfl, first, ← word s1 2 rfl, List.append_assoc]
      rfl
    have cycles : writeCycles {} .apart (cyclesFrom a 4) [b 0, b 1, b 2, b 3] s = .ok () s2 := by
      rw [cyclesFrom_even odd, writeCycles_apply_cons hs, writeCycles_apply_cons (answers_wrote hs _ _ _)]
      rfl
    rw [if_neg odd, cycles]
    exact congrArg (EStateM.Result.ok ()) (ends stored logged rfl)

end Sys2Proof.Machine
end

section
/-! Accesses outside memory (20_memory.md R77, R91, R601): what the bus answers where MEM_MAP has nothing, a device or ROM. -/
namespace Sys2Proof.Machine

open Sys2Proof.Safety

/-! ### Running and faulting where nothing comes between the cycles -/

/-- With nothing between the bus cycles, `x` goes from `s` to `t` and gives `a`, whatever the bus log is. -/
def Goes {α : Type} (x : M α) (s : State) (a : α) (t : State) : Prop :=
  Quiet s → Quiet t ∧ ∀ b, ∃ b', x (s.withBus b) = .ok a (t.withBus b')

/-- With nothing between the bus cycles, `x` faults, whatever the bus log is. -/
def Faults {α : Type} (x : M α) (s : State) (f : Fault) : Prop :=
  Quiet s → ∀ b, ∃ t, Quiet t ∧ x (s.withBus b) = .error (.fault f) t

theorem goes_bind {α β : Type} {x : M α} {f : α → M β} {s t u : State} {a : α} {c : β} (h : Goes x s a t)
    (k : Goes (f a) t c u) : Goes (x >>= f) s c u := by
  intro hs
  obtain ⟨ht, h⟩ := h hs
  obtain ⟨hu, k⟩ := k ht
  refine ⟨hu, fun b => ?_⟩
  obtain ⟨b1, e1⟩ := h b
  obtain ⟨b2, e2⟩ := k b1
  exact ⟨b2, by rw [bind_apply, e1]; exact e2⟩

theorem goes_pure {α : Type} (a : α) (s : State) : Goes (pure a) s a s := fun h => ⟨h, fun b => ⟨b, rfl⟩⟩

theorem goes_look {α : Type} (f : State → α) (s : State) (h : ∀ b, f (s.withBus b) = f s) : Goes (look f) s (f s) s :=
  fun hs => ⟨hs, fun b => ⟨b, by rw [look, h]⟩⟩

theorem goes_change (f : State → State) (s : State) (h : ∀ b, f (s.withBus b) = (f s).withBus b)
    (quiet : Quiet s → Quiet (f s)) : Goes (change f) s () (f s) :=
  fun hs => ⟨quiet hs, fun b => ⟨b, by rw [change, h]⟩⟩

theorem faults_bind {α β : Type} {x : M α} {f : α → M β} {s : State} {e : Fault} (h : Faults x s e) :
    Faults (x >>= f) s e := by
  intro hs b
  obtain ⟨t, ht, run⟩ := h hs b
  exact ⟨t, ht, by rw [bind_apply, run]⟩

theorem faults_after {α β : Type} {x : M α} {f : α → M β} {s t : State} {a : α} {e : Fault} (h : Goes x s a t)
    (k : Faults (f a) t e) : Faults (x >>= f) s e := by
  intro hs b
  obtain ⟨ht, run⟩ := h hs
  obtain ⟨b', e1⟩ := run b
  obtain ⟨u, hu, e2⟩ := k ht b'
  exact ⟨u, hu, by rw [bind_apply, e1]; exact e2⟩

theorem performSeq_of_faults {i : Instr} {x : M Unit} {s : State} {f : Fault} (hi : i.WF) (hs : Quiet s)
    (h : Faults x s.begin f) : performSeq i x s = .fault f := by
  obtain ⟨t, ht, run⟩ := faults_bind (f := fun _ => advance i) h hs s.begin.bus
  have run' : (do x; advance i) s.begin = .error (.fault f) t := run
  have active : t.resetIn ≠ some 0 := by rw [ht.2]; decide
  have hi' : i.check = none := hi
  simp only [performSeq, perform, hi', run', finish, settle, State.stop, if_neg active]

theorem performSeq_of_goes {i : Instr} {x : M Unit} {s t : State} (hi : i.WF) (hs : Quiet s)
    (h : Goes x s.begin () t) : ∃ u, performSeq i x s = .next u ∧ Agree u { t with pc := t.next i } := by
  have advanced : Goes (advance i) t () { t with pc := t.next i } :=
    goes_change (fun s => { s with pc := s.next i }) t (fun _ => rfl) id
  obtain ⟨-, run⟩ := goes_bind (f := fun _ => advance i) h advanced hs
  obtain ⟨b, e⟩ := run s.begin.bus
  refine ⟨({ t with pc := t.next i } : State).withBus b, ?_, rfl⟩
  have e' : (do x; advance i) s.begin = .ok () (({ t with pc := t.next i } : State).withBus b) := e
  have hi' : i.check = none := hi
  simp only [performSeq, perform, hi', e', finish, settle]

/-! ### One cycle -/

theorem addr_succ (a : Addr) (m : Nat) : a + BitVec.ofNat 24 (m + 1) = a + 1 + BitVec.ofNat 24 m := by
  rw [BitVec.ofNat_add, BitVec.add_comm (BitVec.ofNat 24 m), ← BitVec.add_assoc]
  rfl

theorem blocked_none {s : State} {a : Addr} {n : Nat}
    (h : ∀ m < n, s.kindAt (a + BitVec.ofNat 24 m) ≠ some .nothing) : s.blocked a n = none := by
  induction n generalizing a with
  | zero => rfl
  | succ n ih =>
    have first := h 0 (Nat.succ_pos n)
    rw [BitVec.add_zero] at first
    have rest : s.blocked (a + 1) n = none := ih fun m hm => addr_succ a m ▸ h (m + 1) (Nat.succ_lt_succ hm)
    rw [State.blocked, State.blockedAt, if_neg first, rest]
    rfl

/-- Only the first byte that MEM_MAP has nothing at counts. -/
theorem blocked_some {s : State} {a : Addr} {n k : Nat} (hk : k < n)
    (at_ : s.kindAt (a + BitVec.ofNat 24 k) = some .nothing)
    (before : ∀ m < k, s.kindAt (a + BitVec.ofNat 24 m) ≠ some .nothing) :
    s.blocked a n = some (.accessOutsideMemMap (a + BitVec.ofNat 24 k)) := by
  induction n generalizing a k with
  | zero => exact absurd hk (Nat.not_lt_zero k)
  | succ n ih =>
    cases k with
    | zero =>
      rw [BitVec.add_zero] at at_
      rw [State.blocked, State.blockedAt, if_pos at_, BitVec.add_zero]
      rfl
    | succ k =>
      have first := before 0 (Nat.succ_pos k)
      rw [BitVec.add_zero] at first
      rw [addr_succ] at at_
      have rest := ih (Nat.lt_of_succ_lt_succ hk) at_ fun m hm => addr_succ a m ▸ before (m + 1) (Nat.succ_lt_succ hm)
      rw [State.blocked, State.blockedAt, if_neg first, rest, addr_succ]
      rfl

theorem goes_between (m : Seam) (s : State) : Goes (between m) s () s :=
  fun hs => ⟨hs, fun b => ⟨b, between_quiet (s := s.withBus b) hs m⟩⟩

/-- The byte that a read cycle returns at one address. -/
def State.answerOne (s : State) (a : Addr) : Byte × State :=
  if s.kindAt a = some .device then s.deviceByte else (s.byteAt a, s)

theorem answer_succ (s : State) (a : Addr) (n : Nat) : s.answer a (n + 1) =
    ((s.answerOne a).1 :: ((s.answerOne a).2.answer (a + 1) n).1, ((s.answerOne a).2.answer (a + 1) n).2) := rfl

theorem answerOne_keeps (s : State) (a : Addr) : (s.answerOne a).2.env = s.env ∧
    ∀ b, (s.withBus b).answerOne a = ((s.answerOne a).1, (s.answerOne a).2.withBus b) := by
  have kind (b : List PinEvent) : (s.withBus b).kindAt a = s.kindAt a := rfl
  unfold State.answerOne
  simp only [kind]
  split
  · cases h : s.deviceReplies with
    | nil => simp only [State.deviceByte, State.withBus, h]; exact ⟨rfl, fun _ => trivial⟩
    | cons x xs => simp only [State.deviceByte, State.withBus, h]; exact ⟨rfl, fun _ => trivial⟩
  · exact ⟨rfl, fun _ => rfl⟩

/-- The bytes that a read cycle returns do not depend on the bus log, and taking them leaves the environment alone. -/
theorem answer_keeps (s : State) (a : Addr) (n : Nat) : (s.answer a n).2.env = s.env ∧
    ∀ b, (s.withBus b).answer a n = ((s.answer a n).1, (s.answer a n).2.withBus b) := by
  induction n generalizing s a with
  | zero => exact ⟨rfl, fun _ => rfl⟩
  | succ n ih =>
    obtain ⟨env, bus⟩ := answerOne_keeps s a
    obtain ⟨env', bus'⟩ := ih (s.answerOne a).2 (a + 1)
    refine ⟨env'.trans env, fun b => ?_⟩
    rw [answer_succ, bus, bus', answer_succ]

theorem quiet_of_env {s t : State} (h : t.env = s.env) (hs : Quiet s) : Quiet t := by
  simp only [State.env, Prod.mk.injEq] at h
  exact ⟨h.2.1.trans hs.1, h.2.2.trans hs.2⟩

theorem kindAt_of_env {s t : State} (h : t.env = s.env) (a : Addr) : t.kindAt a = s.kindAt a := by
  simp only [State.env, Prod.mk.injEq] at h
  unfold State.kindAt
  rw [h.1]

theorem blocked_bus (s : State) (b : List PinEvent) (a : Addr) (n : Nat) : (s.withBus b).blocked a n = s.blocked a n := by
  induction n generalizing a with
  | zero => rfl
  | succ n ih => rw [State.blocked, State.blocked, ih]; rfl

section
variable {st : BusStatus} {p : Pins} {m : Seam} {a : Addr} {n : Nat} {s : State}

theorem goes_readCycle (h : s.blocked a n = none) :
    Goes (readCycle st p m a n) s (s.answer a n).1 (s.answer a n).2 := by
  refine goes_bind (goes_between m s) (goes_bind (goes_look _ s fun b => blocked_bus s b a n) ?_)
  rw [h]
  obtain ⟨env, bus⟩ := answer_keeps s a n
  intro hs
  have ht : Quiet (s.answer a n).2 := quiet_of_env env hs
  refine ⟨ht, fun b => ⟨(((s.answer a n).2.withBus b).logCycle st false p a (s.answer a n).1).bus, ?_⟩⟩
  show ((look fun s => s.answer a n) >>= _) (s.withBus b) = _
  rw [bind_apply]
  simp only [look, bus, bind_apply, change]
  rw [logCycle_quiet (s := (s.answer a n).2.withBus b) ht]
  rfl

theorem faults_readCycle {f : Fault} (h : s.blocked a n = some f) : Faults (readCycle st p m a n) s f := by
  refine faults_after (goes_between m s) (faults_after (goes_look _ s fun b => blocked_bus s b a n) ?_)
  rw [h]
  exact fun hs b => ⟨s.withBus b, hs, rfl⟩

theorem goes_writeCycle {bs : List Byte} (h : s.blocked a bs.length = none) :
    Goes (writeCycle p m a bs) s () { s with mem := storeBytes s.storable s.mem a bs } := by
  refine goes_bind (goes_between m s) (goes_bind (goes_look _ s fun b => blocked_bus s b a _) ?_)
  rw [h]
  let t : State := { s with mem := storeBytes s.storable s.mem a bs }
  exact fun hs => ⟨hs, fun b => ⟨_, congrArg (EStateM.Result.ok ())
    (logCycle_quiet (s := t.withBus b) hs .data true p a bs)⟩⟩

theorem faults_writeCycle {bs : List Byte} {f : Fault} (h : s.blocked a bs.length = some f) :
    Faults (writeCycle p m a bs) s f := by
  refine faults_after (goes_between m s) (faults_after (goes_look _ s fun b => blocked_bus s b a _) ?_)
  rw [h]
  exact fun hs b => ⟨s.withBus b, hs, rfl⟩

end

/-! ### The cycles of an operand -/

/-- The first cycle of an operand has `c` bytes: the first byte that cannot be accessed is in it, or in the rest. -/
theorem first_or_rest {s : State} {a : Addr} {n k c : Nat} (hk : k < n)
    (at_ : s.kindAt (a + BitVec.ofNat 24 k) = some .nothing)
    (before : ∀ m < k, s.kindAt (a + BitVec.ofNat 24 m) ≠ some .nothing) :
    s.blocked a c = some (.accessOutsideMemMap (a + BitVec.ofNat 24 k)) ∨ s.blocked a c = none ∧ ∃ k', k = c + k' ∧
      a + BitVec.ofNat 24 k = a + BitVec.ofNat 24 c + BitVec.ofNat 24 k' ∧ k' < n - c ∧
      ∀ m < k', s.kindAt (a + BitVec.ofNat 24 c + BitVec.ofNat 24 m) ≠ some .nothing := by
  have add (m : Nat) : a + BitVec.ofNat 24 (c + m) = a + BitVec.ofNat 24 c + BitVec.ofNat 24 m := by
    rw [BitVec.ofNat_add, ← BitVec.add_assoc]
  by_cases h : k < c
  · exact .inl (blocked_some h at_ before)
  · refine .inr ⟨blocked_none fun m hm => before m (by omega), k - c, by omega, ?_, by omega, fun m hm => ?_⟩
    · rw [← add, Nat.add_sub_cancel' (Nat.le_of_not_lt h)]
    · exact add m ▸ before (c + m) (by omega)

theorem faults_readCycles {st : BusStatus} {p : Pins} {m : Seam} {a : Addr} {n k : Nat} {s : State} (hk : k < n)
    (at_ : s.kindAt (a + BitVec.ofNat 24 k) = some .nothing)
    (before : ∀ m < k, s.kindAt (a + BitVec.ofNat 24 m) ≠ some .nothing) :
    Faults (readCycles st p m (cyclesFrom a n)) s (.accessOutsideMemMap (a + BitVec.ofNat 24 k)) := by
  induction a, n using cyclesFrom.induct generalizing m k s with
  | case1 a => exact absurd hk (Nat.not_lt_zero k)
  | case2 a =>
    obtain rfl : k = 0 := by omega
    exact faults_bind (faults_readCycle (blocked_some hk at_ before))
  | case3 a n odd ih =>
    rw [cyclesFrom, if_pos odd, readCycles_cons]
    rcases first_or_rest (c := 1) hk at_ before with here | ⟨free, k', -, place, small, clear⟩
    · exact faults_bind (faults_readCycle here)
    · have env := (answer_keeps s a 1).1
      rw [place] at at_ ⊢
      refine faults_after (goes_readCycle free) (faults_bind (ih (m := .within) small ?_ fun m hm => ?_))
      · rwa [kindAt_of_env env]
      · rw [kindAt_of_env env]
        exact clear m hm
  | case4 a n even ih =>
    rw [cyclesFrom, if_neg even, readCycles_cons]
    rcases first_or_rest (c := 2) hk at_ before with here | ⟨free, k', -, place, small, clear⟩
    · exact faults_bind (faults_readCycle here)
    · have env := (answer_keeps s a 2).1
      rw [place] at at_ ⊢
      refine faults_after (goes_readCycle free) (faults_bind (ih (m := .within) small ?_ fun m hm => ?_))
      · rwa [kindAt_of_env env]
      · rw [kindAt_of_env env]
        exact clear m hm

theorem faults_writeCycles {p : Pins} {m : Seam} {a : Addr} {n k : Nat} {bs : List Byte} {s : State} (hk : k < n)
    (length : bs.length = n) (at_ : s.kindAt (a + BitVec.ofNat 24 k) = some .nothing)
    (before : ∀ m < k, s.kindAt (a + BitVec.ofNat 24 m) ≠ some .nothing) :
    Faults (writeCycles p m (cyclesFrom a n) bs) s (.accessOutsideMemMap (a + BitVec.ofNat 24 k)) := by
  induction a, n using cyclesFrom.induct generalizing m k s bs with
  | case1 a => exact absurd hk (Nat.not_lt_zero k)
  | case2 a =>
    obtain rfl : k = 0 := by omega
    have one : (bs.take 1).length = 1 := by rw [List.length_take, length]; rfl
    rw [cyclesFrom, writeCycles_cons]
    exact faults_bind (faults_writeCycle (one.symm ▸ blocked_some hk at_ before))
  | case3 a n odd ih =>
    rw [cyclesFrom, if_pos odd, writeCycles_cons]
    have one : (bs.take 1).length = 1 := by rw [List.length_take]; omega
    have rest : (bs.drop 1).length = n + 1 := by rw [List.length_drop]; omega
    rcases first_or_rest (c := 1) hk at_ before with here | ⟨free, k', -, place, small, clear⟩
    · exact faults_bind (faults_writeCycle (one.symm ▸ here))
    · rw [place] at at_ ⊢
      exact faults_after (goes_writeCycle (one.symm ▸ free)) (ih small rest at_ clear)
  | case4 a n even ih =>
    rw [cyclesFrom, if_neg even, writeCycles_cons]
    have two : (bs.take 2).length = 2 := by rw [List.length_take]; omega
    have rest : (bs.drop 2).length = n := by rw [List.length_drop]; omega
    rcases first_or_rest (c := 2) hk at_ before with here | ⟨free, k', -, place, small, clear⟩
    · exact faults_bind (faults_writeCycle (two.symm ▸ here))
    · rw [place] at at_ ⊢
      exact faults_after (goes_writeCycle (two.symm ▸ free)) (ih small rest at_ clear)

theorem min_bytes (i : Size) : min i.bytes 4 = i.bytes := by cases i <;> rfl

theorem goes_settled {w : Nat} (v : BitVec w) (s : State) : Goes (settled v) s v s := by
  rw [settled_eq]
  exact goes_pure v s

section
variable {s : State} {a : Addr} {i : Size} {k : Nat} (hk : k < i.bytes)
  (at_ : s.kindAt (a + BitVec.ofNat 24 k) = some .nothing)
  (before : ∀ m < k, s.kindAt (a + BitVec.ofNat 24 m) ≠ some .nothing)
include hk at_ before

theorem faults_readMem (st : BusStatus) (p : Pins) :
    Faults (readMem st a i.bytes p) s (.accessOutsideMemMap (a + BitVec.ofNat 24 k)) := by
  refine faults_after (goes_settled a s) (faults_bind ?_)
  rw [min_bytes]
  exact faults_readCycles hk at_ before

theorem faults_writeMem {w : Nat} (v : BitVec w) (p : Pins) :
    Faults (writeMem a i.bytes v p) s (.accessOutsideMemMap (a + BitVec.ofNat 24 k)) := by
  refine faults_after (goes_settled a s) (faults_after (goes_settled v s) (faults_bind ?_))
  rw [min_bytes]
  have length : ((toBytes i.bytes v).take 4).length = i.bytes := by
    rw [List.length_take, toBytes_length, Nat.min_comm, min_bytes]
  exact faults_writeCycles hk length at_ before

end

/-! ### An operand at an absolute address -/

theorem goes_absolute (d : Disp) (s : State) : Goes (effAddr24 (.base (.abs d))) s (BitVec.ofInt 24 d.val) s := by
  rw [← word_setWidth]
  exact goes_bind (goes_look (fun s => s.baseEa (.abs d)) s fun _ => rfl) (goes_pure _ s)

theorem exec_movi_eq (i : Size) (src dst : Gen) (s : State) : exec (.movi i src dst) s =
    performSeq (.movi i src dst) (do
      let v ← readGen src i.bytes
      let p ← placeWrite dst
      let r ← (pure v : M _)
      writePlace p i.bytes r) s := rfl

/-- The one byte read from a device is the next that the platform lists. -/
theorem goes_readMem_device {st : BusStatus} {p : Pins} {a : Addr} {s : State} {b : Byte} {rest : List Byte}
    (device : s.kindAt a = some .device) (replies : s.deviceReplies = b :: rest) :
    Goes (readMem st a 1 p) s b { s with deviceReplies := rest } := by
  have answer : s.answer a 1 = ([b], { s with deviceReplies := rest }) := by
    rw [answer_succ, State.answerOne, if_pos device, State.deviceByte, replies]
    rfl
  have free : s.blocked a 1 = none := by
    rw [State.blocked, State.blockedAt, if_neg (by rw [device]; decide)]
    rfl
  have cycle := goes_readCycle (st := st) (p := p) (m := .apart) free
  rw [answer] at cycle
  have value : ofBytes 1 [b] = b := by
    apply BitVec.eq_of_toNat_eq
    rw [ofBytes, bytesNat, bytesNat, BitVec.toNat_ofNat]
    exact Nat.mod_eq_of_lt b.isLt
  have last : Goes (settled (ofBytes 1 ([b] ++ [] ++ []))) { s with deviceReplies := rest } b
      { s with deviceReplies := rest } := by
    rw [show ofBytes 1 ([b] ++ [] ++ []) = b from value]
    exact goes_settled b _
  exact goes_bind (goes_settled a s) (goes_bind (goes_bind cycle (goes_bind (goes_pure _ _) (goes_pure _ _)))
    (goes_bind (goes_pure _ _) last))

/-- One byte stored where there is no RAM. -/
theorem goes_writeMem_noRam {w : Nat} {a : Addr} {s : State} (v : BitVec w)
    (h : s.kindAt a = some .device ∨ s.kindAt a = some .rom) : Goes (writeMem a 1 v) s () s := by
  have free : s.blocked a 1 = none := by
    rw [State.blocked, State.blockedAt, if_neg (by rcases h with h | h <;> rw [h] <;> decide)]
    rfl
  have unstorable : s.storable a = false := by
    rcases h with h | h <;> simp [State.storable, h]
  have cycle := goes_writeCycle (p := {}) (m := .apart) (bs := toBytes 1 v) (s := s) free
  have same : ({ s with mem := storeBytes s.storable s.mem a (toBytes 1 v) } : State) = s := by
    show ({ s with mem := if s.storable a then _ else s.mem } : State) = s
    rw [unstorable]
    rfl
  rw [same] at cycle
  exact goes_bind (goes_settled a s) (goes_bind (goes_settled v s) (goes_bind (goes_bind cycle (goes_pure _ s)) (goes_pure _ s)))

theorem completes_of_goes {j : Instr} {x : M Unit} {s t : State} (e : exec j s = performSeq j x s) (hj : j.WF)
    (hs : Quiet s) (h : Goes x s.begin () t) (mem : t.mem = s.mem) (pc : t.pc = s.pc) :
    Completes j s { t with pc := s.next j } none 0 := by
  obtain ⟨u, run, agree⟩ := performSeq_of_goes hj hs h
  have next : t.next j = s.next j := by rw [State.next, State.next, pc]
  rw [next] at agree
  exact ⟨⟨u, e.trans run, agree⟩, frame_none (by exact mem) 0⟩

/-- Settles O57. -/
theorem accessOutsideMemory : Obligations.AccessOutsideMemory := by
  intro i d r b rest s hs a load store
  refine ⟨fun k hk at_ before => ⟨?load, ?store⟩, fun device replies => ?device, fun h => ?noRam⟩
  case load =>
    exact (exec_movi_eq i _ _ s).trans (performSeq_of_faults rfl hs (faults_bind (faults_after (goes_absolute d s.begin)
      (faults_readMem (s := s.begin) hk at_ before .data {}))))
  case store =>
    refine (exec_movi_eq i _ _ s).trans (performSeq_of_faults rfl hs
      (faults_after (goes_look (fun s => (s.reg r).setWidth (8 * i.bytes)) s.begin fun _ => rfl)
      (faults_after (goes_bind (goes_absolute d s.begin) (goes_pure _ _)) (faults_after (goes_pure _ _) ?_))))
    exact faults_writeMem (s := s.begin) hk at_ before _ {}
  case device =>
    exact completes_of_goes (exec_movi_eq .b (.base (.abs d)) (.base (.reg r)) s) rfl hs (goes_bind (goes_bind (goes_absolute d s.begin)
      (goes_readMem_device (st := .data) (p := {}) (s := s.begin) device replies)) (goes_bind (goes_pure _ _)
      (goes_bind (goes_pure _ _) (goes_change (fun s => s.setRegLow r b) _ (fun _ => rfl) id)))) rfl rfl
  case noRam =>
    exact completes_of_goes (t := s.begin) (exec_movi_eq .b (.base (.reg r)) (.base (.abs d)) s) rfl hs
      (goes_bind (goes_look (fun s => (s.reg r).setWidth (8 * 1)) s.begin fun _ => rfl)
      (goes_bind (goes_bind (goes_absolute d s.begin) (goes_pure _ _)) (goes_bind (goes_pure _ _)
        (goes_writeMem_noRam (s := s.begin) _ h)))) rfl rfl

end Sys2Proof.Machine
end

section
/-! RSTI at a boundary and inside a step (70_reset_and_hazards.md R570, R571). -/
namespace Sys2Proof.Machine

open Sys2Proof.Safety

/-! ### How a step that RSTI is to end can end -/

/-- What an outcome reached from `s` is, if RSTI is to become active: the state still waits for it or has been reset; and
once it is active the outcome is a next state. -/
structure Closes (s : State) (o : Host.Outcome State Fault Refusal) : Prop where
  pending : s.resetIn ≠ none → ∀ u, o = .next u → u.resetIn ≠ none ∨ ∃ v, u = State.hardReset v
  active : s.resetIn = some 0 → ∃ u, o = .next u
  quiet : Quiet s → ∀ u, o = .next u → Quiet u ∨ ∃ v, u = State.hardReset v

theorem Closes.after {s t : State} {o : Host.Outcome State Fault Refusal} (h : Clocked s t) (k : Closes t o) : Closes s o :=
  ⟨k.pending ∘ h.pending, k.active ∘ h.active, k.quiet ∘ h.quiet⟩

theorem closes_next {s t : State} (h : Clocked s t) : Closes s (.next t) :=
  ⟨fun p u e => .inl (by cases e; exact h.pending p), fun _ => ⟨t, rfl⟩, fun q u e => .inl (by cases e; exact h.quiet q)⟩

theorem closes_reset (s t : State) : Closes s (.next t.hardReset) :=
  ⟨fun _ u e => .inr ⟨t, by cases e; rfl⟩, fun _ => ⟨_, rfl⟩, fun _ u e => .inr ⟨t, by cases e; rfl⟩⟩

/-- A report that stops the machine, unless RSTI is active. -/
theorem closes_stop {s : State} {o : Host.Outcome State Fault Refusal} (h : ∀ u, o ≠ .next u) : Closes s (s.stop o) := by
  unfold State.stop
  split
  · exact closes_reset s s
  · next inactive => exact ⟨fun _ u e => absurd e (h u), fun active => absurd active inactive, fun _ u e => absurd e (h u)⟩

theorem closes_settle {s : State} {r : EStateM.Result Abort State Unit} (h : Clocked s (after r)) : Closes s (settle r) := by
  cases r with
  | ok _ t => exact closes_next h
  | error e t =>
    cases e with
    | trap _ => exact closes_next h
    | fault f => exact (closes_stop (by simp)).after h
    | refused f => exact (closes_stop (by simp)).after h
    | reset => exact closes_reset s t

theorem timed_takeTrap (k : Trap) (s0 : State) : Timed (takeTrap k s0) :=
  timed_bind (timed_change fun _ => setSp_env _ _) fun _ => timed_bind (timed_change fun _ => rfl) fun _ =>
  timed_bind (timed_of_within (within_push _ _)) fun _ => timed_of_within (within_service _ _)

theorem closes_finish {s s0 : State} {r : EStateM.Result Abort State Unit} (h : Clocked s (after r)) :
    Closes s (finish s0 r) := by
  cases r with
  | ok _ t => exact closes_settle h
  | error e t =>
    cases e with
    | trap k => exact (closes_settle (timed_takeTrap k s0 t)).after h
    | _ => exact closes_settle h

theorem clocked_begin (s : State) : Clocked s s.begin := Clocked.of_env rfl

theorem closes_exec (i : Instr) (s : State) : Closes s (exec i s) := by
  obtain ⟨x, -, timed, e⟩ := sound i
  have run := (clocked_begin s).trans (timed s.begin)
  rcases e s with e | ⟨-, -, e⟩
  · rw [e, perform]
    split
    · exact closes_stop (by simp)
    · exact closes_finish run
  · rw [e]
    exact closes_finish (clocked_begin s)

/-! ### The instruction cycle -/

theorem timed_demandFetch : Timed demandFetch :=
  timed_bind (timed_of_within (within_between _)) fun _ => timed_bind (timed_of_within (within_look _)) fun x => by
    cases x with
    | some f => exact timed_of_within (within_abort _)
    | none =>
      intro s
      have answered := timed_of_within (x := change fun t => (t.answer s.fetchPc s.fetchWidth).2)
        (within_change fun t => user_answer t _ _) s
      refine answered.trans ⟨fun p => ?_, fun a => ?_, fun q => ⟨q.1, ?_⟩⟩
      · exact fun e => p (Option.map_eq_none_iff.mp e)
      · exact (congrArg (Option.map Nat.pred) a : _)
      · exact (congrArg (Option.map Nat.pred) q.2 : _)

theorem timed_fetchInstr (n : Nat) : Timed (fetchInstr n) := by
  induction n with
  | zero => exact timed_of_within (within_pure _)
  | succ n ih =>
    have refreshes : Timed refresh := timed_bind (timed_of_within (within_look _)) fun c => by
      cases c with
      | false => exact timed_of_within (within_pure _)
      | true =>
        refine timed_change fun s => ?_
        unfold State.refreshed
        split <;> rfl
    refine timed_bind refreshes fun _ => timed_bind (timed_of_within (within_look _)) fun f => ?_
    cases f with
    | more => exact timed_bind timed_demandFetch fun _ => ih
    | _ => exact timed_of_within (within_pure _)

theorem closes_runInstr (s : State) : Closes s s.runInstr := by
  have fetched := timed_fetchInstr (maxLength + 1) s
  unfold State.runInstr
  generalize fetchInstr (maxLength + 1) s = r at *
  cases r with
  | error e t => exact closes_settle fetched
  | ok f t =>
    cases f with
    | instr i rest =>
      have left : Clocked t { t with queue := rest } := Clocked.of_env rfl
      exact Closes.after (fetched.trans left) (closes_exec i { t with queue := rest })
    | undefined => exact (closes_finish (clocked_begin t)).after fetched
    | refused e => exact (closes_stop (by simp)).after fetched
    | more => exact (closes_stop (by simp)).after fetched

theorem timed_takeInterrupt (nmi : Bool) : Timed (takeInterrupt nmi) := by
  have vector : Timed (acknowledged nmi) := by
    cases nmi with
    | false => exact timed_of_within within_intVector
    | true =>
      exact timed_bind (timed_of_within (within_icuRead _ _)) fun _ => timed_bind (timed_change fun _ => rfl) fun _ =>
        timed_of_within (within_pure _)
  rw [takeInterrupt_eq]
  exact timed_bind (timed_of_within (within_look _)) fun _ => timed_bind (timed_of_within (within_look _)) fun _ =>
    timed_bind (timed_change fun _ => rfl) fun _ => timed_bind vector fun _ =>
    timed_bind (timed_of_within (within_push _ _)) fun _ => timed_of_within (within_service _ _)

theorem timed_takeTrace : Timed takeTrace :=
  timed_bind (timed_change fun _ => rfl) fun _ => timed_bind (timed_of_within (within_look _)) fun _ =>
  timed_bind (timed_change fun _ => rfl) fun _ => timed_bind (timed_of_within (within_push _ _)) fun _ =>
  timed_bind (timed_of_within (within_look _)) fun _ => timed_of_within (within_service _ _)

theorem closes_boundary (s : State) (x : Input) : Closes s (s.boundary x) := by
  have woken : Clocked s { s with waiting := false } := Clocked.of_env rfl
  unfold State.boundary
  split
  · exact closes_reset s s
  split
  · exact closes_settle (woken.trans (timed_takeInterrupt true _))
  split
  · exact closes_settle (woken.trans (timed_takeInterrupt false _))
  split
  · exact closes_next (Clocked.of_env rfl)
  split
  · exact closes_settle (timed_takeTrace s)
  · exact closes_runInstr s

/-! ### Reset -/

theorem sample_resetIn {s s1 : State} {x : Input} (h : s.sample = (x, s1)) : s1.resetIn = x.resetAfter := by
  unfold State.sample at h
  split at h <;> cases h <;> rfl

/-- The end of a step that an outcome has. -/
def closing : Host.Outcome State Fault Refusal → Host.Outcome State Fault Refusal
  | .next t => .next t.close
  | .fault f => .fault f
  | .refused r => .refused r

theorem step_eq_closing {s s1 : State} {x : Input} (h : s.sample = (x, s1)) : step s = closing (s1.boundary x) := by
  unfold step State.cycle
  rw [h]
  rfl

/-- RSTI that is to come in a step comes at its end. -/
theorem close_pending {s : State} (h : s.resetIn ≠ none) : ∃ v, s.close = State.hardReset v := by
  refine ⟨s.gap true, ?_⟩
  unfold State.close
  split
  · next none => exact absurd none h
  · next none _ => exact absurd none h
  · rfl

/-- Settles O48. -/
theorem reset : Obligations.Reset := by
  refine ⟨fun x s s1 sampled => ?_, by decide, by decide, by decide, by decide, by decide, by decide, by decide, by decide,
    by decide⟩
  intro started
  have fresh (v : State) : started v.hardReset := by
    refine ⟨rfl, rfl, ?_, ?_, rfl, rfl, rfl⟩ <;>
    · show (((Config.freeBits (v.draws + 14)).setWidth 2).setWidth 4 : BitVec 4).getLsbD _ = false
      simp
  have stepped {o : Host.Outcome State Fault Refusal} (e : s1.boundary x = o) : step s = closing o := by
    rw [step_eq_closing sampled, e]
  have closes := closes_boundary s1 x
  have count := sample_resetIn sampled
  refine ⟨fun active => ?_, fun coming t e => ?_, fun now => ?_⟩
  · refine ⟨s1.hardReset, ?_, fresh s1, rfl⟩
    rw [stepped (o := .next s1.hardReset) (by rw [State.boundary, if_pos active])]
    rfl
  · cases ended : s1.boundary x with
    | next u =>
      rw [stepped ended] at e
      cases e
      rcases closes.pending (count ▸ coming) u ended with pending | ⟨v, rfl⟩
      · obtain ⟨v, hv⟩ := close_pending pending
        rw [hv]
        exact fresh v
      · exact fresh v
    | fault f => exact nomatch (stepped ended).symm.trans e
    | refused r => exact nomatch (stepped ended).symm.trans e
  · obtain ⟨u, ended⟩ := closes.active (count.trans now)
    exact ⟨_, stepped ended⟩

end Sys2Proof.Machine
end

section
/-! A step fetches and decodes the instruction at PC (20_memory.md R94, R95, R108; 60_exceptions.md R521). -/
namespace Sys2Proof.Machine
open Sys2Proof.Laws Sys2Proof.Safety

/-! ### The bytes of an instruction -/

theorem encode_length (i : Instr) : (encode i).length ≤ maxLength := by
  cases i with
  | bcond | br | bsr | ret | cxp | rxp | rett => exact (bounded_disp _ _).2
  | enter => exact (bounded_list_disp _ _ _).2
  | addqi | cmpqi | spri | scondi | movqi | lpri | cxpd | bicpsri | jump | bispsri | adjspi | jsr | casei =>
    exact (bounded_two _).2
  | acbi => exact (bounded_two_disp _ _).2
  | addi | cmpi | bici | addci | movi | ori | subi | addr | andi | subci | tbiti | xori => exact (bounded_fmt4 _).2
  | lfsr | sfsr => exact (bounded_fmt9 _).2
  | movmi | cmpmi | exti | insi => exact (bounded_three_disp _ _).2
  | inssi | extsi => exact (bounded_three_byte _ _).2
  | reti | save | restore | exit | nop | wait | dia | flag | svc | bpt | undefFormat3 | undefFormat3Op1000 | movsi | movst
  | cmpsi | cmpst | setcfg | skpsi | skpst | bbstod | extblt | bbor | movmpi | bitwt | tbits | bband | sbitps | bbfor
  | sbits | bbxor => exact Nat.le_of_ble_eq_true rfl
  | _ => exact (bounded_three _).2

/-- A byte whose low bits are not those of a first byte of the floating-point formats. -/
theorem isSlaveId_eq_false {b : Byte} (k : Nat) (h : b.setWidth k ≠ (0x3E : Byte).setWidth k)
    (h' : b.setWidth k ≠ (0xBE : Byte).setWidth k) (h'' : b.setWidth k ≠ (0xFE : Byte).setWidth k) :
    isSlaveId b = false := by
  unfold isSlaveId
  simp only [Bool.or_eq_false_iff, decide_eq_false_iff_not]
  exact ⟨⟨fun e => h (e ▸ rfl), fun e => h' (e ▸ rfl)⟩, fun e => h'' (e ▸ rfl)⟩

/-- The first byte of a Basic Instruction ends in the word's last field. -/
theorem low_setWidth {n k : Nat} (a : BitVec n) (c : BitVec k) (h : k ≤ 8) :
    ((a ++ c).setWidth 8).setWidth k = c := by
  refine BitVec.eq_of_getLsbD_eq fun j hj => ?_
  simp only [BitVec.getLsbD_setWidth, BitVec.getLsbD_append, hj]
  simp [Nat.lt_of_lt_of_le hj h]

/-- Formats 2, 3 and 4: the size is in the low bits, and `10` is no size. -/
theorem size_no_slave {n : Nat} (a : BitVec n) (i : Size) : isSlaveId ((a ++ i.code).setWidth 8) = false := by
  have low := low_setWidth a i.code (by decide)
  refine isSlaveId_eq_false 2 ?_ ?_ ?_ <;> rw [low] <;> cases i <;> decide

theorem low_no_slave {n k : Nat} (a : BitVec n) (c : BitVec k) (h : k ≤ 8) (h1 : c ≠ (0x3E : Byte).setWidth k)
    (h2 : c ≠ (0xBE : Byte).setWidth k) (h3 : c ≠ (0xFE : Byte).setWidth k) :
    isSlaveId ((a ++ c).setWidth 8) = false := by
  refine isSlaveId_eq_false k ?_ ?_ ?_ <;> rwa [low_setWidth a c h]

theorem fmt67_no_slave (a b : Gen) (op : BitVec 4) (i : Size) (last : Byte) (h : isSlaveId last = false) :
    (fmt67 a b op i last).head?.any isSlaveId = false := by
  have first : (fmt67 a b op i last).head? = some last := congrArg some (by
    have := low_setWidth (a.code ++ b.code ++ op ++ i.code) last (Nat.le_refl _)
    rwa [BitVec.setWidth_eq] at this)
  rw [first]
  exact h

/-- The first byte of an instruction other than the floating-point ones is not one of theirs (R150 to R162). -/
theorem encode_no_slave {i : Instr} (h : isFloat i = false) : (encode i).head?.any isSlaveId = false := by
  cases i with
  | bcond c d => exact low_no_slave (k := 4) c.code 0b1010 (by decide) (by decide) (by decide) (by decide)
  | addqi | cmpqi | spri | scondi | movqi | lpri | cxpd | bicpsri | jump | bispsri | adjspi | jsr | casei | acbi
  | undefFormat3 | undefFormat3Op1000 | addi | cmpi | bici | addci | movi | ori | subi | addr | andi | subci | tbiti
  | xori => exact size_no_slave _ _
  | exti | insi | cvtp | checki | indexi | ffsi =>
    exact low_no_slave (k := 6) _ 0b101110 (by decide) (by decide) (by decide) (by decide)
  | movsi | movst | cmpsi | cmpst | setcfg | skpsi | skpst | bbstod | extblt | bbor | movmpi | bitwt | tbits | bband
  | sbitps | bbfor | sbits | bbxor =>
    exact low_no_slave (k := 8) _ 0x0E (by decide) (by decide) (by decide) (by decide)
  | br | bsr | ret | cxp | rxp | rett | enter | reti | save | restore | exit | nop | wait | dia | flag | svc | bpt =>
    rfl
  | movif | lfsr | movlf | movfl | roundfi | truncfi | sfsr | floorfi | addf | movf | cmpf | subf | negf | divf | mulf
  | absf | polyf | dotf | scalbf | logbf => cases h
  | movmi | cmpmi | inssi | extsi | movxbw | movzbw | movzid | movxid | muli | meii | deii | quoi | remi | modi | divi =>
    exact fmt67_no_slave _ _ _ _ 0xCE rfl
  | _ => exact fmt67_no_slave _ _ _ _ 0x4E rfl

/-! ### Fetching -/

/-- The state when fetch cycles have brought `m` bytes, `bus` being the log. -/
def State.gathered (s : State) (m : Nat) (bus : List PinEvent) : State :=
  { s with
    queue := s.refreshed.queue ++ loadBytes s.mem s.fetchPc m
    fetchPc := s.fetchPc + BitVec.ofNat 24 m
    broken := s.broken && m == 0
    bus := bus }

/-- What the bytes in the queue are when fetch cycles have brought `m` bytes. -/
def State.verdict (s : State) (m : Nat) : Fetched := (s.gathered m s.bus).decoded

/-- The bytes that fetch cycles bring where `n` are wanted: the last Even Word may hold one more (R94). -/
def State.brought (s : State) (n : Nat) : Nat := if n = 0 then 0 else n + (s.fetchPc.toNat + n) % 2

/-- The cycles of a fetch, the first of them Non-Sequential after a break (R94, R95). -/
def FetchCycles (broken : Bool) (l : List BusEvent) : Prop :=
  (∀ e ∈ l.head?, e.status = if broken then .fetchBreak else .fetch) ∧ ∀ e ∈ l.tail, e.status = .fetch

theorem refreshed_queue (s : State) : s.refreshed = { s with queue := s.refreshed.queue } := by
  unfold State.refreshed
  split <;> rfl

theorem refresh_apply (s : State) : refresh s = .ok () s.refreshed := by
  unfold refresh
  rw [bind_apply]
  simp only [look]
  cases c : s.coherent with
  | false => simp [State.refreshed, c]; rfl
  | true =>
    cases q : s.queue with
    | nil =>
      have same : s.refreshed = s := by
        rw [State.refreshed, if_pos c, q]
        exact congrArg (fun x => { s with queue := x }) q.symm
      rw [same]
      rfl
    | cons => rfl

theorem gathered_zero (s : State) : s.gathered 0 s.bus = s.refreshed := by
  rw [refreshed_queue]
  simp [State.gathered, loadBytes]

theorem reread_append (s : State) (a : Addr) (xs ys : List Byte) :
    s.reread a (xs ++ ys) = s.reread a xs ++ s.reread (a + BitVec.ofNat 24 xs.length) ys := by
  induction xs generalizing a with
  | nil => simp [State.reread]
  | cons x xs ih => rw [List.cons_append, State.reread, State.reread, ih, List.length_cons, addr_succ, List.cons_append]

theorem reread_reread (s : State) (a : Addr) (xs : List Byte) : s.reread a (s.reread a xs) = s.reread a xs := by
  induction xs generalizing a with
  | nil => rfl
  | cons x xs ih =>
    simp only [State.reread, ih]
    split <;> rfl

theorem reread_loadBytes (s : State) (a : Addr) (m : Nat) : s.reread a (loadBytes s.mem a m) = loadBytes s.mem a m := by
  induction m generalizing a with
  | zero => rfl
  | succ m ih =>
    rw [loadBytes, State.reread, ih]
    split <;> rfl

theorem reread_congr {s t : State} (map : t.memMap = s.memMap) (mem : t.mem = s.mem) : t.reread = s.reread := by
  funext a xs
  induction xs generalizing a with
  | nil => rfl
  | cons x xs ih =>
    have kind : t.kindAt a = s.kindAt a := by rw [State.kindAt, map]; rfl
    simp only [State.reread, ih, kind, State.byteAt, mem]

/-- The bytes that are in the queue, and those fetched, are as memory holds them. -/
theorem gathered_refreshed {s : State} {m : Nat} {b : List PinEvent}
    (at_ : s.fetchPc = s.pc + BitVec.ofNat 24 s.refreshed.queue.length) :
    (s.gathered m b).refreshed = s.gathered m b := by
  unfold State.refreshed
  split
  · next c =>
    have c' : s.coherent = true := c
    have q : s.refreshed.queue = s.reread s.pc s.queue := by rw [State.refreshed, if_pos c']
    have same : (s.gathered m b).reread = s.reread := reread_congr rfl rfl
    have kept : (s.gathered m b).reread s.pc (s.gathered m b).queue = (s.gathered m b).queue := by
      rw [same, State.gathered, reread_append, ← at_, reread_loadBytes]
      simp only [q, reread_reread]
    exact congrArg (fun q => { s.gathered m b with queue := q }) kept
  · rfl

/-- One more fetch cycle. -/
theorem gathered_gathered {s : State} {m k : Nat} {b c : List PinEvent}
    (at_ : s.fetchPc = s.pc + BitVec.ofNat 24 s.refreshed.queue.length) :
    (s.gathered m b).gathered k c = s.gathered (m + k) c := by
  have bytes := loadBytes_append s.mem s.fetchPc m k
  have q : (s.gathered m b).refreshed.queue = (s.gathered m b).queue := by rw [gathered_refreshed at_]
  unfold State.gathered at q ⊢
  simp only [q, bytes, List.append_assoc, BitVec.ofNat_add, BitVec.add_assoc]
  cases m <;> cases k <;> simp

theorem gathered_at {s : State} {m : Nat} {b : List PinEvent}
    (at_ : s.fetchPc = s.pc + BitVec.ofNat 24 s.refreshed.queue.length) :
    (s.gathered m b).fetchPc = (s.gathered m b).pc + BitVec.ofNat 24 (s.gathered m b).refreshed.queue.length := by
  rw [gathered_refreshed at_]
  simp only [State.gathered, List.length_append, loadBytes_length, BitVec.ofNat_add, ← BitVec.add_assoc, ← at_]

theorem demandFetch_apply {s : State} (hs : Answers s) :
    demandFetch s = .ok () (s.enqueue (loadBytes s.mem s.fetchPc s.fetchWidth)) := by
  unfold demandFetch
  rw [bind_apply, between_quiet hs.2]
  simp only [bind_apply, look, blocked_of_answers hs, change, answer_of_answers hs]

/-- The fetch cycle that comes next. -/
theorem demandFetch_gathered {s : State} (hs : Answers s) : ∃ e : BusEvent,
    e.status = (if s.broken then .fetchBreak else .fetch) ∧
    demandFetch s.refreshed = .ok () (s.gathered s.fetchWidth (s.bus ++ [.cycle e])) := by
  have wide : (s.fetchWidth == 0) = false := by
    unfold State.fetchWidth
    split <;> rfl
  let bs := loadBytes s.mem s.fetchPc s.fetchWidth
  refine ⟨⟨if s.broken then .fetchBreak else .fetch, false, s.fetchPc, bs.length, BitVec.ofNat 16 (bytesNat bs), false,
    s.flag .b, s.flag .u⟩, rfl, ?_⟩
  obtain ⟨q, e⟩ : ∃ q, s.refreshed = { s with queue := q } := ⟨_, refreshed_queue s⟩
  have ht : Answers { s with queue := q } := answers_congr rfl hs
  rw [State.gathered, e, demandFetch_apply ht, State.enqueue, logCycle_quiet ht.2, wide, Bool.and_false]
  rfl

theorem fetchInstr_of_verdict {s : State} (k : Nat) (h : s.verdict 0 ≠ .more) :
    fetchInstr (k + 1) s = .ok (s.verdict 0) (s.gathered 0 s.bus) := by
  have now : s.refreshed.decoded = s.verdict 0 := by rw [State.verdict, gathered_zero]
  rw [fetchInstr, bind_apply, refresh_apply, gathered_zero]
  simp only [bind_apply, look, now]
  generalize s.verdict 0 = f at *
  cases f with
  | more => exact absurd rfl h
  | _ => rfl

theorem fetchInstr_of_more {s t : State} {k : Nat} (h : s.verdict 0 = .more)
    (fetched : demandFetch s.refreshed = .ok () t) : fetchInstr (k + 1) s = fetchInstr k t := by
  have now : s.refreshed.decoded = .more := by rw [← h, State.verdict, gathered_zero]
  rw [fetchInstr, bind_apply, refresh_apply]
  simp only [bind_apply, look, now, fetched]

/-- An Odd Byte from an odd address, an Even Word from an even one: the next address is even (R94). -/
theorem fetchWidth_parity (s : State) : s.fetchWidth = 2 - s.fetchPc.toNat % 2 ∧
    (s.fetchPc + BitVec.ofNat 24 s.fetchWidth).toNat % 2 = 0 := by
  unfold State.fetchWidth
  split
  · next odd =>
    have odd := (odd_iff _).mp odd
    bv_omega
  · next even =>
    have even := mt (odd_iff _).mpr even
    bv_omega

/-- The instruction fetch goes on until the bytes are no longer only the beginning of an instruction. -/
theorem fetchInstr_gathered {n k : Nat} {s : State} (hs : Answers s) (fuel : n < k)
    (at_ : 0 < n → s.fetchPc = s.pc + BitVec.ofNat 24 s.refreshed.queue.length)
    (before : ∀ m < n, s.verdict m = .more) (here : s.verdict n ≠ .more) (past : 0 < n → s.verdict (n + 1) ≠ .more) :
    ∃ l : List BusEvent, FetchCycles s.broken l ∧
      fetchInstr k s = .ok (s.verdict (s.brought n)) (s.gathered (s.brought n) (s.bus ++ l.map .cycle)) := by
  induction k generalizing n s with
  | zero => exact absurd fuel (Nat.not_lt_zero n)
  | succ k ih =>
    by_cases some : n = 0
    · subst some
      refine ⟨[], ⟨by simp, by simp⟩, ?_⟩
      rw [fetchInstr_of_verdict k here]
      simp [State.brought]
    · have wanted : 0 < n := Nat.pos_of_ne_zero some
      have at_ := at_ wanted
      obtain ⟨e, status, fetched⟩ := demandFetch_gathered hs
      let w := s.fetchWidth
      let t := s.gathered w (s.bus ++ [.cycle e])
      have ahead (m : Nat) : t.verdict m = s.verdict (w + m) := by
        unfold State.verdict
        rw [gathered_gathered at_]
        rfl
      obtain ⟨width, even⟩ : w = 2 - s.fetchPc.toNat % 2 ∧ t.fetchPc.toNat % 2 = 0 := fetchWidth_parity s
      have same : s.brought n = w + t.brought (n - w) := by
        unfold State.brought
        split <;> split <;> omega
      obtain ⟨l, ⟨first, rest⟩, run⟩ := ih (n := n - w) (s := t) (answers_congr rfl hs) (by omega) (fun _ => gathered_at at_)
        (fun m hm => (ahead m).trans (before _ (by omega)))
        (by
          rw [ahead]
          rcases Nat.lt_or_ge n w with short | long
          · have last : w + (n - w) = n + 1 := by omega
            exact last ▸ past wanted
          · exact (Nat.add_sub_cancel' long).symm ▸ here)
        (fun more => by
          rw [ahead]
          have next : w + (n - w + 1) = n + 1 := by omega
          exact next ▸ past wanted)
      refine ⟨e :: l, ⟨fun x hx => by cases hx; exact status, fun x hx => ?_⟩, ?_⟩
      · cases l with
        | nil => cases hx
        | cons y ys =>
          have sequential : t.broken = false := by
            have wide : w ≠ 0 := by omega
            simp [t, State.gathered, wide]
          rw [sequential] at first
          rcases List.mem_cons.mp hx with rfl | hx
          · exact first x rfl
          · exact rest x hx
      · rw [fetchInstr_of_more (before 0 wanted) fetched, run, ahead, gathered_gathered at_, ← same]
        simp [t, State.gathered]

/-! ### The decoded instruction -/

theorem boundary_runInstr {s : State} {x : Input} (reset : x.reset = false) (nmi : s.nmiLatch = false)
    (int : x.int = false ∨ s.flag .i = false) (wait : s.waiting = false) (p : s.flag .p = false) :
    s.boundary x = s.runInstr := by
  have masked : (x.int && s.flag .i) = false := by rcases int with e | e <;> simp [e]
  simp [State.boundary, reset, nmi, masked, wait, p]

theorem verdict_of_decode {s : State} {m : Nat} {i : Instr} {rest : List Byte}
    (h : decode (s.refreshed.queue ++ loadBytes s.mem s.fetchPc m) = .ok (i, rest)) : s.verdict m = .instr i rest := by
  rw [State.verdict, State.decoded, State.gathered, h]

theorem verdict_of_error {s : State} {m : Nat} {e : DecodeError}
    (h : decode (s.refreshed.queue ++ loadBytes s.mem s.fetchPc m) = .error e) :
    s.verdict m = (s.gathered m s.bus).rejected e := by
  rw [State.verdict, State.decoded, State.gathered, h]

theorem runInstr_of_fetched {s t : State} {i : Instr} {rest : List Byte}
    (h : fetchInstr (maxLength + 1) s = .ok (.instr i rest) t) : s.runInstr = exec i { t with queue := rest } := by
  rw [State.runInstr, h]

/-- In a state where nothing comes between the bus cycles, nothing follows an instruction's last cycle. -/
theorem closing_exec (i : Instr) {s : State} (h : Quiet s) : closing (exec i s) = exec i s := by
  cases e : exec i s with
  | next u =>
    rcases (closes_exec i s).quiet h u e with quiet | ⟨v, rfl⟩
    · exact congrArg Host.Outcome.next (close_quiet quiet)
    · rfl
  | _ => rfl

/-- The state from which a fetched instruction runs. -/
theorem gathered_fetched {s : State} {n : Nat} (hn : 0 < n) (bus : List PinEvent) :
    { s.gathered (s.brought n) bus with queue := loadBytes s.mem (s.fetchPc + BitVec.ofNat 24 n) (s.brought n - n) } =
      s.fetched n bus := by
  have last : (s.fetchPc + BitVec.ofNat 24 n).getLsbD 0 = true ↔ (s.fetchPc.toNat + n) % 2 = 1 := by
    rw [odd_iff]
    bv_omega
  have some : s.brought n = n + (s.fetchPc.toNat + n) % 2 := if_neg (Nat.ne_of_gt hn)
  have wanted : (s.brought n == 0) = false := by
    rw [beq_eq_false_iff_ne]
    omega
  unfold State.fetched State.gathered
  rw [wanted, Bool.and_false]
  dsimp only
  split
  · next odd =>
    rw [some, last.mp odd, Nat.add_sub_cancel_left, BitVec.ofNat_add, ← BitVec.add_assoc]
    rfl
  · next even =>
    have exact_ : (s.fetchPc.toNat + n) % 2 = 0 := by
      have := mt last.mpr even
      omega
    rw [some, exact_, Nat.add_zero, Nat.sub_self]
    rfl

/-- The beginning of an instruction is not enough. -/
theorem verdict_more {s : State} {i : Instr} {n m : Nat} (hi : i.WF) (fpu : isFloat i = true → s.cfgF = true)
    (bytes : encode i = s.refreshed.queue ++ loadBytes s.mem s.fetchPc n) (hm : m < n) : s.verdict m = .more := by
  have split : encode i = (s.refreshed.queue ++ loadBytes s.mem s.fetchPc m) ++
      loadBytes s.mem (s.fetchPc + BitVec.ofNat 24 m) (n - m) := by
    rw [bytes, List.append_assoc, ← loadBytes_append, Nat.add_sub_cancel' (Nat.le_of_lt hm)]
  have whole : decode (encode i) = .ok (i, []) := by
    simpa using decodeEncode i [] hi
  have tail : loadBytes s.mem (s.fetchPc + BitVec.ofNat 24 m) (n - m) ≠ [] := fun none => by
    have := congrArg List.length none
    rw [loadBytes_length, List.length_nil] at this
    omega
  have short := decode_prefix (split ▸ whole) tail
  have head : ((s.refreshed.queue ++ loadBytes s.mem s.fetchPc m).head?.any isSlaveId && !s.cfgF) = false := by
    cases float : isFloat i with
    | true => rw [fpu float, Bool.not_true, Bool.and_false]
    | false =>
      have first := encode_no_slave float
      rw [split] at first
      cases e : s.refreshed.queue ++ loadBytes s.mem s.fetchPc m with
      | nil => rfl
      | cons b bs =>
        rw [e] at first
        have first : isSlaveId b = false := first
        simp [first]
  rw [verdict_of_error short, State.rejected, if_neg (by
    rw [Bool.not_eq_true]
    exact head)]

/-- Settles O52: the bytes of the queue and those fetched are an instruction's, and fewer of them are not. -/
theorem stepRunsDecoded : Obligations.StepRunsDecoded := by
  intro x s s1 i rest sampled reset nmi int wait p hi q
  have run : step s = closing s1.runInstr := by
    rw [step_eq_closing sampled, boundary_runInstr reset nmi int wait p]
  refine ⟨fun held => ?_, fun n answers fpu at_ wanted bytes => ?_⟩
  · have now : s1.verdict 0 = .instr i rest := verdict_of_decode (by
      rw [loadBytes, List.append_nil]
      exact (congrArg decode held).trans (decodeEncode i rest hi))
    have fetched := fetchInstr_of_verdict maxLength (s := s1) (by rw [now]; exact fun e => nomatch e)
    rw [now, gathered_zero, refreshed_queue] at fetched
    rw [run, runInstr_of_fetched fetched]
    cases exec i { s1 with queue := rest } <;> rfl
  · have here (m : Nat) (hm : n ≤ m) :
        s1.verdict m = .instr i (loadBytes s1.mem (s1.fetchPc + BitVec.ofNat 24 n) (m - n)) := verdict_of_decode (by
      have whole := decodeEncode i (loadBytes s1.mem (s1.fetchPc + BitVec.ofNat 24 n) (m - n)) hi
      rwa [bytes, List.append_assoc, ← loadBytes_append, Nat.add_sub_cancel' hm] at whole)
    have short : n ≤ maxLength := by
      have := congrArg List.length bytes
      have := encode_length i
      simp only [List.length_append, loadBytes_length] at *
      omega
    obtain ⟨l, cycles, fetched⟩ := fetchInstr_gathered answers (Nat.lt_succ_of_le short) (fun _ => at_)
      (fun m => verdict_more hi fpu bytes) (by rw [here n (Nat.le_refl n)]; exact fun e => nomatch e)
      (fun _ => by rw [here (n + 1) (Nat.le_succ n)]; exact fun e => nomatch e)
    have enough : n ≤ s1.brought n := by
      unfold State.brought
      split <;> omega
    rw [here _ enough] at fetched
    refine ⟨l, cycles.1, cycles.2, ?_⟩
    have quiet : Quiet (s1.fetched n (s1.bus ++ l.map .cycle)) := by
      unfold State.fetched
      dsimp only
      split <;> exact answers.2
    rw [run, runInstr_of_fetched fetched, gathered_fetched wanted, closing_exec i quiet]

end Sys2Proof.Machine
end

section
/-! Instructions that the spec refuses, and bytes that name no instruction (30_encoding.md R143, R163, R164;
60_exceptions.md R527, R531). -/
namespace Sys2Proof.Machine

open Sys2Proof.Safety

/-! ### Bytes that name no instruction -/

/-- The bytes of an instruction of a floating-point format that raises Trap(UND) whatever it is (R392). -/
def State.floatUndefined (s : State) (bs : List Byte) : Prop :=
  s.cfgF = false ∧ ∃ b ∈ [(0x3E : Byte), 0xBE, 0xFE], bs.head? = some b

/-- Bytes that raise Trap(UND) (R163, R164, R392). -/
def State.raisesUnd (s : State) (e : DecodeError) (bs : List Byte) : Prop :=
  e = .undefinedFirstByte ∨ (e = .unassigned ∧ s.undPolicy = .trapUnd) ∨ s.floatUndefined bs

theorem floatUndefined_iff (s : State) (bs : List Byte) :
    s.floatUndefined bs ↔ (bs.head?.any isSlaveId && !s.cfgF) = true := by
  cases bs with
  | nil => simp [State.floatUndefined]
  | cons b bs => simp [State.floatUndefined, isSlaveId, and_comm, or_assoc]

theorem floatUndefined_of_append {s : State} {bs cs : List Byte} (h : s.floatUndefined bs) :
    s.floatUndefined (bs ++ cs) := by
  obtain ⟨off, b, hb, head⟩ := h
  cases bs with
  | nil => cases head
  | cons => exact ⟨off, b, hb, head⟩

theorem rejected_of_raisesUnd {s : State} {e : DecodeError} (h : s.raisesUnd e s.queue) : s.rejected e = .undefined := by
  unfold State.rejected
  split
  · rfl
  · next known =>
    rcases h with rfl | ⟨rfl, policy⟩ | float
    · rfl
    · rw [policy]
    · exact absurd ((floatUndefined_iff _ _).mp float) known

theorem rejected_of_not_raisesUnd {s : State} {e : DecodeError} (h : ¬s.raisesUnd e s.queue) (he : e ≠ .outOfBytes) :
    s.rejected e = .refused e := by
  have known : ¬(s.queue.head?.any isSlaveId && !s.cfgF) = true :=
    fun float => h (.inr (.inr ((floatUndefined_iff _ _).mpr float)))
  unfold State.rejected
  rw [if_neg known]
  cases e with
  | outOfBytes => exact absurd rfl he
  | undefinedFirstByte => exact absurd (.inl rfl) h
  | unassigned =>
    cases policy : s.undPolicy with
    | trapUnd => exact absurd (.inr (.inl ⟨rfl, policy⟩)) h
    | refuse => simp only
  | _ => rfl

theorem rejected_more {s : State} (h : ¬s.floatUndefined s.queue) : s.rejected .outOfBytes = .more := by
  rw [State.rejected, if_neg (mt (floatUndefined_iff _ _).mpr h)]

/-! ### Steps -/

/-- Trap(UND) at bytes that fetch cycles have brought. -/
theorem takes_undefined {s : State} (m : Nat) (bus : List PinEvent) (ram : Ram s) (wf : Memory.wf s.mem = true) :
    ∃ u, (s.gathered m bus).undefined = .next u ∧ Quiet u ∧ Trapped s u 10 := by
  let t := s.gathered m bus
  have ht : Ram t := ram
  obtain ⟨u, run, agree, quiet⟩ := settle_of_runs (runs_takeTrap .und t t.begin) (answers_congr rfl (answers_of_ram ht))
  have trapped : Trapped t u 10 := trapped_of_agree agree (trapped_of_handed .und (handed_begin t) ht.1 wf)
  exact ⟨u, run, quiet, trapped⟩

theorem runInstr_of_undefined {s t : State} (h : fetchInstr (maxLength + 1) s = .ok .undefined t) :
    s.runInstr = t.undefined := by
  rw [State.runInstr, h]

theorem runInstr_of_refused {s t : State} {e : DecodeError} (quiet : Quiet t)
    (h : fetchInstr (maxLength + 1) s = .ok (.refused e) t) : s.runInstr = .refused (.undefinedEncoding e) := by
  rw [State.runInstr, h]
  exact if_neg (by rw [quiet.2]; decide)

/-! ### The bytes at PC -/

section

variable {s : State} {e : DecodeError} {n : Nat}

/-- The bytes in the queue and `m` bytes after them. -/
def State.ahead (s : State) (m : Nat) : List Byte := s.refreshed.queue ++ loadBytes s.mem s.fetchPc m

theorem ahead_append (s : State) {m n : Nat} (h : m ≤ n) : ∃ cs, s.ahead n = s.ahead m ++ cs :=
  ⟨loadBytes s.mem (s.fetchPc + BitVec.ofNat 24 m) (n - m), by
    rw [State.ahead, State.ahead, List.append_assoc, ← loadBytes_append, Nat.add_sub_cancel' h]⟩

theorem ahead_nonempty (s : State) {m : Nat} (h : 0 < m) : s.ahead m ≠ [] := fun none => by
  have := congrArg List.length none
  rw [State.ahead, List.length_append, loadBytes_length, List.length_nil] at this
  omega

/-- The first of the bytes tells that the format is a floating-point one. -/
theorem floatUndefined_ahead {m : Nat} (h : s.floatUndefined (s.ahead n)) (some : s.ahead m ≠ []) :
    s.floatUndefined (s.ahead m) := by
  rcases Nat.le_total n m with le | le
  · obtain ⟨cs, e⟩ := ahead_append s le
    exact e ▸ floatUndefined_of_append h
  · obtain ⟨cs, e⟩ := ahead_append s le
    rw [e] at h
    obtain ⟨off, b, hb, head⟩ := h
    refine ⟨off, b, hb, ?_⟩
    cases bytes : s.ahead m with
    | nil => exact absurd bytes some
    | cons => rw [bytes] at head; exact head

theorem verdict_of_raisesUnd {m : Nat} (h : decode (s.ahead m) = .error e) (und : s.raisesUnd e (s.ahead m)) :
    s.verdict m = .undefined := (verdict_of_error h).trans (rejected_of_raisesUnd und)

theorem verdict_of_not_raisesUnd {m : Nat} (h : decode (s.ahead m) = .error e) (he : e ≠ .outOfBytes)
    (not : ¬s.raisesUnd e (s.ahead m)) : s.verdict m = .refused e :=
  (verdict_of_error h).trans (rejected_of_not_raisesUnd not he)

theorem verdict_of_outOfBytes {m : Nat} (h : decode (s.ahead m) = .error .outOfBytes)
    (not : ¬s.floatUndefined (s.ahead m)) : s.verdict m = .more := (verdict_of_error h).trans (rejected_more not)

/-- The instruction fetch ends with what the bytes are, if that does not depend on the last byte of an Even Word. -/
theorem fetchInstr_of_verdicts {f : Fetched} (hs : Answers s) (bound : n ≤ maxLength)
    (at_ : 0 < n → s.fetchPc = s.pc + BitVec.ofNat 24 s.refreshed.queue.length)
    (before : ∀ m < n, s.verdict m = .more) (here : s.verdict n = f) (past : 0 < n → s.verdict (n + 1) = f)
    (hf : f ≠ .more) : ∃ m bus, fetchInstr (maxLength + 1) s = .ok f (s.gathered m bus) := by
  obtain ⟨l, -, run⟩ := fetchInstr_gathered hs (Nat.lt_succ_of_le bound) at_ before (here ▸ hf) fun some => past some ▸ hf
  have ended : s.verdict (s.brought n) = f := by
    rcases show s.brought n = n ∨ s.brought n = n + 1 ∧ 0 < n by unfold State.brought; split <;> omega with e | ⟨e, some⟩
    · rw [e, here]
    · rw [e, past some]
  exact ⟨_, _, ended ▸ run⟩

variable (hs : Answers s) (bound : n ≤ maxLength) (before : ∀ k < n, decode (s.ahead k) = .error .outOfBytes)
  (here : decode (s.ahead n) = .error e) (he : e ≠ .outOfBytes)
  (next : n = 0 ∨ s.fetchPc = s.pc + BitVec.ofNat 24 s.refreshed.queue.length ∧ decode (s.ahead (n + 1)) = .error e)

include hs bound before here next

/-- The fetch of a floating-point format's bytes with CFG.F = 0 ends at the first byte. -/
theorem fetchInstr_of_floatUndefined (h : s.floatUndefined (s.ahead n)) :
    ∃ m bus, fetchInstr (maxLength + 1) s = .ok .undefined (s.gathered m bus) := by
  have und {m : Nat} (hm : m ≤ n ∨ m = n + 1 ∧ 0 < n) (some : s.ahead m ≠ []) : s.verdict m = .undefined := by
    have failed : ∃ x, decode (s.ahead m) = .error x := by
      rcases hm with le | ⟨rfl, pos⟩
      · rcases Nat.lt_or_eq_of_le le with lt | rfl
        · exact ⟨_, before m lt⟩
        · exact ⟨_, here⟩
      · rcases next with rfl | ⟨-, next⟩
        · exact absurd pos (Nat.lt_irrefl 0)
        · exact ⟨_, next⟩
    obtain ⟨x, failed⟩ := failed
    exact verdict_of_raisesUnd failed (.inr (.inr (floatUndefined_ahead h some)))
  by_cases empty : s.ahead 0 = []
  · have pos : 0 < n := Nat.pos_of_ne_zero fun zero => by
      obtain ⟨-, b, -, head⟩ := h
      rw [zero, empty] at head
      cases head
    have more : s.verdict 0 = .more := by
      have nothing : ¬s.floatUndefined [] := fun ⟨_, _, _, head⟩ => nomatch head
      exact verdict_of_outOfBytes (empty ▸ rfl) (empty ▸ nothing)
    refine fetchInstr_of_verdicts (n := 1) hs (by decide) (fun _ => (next.resolve_left (Nat.ne_of_gt pos)).1)
      (fun m hm => ?_) (und (.inl pos) (ahead_nonempty s Nat.one_pos)) (fun _ => und ?_ (ahead_nonempty s Nat.two_pos))
      fun e => nomatch e
    · obtain rfl : m = 0 := Nat.lt_one_iff.mp hm
      exact more
    · omega
  · have now := und (.inl (Nat.zero_le n)) empty
    exact ⟨0, s.bus, now ▸ fetchInstr_of_verdict maxLength (by rw [now]; exact fun e => nomatch e)⟩

/-- The fetch of other bytes goes on until they are not only the beginning of an instruction. -/
theorem fetchInstr_of_error {f : Fetched} (known : ¬s.floatUndefined (s.ahead n)) (hf : f ≠ .more)
    (ends : ∀ m, decode (s.ahead m) = .error e → ¬s.floatUndefined (s.ahead m) → s.verdict m = f) :
    ∃ m bus, fetchInstr (maxLength + 1) s = .ok f (s.gathered m bus) := by
  have still (m : Nat) (hm : s.ahead m ≠ [] → s.ahead n ≠ []) : ¬s.floatUndefined (s.ahead m) := fun float => by
    have some : s.ahead m ≠ [] := fun none => by
      obtain ⟨-, b, -, head⟩ := float
      rw [none] at head
      cases head
    exact known (floatUndefined_ahead float (hm some))
  have longer {m : Nat} (hm : m ≤ n) (some : s.ahead m ≠ []) : s.ahead n ≠ [] := by
    obtain ⟨cs, e⟩ := ahead_append s hm
    exact e ▸ List.append_ne_nil_of_left_ne_nil some cs
  refine fetchInstr_of_verdicts hs bound (fun pos => (next.resolve_left (Nat.ne_of_gt pos)).1)
    (fun m hm => verdict_of_outOfBytes (before m hm) (still m (longer (Nat.le_of_lt hm)))) (ends n here known)
    (fun pos => ends (n + 1) (next.resolve_left (Nat.ne_of_gt pos)).2 (still _ fun _ => ahead_nonempty s pos)) hf

theorem fetchInstr_undefined (h : s.raisesUnd e (s.ahead n)) :
    ∃ m bus, fetchInstr (maxLength + 1) s = .ok .undefined (s.gathered m bus) := by
  by_cases float : s.floatUndefined (s.ahead n)
  · exact fetchInstr_of_floatUndefined hs bound before here next float
  · refine fetchInstr_of_error hs bound before here next float (fun e => nomatch e) fun m failed _ =>
      verdict_of_raisesUnd failed ?_
    rcases h with first | unassigned | float'
    · exact .inl first
    · exact .inr (.inl unassigned)
    · exact absurd float' float

theorem fetchInstr_refused (he : e ≠ .outOfBytes) (h : ¬s.raisesUnd e (s.ahead n)) :
    ∃ m bus, fetchInstr (maxLength + 1) s = .ok (.refused e) (s.gathered m bus) := by
  refine fetchInstr_of_error hs bound before here next (fun float => h (.inr (.inr float))) (fun e => nomatch e)
    fun m failed known => verdict_of_not_raisesUnd failed he ?_
  rintro (first | unassigned | float)
  · exact h (.inl first)
  · exact h (.inr (.inl unassigned))
  · exact known float

end

/-! ### Refused forms -/

theorem exec_of_illFormed {j : Instr} {e : IllFormed} {s : State} (h : j.check = some e)
    (fpu : isFloat j = true → s.cfgF = true) (hs : s.resetIn ≠ some 0) : exec j s = .refused (.illegalForm e) := by
  obtain ⟨x, -, -, run⟩ := sound j
  rcases run s with run | ⟨float, off, -⟩
  · rw [run, perform_illFormed h x hs]
  · exact absurd ((fpu float).symm.trans off) (by decide)

theorem decode_undefinedFirstByte {b : Byte} (rest : List Byte)
    (h : b.setWidth 4 = (6 : BitVec 4) ∨ b ∈ [(0x1E : Byte), 0x5E, 0x7E, 0x8E, 0x9E, 0xDE]) :
    decode (b :: rest) = .error .undefinedFirstByte := by
  have first : Parse.instr b = Parse.reject .undefinedFirstByte := by
    rcases h with low | listed
    · rw [Parse.instr, low]
      rfl
    · simp only [List.mem_cons, List.not_mem_nil, or_false] at listed
      rcases listed with rfl | rfl | rfl | rfl | rfl | rfl <;> rfl
  have reads : decode (b :: rest) = Parse.instr b rest := rfl
  rw [reads, first]
  rfl

/-- Settles O53: a refused form is refused before anything else; bytes that name no instruction are fetched up to the
one that tells. -/
theorem illFormedOrUnassigned : Obligations.IllFormedOrUnassigned := by
  refine ⟨fun j e s h fpu hs => exec_of_illFormed h fpu hs, ?bytes, fun b rest => decode_undefinedFirstByte rest⟩
  intro x s s1 e n sampled reset nmi int wait p ram wf q bytes bound before here he next undefined
  have run : step s = closing s1.runInstr := by
    rw [step_eq_closing sampled, boundary_runInstr reset nmi int wait p]
  have answers := answers_of_ram ram
  refine ⟨fun h => ?_, fun h => ?_⟩
  · obtain ⟨m, bus, fetched⟩ := fetchInstr_undefined answers bound before here next h
    obtain ⟨u, taken, quiet, trapped⟩ := takes_undefined m bus ram wf
    refine ⟨u, ?_, trapped⟩
    rw [run, runInstr_of_undefined fetched, taken]
    exact congrArg Host.Outcome.next (close_quiet quiet)
  · obtain ⟨m, bus, fetched⟩ := fetchInstr_refused answers bound before here next he h
    have quiet : Quiet (s1.gathered m bus) := ram.2
    rw [run, runInstr_of_refused quiet fetched]
    rfl

end Sys2Proof.Machine
end

section
/-! The numbers of the floating formats (47_floating_point.md R393): a pattern's exact dyadic number is the rational number it
stands for, and a format has one pattern for a number. -/
namespace Sys2Proof.Machine

open Sys2Proof.Safety

/-! ### Dyadic numbers -/

/-- The rational number that a dyadic one is. -/
def Dyadic.value (d : Dyadic) : ℚ := d.num * 2 ^ d.exp

theorem zpow_add_two (a b : Int) : (2 : ℚ) ^ (a + b) = 2 ^ a * 2 ^ b := zpow_add₀ two_ne_zero a b

theorem zpow_shift {a e : Int} (h : e ≤ a) : (2 : ℚ) ^ a = ((2 ^ (a - e).toNat : Int) : ℚ) * 2 ^ e := by
  have rise : ((a - e).toNat : Int) = a - e := Int.toNat_of_nonneg (Int.sub_nonneg.mpr h)
  rw [Int.cast_pow, Int.cast_ofNat, ← zpow_natCast, rise, ← zpow_add_two, Int.sub_add_cancel]

theorem value_add (x y : Dyadic) : (x.add y).value = x.value + y.value := by
  simp only [Dyadic.value, Dyadic.add]
  rw [zpow_shift (min_le_left x.exp y.exp), zpow_shift (min_le_right x.exp y.exp)]
  push_cast
  ring

theorem value_neg (x : Dyadic) : x.neg.value = -x.value := by
  simp [Dyadic.value, Dyadic.neg]

theorem value_mul (x y : Dyadic) : (x.mul y).value = x.value * y.value := by
  simp only [Dyadic.value, Dyadic.mul, zpow_add_two]
  push_cast
  ring

theorem value_abs (x : Dyadic) : (⟨x.num.natAbs, x.exp⟩ : Dyadic).value = |x.value| := by
  simp [Dyadic.value, abs_mul, abs_zpow]

theorem value_int (n : Int) : (⟨n, 0⟩ : Dyadic).value = n := by simp [Dyadic.value]

theorem value_scaled (x : Dyadic) (k : Int) : (⟨x.num, x.exp + k⟩ : Dyadic).value = x.value * 2 ^ k := by
  simp only [Dyadic.value, zpow_add_two, mul_assoc]

theorem value_pos_iff (x : Dyadic) : 0 < x.value ↔ 0 < x.num := by
  rw [Dyadic.value, mul_pos_iff_of_pos_right (zpow_pos two_pos _), Int.cast_pos]

theorem value_neg_iff (x : Dyadic) : x.value < 0 ↔ x.num < 0 := by
  have opposite := value_pos_iff x.neg
  rwa [value_neg, neg_pos, Dyadic.neg, Int.neg_pos] at opposite

theorem value_eq_zero_iff (x : Dyadic) : x.value = 0 ↔ x.num = 0 := by
  rw [Dyadic.value, mul_eq_zero, Int.cast_eq_zero]
  exact or_iff_left (zpow_ne_zero _ two_ne_zero)

/-! ### The number of a pattern -/

/-- The exponent field of a pattern. -/
def expField (t : FSize) (v : Quad) : Nat := v.toNat / 2 ^ fracBits t % 2 ^ expBits t

/-- The fraction of a pattern with its hidden 1, as an integer. -/
def significand (t : FSize) (v : Quad) : Nat := 2 ^ fracBits t + v.toNat % 2 ^ fracBits t

/-- The sign bit of a pattern. -/
def negative (t : FSize) (v : Quad) : Bool := v.getLsbD (fracBits t + expBits t)

/-- The dyadic number of a normalised pattern. -/
def dyadic (t : FSize) (v : Quad) : Dyadic :=
  ⟨if negative t v then -(significand t v : Int) else significand t v, (expField t v : Int) - expBias t - fracBits t⟩

/-- The pattern is not that of a normalised number. -/
def special (t : FSize) (v : Quad) : Prop := expField t v = 0 ∨ expField t v = 2 ^ expBits t - 1

theorem negative_iff (t : FSize) (v : Quad) : negative t v = true ↔ v.toNat / 2 ^ (fracBits t + expBits t) % 2 = 1 := by
  rw [negative, BitVec.getLsbD, Nat.testBit_eq_decide_div_mod_eq, decide_eq_true_iff]

theorem dyadicOf_some {t : FSize} {v : Quad} (h : ¬special t v) : dyadicOf t v = some (dyadic t v) := by
  have unfolded : dyadicOf t v = some ⟨if v.toNat / 2 ^ (fracBits t + expBits t) % 2 = 1 then
    -(significand t v : Int) else significand t v, (expField t v : Int) - expBias t - fracBits t⟩ := if_neg h
  have sign : (if v.toNat / 2 ^ (fracBits t + expBits t) % 2 = 1 then -(significand t v : Int) else significand t v) =
      if negative t v then -(significand t v : Int) else significand t v := if_congr (negative_iff t v).symm rfl rfl
  rw [sign] at unfolded
  exact unfolded

theorem dyadicOf_none {t : FSize} {v : Quad} (h : special t v) : dyadicOf t v = none := if_pos h

theorem bias_eq (t : FSize) : (2 : Int) ^ (expBits t - 1) - 1 = expBias t := by cases t <;> rfl

theorem value_dyadic (t : FSize) (v : Quad) : (dyadic t v).value =
    let x : ℚ := (1 + ((v.toNat % 2 ^ fracBits t : Nat) : ℚ) / 2 ^ fracBits t) *
      2 ^ ((expField t v : Int) - (2 ^ (expBits t - 1) - 1))
    if negative t v then -x else x := by
  have scaled : (1 + ((v.toNat % 2 ^ fracBits t : Nat) : ℚ) / 2 ^ fracBits t) * 2 ^ ((expField t v : Int) - expBias t) =
      significand t v * 2 ^ ((expField t v : Int) - expBias t - fracBits t) := by
    rw [zpow_sub₀ two_ne_zero _ (fracBits t : Int), zpow_natCast, significand]
    push_cast
    field_simp
  rw [bias_eq, scaled, Dyadic.value, dyadic]
  cases negative t v <;> simp

/-- What a pattern stands for is the rational number of its dyadic number. -/
theorem number_eq (t : FSize) (v : Quad) : number t v = (dyadicOf t v).map Dyadic.value := by
  have unfolded (m k : Nat) (hm : fracBits t = m) (hk : expBits t = k) :
      (if v.toNat / 2 ^ m % 2 ^ k = 0 ∨ v.toNat / 2 ^ m % 2 ^ k = 2 ^ k - 1 then none else
        some (let x : ℚ := (1 + ((v.toNat % 2 ^ m : ℕ) : ℚ) / 2 ^ m) * 2 ^ (((v.toNat / 2 ^ m % 2 ^ k : Nat) : ℤ) - (2 ^ (k - 1) - 1))
          if v.getLsbD (m + k) then -x else x)) = (dyadicOf t v).map Dyadic.value := by
    subst hm hk
    by_cases h : special t v
    · rw [dyadicOf_none h]
      exact if_pos h
    · rw [dyadicOf_some h, Option.map_some, value_dyadic]
      exact if_neg h
  cases t with
  | f => exact unfolded 23 8 rfl rfl
  | l => exact unfolded 52 11 rfl rfl

theorem number_some {t : FSize} {v : Quad} {q : ℚ} (h : number t v = some q) :
    ¬special t v ∧ dyadicOf t v = some (dyadic t v) ∧ (dyadic t v).value = q := by
  rw [number_eq] at h
  by_cases s : special t v
  · rw [dyadicOf_none s] at h
    cases h
  · rw [dyadicOf_some s] at h
    exact ⟨s, dyadicOf_some s, Option.some.inj h⟩

/-! ### The pattern of a number -/

theorem significand_bounds (t : FSize) (v : Quad) :
    2 ^ fracBits t ≤ significand t v ∧ significand t v < 2 ^ (fracBits t + 1) := by
  have low := Nat.mod_lt v.toNat (Nat.two_pow_pos (fracBits t))
  rw [significand, Nat.pow_succ]
  omega

theorem value_natAbs (d : Dyadic) : |d.value| = d.num.natAbs * 2 ^ d.exp := by
  rw [← value_abs]
  simp [Dyadic.value]

theorem natAbs_dyadic (t : FSize) (v : Quad) : (dyadic t v).num.natAbs = significand t v := by
  unfold dyadic
  split <;> simp

theorem dyadic_neg_iff (t : FSize) (v : Quad) : (dyadic t v).num < 0 ↔ negative t v = true := by
  have := (significand_bounds t v).1
  have := Nat.two_pow_pos (fracBits t)
  unfold dyadic
  cases negative t v with
  | true => simp only [if_true, Left.neg_neg_iff, iff_true]; omega
  | false => simp

theorem scaled_bounds {a k : Nat} (x : Int) (h : 2 ^ k ≤ a ∧ a < 2 ^ (k + 1)) :
    (2 : ℚ) ^ (x + k) ≤ a * 2 ^ x ∧ (a : ℚ) * 2 ^ x < 2 ^ (x + k + 1) := by
  have pos : (0 : ℚ) < 2 ^ x := zpow_pos two_pos x
  have lower : (2 : ℚ) ^ k ≤ a := by exact_mod_cast h.1
  have upper : (a : ℚ) < 2 ^ (k + 1) := by exact_mod_cast h.2
  rw [add_assoc, zpow_add_two x k, zpow_add_two x (k + 1), zpow_natCast,
    show (2 : ℚ) ^ ((k : Int) + 1) = 2 ^ (k + 1) by exact_mod_cast zpow_natCast (2 : ℚ) (k + 1),
    mul_comm (2 ^ x : ℚ), mul_comm (2 ^ x : ℚ)]
  exact ⟨mul_le_mul_of_nonneg_right lower pos.le, mul_lt_mul_of_pos_right upper pos⟩

/-- The leading bits of equal numbers have the same weight. -/
theorem weight_eq {a b k m : Nat} {x y : Int} (ha : 2 ^ k ≤ a ∧ a < 2 ^ (k + 1)) (hb : 2 ^ m ≤ b ∧ b < 2 ^ (m + 1))
    (h : (a : ℚ) * 2 ^ x = b * 2 ^ y) : x + k = y + m := by
  obtain ⟨a1, a2⟩ := scaled_bounds x ha
  obtain ⟨b1, b2⟩ := scaled_bounds y hb
  have one : (1 : ℚ) < 2 := by norm_num
  have le := (zpow_lt_zpow_iff_right₀ one).mp (a1.trans_lt (h ▸ b2))
  have ge := (zpow_lt_zpow_iff_right₀ one).mp (b1.trans_lt (h ▸ a2))
  omega

/-- Equal numbers, one of them with the smaller exponent. -/
theorem scale_eq {a b : Nat} {x y : Int} (le : y ≤ x) (h : (a : ℚ) * 2 ^ x = b * 2 ^ y) : b = a * 2 ^ (x - y).toNat := by
  rw [zpow_shift le, ← mul_assoc] at h
  have := mul_right_cancel₀ (zpow_ne_zero y (two_ne_zero (α := ℚ))) h
  exact_mod_cast this.symm

theorem toNat_fields {t : FSize} {v : Quad} (h : v.toNat < 2 ^ (8 * t.bytes)) :
    v.toNat = (if negative t v then 2 ^ (fracBits t + expBits t) else 0) + expField t v * 2 ^ fracBits t +
      (significand t v - 2 ^ fracBits t) := by
  have bits : 8 * t.bytes = fracBits t + expBits t + 1 := by cases t <;> rfl
  have whole := Nat.div_add_mod v.toNat (2 ^ fracBits t)
  have upper := Nat.div_add_mod (v.toNat / 2 ^ fracBits t) (2 ^ expBits t)
  have sign : v.toNat / 2 ^ fracBits t / 2 ^ expBits t = if negative t v then 1 else 0 := by
    have bound : v.toNat / 2 ^ (fracBits t + expBits t) < 2 := by
      rw [Nat.div_lt_iff_lt_mul (Nat.two_pow_pos _), ← Nat.pow_succ']
      rwa [bits] at h
    have bit := negative_iff t v
    rw [Nat.div_div_eq_div_mul, ← Nat.pow_add]
    generalize v.toNat / 2 ^ (fracBits t + expBits t) = top at *
    split
    · next neg => have := bit.mp neg; omega
    · next pos => have := mt bit.mpr pos; omega
  rw [sign] at upper
  rw [significand, Nat.add_sub_cancel_left, expField]
  conv_lhs => rw [← whole, ← upper]
  rw [Nat.pow_add]
  split <;> ring

/-- The pattern of a number is the only one. -/
theorem ofDyadic_eq {t : FSize} {v : Quad} {d : Dyadic} (h : IsNumber t v d.value) : ofDyadic t d = some v := by
  obtain ⟨some, width⟩ := h
  obtain ⟨normal, -, value⟩ := number_some some
  have field : expField t v < 2 ^ expBits t := Nat.mod_lt _ (Nat.two_pow_pos _)
  have normal : expField t v ≠ 0 ∧ expField t v ≠ 2 ^ expBits t - 1 := not_or.mp normal
  have size : (d.num.natAbs : ℚ) * 2 ^ d.exp = significand t v * 2 ^ (dyadic t v).exp := by
    rw [← value_natAbs, ← value, value_natAbs, natAbs_dyadic]
  have sign : d.num < 0 ↔ negative t v = true := by
    rw [← dyadic_neg_iff]
    rw [← value_neg_iff, ← value_neg_iff, value]
  have some : 0 < significand t v := Nat.lt_of_lt_of_le (Nat.two_pow_pos _) (significand_bounds t v).1
  have nonzero : d.num.natAbs ≠ 0 := fun zero => by
    rw [zero, Nat.cast_zero, zero_mul, zero_eq_mul, Nat.cast_eq_zero] at size
    exact size.elim some.ne' (zpow_ne_zero _ two_ne_zero)
  have leading : d.exp + d.num.natAbs.log2 = (dyadic t v).exp + fracBits t :=
    weight_eq ⟨Nat.log2_self_le nonzero, Nat.lt_log2_self⟩ (significand_bounds t v) size
  have exponent : d.exp + d.num.natAbs.log2 + expBias t = expField t v := by
    rw [leading]
    show (expField t v : Int) - expBias t - fracBits t + fracBits t + expBias t = expField t v
    omega
  have inRange : ¬(d.num.natAbs = 0 ∨ (expField t v : Int) < 1 ∨ (2 ^ expBits t - 1 : Int) ≤ expField t v) := by
    have power : (2 : Int) ^ expBits t = (2 ^ expBits t : Nat) := (Nat.cast_pow 2 _).symm
    rw [power]
    generalize 2 ^ expBits t = top at *
    omega
  have pattern : BitVec.ofNat 64 ((if d.num < 0 then 2 ^ (fracBits t + expBits t) else 0) +
      (expField t v : Int).toNat * 2 ^ fracBits t + (significand t v - 2 ^ fracBits t)) = v := by
    rw [if_congr sign rfl rfl, Int.toNat_natCast, ← toNat_fields width, BitVec.ofNat_toNat, BitVec.setWidth_eq]
  unfold ofDyadic
  simp only [exponent]
  rw [if_neg inRange]
  split
  · next le =>
    have scaled : significand t v = d.num.natAbs * 2 ^ (fracBits t - d.num.natAbs.log2) := by
      have shift : (d.exp - (dyadic t v).exp).toNat = fracBits t - d.num.natAbs.log2 := by omega
      exact shift ▸ scale_eq (by omega) size
    rw [← scaled, pattern]
  · next gt =>
    have scaled : d.num.natAbs = significand t v * 2 ^ (d.num.natAbs.log2 - fracBits t) := by
      have shift : ((dyadic t v).exp - d.exp).toNat = d.num.natAbs.log2 - fracBits t := by omega
      exact shift ▸ scale_eq (by omega) size.symm
    have divides := Nat.mul_mod_left (significand t v) (2 ^ (d.num.natAbs.log2 - fracBits t))
    rw [← scaled] at divides
    have quotient := Nat.div_eq_of_eq_mul_left (Nat.two_pow_pos _) scaled
    rw [if_pos divides, quotient, pattern]

/-! ### The operations on exact numbers -/

section

variable {t t' : FSize} {x y z v : Quad} {qx qy qz : ℚ}

theorem both_eq {f : Dyadic → Dyadic → Option Dyadic} {c : Dyadic} (hx : number t x = some qx) (hy : number t y = some qy)
    (hf : f (dyadic t x) (dyadic t y) = some c) (hv : IsNumber t v c.value) : Dyadic.both t x y f = some v := by
  obtain ⟨-, ex, -⟩ := number_some hx
  obtain ⟨-, ey, -⟩ := number_some hy
  simp only [Dyadic.both, ex, ey, Option.bind_eq_bind, Option.bind_some, hf]
  exact ofDyadic_eq hv

theorem faddExact_eq (hx : number t x = some qx) (hy : number t y = some qy) (hv : IsNumber t v (qy + qx)) :
    faddExact t x y = some v := by
  obtain ⟨-, -, rfl⟩ := number_some hx
  obtain ⟨-, -, rfl⟩ := number_some hy
  exact both_eq hx hy rfl (by rwa [value_add])

theorem fsubExact_eq (hx : number t x = some qx) (hy : number t y = some qy) (hv : IsNumber t v (qy - qx)) :
    fsubExact t x y = some v := by
  obtain ⟨-, -, rfl⟩ := number_some hx
  obtain ⟨-, -, rfl⟩ := number_some hy
  exact both_eq hx hy rfl (by rwa [value_add, value_neg, ← sub_eq_add_neg])

theorem fmulExact_eq (hx : number t x = some qx) (hy : number t y = some qy) (hv : IsNumber t v (qy * qx)) :
    fmulExact t x y = some v := by
  obtain ⟨-, -, rfl⟩ := number_some hx
  obtain ⟨-, -, rfl⟩ := number_some hy
  exact both_eq hx hy rfl (by rwa [value_mul])

theorem num_ne_zero (t : FSize) (v : Quad) : (dyadic t v).num ≠ 0 := by
  rw [← Int.natAbs_ne_zero, natAbs_dyadic]
  exact (Nat.lt_of_lt_of_le (Nat.two_pow_pos _) (significand_bounds t v).1).ne'

/-- If a quotient is a dyadic number, the divisor's odd part divides the dividend. -/
theorem dvd_of_value {x y w : Dyadic} (hx : x.num ≠ 0) (h : w.value * x.value = y.value) :
    x.num ∣ y.num * 2 ^ x.num.natAbs.log2 := by
  let e := min (w.exp + x.exp) y.exp
  have integers : w.num * x.num * 2 ^ (w.exp + x.exp - e).toNat = y.num * 2 ^ (y.exp - e).toNat := by
    have scaled : ((w.num * x.num * 2 ^ (w.exp + x.exp - e).toNat : Int) : ℚ) * 2 ^ e =
        ((y.num * 2 ^ (y.exp - e).toNat : Int) : ℚ) * 2 ^ e := by
      rw [Int.cast_mul, mul_assoc, ← zpow_shift (min_le_left _ _), Int.cast_mul y.num, mul_assoc,
        ← zpow_shift (min_le_right _ _)]
      refine Eq.trans ?_ h
      simp only [Dyadic.value, zpow_add_two, Int.cast_mul]
      ring
    exact_mod_cast mul_right_cancel₀ (zpow_ne_zero e (two_ne_zero (α := ℚ))) scaled
  have divides : x.num.natAbs ∣ y.num.natAbs * 2 ^ (y.exp - e).toNat := by
    have := congrArg Int.natAbs integers
    simp only [Int.natAbs_mul, Int.natAbs_pow] at this
    exact ⟨w.num.natAbs * 2 ^ (w.exp + x.exp - e).toNat, this.symm.trans (by ring_nf)⟩
  obtain ⟨j, o, odd, parts⟩ := Nat.exists_eq_two_pow_mul_odd (Int.natAbs_ne_zero.mpr hx)
  have coprime : Nat.Coprime o (2 ^ (y.exp - e).toNat) := (Nat.coprime_two_right.mpr odd).pow_right _
  have divides_num : o ∣ y.num.natAbs := coprime.dvd_of_dvd_mul_right ((Dvd.intro_left _ parts.symm).trans divides)
  have small : j ≤ x.num.natAbs.log2 := by
    rw [Nat.le_log2 (Int.natAbs_ne_zero.mpr hx), parts]
    exact Nat.le_mul_of_pos_right _ odd.pos
  rw [← Int.natAbs_dvd_natAbs, Int.natAbs_mul, Int.natAbs_pow]
  conv_lhs => rw [parts]
  rw [mul_comm]
  exact Nat.mul_dvd_mul divides_num (Nat.pow_dvd_pow 2 small)

theorem quot_eq {x y w : Dyadic} (hx : x.num ≠ 0) (h : w.value * x.value = y.value) :
    ∃ c, y.quot x = some c ∧ c.value = w.value := by
  have divides := dvd_of_value hx h
  refine ⟨_, if_pos ⟨hx, Int.emod_eq_zero_of_dvd divides⟩, ?_⟩
  have nonzero : x.value ≠ 0 := mt (value_eq_zero_iff x).mp hx
  have cast : (x.num : ℚ) ≠ 0 := Int.cast_ne_zero.mpr hx
  have exps : (2 : ℚ) ^ (y.exp - x.exp - x.num.natAbs.log2) * 2 ^ x.num.natAbs.log2 * 2 ^ x.exp = 2 ^ y.exp := by
    rw [← zpow_natCast, ← zpow_add_two, ← zpow_add_two]
    congr 1
    omega
  refine mul_right_cancel₀ nonzero (h ▸ ?_)
  simp only [Dyadic.value, Int.cast_div divides cast]
  rw [← exps]
  push_cast
  field_simp

theorem fdivExact_eq (hx : number t x = some qx) (hy : number t y = some qy) (hv : IsNumber t v (qy / qx)) :
    fdivExact t x y = some v := by
  obtain ⟨-, -, rfl⟩ := number_some hx
  obtain ⟨-, -, rfl⟩ := number_some hy
  obtain ⟨-, -, value⟩ := number_some hv.1
  have nonzero : (dyadic t x).value ≠ 0 := mt (value_eq_zero_iff _).mp (num_ne_zero t x)
  obtain ⟨c, quot, same⟩ := quot_eq (y := dyadic t y) (w := dyadic t v) (num_ne_zero t x)
    (by rw [value, div_mul_cancel₀ _ nonzero])
  exact both_eq hx hy quot (by rwa [same, value])

/-! ### Integers -/

theorem value_of_neg {d : Dyadic} (h : d.exp < 0) : d.value = d.num / ((2 ^ (-d.exp).toNat : Nat) : ℚ) := by
  have fall : ((-d.exp).toNat : Int) = -d.exp := Int.toNat_of_nonneg (by omega)
  rw [Dyadic.value, Nat.cast_pow, Nat.cast_ofNat, ← zpow_natCast, fall, zpow_neg, div_inv_eq_mul]

theorem value_of_nonneg {d : Dyadic} (h : 0 ≤ d.exp) : d.value = ((d.num * 2 ^ d.exp.toNat : Int) : ℚ) := by
  rw [Dyadic.value, zpow_shift h, Int.sub_zero, zpow_zero, mul_one, Int.cast_mul]

theorem floor_eq (d : Dyadic) : d.floor = ⌊d.value⌋ := by
  unfold Dyadic.floor
  split
  · next h => rw [value_of_nonneg h, Int.floor_intCast]
  · next h =>
    rw [value_of_neg (by omega), Rat.floor_intCast_div_natCast, Int.fdiv_eq_ediv_of_nonneg _ (by positivity)]
    push_cast
    rfl

theorem trunc_eq (d : Dyadic) : d.trunc = if 0 ≤ d.value then ⌊d.value⌋ else ⌈d.value⌉ := by
  have nonneg {c : Dyadic} (h : 0 ≤ c.value) : c.trunc = ⌊c.value⌋ := by
    have num : 0 ≤ c.num := by
      rw [← not_lt] at *
      rwa [← value_neg_iff]
    rw [← floor_eq, Dyadic.trunc, Dyadic.floor, Int.tdiv_eq_ediv_of_nonneg num,
      Int.fdiv_eq_ediv_of_nonneg _ (by positivity)]
  have opposite : d.neg.trunc = -d.trunc := by
    unfold Dyadic.trunc Dyadic.neg
    split
    · rw [Int.neg_mul]
    · rw [Int.neg_tdiv]
  split
  · next h => exact nonneg h
  · next h =>
    have flipped := nonneg (c := d.neg) (by rw [value_neg]; linarith)
    rw [opposite, value_neg, Int.floor_neg] at flipped
    exact Int.neg_inj.mp flipped

theorem fscalbExact_eq (hx : number t x = some qx) (hy : number t y = some qy)
    (hv : IsNumber t v (qy * 2 ^ (if 0 ≤ qx then ⌊qx⌋ else ⌈qx⌉))) : fscalbExact t x y = some v := by
  obtain ⟨-, -, rfl⟩ := number_some hx
  obtain ⟨-, -, rfl⟩ := number_some hy
  exact both_eq hx hy rfl (by rwa [value_scaled, trunc_eq])

/-- The nearest integer, and the even one of two. -/
theorem nearest_eq {q : ℚ} {r : Int} (near : -(1 / 2) ≤ q - r ∧ q - r ≤ 1 / 2) (tie : |q - r| = 1 / 2 → r % 2 = 0) :
    (if 2 * (q - ⌊q⌋) < 1 then ⌊q⌋ else if 1 < 2 * (q - ⌊q⌋) then ⌊q⌋ + 1 else if ⌊q⌋ % 2 = 0 then ⌊q⌋ else ⌊q⌋ + 1) = r := by
  have low := Int.floor_le q
  have high := Int.lt_floor_add_one q
  have cast {a b : Int} (h : (a : ℚ) < b + 1) : a ≤ b := Int.lt_add_one_iff.mp (by exact_mod_cast h)
  split
  · next below =>
    exact le_antisymm (cast (by linarith)) (cast (by linarith))
  split
  · next above =>
    exact le_antisymm (cast (by push_cast; linarith)) (cast (by push_cast; linarith))
  · next below above =>
    have half : q - ⌊q⌋ = 1 / 2 := by linarith
    have first : r = ⌊q⌋ ∨ r = ⌊q⌋ + 1 := by
      have := cast (a := ⌊q⌋) (b := r) (by linarith)
      have := cast (a := r) (b := ⌊q⌋ + 1) (by push_cast; linarith)
      omega
    rcases first with rfl | rfl
    · have even := tie (by rw [half, abs_of_pos one_half_pos])
      rw [if_pos even]
    · have even := tie (by
        rw [Int.cast_add, Int.cast_one, ← sub_sub, half, show (1 / 2 - 1 : ℚ) = -(1 / 2) by norm_num, abs_neg,
          abs_of_pos one_half_pos])
      rw [if_neg (by omega)]

theorem round_eq {d : Dyadic} {r : Int} (near : |d.value - r| ≤ 1 / 2) (tie : |d.value - r| = 1 / 2 → r % 2 = 0) :
    d.round = r := by
  unfold Dyadic.round
  rw [abs_le] at near
  split
  · next h =>
    have whole := value_of_nonneg h
    rw [floor_eq, whole, Int.floor_intCast]
    rw [whole] at near
    have low : d.num * 2 ^ d.exp.toNat - r < 1 := by
      have : ((d.num * 2 ^ d.exp.toNat : Int) : ℚ) - r < 1 := by linarith
      exact_mod_cast this
    have high : -1 < d.num * 2 ^ d.exp.toNat - r := by
      have : -1 < ((d.num * 2 ^ d.exp.toNat : Int) : ℚ) - r := by linarith
      exact_mod_cast this
    omega
  · next h =>
    have fraction := value_of_neg (d := d) (by omega)
    have pos : (0 : ℚ) < (2 ^ (-d.exp).toNat : Nat) := by positivity
    have num : (d.num : ℚ) = d.value * (2 ^ (-d.exp).toNat : Nat) := by rw [fraction, div_mul_cancel₀ _ pos.ne']
    have cast : (2 * (d.num - ⌊d.value⌋ * 2 ^ (-d.exp).toNat) : Int) =
        2 * (d.value - ⌊d.value⌋) * (2 ^ (-d.exp).toNat : Nat) := by
      push_cast at num ⊢
      rw [num]
      ring
    have below : (2 * (d.num - ⌊d.value⌋ * 2 ^ (-d.exp).toNat) < 2 ^ (-d.exp).toNat) ↔ 2 * (d.value - ⌊d.value⌋) < 1 := by
      rw [← mul_lt_iff_lt_one_left pos, ← cast]
      exact_mod_cast Iff.rfl
    have above : (2 ^ (-d.exp).toNat < 2 * (d.num - ⌊d.value⌋ * 2 ^ (-d.exp).toNat)) ↔ 1 < 2 * (d.value - ⌊d.value⌋) := by
      rw [← lt_mul_iff_one_lt_left pos, ← cast]
      exact_mod_cast Iff.rfl
    simp only [floor_eq, below, above]
    exact nearest_eq near tie

theorem ftoiExact_eq {n : Nat} {f : Dyadic → Int} {r : Int} (hx : number t x = some qx) (hf : f (dyadic t x) = r)
    (low : -(2 ^ (8 * n - 1) : Int) ≤ r) (high : r < (2 ^ (8 * n - 1) : Int)) :
    ftoiExact t n f x = some (BitVec.ofInt 64 r) := by
  obtain ⟨-, ex, -⟩ := number_some hx
  simp only [ftoiExact, ex, Option.bind_eq_bind, Option.bind_some, hf]
  exact if_pos ⟨low, high⟩

/-! ### Moves and comparisons -/

theorem fmoveExact_eq {f : Dyadic → Dyadic} (hx : number t x = some qx) (hv : IsNumber t' v (f (dyadic t x)).value) :
    fmoveExact t t' f x = some v := by
  obtain ⟨-, ex, -⟩ := number_some hx
  simp only [fmoveExact, ex, Option.bind_eq_bind, Option.bind_some]
  exact ofDyadic_eq hv

theorem log_eq (d : Dyadic) (h : d.num ≠ 0) : Int.log 2 |d.value| = d.exp + d.num.natAbs.log2 := by
  have nonzero : d.num.natAbs ≠ 0 := Int.natAbs_ne_zero.mpr h
  obtain ⟨low, high⟩ := scaled_bounds d.exp ⟨Nat.log2_self_le nonzero, Nat.lt_log2_self⟩
  rw [← value_natAbs] at low high
  have pos : 0 < |d.value| := abs_pos.mpr (mt (value_eq_zero_iff d).mp h)
  refine le_antisymm (Int.lt_add_one_iff.mp ?_) ?_
  · exact (Int.lt_zpow_iff_log_lt Nat.one_lt_two pos).mp (by exact_mod_cast high)
  · exact (Int.zpow_le_iff_le_log Nat.one_lt_two pos).mp (by exact_mod_cast low)

theorem flogbExact_eq (hx : number t x = some qx) (hv : IsNumber t v (Int.log 2 |qx|)) : flogbExact t x = some v := by
  obtain ⟨-, ex, rfl⟩ := number_some hx
  simp only [flogbExact, ex, Option.bind_eq_bind, Option.bind_some]
  exact ofDyadic_eq (by rwa [value_int, ← log_eq _ (num_ne_zero t x)])

theorem fcmpExact_eq (hx : number t x = some qx) (hy : number t y = some qy) :
    fcmpExact t x y = some (if qy = qx then 0x40 else if qy < qx then 0x80 else 0) := by
  obtain ⟨-, ex, rfl⟩ := number_some hx
  obtain ⟨-, ey, rfl⟩ := number_some hy
  have difference : ((dyadic t y).add (dyadic t x).neg).value = (dyadic t y).value - (dyadic t x).value := by
    rw [value_add, value_neg, ← sub_eq_add_neg]
  simp only [fcmpExact, ex, ey, Option.bind_eq_bind, Option.bind_some, ← value_eq_zero_iff, ← value_neg_iff, difference,
    sub_eq_zero, sub_neg]
  rfl

theorem fpolyExact_eq (hz : number t z = some qz) (hx : number t x = some qx) (hy : number t y = some qy)
    (hv : IsNumber t v (qz * qx + qy)) : fpolyExact t z x y = some v := by
  obtain ⟨-, -, rfl⟩ := number_some hz
  obtain ⟨-, -, rfl⟩ := number_some hx
  obtain ⟨-, ey, rfl⟩ := number_some hy
  simp only [fpolyExact, ey, Option.bind_eq_bind, Option.bind_some]
  exact both_eq hz hx rfl (by rwa [value_add, value_mul])

theorem fdotExact_eq (hz : number t z = some qz) (hx : number t x = some qx) (hy : number t y = some qy)
    (hv : IsNumber t v (qz + qx * qy)) : fdotExact t z x y = some v := by
  obtain ⟨-, ez, rfl⟩ := number_some hz
  obtain ⟨-, -, rfl⟩ := number_some hx
  obtain ⟨-, -, rfl⟩ := number_some hy
  simp only [fdotExact, ez, Option.bind_eq_bind, Option.bind_some]
  exact both_eq hx hy rfl (by rwa [value_add, value_mul, add_comm])

end

end Sys2Proof.Machine
end

section
/-! The slave protocol (47_floating_point.md R391 to R398) where memory answers and an FPU is attached. -/
namespace Sys2Proof.Machine

open Sys2Proof.Safety

/-! ### Slave cycles -/

theorem runs_slaveCycle (st : BusStatus) (wr : Bool) (m : Seam) (bs : List Byte) (s : State) :
    Runs (slaveCycle st wr m bs) s () s :=
  runs_bind (runs_between m s) (runs_of_apply rfl fun hs b =>
    ⟨_, congrArg (EStateM.Result.ok ()) (logCycle_quiet (s := s.withBus b) hs.2 st wr {} 0 bs)⟩)

theorem runs_slaveWords (st : BusStatus) (wr : Bool) (m : Seam) (bs : List Byte) (s : State) :
    Runs (slaveWords st wr m bs) s () s := by
  induction m, bs using slaveWords.induct with
  | case1 m => exact runs_pure _ _
  | case2 m x => exact runs_slaveCycle _ _ _ _ _
  | case3 m x y r ih => exact runs_bind (runs_slaveCycle _ _ _ _ _) ih

theorem runs_slaveSend (st : BusStatus) (wr : Bool) (bs : List Byte) (s : State) : Runs (slaveSend st wr bs) s () s :=
  runs_slaveWords _ _ _ _ _

theorem runs_sendHead (i : Instr) (s : State) : Runs (sendHead i) s () s :=
  runs_bind (runs_slaveSend _ _ _ _) (runs_slaveSend _ _ _ _)

/-! ### Operands -/

theorem runs_issue {w : Nat} (n : Nat) (v : BitVec w) (s : State) :
    Runs (issue n v) s ⟨v.setWidth 64, [v.setWidth 64]⟩ s :=
  runs_bind (runs_slaveSend _ _ _ _) (runs_pure _ _)

theorem runs_issueFloat (t : FSize) (g : Gen) (s : State) :
    ∃ sent, Runs (issueFloat t g) s ⟨s.floatOperand g t, sent⟩ (s.afterRead g t.bytes) := by
  have other : Runs (do issue t.bytes (← readGen g t.bytes)) s
      ⟨(s.operand g t.bytes).setWidth 64, [(s.operand g t.bytes).setWidth 64]⟩ (s.afterRead g t.bytes) :=
    runs_bind (runs_readGen _ _ _) (runs_issue _ _ _)
  rcases g with m | ⟨m, x, sc⟩
  · cases m with
    | reg r => exact ⟨[], runs_look (fun s => (⟨s.fregValue r t, []⟩ : Issued)) s fun _ => by cases t <;> rfl⟩
    | _ => exact ⟨_, other⟩
  · exact ⟨_, other⟩

theorem runs_issueInt (n : Nat) (g : Gen) (s : State) :
    Runs (issueInt n g) s ⟨(s.operand g n).setWidth 64, [(s.operand g n).setWidth 64]⟩ (s.afterRead g n) :=
  runs_bind (runs_readGen _ _ _) (runs_issue _ _ _)

theorem runs_issuePlace (t : FSize) (p : Place) (s : State) :
    ∃ sent, Runs (issuePlace t p) s ⟨s.floatAt p t, sent⟩ s := by
  cases p with
  | reg r => exact ⟨[], runs_look (fun s => (⟨s.fregValue r t, []⟩ : Issued)) s fun _ => by cases t <;> rfl⟩
  | _ => exact ⟨_, runs_bind (runs_readPlace _ _ _ _) (runs_issue _ _ _)⟩

/-! ### The FPU's answer -/

/-- The state after an answer of the FPU. -/
def State.replied (s : State) (r : FpuReply) : State :=
  { s with
    fsr := r.fsr
    fpuReplies := s.fpuReplies.tail
    draws := if s.fpuReplies.isEmpty then s.draws + 1 else s.draws }

theorem runs_fpuReply (q : FpuRequest) (s : State) :
    ∃ r, (∀ r0 ∈ s.fpuReplies.head?, r = r0) ∧ Runs (fpuReply q) s r { s.replied r with fsr := s.fsr } := by
  cases e : s.fpuReplies with
  | nil =>
    refine ⟨Config.fpuExecute s.draws q, (fun _ h => nomatch h), runs_of_apply rfl fun _ b => ⟨b, ?_⟩⟩
    have empty : (s.withBus b).fpuReplies = [] := e
    rw [fpuReply, bind_apply]
    simp only [look, empty, State.replied, e, bind_apply, change]
    rfl
  | cons r rs =>
    refine ⟨r, fun _ h => Option.some.inj h, runs_of_apply rfl fun _ b => ⟨b, ?_⟩⟩
    have first : (s.withBus b).fpuReplies = r :: rs := e
    rw [fpuReply, bind_apply]
    simp only [look, first, State.replied, e]
    rfl

/-- A first look at the state, whose bus log does not count. -/
theorem runs_look_id {β : Type} {f : State → M β} {s t : State} {c : β} (h : ∀ b, Runs (f (s.withBus b)) s c t) :
    Runs (look id >>= f) s c t := fun hs =>
  ⟨(h s.bus hs).1, fun b => (h b hs).2 b⟩

theorem traps_look_id {β : Type} {f : State → M β} {s t : State} {k : Trap} (h : ∀ b, Traps (f (s.withBus b)) s k t) :
    Traps (look id >>= f) s k t := fun hs =>
  ⟨(h s.bus hs).1, fun b => (h b hs).2 b⟩

/-- The FPU runs an instruction, or reports an error (R398). -/
theorem slaveRun_cases {i : Instr} {sent : List Quad} {fixed : State → Fixed} {s : State} (present : s.fpu ≠ .absent)
    (indep : ∀ b, fixed (s.withBus b) = fixed s) :
    ∃ r, (∀ r0 ∈ s.fpuReplies.head?, r = r0) ∧
      let status := (fixed s).status.getD r.status &&& statusMask i
      (status.getLsbD 0 = false →
        Runs (slaveRun i sent fixed) s (status, (fixed s).result.getD r.result) (s.replied r)) ∧
      (status.getLsbD 0 = true → Traps (slaveRun i sent fixed) s .slave (s.replied r)) := by
  obtain ⟨r, first, reply⟩ := runs_fpuReply ⟨s.fpu, (slaveHead i).1, (slaveHead i).2, sent, s.fregs, s.fsingles, s.fsr⟩ s
  have answered : Runs (change fun s => { s with fsr := r.fsr }) { s.replied r with fsr := s.fsr } () (s.replied r) :=
    runs_change (fun s => { s with fsr := r.fsr }) { s.replied r with fsr := s.fsr } (fun _ => rfl) rfl
  refine ⟨r, first, fun good => runs_look_id fun b => ?_, fun bad => traps_look_id fun b => ?_⟩
  · have attached : ¬(s.withBus b).fpu = .absent := present
    rw [if_neg attached, indep b]
    refine runs_bind reply (runs_bind answered (runs_bind (runs_slaveSend _ _ _ _) ?_))
    rw [good]
    exact runs_pure _ _
  · have attached : ¬(s.withBus b).fpu = .absent := present
    rw [if_neg attached, indep b]
    refine runs_traps_bind reply (runs_traps_bind answered (runs_traps_bind (runs_slaveSend _ _ _ _) ?_))
    rw [bad]
    exact traps_abort _ _

/-- The FPU reports no error: the Status Word is fixed to be clear, or it is the answer's. -/
def Fixed.Clear (x : Fixed) (replies : List FpuReply) : Prop :=
  x.status = some 0 ∨ x.status = none ∧ ∃ r ∈ replies.head?, r.status.getLsbD 0 = false

theorem runs_slaveRun_clear {i : Instr} {sent : List Quad} {fixed : State → Fixed} {s : State} {v : Quad}
    (present : s.fpu ≠ .absent) (indep : ∀ b, fixed (s.withBus b) = fixed s) (result : (fixed s).result = some v)
    (clear : (fixed s).Clear s.fpuReplies) : ∃ r st, Runs (slaveRun i sent fixed) s (st, v) (s.replied r) := by
  obtain ⟨r, first, runs, -⟩ := slaveRun_cases (i := i) (sent := sent) present indep
  rw [result] at runs
  refine ⟨r, _, runs ?_⟩
  rcases clear with status | ⟨status, r0, member, bit⟩
  · rw [status]
    show BitVec.getLsbD ((0 : Half) &&& statusMask i) 0 = false
    rw [show (0 : Half) &&& statusMask i = 0 from BitVec.zero_and]
    rfl
  · rw [status, Option.getD_none, BitVec.getLsbD_and, first r0 member, bit, Bool.false_and]

/-- Where the Status Word is fixed to be clear the FPU reports no error. -/
theorem runs_slaveRun {i : Instr} {sent : List Quad} {fixed : State → Fixed} {s : State} {v : Quad}
    (present : s.fpu ≠ .absent) (indep : ∀ b, fixed (s.withBus b) = fixed s) (h : fixed s = .of (some v)) :
    ∃ r st, Runs (slaveRun i sent fixed) s (st, v) (s.replied r) :=
  runs_slaveRun_clear present indep (by rw [h]; rfl) (.inl (by rw [h]; rfl))

/-! ### Results -/

theorem State.putFreg_update (s : State) (r : RegNo) (t : FSize) (v : Quad) (qs : Vector Quad 8) (ds : Vector DWord 8)
    (f : DWord) (l : List FpuReply) (k : Nat) :
    ({ s with fsr := f, fpuReplies := l, draws := k } : State).putFreg r t v qs ds =
      { s.putFreg r t v qs ds with fsr := f, fpuReplies := l, draws := k } := by
  unfold State.putFreg
  cases t <;> dsimp only <;> split <;> rfl

theorem State.put_update (s : State) (p : Place) (n : Nat) (v : BitVec (8 * n)) (f : DWord) (l : List FpuReply) (k : Nat) :
    ({ s with fsr := f, fpuReplies := l, draws := k } : State).put p n v =
      { s.put p n v with fsr := f, fpuReplies := l, draws := k } := by
  cases p with
  | push =>
    have moved := State.setSp_update (f := fun s => { s with fsr := f, fpuReplies := l, draws := k }) (s := s)
      (s.sp - BitVec.ofNat 24 n) rfl rfl rfl
    exact congrArg (fun u => State.poke u (s.sp - BitVec.ofNat 24 n) n v) moved
  | _ => rfl

theorem State.putFloat_update (s : State) (p : Place) (t : FSize) (v : Quad) (qs : Vector Quad 8) (ds : Vector DWord 8)
    (f : DWord) (l : List FpuReply) (k : Nat) :
    ({ s with fsr := f, fpuReplies := l, draws := k } : State).putFloat p t v qs ds =
      { s.putFloat p t v qs ds with fsr := f, fpuReplies := l, draws := k } := by
  cases p with
  | reg r => exact State.putFreg_update s r t v qs ds f l k
  | mem a => exact State.put_update s (.mem a) t.bytes _ f l k
  | push => exact State.put_update s .push t.bytes _ f l k

theorem State.putFreg_bus (s : State) (b : List PinEvent) (r : RegNo) (t : FSize) (v : Quad) (qs : Vector Quad 8)
    (ds : Vector DWord 8) : (s.withBus b).putFreg r t v qs ds = (s.putFreg r t v qs ds).withBus b := by
  have fpu : (s.withBus b).fpu = s.fpu := rfl
  unfold State.putFreg
  rw [fpu]
  cases t <;> dsimp only <;> split <;> rfl

theorem State.putFreg_env (s : State) (r : RegNo) (t : FSize) (v : Quad) (qs : Vector Quad 8) (ds : Vector DWord 8) :
    (s.putFreg r t v qs ds).env = s.env := by
  unfold State.putFreg
  cases t <;> dsimp only <;> split <;> rfl

theorem State.putFreg_mem (s : State) (r : RegNo) (t : FSize) (v : Quad) (qs : Vector Quad 8) (ds : Vector DWord 8) :
    (s.putFreg r t v qs ds).mem = s.mem := by
  unfold State.putFreg
  cases t <;> dsimp only <;> split <;> rfl

theorem State.putFreg_pc (s : State) (r : RegNo) (t : FSize) (v : Quad) (qs : Vector Quad 8) (ds : Vector DWord 8) :
    (s.putFreg r t v qs ds).pc = s.pc := by
  unfold State.putFreg
  cases t <;> dsimp only <;> split <;> rfl

theorem State.putFloat_pc (s : State) (p : Place) (t : FSize) (v : Quad) (qs : Vector Quad 8) (ds : Vector DWord 8) :
    (s.putFloat p t v qs ds).pc = s.pc := by
  cases p with
  | reg r => exact State.putFreg_pc s r t v qs ds
  | _ => exact State.put_pc _ _ _ _

theorem frame_putFloat {s t : State} (h : t.mem = s.mem) (p : Place) (z : FSize) (v : Quad) (qs : Vector Quad 8)
    (ds : Vector DWord 8) : MemFrame s (t.putFloat p z v qs ds) (t.storeAddr p z.bytes) z.bytes := by
  cases p with
  | reg r => exact frame_none ((State.putFreg_mem t r z v qs ds).trans h) _
  | mem a => exact frame_put h (.mem a) z.bytes _
  | push => exact frame_put h .push z.bytes _

theorem runs_writeFreg (r : RegNo) (t : FSize) (v : Quad) (s : State) :
    ∃ qs ds k, Runs (writeFreg r t v) s () { s.putFreg r t v qs ds with draws := k } := by
  refine ⟨_, _, _, runs_change (fun s => { s.putFreg r t v (Vector.ofFn fun k => Config.freeBits (s.draws + k.val))
    (Vector.ofFn fun k => (Config.freeBits (s.draws + 8 + k.val)).setWidth 32) with draws := s.draws + 16 }) s
    (fun b => ?_) ?_⟩
  · exact congrArg (fun u => ({ u with draws := s.draws + 16 } : State)) (State.putFreg_bus s b r t v _ _)
  · exact State.putFreg_env s r t v _ _

theorem runs_storeFloat (t : FSize) (p : Place) (v : Quad) (s : State) :
    ∃ qs ds k, Runs (storeFloat t p v) s () { s.putFloat p t v qs ds with draws := k } := by
  have stored (p : Place) : Runs (do slaveSend .slaveOperand false (toBytes t.bytes v); writePlace p t.bytes (v.setWidth _)) s ()
      { s.put p t.bytes (v.setWidth (8 * t.bytes)) with draws := s.draws } := by
    rw [← put_draws]
    exact runs_bind (runs_slaveSend _ _ _ _) (runs_writePlace _ _ _ _)
  cases p with
  | reg r => exact runs_writeFreg r t v s
  | mem a => exact ⟨s.fregs, s.fsingles, s.draws, stored (.mem a)⟩
  | push => exact ⟨s.fregs, s.fsingles, s.draws, stored .push⟩

theorem runs_storeInt (n : Nat) (p : Place) (v : Quad) (s : State) :
    Runs (storeInt n p v) s () (s.put p n (v.setWidth (8 * n))) :=
  runs_bind (runs_slaveSend _ _ _ _) (runs_writePlace _ _ _ _)

/-! ### The shapes of the floating-point instructions -/

theorem State.afterRead_fpu (s : State) (g : Gen) (n : Nat) : (s.afterRead g n).fpu = s.fpu := by
  obtain ⟨a, e⟩ := s.afterRead_eq g n
  rw [e, State.setSp_fpu]

theorem State.afterRead_fpuReplies (s : State) (g : Gen) (n : Nat) : (s.afterRead g n).fpuReplies = s.fpuReplies := by
  obtain ⟨a, e⟩ := s.afterRead_eq g n
  rw [e, State.setSp_fpuReplies]

theorem State.afterRead_fregValue (s : State) (g : Gen) (n : Nat) (r : RegNo) (t : FSize) :
    (s.afterRead g n).fregValue r t = s.fregValue r t := by
  obtain ⟨a, e⟩ := s.afterRead_eq g n
  have single : (s.setSp a).fsingle r = s.fsingle r := by rw [State.fsingle, State.setSp_fsingles]; rfl
  cases t with
  | f => simp only [e, State.fregValue, State.setSp_fpu, State.setSp_freg, single]
  | l => simp only [e, State.fregValue, State.setSp_freg]

theorem runs_needs381 {s : State} (h : s.fpu = .ns32381) : Runs needs381 s () s := by
  refine runs_bind (runs_look (fun s => decide (s.fpu = .ns32081)) s fun _ => rfl) ?_
  rw [h]
  exact runs_pure _ _

/-- What an instruction leaves that stores a floating result. -/
def State.floatStored (s : State) (p : Place) (t : FSize) (v : Quad) (u : State) : Prop :=
  ∃ r qs ds k, u = { ((s.replied r).putFloat p t v qs ds) with draws := k }

theorem runs_storeReplied (t : FSize) (p : Place) (v : Quad) (s : State) (r : FpuReply) :
    ∃ u, s.floatStored p t v u ∧ Runs (storeFloat t p v) (s.replied r) () u := by
  obtain ⟨qs, ds, k, run⟩ := runs_storeFloat t p v (s.replied r)
  exact ⟨_, ⟨r, qs, ds, k, rfl⟩, run⟩

theorem runs_floatRmw {i : Instr} {t : FSize} {src dst : Gen} {f : Quad → Quad → Option Quad} {s : State} {v : Quad}
    (present : s.fpu ≠ .absent) (h : f (s.floatOperand src t)
      ((s.afterRead src t.bytes).floatAt ((s.afterRead src t.bytes).rmwPlace dst) t) = some v) :
    ∃ u, (s.afterRead src t.bytes).floatStored ((s.afterRead src t.bytes).rmwPlace dst) t v u ∧
      Runs (floatRmw i t src dst f) s () u := by
  let s1 := s.afterRead src t.bytes
  obtain ⟨xs, x⟩ := runs_issueFloat t src s
  obtain ⟨ys, y⟩ := runs_issuePlace t (s1.rmwPlace dst) s1
  have attached : s1.fpu ≠ .absent := by rwa [State.afterRead_fpu]
  obtain ⟨r, st, run⟩ := runs_slaveRun (i := i) (sent := xs ++ ys) (fixed := fun _ => .of (some v)) attached (fun _ => rfl) rfl
  obtain ⟨u, stored, store⟩ := runs_storeReplied t (s1.rmwPlace dst) v s1 r
  refine ⟨u, stored, runs_bind (runs_sendHead i s) (runs_bind x (runs_bind (runs_placeRmw dst s1) (runs_bind y ?_)))⟩
  rw [h]
  exact runs_bind run store

theorem runs_floatMove {i : Instr} {t t' : FSize} {src dst : Gen} {f : Quad → Fixed} {s : State} {v : Quad}
    (present : s.fpu ≠ .absent) (result : (f (s.floatOperand src t)).result = some v)
    (clear : (f (s.floatOperand src t)).Clear s.fpuReplies) :
    ∃ u, (s.afterRead src t.bytes).floatStored ((s.afterRead src t.bytes).writePlaceOf dst) t' v u ∧
      Runs (floatMove i t t' src dst f) s () u := by
  let s1 := s.afterRead src t.bytes
  obtain ⟨xs, x⟩ := runs_issueFloat t src s
  have attached : s1.fpu ≠ .absent := by rwa [State.afterRead_fpu]
  obtain ⟨r, st, run⟩ := runs_slaveRun_clear (i := i) (sent := xs) (fixed := fun _ => f (s.floatOperand src t)) attached
    (fun _ => rfl) result (by rwa [State.afterRead_fpuReplies])
  obtain ⟨u, stored, store⟩ := runs_storeReplied t' (s1.writePlaceOf dst) v s1 r
  exact ⟨u, stored, runs_bind (runs_sendHead i s) (runs_bind x (runs_bind (runs_placeWrite dst s1) (runs_bind run store)))⟩

theorem runs_floatToInt {i : Instr} {t : FSize} {n : Nat} {src dst : Gen} {f : Dyadic → Int} {s : State} {v : Quad}
    (present : s.fpu ≠ .absent) (h : ftoiExact t n f (s.floatOperand src t) = some v) :
    ∃ r, Runs (floatToInt i t n src dst f) s ()
      (((s.afterRead src t.bytes).replied r).put ((s.afterRead src t.bytes).writePlaceOf dst) n (v.setWidth (8 * n))) := by
  let s1 := s.afterRead src t.bytes
  obtain ⟨xs, x⟩ := runs_issueFloat t src s
  have attached : s1.fpu ≠ .absent := by rwa [State.afterRead_fpu]
  obtain ⟨r, st, run⟩ := runs_slaveRun (i := i) (sent := xs) (fixed := fun _ => .of (some v)) attached (fun _ => rfl) rfl
  refine ⟨r, runs_bind (runs_sendHead i s) (runs_bind x (runs_bind (runs_placeWrite dst s1) ?_))⟩
  rw [h]
  exact runs_bind run (runs_storeInt n _ v _)

theorem runs_floatToF0 {i : Instr} {t : FSize} {g1 g2 : Gen} {f : Quad → Quad → Quad → Option Quad} {s : State} {v : Quad}
    (present : s.fpu = .ns32381) (h : f (s.fregValue 0 t) (s.floatOperand g1 t)
      ((s.afterRead g1 t.bytes).floatOperand g2 t) = some v) :
    ∃ u, ((s.afterRead g1 t.bytes).afterRead g2 t.bytes).floatStored (.reg 0) t v u ∧
      Runs (floatToF0 i t g1 g2 f) s () u := by
  let s1 := s.afterRead g1 t.bytes
  let s2 := s1.afterRead g2 t.bytes
  obtain ⟨xs, x⟩ := runs_issueFloat t g1 s
  obtain ⟨ys, y⟩ := runs_issueFloat t g2 s1
  let fixed (u : State) : Fixed := .of (f (u.fregValue 0 t) (s.floatOperand g1 t) (s1.floatOperand g2 t))
  have value : fixed s2 = .of (some v) := by
    simp only [fixed, s2, s1, State.afterRead_fregValue, h]
  have attached : s2.fpu ≠ .absent := by
    rw [State.afterRead_fpu, State.afterRead_fpu, present]
    decide
  have indep (b : List PinEvent) : fixed (s2.withBus b) = fixed s2 := by cases t <;> rfl
  obtain ⟨r, st, run⟩ := runs_slaveRun (i := i) (sent := xs ++ ys) attached indep value
  obtain ⟨qs, ds, k, store⟩ := runs_writeFreg 0 t v (s2.replied r)
  exact ⟨_, ⟨r, qs, ds, k, rfl⟩, runs_bind (runs_needs381 present) (runs_bind (runs_sendHead i s)
    (runs_bind x (runs_bind y (runs_bind run store))))⟩

/-! ### Completing -/

theorem exec_of_performFpu {i : Instr} {x : M Unit} {s : State} (on : s.cfgF = true)
    (e : exec i s = performFpu i x s) : exec i s = performSeq i x s := e.trans (if_pos on)

theorem fpu_present {i : Instr} {s : State} (h : FpuReady i s) : s.fpu ≠ .absent := by
  rcases h.2 with e | ⟨e, -⟩ <;> rw [e] <;> decide

/-- An instruction that stores a floating result completes. -/
theorem completes_floatStored {i : Instr} {x : M Unit} {s s1 u : State} {p : Place} {t : FSize} {v : Quad}
    (e : exec i s = performFpu i x s) (hi : i.WF) (on : s.cfgF = true) (hs : Answers s) (run : Runs x s.begin () u)
    (stored : s1.floatStored p t v u) (mem : s1.mem = s.mem) (pc : s1.pc = s.pc) (replies : s1.fpuReplies = s.fpuReplies) :
    ∃ (fsr : DWord) (qs : Vector Quad 8) (ds : Vector DWord 8) (k : Nat), Completes i s
      { (s1.putFloat p t v qs ds) with pc := s.next i, fsr := fsr, fpuReplies := s.fpuReplies.tail, draws := k }
      (s1.storeAddr p t.bytes) t.bytes := by
  obtain ⟨r, qs, ds, k, rfl⟩ := stored
  have updated := State.putFloat_update s1 p t v qs ds r.fsr s1.fpuReplies.tail
    (if s1.fpuReplies.isEmpty then s1.draws + 1 else s1.draws)
  have same : ({ ((s1.replied r).putFloat p t v qs ds) with draws := k } : State) =
      { (s1.putFloat p t v qs ds) with fsr := r.fsr, fpuReplies := s.fpuReplies.tail, draws := k } := by
    rw [State.replied, updated, replies]
  rw [same] at run
  refine ⟨r.fsr, qs, ds, k, ?_⟩
  exact completes_seq (exec_of_performFpu on e) hi hs run (frame_of_mem (frame_putFloat mem p t v qs ds) rfl)
    ((State.putFloat_pc s1 p t v qs ds).trans pc)

end Sys2Proof.Machine
end

section
/-! The floating-point instructions on numbers (47_floating_point.md R393, R400 to R419). -/
namespace Sys2Proof.Machine

open Sys2Proof.Safety

/-! ### Format 12 -/

/-- The ID Byte of Formats 11 and 12 is the first byte (R161, R162, R391). -/
theorem slaveHead_format11 {i : Instr} {a b : Gen} {op : BitVec 4} {t : FSize} {last : Byte}
    (h : encode i = fmt11 a b op t last) : (slaveHead i).1 = last := by
  have first := low_setWidth (a.code ++ b.code ++ op ++ (0 : BitVec 1) ++ t.code) last (Nat.le_refl _)
  rw [BitVec.setWidth_eq] at first
  rw [slaveHead, h]
  exact first

theorem ns32381_of_ready {i : Instr} {a b : Gen} {op : BitVec 4} {t : FSize} {s : State}
    (h : encode i = fmt11 a b op t 0xFE) (ready : FpuReady i s) : s.fpu = .ns32381 := by
  rcases ready.2 with e | ⟨-, other⟩
  · exact e
  · exact absurd (slaveHead_format11 h) other

/-! ### Arithmetic -/

section

variable {i : Instr} {t t' : FSize} {src dst : Gen} {s : State} {v : Quad}

theorem completes_floatRmw {f : Quad → Quad → Option Quad} (e : exec i s = performFpu i (floatRmw i t src dst f) s)
    (hi : i.WF) (ready : FpuReady i s) (hs : Answers s)
    (h : let s1 := s.begin.afterRead src t.bytes
      f (s.begin.floatOperand src t) (s1.floatAt (s1.rmwPlace dst) t) = some v) :
    let s1 := s.begin.afterRead src t.bytes
    let p := s1.rmwPlace dst
    ∃ (fsr : DWord) (qs : Vector Quad 8) (ds : Vector DWord 8) (k : Nat), Completes i s
      { (s1.putFloat p t v qs ds) with pc := s.next i, fsr := fsr, fpuReplies := s.fpuReplies.tail, draws := k }
      (s1.storeAddr p t.bytes) t.bytes := by
  obtain ⟨u, stored, run⟩ := runs_floatRmw (i := i) (s := s.begin) (fpu_present ready) h
  exact completes_floatStored e hi ready.1 hs run stored (by simp) (by simp) (State.afterRead_fpuReplies _ _ _)

theorem completes_floatMove {f : Quad → Fixed} (e : exec i s = performFpu i (floatMove i t t' src dst f) s)
    (hi : i.WF) (ready : FpuReady i s) (hs : Answers s) (result : (f (s.begin.floatOperand src t)).result = some v)
    (clear : (f (s.begin.floatOperand src t)).Clear s.fpuReplies) :
    let s1 := s.begin.afterRead src t.bytes
    let p := s1.writePlaceOf dst
    ∃ (fsr : DWord) (qs : Vector Quad 8) (ds : Vector DWord 8) (k : Nat), Completes i s
      { (s1.putFloat p t' v qs ds) with pc := s.next i, fsr := fsr, fpuReplies := s.fpuReplies.tail, draws := k }
      (s1.storeAddr p t'.bytes) t'.bytes := by
  obtain ⟨u, stored, run⟩ := runs_floatMove (i := i) (t' := t') (dst := dst) (s := s.begin) (fpu_present ready) result
    clear
  exact completes_floatStored e hi ready.1 hs run stored (by simp) (by simp) (State.afterRead_fpuReplies _ _ _)

end

/-- Settles O32. -/
theorem floatArithmetic : Obligations.FloatArithmetic := by
  intro t src dst s qx qy v hs n s1 p hx hy done
  refine ⟨fun hi ready hv => ?add, fun hi ready hv => ?sub, fun hi ready hv => ?mul, fun hi ready hv => ?div,
    fun hi ready hv => ?scalb⟩
  case add => exact completes_floatRmw rfl hi ready hs (faddExact_eq hx hy hv)
  case sub => exact completes_floatRmw rfl hi ready hs (fsubExact_eq hx hy hv)
  case mul => exact completes_floatRmw rfl hi ready hs (fmulExact_eq hx hy hv)
  case div => exact completes_floatRmw rfl hi ready hs (fdivExact_eq hx hy hv)
  case scalb =>
    have kind : s.fpu = .ns32381 := ns32381_of_ready rfl ready
    obtain ⟨u, stored, run⟩ := runs_floatRmw (i := .scalbf t src dst) (s := s.begin) (fpu_present ready)
      (fscalbExact_eq hx hy hv)
    exact completes_floatStored rfl hi ready.1 hs (runs_bind (runs_needs381 (s := s.begin) kind) run) stored
      (State.afterRead_mem _ _ _) (State.afterRead_pc _ _ _) (State.afterRead_fpuReplies _ _ _)

/-! ### Moves and conversions -/

/-- A move or conversion whose result is fixed. -/
theorem completes_fixed {i : Instr} {t t' : FSize} {src dst : Gen} {s : State} {v : Quad} {f : Quad → Option Quad}
    (e : exec i s = performFpu i (floatMove i t t' src dst fun x => .of (f x)) s) (hi : i.WF) (ready : FpuReady i s)
    (hs : Answers s) (h : f (s.begin.floatOperand src t) = some v) :
    let s1 := s.begin.afterRead src t.bytes
    let p := s1.writePlaceOf dst
    ∃ (fsr : DWord) (qs : Vector Quad 8) (ds : Vector DWord 8) (k : Nat), Completes i s
      { (s1.putFloat p t' v qs ds) with pc := s.next i, fsr := fsr, fpuReplies := s.fpuReplies.tail, draws := k }
      (s1.storeAddr p t'.bytes) t'.bytes :=
  completes_floatMove e hi ready hs (by rw [h]; rfl) (.inl (by rw [h]; rfl))

/-! ### Integers -/

theorem setWidth_ofInt_of_le (r : Int) {m n : Nat} (h : m ≤ n) : (BitVec.ofInt n r).setWidth m = BitVec.ofInt m r := by
  apply BitVec.eq_of_toNat_eq
  have divides : ((2 ^ m : Nat) : Int) ∣ ((2 ^ n : Nat) : Int) := Int.natCast_dvd_natCast.mpr (Nat.pow_dvd_pow 2 h)
  have nonneg : 0 ≤ r % ((2 ^ n : Nat) : Int) := Int.emod_nonneg _ (Int.natCast_ne_zero.mpr (Nat.two_pow_pos n).ne')
  rw [BitVec.toNat_setWidth, BitVec.toNat_ofInt, BitVec.toNat_ofInt, ← Int.emod_emod_of_dvd r divides,
    Int.toNat_emod nonneg (Int.natCast_nonneg _), Int.toNat_natCast]

/-- A conversion to an integer that the destination can hold. -/
theorem completes_floatToInt {i : Instr} {t : FSize} {n : Nat} {src dst : Gen} {f : Dyadic → Int} {s : State} {r : Int}
    {q : ℚ} (e : exec i s = performFpu i (floatToInt i t n src dst f) s) (hi : i.WF) (ready : FpuReady i s)
    (hs : Answers s) (hx : number t (s.begin.floatOperand src t) = some q) (low : -(2 ^ (8 * n - 1) : Int) ≤ r)
    (high : r < (2 ^ (8 * n - 1) : Int)) (size : 8 * n ≤ 64)
    (h : f (dyadic t (s.begin.floatOperand src t)) = r) :
    let s1 := s.begin.afterRead src t.bytes
    let p := s1.writePlaceOf dst
    ∃ (fsr : DWord) (k : Nat), Completes i s
      { (s1.put p n (BitVec.ofInt _ r)) with pc := s.next i, fsr := fsr, fpuReplies := s.fpuReplies.tail, draws := k }
      (s1.storeAddr p n) n := by
  obtain ⟨reply, run⟩ := runs_floatToInt (i := i) (dst := dst) (s := s.begin) (fpu_present ready) (ftoiExact_eq hx h low high)
  intro s1 p
  have value : (BitVec.ofInt 64 r).setWidth (8 * n) = BitVec.ofInt (8 * n) r := setWidth_ofInt_of_le r size
  have updated := State.put_update s1 p n (BitVec.ofInt (8 * n) r) reply.fsr s1.fpuReplies.tail
    (if s1.fpuReplies.isEmpty then s1.draws + 1 else s1.draws)
  have same : ((s1.replied reply).put p n (BitVec.ofInt (8 * n) r)) =
      { s1.put p n (BitVec.ofInt (8 * n) r) with
        fsr := reply.fsr
        fpuReplies := s.fpuReplies.tail
        draws := if s1.fpuReplies.isEmpty then s1.draws + 1 else s1.draws } := by
    have replies : s1.fpuReplies = s.fpuReplies := State.afterRead_fpuReplies _ _ _
    rw [State.replied, updated, replies]
  rw [value, same] at run
  have frame := frame_put (State.afterRead_mem s.begin src t.bytes) p n (BitVec.ofInt (8 * n) r)
  have pc : (s1.put p n (BitVec.ofInt (8 * n) r)).pc = s.pc := (State.put_pc s1 p n _).trans (State.afterRead_pc _ _ _)
  exact ⟨_, _, completes_seq (exec_of_performFpu ready.1 e) hi hs run (frame_of_mem frame rfl) pc⟩

/-- Settles O34. -/
theorem floatToInteger : Obligations.FloatToInteger := by
  intro t i src dst s q r hs n s1 p hx low high done
  obtain ⟨-, -, value⟩ := number_some hx
  have size : 8 * n ≤ 64 := by cases i <;> decide
  refine ⟨fun h hi ready => ?_, fun h hi ready => ?_, fun near tie hi ready => ?_⟩
  · exact completes_floatToInt rfl hi ready hs hx low high size (by rw [floor_eq, value, h])
  · exact completes_floatToInt rfl hi ready hs hx low high size (by rw [trunc_eq, value, h])
  · exact completes_floatToInt rfl hi ready hs hx low high size (round_eq (value ▸ near) (value ▸ tie))

/-! ### Polynomials -/

/-- Settles O36. -/
theorem floatPolynomial : Obligations.FloatPolynomial := by
  intro t g1 g2 s q0 qx qy v hs s1 hz hx hy done
  have complete {i : Instr} {f : Quad → Quad → Quad → Option Quad} {a b : Gen} {op : BitVec 4}
      (e : exec i s = performFpu i (floatToF0 i t g1 g2 f) s) (code : encode i = fmt11 a b op t 0xFE) (hi : i.WF)
      (ready : FpuReady i s)
      (h : f (s.fregValue 0 t) (s.begin.floatOperand g1 t) (s1.floatOperand g2 t) = some v) :
      ∃ (fsr : DWord) (qs : Vector Quad 8) (ds : Vector DWord 8) (k : Nat), Completes i s
        { ((s1.afterRead g2 t.bytes).putFloat (.reg 0) t v qs ds) with
          pc := s.next i, fsr := fsr, fpuReplies := s.fpuReplies.tail, draws := k } none 0 := by
    obtain ⟨u, stored, run⟩ := runs_floatToF0 (i := i) (s := s.begin) (ns32381_of_ready code ready) (by
      have same : s.begin.fregValue 0 t = s.fregValue 0 t := by cases t <;> rfl
      rw [same]
      exact h)
    exact completes_floatStored e hi ready.1 hs run stored
      ((State.afterRead_mem _ _ _).trans (State.afterRead_mem _ _ _))
      ((State.afterRead_pc _ _ _).trans (State.afterRead_pc _ _ _))
      ((State.afterRead_fpuReplies _ _ _).trans (State.afterRead_fpuReplies _ _ _))
  exact ⟨fun hi ready hv => complete rfl rfl hi ready (fpolyExact_eq hz hx hy hv),
    fun hi ready hv => complete rfl rfl hi ready (fdotExact_eq hz hx hy hv)⟩

end Sys2Proof.Machine

namespace Sys2Proof

open Sys2Proof.Machine Sys2Proof.Safety

/-- Settles O33. -/
theorem floatMove : Obligations.FloatMove := by
  refine ⟨?unary, ?mov, ?movi⟩
  case unary =>
    intro t src dst s q v hs done
    refine ⟨fun hi ready hx hv => ?neg, fun hi ready hx hv => ?abs, fun hi ready hx hv => ?fl, fun hi ready hx hv => ?lf,
      fun hi ready hx hv => ?logb⟩
    case neg =>
      obtain ⟨-, -, rfl⟩ := number_some hx
      exact completes_fixed rfl hi ready hs (fmoveExact_eq hx (by rwa [value_neg]))
    case abs =>
      obtain ⟨-, -, rfl⟩ := number_some hx
      exact completes_fixed rfl hi ready hs (fmoveExact_eq hx (by rwa [value_abs]))
    case fl =>
      obtain ⟨-, -, rfl⟩ := number_some hx
      exact completes_fixed rfl hi ready hs (fmoveExact_eq (f := id) hx hv)
    case lf =>
      obtain ⟨-, -, rfl⟩ := number_some hx
      exact completes_fixed rfl hi ready hs (fmoveExact_eq (f := id) hx hv)
    case logb =>
      have kind : s.fpu = .ns32381 := ns32381_of_ready rfl ready
      have exact_ := flogbExact_eq hx hv
      obtain ⟨u, stored, run⟩ := runs_floatMove (i := .logbf t src dst) (t' := t) (dst := dst) (s := s.begin)
        (f := fun x => .of (flogbExact t x)) (fpu_present ready) (by rw [exact_]; rfl) (.inl (by rw [exact_]; rfl))
      exact completes_floatStored rfl hi ready.1 hs (runs_bind (runs_needs381 (s := s.begin) kind) run) stored
        (State.afterRead_mem _ _ _) (State.afterRead_pc _ _ _) (State.afterRead_fpuReplies _ _ _)
  case mov =>
    intro t src dst s hs j x s1 p hi ready clear
    refine completes_floatMove rfl hi ready hs rfl ?_
    by_cases special : dyadicOf t x = none
    · have reply : ∃ r rs, s.fpuReplies = r :: rs ∧ r.status.getLsbD 0 = false :=
        clear.resolve_left (not_not.mpr (by rw [number_eq, special]; rfl))
      obtain ⟨r, rs, first, bit⟩ := reply
      exact .inr ⟨by rw [special]; rfl, r, by rw [first]; rfl, bit⟩
    · obtain ⟨d, e⟩ := Option.ne_none_iff_exists'.mp special
      exact .inl (by rw [e]; rfl)
  case movi =>
    intro i t src dst s v hs j s1 p hi ready hv
    have value : ofDyadic t ⟨(s.begin.operand src i.bytes).toInt, 0⟩ = some v := ofDyadic_eq (by rwa [value_int])
    obtain ⟨r, st, run⟩ := runs_slaveRun (i := .movif i t src dst) (sent := [(s.begin.operand src i.bytes).setWidth 64])
      (fixed := fun _ => .of (some v)) (s := s1) (by rw [State.afterRead_fpu]; exact fpu_present ready) (fun _ => rfl) rfl
    obtain ⟨u, stored, store⟩ := runs_storeReplied t p v s1 r
    refine completes_floatStored rfl hi ready.1 hs (runs_bind (runs_sendHead j s.begin) (runs_bind (runs_readGen _ _ _)
      (runs_bind (runs_issue _ _ _) (runs_bind (runs_placeWrite dst s1) ?_)))) stored (State.afterRead_mem _ _ _)
      (State.afterRead_pc _ _ _) (State.afterRead_fpuReplies _ _ _)
    rw [value]
    exact runs_bind run store

end Sys2Proof
end

section
/-! CMPf, LFSR, SFSR, and an error that the FPU reports (47_floating_point.md R397, R398, R407, R417, R418). -/
namespace Sys2Proof.Machine

open Sys2Proof.Safety

/-! ### CMPf -/

/-- The flags that CMPf takes from the status word. -/
theorem State.putCmpf_update (s : State) (z n l : Bool) (f : DWord) (rs : List FpuReply) (k : Nat) :
    ((({ s with fsr := f, fpuReplies := rs, draws := k } : State).putFlag .n n).putFlag .z z).putFlag .l l =
      { ((s.putFlag .z z).putFlag .n n).putFlag .l l with fsr := f, fpuReplies := rs, draws := k } := by
  rw [State.putFlag_comm s (q := .z) (r := .n) (by decide)]
  rfl

theorem runs_putCmpf (s : State) (z n l : Bool) :
    Runs (change fun s => ((s.putFlag .n n).putFlag .z z).putFlag .l l) s ()
      (((s.putFlag .n n).putFlag .z z).putFlag .l l) :=
  runs_change (fun s => ((s.putFlag .n n).putFlag .z z).putFlag .l l) s (fun _ => rfl) rfl

/-- CMPf after its operands are sent. -/
def cmpfEnd (i : Instr) (sent : List Quad) (fixed : Fixed) : M Unit := do
  let (st, _) ← slaveRun i sent fun _ => fixed
  change fun s => ((s.putFlag .n (st.getLsbD 7)).putFlag .z (st.getLsbD 6)).putFlag .l (st.getLsbD 2)

theorem exec_cmpf_eq (t : FSize) (g1 g2 : Gen) (s : State) : exec (.cmpf t g1 g2) s = performFpu (.cmpf t g1 g2) (do
    sendHead (.cmpf t g1 g2)
    let x ← issueFloat t g1
    let y ← issueFloat t g2
    cmpfEnd (.cmpf t g1 g2) (x.sent ++ y.sent) ⟨fcmpExact t x.value y.value, none⟩) s := rfl

/-- The state after CMPf, but for PC. -/
def State.cmpfDone (s : State) (r : FpuReply) (st : Half) : State :=
  { ((s.putFlag .z (st.getLsbD 6)).putFlag .n (st.getLsbD 7)).putFlag .l false with
    fsr := r.fsr
    fpuReplies := s.fpuReplies.tail
    draws := if s.fpuReplies.isEmpty then s.draws + 1 else s.draws }

theorem runs_cmpfEnd {i : Instr} {sent : List Quad} {fixed : Fixed} {s : State} (present : s.fpu ≠ .absent)
    (mask : (statusMask i).getLsbD 2 = false) : ∃ r, (∀ r0 ∈ s.fpuReplies.head?, r = r0) ∧
      ∀ st, st = fixed.status.getD r.status &&& statusMask i → st.getLsbD 0 = false →
        Runs (cmpfEnd i sent fixed) s () (s.cmpfDone r st) := by
  obtain ⟨r, first, runs, -⟩ := slaveRun_cases (i := i) (sent := sent) (fixed := fun _ => fixed) present fun _ => rfl
  refine ⟨r, first, fun st value clear => ?_⟩
  have low : st.getLsbD 2 = false := by rw [value, BitVec.getLsbD_and, mask, Bool.and_false]
  rw [← value] at runs
  rw [State.cmpfDone, ← State.putCmpf_update]
  have flags := runs_putCmpf (s.replied r) (st.getLsbD 6) (st.getLsbD 7) (st.getLsbD 2)
  rw [low] at flags
  refine runs_bind (runs clear) ?_
  dsimp only
  rw [low]
  exact flags

theorem completes_cmpf {t : FSize} {g1 g2 : Gen} {s : State} (hs : Answers s) (hi : (Instr.cmpf t g1 g2).WF)
    (ready : FpuReady (.cmpf t g1 g2) s) :
    let s1 := s.begin.afterRead g1 t.bytes
    ∃ r, (∀ r0 ∈ s.fpuReplies.head?, r = r0) ∧
      ∀ st, st = (fcmpExact t (s.begin.floatOperand g1 t) (s1.floatOperand g2 t)).getD r.status &&& 0x00C1 →
        st.getLsbD 0 = false → ∃ (fsr : DWord) (k : Nat), Completes (.cmpf t g1 g2) s
          { (((s1.afterRead g2 t.bytes).putFlag .z (st.getLsbD 6)).putFlag .n (st.getLsbD 7)).putFlag .l false with
            pc := s.next (.cmpf t g1 g2), fsr := fsr, fpuReplies := s.fpuReplies.tail, draws := k } none 0 := by
  intro s1
  let s2 := s1.afterRead g2 t.bytes
  obtain ⟨xs, x⟩ := runs_issueFloat t g1 s.begin
  obtain ⟨ys, y⟩ := runs_issueFloat t g2 s1
  have attached : s2.fpu ≠ .absent := by
    rw [State.afterRead_fpu, State.afterRead_fpu]
    exact fpu_present ready
  have replies : s2.fpuReplies = s.fpuReplies := by rw [State.afterRead_fpuReplies, State.afterRead_fpuReplies]; rfl
  obtain ⟨r, first, runs⟩ := runs_cmpfEnd (i := .cmpf t g1 g2) (sent := xs ++ ys)
    (fixed := ⟨fcmpExact t (s.begin.floatOperand g1 t) (s1.floatOperand g2 t), none⟩) attached (by simp [statusMask])
  rw [replies] at first
  refine ⟨r, first, fun st value clear => ?_⟩
  have mem : (s2.cmpfDone r st).mem = s.mem := (State.afterRead_mem _ _ _).trans (State.afterRead_mem _ _ _)
  have pc : (s2.cmpfDone r st).pc = s.pc := (State.afterRead_pc _ _ _).trans (State.afterRead_pc _ _ _)
  have complete := completes_seq (exec_of_performFpu ready.1 (exec_cmpf_eq t g1 g2 s)) hi hs (runs_bind (runs_sendHead _ _)
    (runs_bind x (runs_bind y (runs st value clear)))) (frame_none mem 0) pc
  rw [State.cmpfDone, replies] at complete
  exact ⟨_, _, complete⟩

/-- The status word of a comparison of numbers. -/
theorem cmpf_status {qx qy : ℚ} {st : Half}
    (h : st = (if qy = qx then (0x40 : Half) else if qy < qx then 0x80 else 0) &&& 0x00C1) :
    st.getLsbD 0 = false ∧ st.getLsbD 6 = decide (qy = qx) ∧ st.getLsbD 7 = decide (qy < qx) := by
  subst h
  by_cases equal : qy = qx
  · have notLess : ¬qy < qx := equal ▸ lt_irrefl _
    simp only [if_pos equal, decide_eq_true equal, decide_eq_false notLess]
    decide
  · by_cases less : qy < qx
    · simp only [if_neg equal, if_pos less, decide_eq_false equal, decide_eq_true less]
      decide
    · simp only [if_neg equal, if_neg less, decide_eq_false equal, decide_eq_false less]
      decide

theorem cmpf_known {t : FSize} {g1 g2 : Gen} {s : State} {qx qy : ℚ} (hs : Answers s) (hi : (Instr.cmpf t g1 g2).WF)
    (ready : FpuReady (.cmpf t g1 g2) s) :
    let s1 := s.begin.afterRead g1 t.bytes
    number t (s.begin.floatOperand g1 t) = some qx → number t (s1.floatOperand g2 t) = some qy →
    ∃ (fsr : DWord) (k : Nat), Completes (.cmpf t g1 g2) s
      { (((s1.afterRead g2 t.bytes).putFlag .z (decide (qy = qx))).putFlag .n (decide (qy < qx))).putFlag .l false with
        pc := s.next (.cmpf t g1 g2), fsr := fsr, fpuReplies := s.fpuReplies.tail, draws := k } none 0 := by
  intro s1 hx hy
  obtain ⟨r, -, complete⟩ := completes_cmpf hs hi ready
  rw [fcmpExact_eq hx hy, Option.getD_some] at complete
  obtain ⟨clear, zero, less⟩ := cmpf_status (qx := qx) (qy := qy) rfl
  have done := complete _ rfl clear
  rwa [zero, less] at done

theorem cmpf_replied {t : FSize} {g1 g2 : Gen} {s : State} {r : FpuReply} (hs : Answers s)
    (hi : (Instr.cmpf t g1 g2).WF) (ready : FpuReady (.cmpf t g1 g2) s) (reply : r ∈ s.fpuReplies.head?)
    (bit : r.status.getLsbD 0 = false) :
    let s1 := s.begin.afterRead g1 t.bytes
    ∃ z n, ∃ (fsr : DWord) (k : Nat), Completes (.cmpf t g1 g2) s
      { (((s1.afterRead g2 t.bytes).putFlag .z z).putFlag .n n).putFlag .l false with
        pc := s.next (.cmpf t g1 g2), fsr := fsr, fpuReplies := s.fpuReplies.tail, draws := k } none 0 := by
  intro s1
  obtain ⟨r', first, complete⟩ := completes_cmpf hs hi ready
  obtain rfl := first r reply
  refine ⟨_, _, complete _ rfl ?_⟩
  cases e : fcmpExact t (s.begin.floatOperand g1 t) (s1.floatOperand g2 t) with
  | none => rw [Option.getD_none, BitVec.getLsbD_and, bit, Bool.false_and]
  | some st =>
    have even : st.getLsbD 0 = false := by
      simp only [fcmpExact, Option.bind_eq_bind, Option.bind_eq_some_iff] at e
      obtain ⟨a, -, b, -, e⟩ := e
      cases e
      split
      · decide
      · split <;> decide
    rw [Option.getD_some, BitVec.getLsbD_and, even, Bool.false_and]

/-! ### LFSR and SFSR -/

theorem State.put_fpuReplies (s : State) (p : Place) (n : Nat) (v : BitVec (8 * n)) (rs : List FpuReply) :
    ({ s with fpuReplies := rs } : State).put p n v = { s.put p n v with fpuReplies := rs } := by
  cases p with
  | push =>
    have moved := State.setSp_update (f := fun s => { s with fpuReplies := rs }) (s := s) (s.sp - BitVec.ofNat 24 n) rfl rfl rfl
    exact congrArg (fun u => State.poke u (s.sp - BitVec.ofNat 24 n) n v) moved
  | _ => rfl

section

variable {src dst : Gen} {s : State} {r : FpuReply} {rs : List FpuReply}

theorem exec_lfsr_eq (src : Gen) (s : State) : exec (.lfsr src) s = performFpu (.lfsr src) (do
    sendHead (.lfsr src)
    let x ← issueInt 4 src
    let _ ← slaveRun (.lfsr src) x.sent fun _ => ⟨none, none⟩
    change fun s => { s with fsr := x.value.setWidth 32 }) s := rfl

theorem exec_sfsr_eq (dst : Gen) (s : State) : exec (.sfsr dst) s = performFpu (.sfsr dst) (do
    sendHead (.sfsr dst)
    let p ← placeWrite dst
    let old ← look fun s => s.fsr
    let (_, v) ← slaveRun (.sfsr dst) [] fun s => ⟨none, some (s.fsr.setWidth 64)⟩
    change fun s => { s with fsr := old }
    storeInt 4 p v) s := rfl

/-- An instruction for which nothing of the status word is fixed: what the FPU answers decides. -/
theorem slaveRun_replied {i : Instr} {sent : List Quad} {fixed : State → Fixed} {s : State} (present : s.fpu ≠ .absent)
    (indep : ∀ b, fixed (s.withBus b) = fixed s) (free : (fixed s).status = none) (replies : s.fpuReplies = r :: rs)
    (mask : (statusMask i).getLsbD 0 = true) :
    (r.status.getLsbD 0 = false → ∃ st, Runs (slaveRun i sent fixed) s (st, (fixed s).result.getD r.result)
      { s with fsr := r.fsr, fpuReplies := rs }) ∧
    (r.status.getLsbD 0 = true → Traps (slaveRun i sent fixed) s .slave { s with fsr := r.fsr, fpuReplies := rs }) := by
  obtain ⟨r', first, runs, traps⟩ := slaveRun_cases (i := i) (sent := sent) present indep
  rw [replies] at first
  obtain rfl := first r rfl
  have state : s.replied r' = { s with fsr := r'.fsr, fpuReplies := rs } := by
    rw [State.replied, replies]
    rfl
  rw [free, Option.getD_none, state] at runs traps
  exact ⟨fun bit => ⟨_, runs (by rw [BitVec.getLsbD_and, bit, Bool.false_and])⟩,
    fun bit => traps (by rw [BitVec.getLsbD_and, bit, mask]; rfl)⟩

theorem completes_lfsr (hs : Answers s) (on : s.cfgF = true) (present : s.fpu ≠ .absent)
    (replies : s.fpuReplies = r :: rs) (bit : r.status.getLsbD 0 = false) (hi : (Instr.lfsr src).WF) :
    Completes (.lfsr src) s { (s.begin.afterRead src 4) with
      fsr := s.begin.operand src 4, fpuReplies := rs, pc := s.next (.lfsr src) } none 0 := by
  let s1 := s.begin.afterRead src 4
  obtain ⟨st, run⟩ := (slaveRun_replied (i := .lfsr src) (sent := [(s.begin.operand src 4).setWidth 64])
    (fixed := fun _ => ⟨none, none⟩) (s := s1) (by rwa [State.afterRead_fpu]) (fun _ => rfl) rfl
    ((State.afterRead_fpuReplies _ _ _).trans replies) (by simp [statusMask])).1 bit
  have load : Runs (change fun u => { u with fsr := (((s.begin.operand src 4).setWidth 64 : Quad).setWidth 32 : DWord) })
      { s1 with fsr := r.fsr, fpuReplies := rs } () { s1 with fsr := s.begin.operand src 4, fpuReplies := rs } := by
    have same : (((s.begin.operand src 4).setWidth 64 : Quad).setWidth 32 : DWord) = s.begin.operand src 4 := by
      rw [BitVec.setWidth_setWidth_of_le _ (by decide), BitVec.setWidth_eq]
    rw [same]
    exact runs_change (fun u => { u with fsr := s.begin.operand src 4 }) { s1 with fsr := r.fsr, fpuReplies := rs }
      (fun _ => rfl) rfl
  exact completes_seq (exec_of_performFpu on (exec_lfsr_eq src s)) hi hs (runs_bind (runs_sendHead _ _)
    (runs_bind (runs_issueInt 4 src s.begin) (runs_bind run load))) (frame_none (State.afterRead_mem _ _ _) 0)
    (State.afterRead_pc _ _ _)

theorem completes_sfsr (hs : Answers s) (on : s.cfgF = true) (present : s.fpu ≠ .absent)
    (replies : s.fpuReplies = r :: rs) (bit : r.status.getLsbD 0 = false) (hi : (Instr.sfsr dst).WF) :
    let p := s.begin.writePlaceOf dst
    Completes (.sfsr dst) s { (s.begin.put p 4 s.fsr) with fpuReplies := rs, pc := s.next (.sfsr dst) }
      (s.begin.storeAddr p 4) 4 := by
  intro p
  obtain ⟨st, run⟩ := (slaveRun_replied (i := .sfsr dst) (sent := []) (fixed := fun s => ⟨none, some (s.fsr.setWidth 64)⟩)
    (s := s.begin) present (fun _ => rfl) rfl replies (by simp [statusMask])).1 bit
  have restore : Runs (change fun u => { u with fsr := s.fsr }) { s.begin with fsr := r.fsr, fpuReplies := rs } ()
      { s.begin with fpuReplies := rs } :=
    runs_change (fun u => { u with fsr := s.fsr }) { s.begin with fsr := r.fsr, fpuReplies := rs } (fun _ => rfl) rfl
  have value : ((s.fsr.setWidth 64 : Quad).setWidth (8 * 4)) = s.fsr := by
    rw [BitVec.setWidth_setWidth_of_le _ (by decide), BitVec.setWidth_eq]
  have store := runs_storeInt 4 p (s.fsr.setWidth 64) { s.begin with fpuReplies := rs }
  rw [value, State.put_fpuReplies] at store
  exact completes_seq (exec_of_performFpu on (exec_sfsr_eq dst s)) hi hs (runs_bind (runs_sendHead _ _)
    (runs_bind (runs_placeWrite dst s.begin) (runs_bind (runs_look State.fsr s.begin fun _ => rfl)
      (runs_bind run (runs_bind restore store))))) (frame_of_mem (frame_put rfl p 4 s.fsr) rfl) (State.put_pc s.begin p 4 s.fsr)

end

/-! ### An error that the FPU reports -/

/-- Registers handed to the sequence of Trap(SLAVE) with the FSR that the FPU left. -/
theorem handed_replied {s u : State} {a : Addr} (h : Handed s (({ u with psr := s.psr } : State).setSp a)) (f : DWord)
    (rs : List FpuReply) : Handed { s with fsr := f } (({ u with fsr := f, fpuReplies := rs, psr := s.psr } : State).setSp a) := by
  have moved := State.setSp_update (f := fun u => { u with fsr := f, fpuReplies := rs })
    (s := ({ u with psr := s.psr } : State)) a rfl rfl rfl
  have same : ({ u with fsr := f, fpuReplies := rs, psr := s.psr } : State).setSp a =
      { ({ u with psr := s.psr } : State).setSp a with fsr := f, fpuReplies := rs } := moved
  rw [same]
  obtain ⟨mem, memMap, sp0, sp1, modReg, intbase, regs, fp, cfg, fregs, fsingles, -⟩ := h
  exact ⟨mem, memMap, sp0, sp1, modReg, intbase, regs, fp, cfg, fregs, fsingles, rfl⟩

/-- An instruction whose FPU reports an error takes Trap(SLAVE). -/
theorem takes_slave {i : Instr} {x : M Unit} {s u : State} {f : DWord} {rs : List FpuReply}
    (e : exec i s = performFpu i x s) (on : s.cfgF = true) (hi : i.WF) (ram : Ram s) (wf : Memory.wf s.mem = true)
    (h : Traps x s.begin .slave { u with fsr := f, fpuReplies := rs })
    (handed : Handed s (({ u with psr := s.psr } : State).setSp s.sp)) :
    ∃ t, exec i s = .next t ∧ Trapped { s with fsr := f } t 3 := by
  obtain ⟨t, run, agree⟩ := performSeq_of_traps hi (answers_of_ram ram) h
  have trapped := trapped_of_handed (s := { s with fsr := f }) (t := { u with fsr := f, fpuReplies := rs }) .slave
    (handed_replied handed f rs) ram.1 wf
  exact ⟨t, (exec_of_performFpu on e).trans run, trapped_of_agree agree trapped⟩

/-- Settles O35. -/
theorem floatCompareStatus : Obligations.FloatCompareStatus := by
  refine ⟨?cmp, ?good, ?bad⟩
  case cmp =>
    intro t g1 g2 s hs j s1 done hi ready
    refine ⟨fun qx hx qy hy => cmpf_known hs hi ready hx hy, fun r rs replies bit => ?_⟩
    exact cmpf_replied hs hi ready (by rw [replies]; rfl) bit
  case good =>
    intro src dst s r rs hs on present replies bit p
    exact ⟨completes_lfsr hs on present replies bit, completes_sfsr hs on present replies bit⟩
  case bad =>
    intro src dst s r rs ram wf on present replies bit takes
    refine ⟨fun hi => ?_, fun hi => ?_⟩
    · have traps := (slaveRun_replied (i := .lfsr src) (sent := [(s.begin.operand src 4).setWidth 64])
        (fixed := fun _ => ⟨none, none⟩) (s := s.begin.afterRead src 4) (by rwa [State.afterRead_fpu]) (fun _ => rfl) rfl
        ((State.afterRead_fpuReplies _ _ _).trans replies) (by simp [statusMask])).2 bit
      exact takes_slave (exec_lfsr_eq src s) on hi ram wf (runs_traps_bind (runs_sendHead _ _)
        (runs_traps_bind (runs_issueInt 4 src s.begin) (traps_bind traps))) (handed_afterRead s src 4)
    · have traps := (slaveRun_replied (i := .sfsr dst) (sent := []) (fixed := fun s => ⟨none, some (s.fsr.setWidth 64)⟩)
        (s := s.begin) present (fun _ => rfl) rfl replies (by simp [statusMask])).2 bit
      exact takes_slave (exec_sfsr_eq dst s) on hi ram wf (runs_traps_bind (runs_sendHead _ _)
        (runs_traps_bind (runs_placeWrite dst s.begin) (runs_traps_bind (runs_look State.fsr s.begin fun _ => rfl)
          (traps_bind traps)))) (handed_begin s)

end Sys2Proof.Machine
end

section
/-! The bus log of an exception's sequence (60_exceptions.md R512, R520), and floating-point instructions with CFG.F = 0
(47_floating_point.md R392). -/
namespace Sys2Proof.Machine

open Sys2Proof.Safety

/-! ### What parts of a sequence log -/

/-- Where memory answers, a part that ends leaves PC alone and logs only bus cycles with the property `p`. -/
def Emits {α : Type} (p : BusEvent → Prop) (x : M α) : Prop := ∀ s a t, Answers s → x s = .ok a t →
  Answers t ∧ t.pc = s.pc ∧ ∃ l : List BusEvent, (∀ e ∈ l, p e) ∧ t.bus = s.bus ++ l.map .cycle

section

variable {p : BusEvent → Prop} {α β : Type}

theorem emits_pure (a : α) : Emits p (pure a : M α) := by
  intro s b t hs h
  cases h
  exact ⟨hs, rfl, [], (fun _ h => nomatch h), by simp⟩

theorem emits_bind {x : M α} {f : α → M β} (h : Emits p x) (k : ∀ a, Emits p (f a)) : Emits p (x >>= f) := by
  intro s b t hs e
  obtain ⟨a, u, hx, hf⟩ := bind_ok e
  obtain ⟨hu, pc, l, hl, bus⟩ := h s a u hs hx
  obtain ⟨ht, pc', l', hl', bus'⟩ := k a u b t hu hf
  refine ⟨ht, pc'.trans pc, l ++ l', fun e he => ?_, ?_⟩
  · rcases List.mem_append.mp he with he | he
    · exact hl e he
    · exact hl' e he
  · rw [bus', bus, List.map_append, List.append_assoc]

theorem emits_look_bind {f : State → α} {k : α → M β} (h : ∀ a, Emits p (k a)) : Emits p (look f >>= k) :=
  fun s b t hs e => h (f s) s b t hs e

theorem emits_change {f : State → State} (env : ∀ s, (f s).env = s.env) (bus : ∀ s, (f s).bus = s.bus)
    (pc : ∀ s, (f s).pc = s.pc) : Emits p (change f) := by
  intro s a t hs h
  cases h
  exact ⟨answers_congr (env s) hs, pc s, [], (fun _ h => nomatch h), by simp [bus]⟩

theorem emits_between (m : Seam) : Emits p (between m) := by
  intro s a t hs h
  rw [between_quiet hs.2] at h
  cases h
  exact ⟨hs, rfl, [], (fun _ h => nomatch h), by simp⟩

theorem emits_settled {w : Nat} (v : BitVec w) : Emits p (settled v) := by
  rw [settled_eq]
  exact emits_pure v

end

/-! ### Reads and writes -/

/-- A data cycle. -/
def IsData (e : BusEvent) : Prop := e.status = .data

/-- A data cycle that writes. -/
def IsDataWrite (e : BusEvent) : Prop := e.status = .data ∧ e.write = true

theorem Emits.data {α : Type} {x : M α} (h : Emits IsDataWrite x) : Emits IsData x := by
  intro s a t hs e
  obtain ⟨ht, pc, l, hl, bus⟩ := h s a t hs e
  exact ⟨ht, pc, l, fun e he => (hl e he).1, bus⟩

theorem emits_logged {p : BusEvent → Prop} {s : State} (hs : Answers s) (st : BusStatus) (wr : Bool) (q : Pins) (a : Addr)
    (bs : List Byte) (h : ∀ e : BusEvent, e.status = st → e.write = wr → p e) :
    Answers (s.logCycle st wr q a bs) ∧
      ∃ l : List BusEvent, (∀ e ∈ l, p e) ∧ (s.logCycle st wr q a bs).bus = s.bus ++ l.map .cycle := by
  refine ⟨?_, [_], fun e he => ?_, rfl⟩
  · rw [logCycle_quiet hs.2]
    exact answers_congr rfl hs
  · obtain rfl := List.mem_singleton.mp he
    exact h _ rfl rfl

theorem emits_readCycle (q : Pins) (m : Seam) (a : Addr) (n : Nat) : Emits IsData (readCycle .data q m a n) := by
  refine emits_bind (emits_between m) fun _ => ?_
  intro s b t hs h
  simp only [bind_apply, look, blocked_of_answers hs, change, answer_of_answers hs] at h
  cases h
  obtain ⟨ht, l, hl, bus⟩ := emits_logged hs .data false q a (loadBytes s.mem a n) fun _ h _ => h
  exact ⟨ht, rfl, l, hl, bus⟩

theorem emits_readCycles (q : Pins) (m : Seam) (cs : List (Addr × Nat)) : Emits IsData (readCycles .data q m cs) := by
  induction cs generalizing m with
  | nil => exact emits_pure _
  | cons c cs ih => exact emits_bind (emits_readCycle _ _ _ _) fun _ => emits_bind (ih _) fun _ => emits_pure _

theorem emits_readMem (a : Addr) (n : Nat) (q : Pins) : Emits IsData (readMem .data a n q) :=
  emits_bind (emits_settled _) fun _ => emits_bind (emits_readCycles _ _ _) fun _ =>
    emits_bind (emits_readCycles _ _ _) fun _ => emits_settled _

theorem emits_writeCycle (q : Pins) (m : Seam) (a : Addr) (bs : List Byte) : Emits IsDataWrite (writeCycle q m a bs) := by
  refine emits_bind (emits_between m) fun _ => ?_
  intro s b t hs h
  simp only [bind_apply, look, blocked_of_answers hs, change] at h
  cases h
  have stored : Answers ({ s with mem := storeBytes s.storable s.mem a bs } : State) := answers_congr rfl hs
  obtain ⟨ht, l, hl, bus⟩ := emits_logged stored .data true q a bs fun _ h k => (⟨h, k⟩ : IsDataWrite _)
  exact ⟨ht, rfl, l, hl, bus⟩

theorem emits_writeCycles (q : Pins) (m : Seam) (cs : List (Addr × Nat)) (bs : List Byte) :
    Emits IsDataWrite (writeCycles q m cs bs) := by
  induction cs generalizing m bs with
  | nil => exact emits_pure _
  | cons c cs ih => exact emits_bind (emits_writeCycle _ _ _ _) fun _ => ih _ _

theorem emits_writeMem {w : Nat} (a : Addr) (n : Nat) (v : BitVec w) (q : Pins) : Emits IsDataWrite (writeMem a n v q) :=
  emits_bind (emits_settled _) fun _ => emits_bind (emits_settled _) fun _ =>
    emits_bind (emits_writeCycles _ _ _ _) fun _ => emits_writeCycles _ _ _ _

theorem emits_push {w : Nat} (n : Nat) (v : BitVec w) : Emits IsDataWrite (push n v) :=
  emits_bind (emits_change (fun _ => setSp_env _ _) (fun _ => State.setSp_bus _ _) fun _ => State.setSp_pc _ _) fun _ =>
    emits_look_bind fun _ => emits_writeMem _ _ _ _

theorem emits_moduleEntry (d : Half) : Emits IsData (moduleEntry d) :=
  emits_look_bind fun _ => emits_bind (emits_readMem _ _ _) fun _ =>
    emits_bind (emits_change (fun _ => rfl) (fun _ => rfl) fun _ => rfl) fun _ =>
    emits_look_bind fun _ => emits_bind (emits_readMem _ _ _) fun _ => emits_settled _

/-! ### Entering a handler -/

/-- Where memory answers, a sequence that ends has made one Non-Sequential fetch cycle at the new PC, after data cycles and
before writes (R512 steps 5 to 7). -/
def Enters {α : Type} (x : M α) : Prop := ∀ s a t, Answers s → x s = .ok a t →
  Answers t ∧ ∃ (l1 l2 : List BusEvent) (e : BusEvent), t.bus = s.bus ++ (l1 ++ e :: l2).map .cycle ∧
    e.status = .fetchBreak ∧ e.addr = t.pc ∧ (∀ x ∈ l1 ++ l2, x.status = .data) ∧ ∀ x ∈ l2, x.write = true

theorem enters_flushAndFetch (a : Addr) : Enters (flushAndFetch a) := by
  intro s b t hs h
  have ht : Answers (s.jump a) := answers_congr rfl hs
  have run : demandFetch (s.jump a) = .ok b t := h
  rw [demandFetch_apply ht] at run
  cases run
  obtain ⟨answers, -⟩ := emits_logged (p := fun _ => True) ht .fetchBreak false { bpu := (s.jump a).flag .b } (s.jump a).fetchPc
    (loadBytes (s.jump a).mem (s.jump a).fetchPc (s.jump a).fetchWidth) fun _ _ _ => trivial
  exact ⟨answers_congr rfl answers, [], [], _, rfl, rfl, rfl, (fun _ h => nomatch h), fun _ h => nomatch h⟩

theorem enters_after {α β : Type} {x : M α} {f : α → M β} (h : Emits IsData x) (k : ∀ a, Enters (f a)) :
    Enters (x >>= f) := by
  intro s b t hs e
  obtain ⟨a, u, hx, hf⟩ := bind_ok e
  obtain ⟨hu, -, l, hl, bus⟩ := h s a u hs hx
  obtain ⟨ht, l1, l2, e, bus', status, at_, data, writes⟩ := k a u b t hu hf
  refine ⟨ht, l ++ l1, l2, e, ?_, status, at_, fun x hx => ?_, writes⟩
  · rw [bus', bus, List.append_assoc, List.append_assoc, ← List.map_append]
  · rw [List.append_assoc] at hx
    rcases List.mem_append.mp hx with hx | hx
    · exact hl x hx
    · exact data x hx

theorem enters_before {α β : Type} {x : M α} {f : α → M β} (h : Enters x) (k : ∀ a, Emits IsDataWrite (f a)) :
    Enters (x >>= f) := by
  intro s b t hs e
  obtain ⟨a, u, hx, hf⟩ := bind_ok e
  obtain ⟨hu, l1, l2, e, bus, status, at_, data, writes⟩ := h s a u hs hx
  obtain ⟨ht, pc, l, hl, bus'⟩ := k a u b t hu hf
  refine ⟨ht, l1, l2 ++ l, e, ?_, status, at_.trans pc.symm, fun x hx => ?_, fun x hx => ?_⟩
  · rw [bus', bus, List.append_assoc, ← List.map_append, List.append_assoc, List.cons_append]
  · rw [← List.append_assoc] at hx
    rcases List.mem_append.mp hx with hx | hx
    · exact data x hx
    · exact (hl x hx).1
  · rcases List.mem_append.mp hx with hx | hx
    · exact writes x hx
    · exact (hl x hx).2

theorem enters_look_bind {α β : Type} {f : State → α} {k : α → M β} (h : ∀ a, Enters (k a)) : Enters (look f >>= k) :=
  fun s b t hs e => h (f s) s b t hs e

theorem enters_service (k : Nat) (ra : Addr) : Enters (service k ra) :=
  enters_look_bind fun _ => enters_look_bind fun _ => enters_after (emits_readMem _ _ _) fun _ =>
    enters_after (emits_change (fun _ => rfl) (fun _ => rfl) fun _ => rfl) fun _ =>
    enters_after (emits_moduleEntry _) fun _ => enters_before (enters_flushAndFetch _) fun _ =>
    emits_bind (emits_push _ _) fun _ => emits_push _ _

theorem enters_takeTrap (k : Trap) (s0 : State) : Enters (takeTrap k s0) :=
  enters_after (emits_change (fun _ => setSp_env _ _) (fun _ => State.setSp_bus _ _) fun _ => State.setSp_pc _ _) fun _ =>
    enters_after (emits_change (fun _ => rfl) (fun _ => rfl) fun _ => rfl) fun _ =>
    enters_after (emits_push _ _).data fun _ => enters_service _ _

/-! ### CFG.F = 0 -/

theorem exec_of_off {j : Instr} {s : State} (float : isFloat j = true) (off : s.cfgF = false) :
    exec j s = finish s (.error (.trap .und) s.begin) := by
  have undefined {i : Instr} {x : M Unit} (e : exec i s = performFpu i x s) :
      exec i s = finish s (.error (.trap .und) s.begin) := e.trans (if_neg (by rw [off]; decide))
  cases j with
  | movif | lfsr | movlf | movfl | roundfi | truncfi | sfsr | floorfi | addf | movf | cmpf | subf | negf | divf | mulf
  | absf | polyf | dotf | scalbf | logbf => exact undefined rfl
  | _ => cases float

/-- Settles O37: the sequence of Trap(UND) is all that runs. -/
theorem floatUndefined : Obligations.FloatUndefined := by
  intro j s float off ram wf
  have answers : Answers s.begin := answers_of_ram ram
  obtain ⟨_, run⟩ := runs_takeTrap .und s s.begin answers
  obtain ⟨b, taken⟩ := run s.begin.bus
  let t := (s.begin.trapped .und s).withBus b
  have taken : takeTrap .und s s.begin = .ok () t := taken
  obtain ⟨-, l1, l2, e, bus, status, at_, data, writes⟩ := enters_takeTrap .und s _ _ _ answers taken
  refine ⟨t, l1, l2, e, ?_, trapped_of_agree (agree_of_bus b) (trapped_of_handed .und (handed_begin s) ram.1 wf), bus, status, at_, data,
    writes⟩
  rw [exec_of_off float off, finish, taken]
  rfl

end Sys2Proof.Machine
end

section
/-! The slave protocol with CFG.F = 1 (47_floating_point.md R391, R392, R394): the ID Byte and the Operation Word come first,
and an attached FPU answers every well-formed instruction that it has. -/
namespace Sys2Proof.Machine

open Sys2Proof.Safety

/-! ### Parts that go on -/

/-- What a part of an instruction can do to the environment and the bus log. -/
structure Onward (s t : State) : Prop where
  answers : Answers t
  fpu : t.fpu = s.fpu
  log : s.bus <+: t.bus

theorem Onward.trans {s t u : State} (h : Onward s t) (k : Onward t u) : Onward s u :=
  ⟨k.answers, k.fpu.trans h.fpu, h.log.trans k.log⟩

/-- Where memory answers, a part goes on. -/
def Serves {α : Type} (x : M α) : Prop := ∀ s, Answers s → ∃ a t, x s = .ok a t ∧ Onward s t

section

variable {α β : Type}

theorem serves_pure (a : α) : Serves (pure a : M α) := fun s hs => ⟨a, s, rfl, hs, rfl, List.prefix_rfl⟩

theorem serves_bind {x : M α} {f : α → M β} (h : Serves x) (k : ∀ a, Serves (f a)) : Serves (x >>= f) := by
  intro s hs
  obtain ⟨a, t, e, first⟩ := h s hs
  obtain ⟨b, u, e', second⟩ := k a t first.answers
  exact ⟨b, u, by rw [bind_apply, e]; exact e', first.trans second⟩

theorem serves_look_bind {f : State → α} {k : α → M β} (h : ∀ a, Serves (k a)) : Serves (look f >>= k) :=
  fun s hs => h (f s) s hs

theorem serves_look (f : State → α) : Serves (look f) := fun s hs => ⟨_, s, rfl, hs, rfl, List.prefix_rfl⟩

theorem serves_change {f : State → State} (env : ∀ s, (f s).env = s.env) (fpu : ∀ s, (f s).fpu = s.fpu)
    (bus : ∀ s, (f s).bus = s.bus) : Serves (change f) :=
  fun s hs => ⟨(), f s, rfl, answers_congr (env s) hs, fpu s, by rw [bus]⟩

theorem serves_between (m : Seam) : Serves (between m) :=
  fun s hs => ⟨(), s, between_quiet hs.2 m, hs, rfl, List.prefix_rfl⟩

theorem serves_settled {w : Nat} (v : BitVec w) : Serves (settled v) := by
  rw [settled_eq]
  exact serves_pure v

end

theorem onward_logCycle {s : State} (hs : Answers s) (st : BusStatus) (wr : Bool) (p : Pins) (a : Addr) (bs : List Byte) :
    Onward s (s.logCycle st wr p a bs) := by
  refine ⟨?_, rfl, List.prefix_append _ _⟩
  rw [logCycle_quiet hs.2]
  exact answers_congr rfl hs

theorem serves_readCycle (st : BusStatus) (p : Pins) (m : Seam) (a : Addr) (n : Nat) : Serves (readCycle st p m a n) := by
  refine serves_bind (serves_between m) fun _ s hs => ⟨loadBytes s.mem a n, _, ?_, onward_logCycle hs st false p a
    (loadBytes s.mem a n)⟩
  simp only [bind_apply, look, blocked_of_answers hs, change, answer_of_answers hs]
  rfl

theorem serves_readCycles (st : BusStatus) (p : Pins) (m : Seam) (cs : List (Addr × Nat)) :
    Serves (readCycles st p m cs) := by
  induction cs generalizing m with
  | nil => exact serves_pure _
  | cons c cs ih => exact serves_bind (serves_readCycle _ _ _ _ _) fun _ => serves_bind (ih _) fun _ => serves_pure _

theorem serves_readMem (st : BusStatus) (a : Addr) (n : Nat) (p : Pins) : Serves (readMem st a n p) :=
  serves_bind (serves_settled _) fun _ => serves_bind (serves_readCycles _ _ _ _) fun _ =>
    serves_bind (serves_readCycles _ _ _ _) fun _ => serves_settled _

theorem serves_writeCycle (p : Pins) (m : Seam) (a : Addr) (bs : List Byte) : Serves (writeCycle p m a bs) := by
  refine serves_bind (serves_between m) fun _ s hs => ?_
  have stored : Answers ({ s with mem := storeBytes s.storable s.mem a bs } : State) := answers_congr rfl hs
  obtain ⟨answers, fpu, log⟩ := onward_logCycle stored .data true p a bs
  refine ⟨(), _, ?_, answers, fpu, log⟩
  simp only [bind_apply, look, blocked_of_answers hs, change]

theorem serves_writeCycles (p : Pins) (m : Seam) (cs : List (Addr × Nat)) (bs : List Byte) :
    Serves (writeCycles p m cs bs) := by
  induction cs generalizing m bs with
  | nil => exact serves_pure _
  | cons c cs ih => exact serves_bind (serves_writeCycle _ _ _ _) fun _ => ih _ _

theorem serves_writeMem {w : Nat} (a : Addr) (n : Nat) (v : BitVec w) (p : Pins) : Serves (writeMem a n v p) :=
  serves_bind (serves_settled _) fun _ => serves_bind (serves_settled _) fun _ =>
    serves_bind (serves_writeCycles _ _ _ _) fun _ => serves_writeCycles _ _ _ _

theorem serves_setSp (f : State → Addr) : Serves (change fun s => s.setSp (f s)) :=
  serves_change (fun _ => setSp_env _ _) (fun _ => State.setSp_fpu _ _) fun _ => State.setSp_bus _ _

theorem serves_push {w : Nat} (n : Nat) (v : BitVec w) : Serves (push n v) :=
  serves_bind (serves_setSp _) fun _ => serves_look_bind fun _ => serves_writeMem _ _ _ _

theorem serves_pop (n : Nat) (p : Pins) : Serves (pop n p) :=
  serves_look_bind fun _ => serves_bind (serves_readMem _ _ _ _) fun _ => serves_bind (serves_setSp _) fun _ =>
    serves_pure _

/-! ### Operands -/

theorem serves_effBase (m : Base) : Serves (effBase m) := by
  cases m with
  | memRel => exact serves_look_bind fun _ => serves_bind (serves_readMem _ _ _ _) fun _ => serves_pure _
  | ext =>
    exact serves_look_bind fun _ => serves_bind (serves_readMem _ _ _ _) fun _ =>
      serves_bind (serves_readMem _ _ _ _) fun _ => serves_pure _
  | _ => exact serves_look _

theorem serves_effAddr (g : Gen) : Serves (effAddr g) := by
  cases g with
  | base m => exact serves_effBase m
  | scaled m x sc => exact serves_bind (serves_effBase m) fun _ => serves_look_bind fun _ => serves_pure _

theorem serves_effAddr24 (g : Gen) : Serves (effAddr24 g) := serves_bind (serves_effAddr g) fun _ => serves_pure _

theorem serves_placeRmw (g : Gen) : Serves (placeRmw g) := by
  have memory : Serves (do return Place.mem (← effAddr24 g)) := serves_bind (serves_effAddr24 g) fun _ => serves_pure _
  rcases g with m | ⟨m, x, sc⟩
  · cases m with
    | reg r => exact serves_pure _
    | _ => exact memory
  · exact memory

theorem serves_placeWrite (g : Gen) : Serves (placeWrite g) := by
  have memory : Serves (do return Place.mem (← effAddr24 g)) := serves_bind (serves_effAddr24 g) fun _ => serves_pure _
  rcases g with m | ⟨m, x, sc⟩
  · cases m with
    | reg r => exact serves_pure _
    | tos => exact serves_pure _
    | _ => exact memory
  · exact memory

theorem serves_readGen (g : Gen) (n : Nat) (p : Pins) : Serves (readGen g n p) := by
  have memory : Serves (do readMem .data (← effAddr24 g) n p) :=
    serves_bind (serves_effAddr24 g) fun _ => serves_readMem _ _ _ _
  rcases g with m | ⟨m, x, sc⟩
  · cases m with
    | reg r => exact serves_look _
    | imm v => exact serves_pure _
    | tos => exact serves_pop n p
    | _ => exact memory
  · exact memory

theorem serves_readPlace (st : BusStatus) (p : Place) (n : Nat) : Serves (readPlace st p n) := by
  cases p with
  | reg r => exact serves_look _
  | mem a => exact serves_readMem _ _ _ _
  | push => exact serves_look_bind fun _ => serves_readMem _ _ _ _

theorem serves_writePlace (p : Place) (n : Nat) (v : BitVec (8 * n)) : Serves (writePlace p n v) := by
  cases p with
  | reg r => exact serves_change (fun _ => rfl) (fun _ => rfl) fun _ => rfl
  | mem a => exact serves_writeMem _ _ _ _
  | push => exact serves_push _ _

/-! ### Slave cycles -/

theorem serves_slaveCycle (st : BusStatus) (wr : Bool) (m : Seam) (bs : List Byte) : Serves (slaveCycle st wr m bs) :=
  serves_bind (serves_between m) fun _ _ hs => ⟨(), _, rfl, onward_logCycle hs st wr {} 0 bs⟩

theorem serves_slaveWords (st : BusStatus) (wr : Bool) (m : Seam) (bs : List Byte) : Serves (slaveWords st wr m bs) := by
  induction m, bs using slaveWords.induct with
  | case1 m => exact serves_pure _
  | case2 m x => exact serves_slaveCycle _ _ _ _
  | case3 m x y r ih => exact serves_bind (serves_slaveCycle _ _ _ _) fun _ => ih

theorem serves_slaveSend (st : BusStatus) (wr : Bool) (bs : List Byte) : Serves (slaveSend st wr bs) :=
  serves_slaveWords _ _ _ _

theorem serves_issue {w : Nat} (n : Nat) (v : BitVec w) : Serves (issue n v) :=
  serves_bind (serves_slaveSend _ _ _) fun _ => serves_pure _

theorem serves_issueFloat (t : FSize) (g : Gen) : Serves (issueFloat t g) := by
  have other : Serves (do issue t.bytes (← readGen g t.bytes)) :=
    serves_bind (serves_readGen _ _ _) fun _ => serves_issue _ _
  rcases g with m | ⟨m, x, sc⟩
  · cases m with
    | reg r => exact serves_look _
    | _ => exact other
  · exact other

theorem serves_issueInt (n : Nat) (g : Gen) : Serves (issueInt n g) :=
  serves_bind (serves_readGen _ _ _) fun _ => serves_issue _ _

theorem serves_issuePlace (t : FSize) (p : Place) : Serves (issuePlace t p) := by
  cases p with
  | reg r => exact serves_look _
  | _ => exact serves_bind (serves_readPlace _ _ _) fun _ => serves_issue _ _

theorem State.putFreg_fpu (s : State) (r : RegNo) (t : FSize) (v : Quad) (qs : Vector Quad 8) (ds : Vector DWord 8) :
    (s.putFreg r t v qs ds).fpu = s.fpu ∧ (s.putFreg r t v qs ds).bus = s.bus := by
  unfold State.putFreg
  cases t <;> dsimp only <;> split <;> exact ⟨rfl, rfl⟩

theorem serves_writeFreg (r : RegNo) (t : FSize) (v : Quad) : Serves (writeFreg r t v) :=
  serves_change (fun _ => State.putFreg_env _ _ _ _ _ _) (fun _ => (State.putFreg_fpu _ _ _ _ _ _).1)
    fun _ => (State.putFreg_fpu _ _ _ _ _ _).2

theorem serves_storeFloat (t : FSize) (p : Place) (v : Quad) : Serves (storeFloat t p v) := by
  cases p with
  | reg r => exact serves_writeFreg r t v
  | _ => exact serves_bind (serves_slaveSend _ _ _) fun _ => serves_writePlace _ _ _

theorem serves_storeInt (n : Nat) (p : Place) (v : Quad) : Serves (storeInt n p v) :=
  serves_bind (serves_slaveSend _ _ _) fun _ => serves_writePlace _ _ _

theorem serves_fpuReply (q : FpuRequest) : Serves (fpuReply q) := by
  intro s hs
  unfold fpuReply
  rw [bind_apply]
  simp only [look]
  cases s.fpuReplies with
  | nil => exact ⟨_, _, rfl, answers_congr rfl hs, rfl, List.prefix_rfl⟩
  | cons r rs => exact ⟨_, _, rfl, answers_congr rfl hs, rfl, List.prefix_rfl⟩

/-! ### Parts that ask the FPU -/

/-- Where memory answers, a part goes on, or ends with the error that the FPU reports (R398). -/
def Reports {α : Type} (x : M α) : Prop := ∀ s, Answers s →
  ∃ t, Onward s t ∧ ((∃ a, x s = .ok a t) ∨ x s = .error (.trap .slave) t)

theorem reports_after {α β : Type} {x : M α} {f : α → M β} (h : Serves x) (k : ∀ a, Reports (f a)) :
    Reports (x >>= f) := by
  intro s hs
  obtain ⟨a, t, e, first⟩ := h s hs
  obtain ⟨u, second, ends⟩ := k a t first.answers
  refine ⟨u, first.trans second, ?_⟩
  rw [bind_apply, e]
  exact ends

/-- Where memory answers, a part that asks the FPU gets an answer, or reports the FPU's error; without one it is stuck
(R392, R398). -/
structure Asks {α : Type} (x : M α) : Prop where
  present : ∀ s, Answers s → s.fpu ≠ .absent →
    ∃ t, Onward s t ∧ ((∃ a, x s = .ok a t) ∨ x s = .error (.trap .slave) t)
  absent : ∀ s, Answers s → s.fpu = .absent → ∃ t, Answers t ∧ x s = .error (.fault .stuckOnSlave) t

section

variable {α β : Type}

theorem asks_after {x : M α} {f : α → M β} (h : Serves x) (k : ∀ a, Asks (f a)) : Asks (x >>= f) where
  present s hs fpu := by
    obtain ⟨a, t, e, first⟩ := h s hs
    obtain ⟨u, second, ends⟩ := (k a).present t first.answers (first.fpu ▸ fpu)
    refine ⟨u, first.trans second, ?_⟩
    rw [bind_apply, e]
    exact ends
  absent s hs fpu := by
    obtain ⟨a, t, e, first⟩ := h s hs
    obtain ⟨u, hu, ends⟩ := (k a).absent t first.answers (first.fpu.trans fpu)
    refine ⟨u, hu, ?_⟩
    rw [bind_apply, e]
    exact ends

theorem asks_before {x : M α} {f : α → M β} (h : Asks x) (k : ∀ a, Serves (f a)) : Asks (x >>= f) where
  present s hs fpu := by
    obtain ⟨t, first, ⟨a, e⟩ | e⟩ := h.present s hs fpu
    · obtain ⟨b, u, e', second⟩ := k a t first.answers
      exact ⟨u, first.trans second, .inl ⟨b, by rw [bind_apply, e]; exact e'⟩⟩
    · exact ⟨t, first, .inr (by rw [bind_apply, e])⟩
  absent s hs fpu := by
    obtain ⟨t, ht, e⟩ := h.absent s hs fpu
    exact ⟨t, ht, by rw [bind_apply, e]⟩

theorem asks_look_bind {f : State → α} {k : α → M β} (h : ∀ a, Asks (k a)) : Asks (look f >>= k) :=
  asks_after (serves_look f) h

end

/-- The end of slaveRun: the Status Word is read, and its error reported (R391 step 6, R398). -/
def slaveEnd (status : Half) (result : Quad) : M (Half × Quad) := do
  slaveSend .slaveStatus false (toBytes 2 status)
  if status.getLsbD 0 then abort (.trap .slave) else return (status, result)

theorem reports_slaveEnd (status : Half) (result : Quad) : Reports (slaveEnd status result) := by
  refine reports_after (serves_slaveSend _ _ _) fun _ s hs => ⟨s, ⟨hs, rfl, List.prefix_rfl⟩, ?_⟩
  split
  · exact .inr rfl
  · exact .inl ⟨_, rfl⟩

theorem slaveRun_apply (i : Instr) (sent : List Quad) (fixed : State → Fixed) (s : State) :
    slaveRun i sent fixed s = (if s.fpu = .absent then abort (if s.resetIn.isSome then .reset else .fault .stuckOnSlave)
      else do
        let reply ← fpuReply ⟨s.fpu, (slaveHead i).1, (slaveHead i).2, sent, s.fregs, s.fsingles, s.fsr⟩
        change fun s => { s with fsr := reply.fsr }
        slaveEnd ((fixed s).status.getD reply.status &&& statusMask i) ((fixed s).result.getD reply.result) :
          M (Half × Quad)) s := rfl

theorem asks_slaveRun (i : Instr) (sent : List Quad) (fixed : State → Fixed) : Asks (slaveRun i sent fixed) where
  present s hs fpu := by
    rw [slaveRun_apply, if_neg fpu]
    have load (reply : FpuReply) : Serves (change fun s => { s with fsr := reply.fsr }) :=
      serves_change (fun _ => rfl) (fun _ => rfl) fun _ => rfl
    exact reports_after (serves_fpuReply _) (fun reply => reports_after (load reply) fun _ => reports_slaveEnd _ _) s hs
  absent s hs fpu := by
    refine ⟨s, hs, ?_⟩
    have running : s.resetIn.isSome = false := by rw [hs.2.2]; rfl
    rw [slaveRun_apply, if_pos fpu, running]
    rfl

/-! ### The instructions -/

/-- What runs after the ID Byte and the Operation Word asks the FPU; Format 12 is for an NS32381 (R394). -/
def Spoken (j : Instr) : Prop := ∃ rest : M Unit, Asks rest ∧
  ((∀ s, exec j s = performFpu j (do sendHead j; rest) s) ∧ (slaveHead j).1 ≠ 0xFE ∨
    (∀ s, exec j s = performFpu j (do needs381; sendHead j; rest) s) ∧ (slaveHead j).1 = 0xFE)

theorem asks_floatRmw (i : Instr) (t : FSize) (src dst : Gen) (f : Quad → Quad → Option Quad) :
    ∃ rest, Asks rest ∧ floatRmw i t src dst f = (do sendHead i; rest) :=
  ⟨_, asks_after (serves_issueFloat t src) fun _ => asks_after (serves_placeRmw dst) fun p =>
    asks_after (serves_issuePlace t p) fun _ => asks_before (asks_slaveRun _ _ _) fun _ => serves_storeFloat _ _ _, rfl⟩

theorem asks_floatMove (i : Instr) (t t' : FSize) (src dst : Gen) (f : Quad → Fixed) :
    ∃ rest, Asks rest ∧ Machine.floatMove i t t' src dst f = (do sendHead i; rest) :=
  ⟨_, asks_after (serves_issueFloat t src) fun _ => asks_after (serves_placeWrite dst) fun _ =>
    asks_before (asks_slaveRun _ _ _) fun _ => serves_storeFloat _ _ _, rfl⟩

theorem asks_floatToInt (i : Instr) (t : FSize) (n : Nat) (src dst : Gen) (f : Dyadic → Int) :
    ∃ rest, Asks rest ∧ floatToInt i t n src dst f = (do sendHead i; rest) :=
  ⟨_, asks_after (serves_issueFloat t src) fun _ => asks_after (serves_placeWrite dst) fun _ =>
    asks_before (asks_slaveRun _ _ _) fun _ => serves_storeInt _ _ _, rfl⟩

theorem asks_floatToF0 (i : Instr) (t : FSize) (g1 g2 : Gen) (f : Quad → Quad → Quad → Option Quad) :
    ∃ rest, Asks rest ∧ floatToF0 i t g1 g2 f = (do needs381; sendHead i; rest) :=
  ⟨_, asks_after (serves_issueFloat t g1) fun _ => asks_after (serves_issueFloat t g2) fun _ =>
    asks_before (asks_slaveRun _ _ _) fun _ => serves_writeFreg _ _ _, rfl⟩

/-- The ID Byte of Format 9 is the first byte (R159, R391). -/
theorem slaveHead_format9 {i : Instr} {a b : BitVec 5} {op : BitVec 3} {f : BitVec 1} {n : BitVec 2} {bs cs : List Byte}
    (h : encode i = fmt9Word a b op f n ++ bs ++ cs) : (slaveHead i).1 = 0x3E := by
  have first := low_setWidth (a ++ b ++ op ++ f ++ n) (0x3E : BitVec 8) (Nat.le_refl _)
  rw [BitVec.setWidth_eq] at first
  rw [slaveHead, h]
  exact first

theorem slaveHead_fmt9 {i : Instr} {a b : Gen} {op : BitVec 3} {f : BitVec 1} {n : BitVec 2}
    (h : encode i = fmt9 a b op f n) : (slaveHead i).1 = 0x3E :=
  slaveHead_format9 (cs := []) (h.trans (List.append_nil _).symm)

theorem asks_movif (i : Size) (t : FSize) (src dst : Gen) : ∃ rest, Asks rest ∧
    ∀ s, exec (.movif i t src dst) s = performFpu (.movif i t src dst) (do sendHead (.movif i t src dst); rest) s :=
  ⟨_, asks_after (serves_readGen src i.bytes {}) fun _ => asks_after (serves_issue _ _) fun _ =>
    asks_after (serves_placeWrite dst) fun _ => asks_before (asks_slaveRun _ _ _) fun _ => serves_storeFloat t _ _,
    fun _ => rfl⟩

theorem asks_cmpfEnd (i : Instr) (sent : List Quad) (fixed : Fixed) : Asks (cmpfEnd i sent fixed) := by
  have flags (z n l : Bool) : Serves (change fun s => ((s.putFlag .n n).putFlag .z z).putFlag .l l) :=
    serves_change (fun _ => rfl) (fun _ => rfl) fun _ => rfl
  exact asks_before (asks_slaveRun _ _ _) fun _ => flags _ _ _

theorem asks_cmpf (t : FSize) (g1 g2 : Gen) : ∃ rest, Asks rest ∧
    ∀ s, exec (.cmpf t g1 g2) s = performFpu (.cmpf t g1 g2) (do sendHead (.cmpf t g1 g2); rest) s :=
  ⟨_, asks_after (serves_issueFloat t g1) fun _ => asks_after (serves_issueFloat t g2) fun _ =>
    asks_cmpfEnd _ _ _, exec_cmpf_eq t g1 g2⟩

theorem serves_loadFsr (v : DWord) : Serves (change fun s => { s with fsr := v }) :=
  serves_change (fun _ => rfl) (fun _ => rfl) fun _ => rfl

theorem asks_lfsr (src : Gen) : ∃ rest, Asks rest ∧
    ∀ s, exec (.lfsr src) s = performFpu (.lfsr src) (do sendHead (.lfsr src); rest) s :=
  ⟨_, asks_after (serves_issueInt 4 src) fun _ => asks_before (asks_slaveRun _ _ _) fun _ => serves_loadFsr _,
    exec_lfsr_eq src⟩

theorem asks_sfsr (dst : Gen) : ∃ rest, Asks rest ∧
    ∀ s, exec (.sfsr dst) s = performFpu (.sfsr dst) (do sendHead (.sfsr dst); rest) s :=
  ⟨_, asks_after (serves_placeWrite dst) fun _ => asks_look_bind fun old => asks_before (asks_slaveRun _ _ _) fun _ =>
    serves_bind (serves_loadFsr old) fun _ => serves_storeInt 4 _ _, exec_sfsr_eq dst⟩

section

variable {j : Instr} {a b : Gen} {t : FSize}

theorem Spoken.plain (h : ∃ rest, Asks rest ∧ ∀ s, exec j s = performFpu j (do sendHead j; rest) s)
    (id : (slaveHead j).1 ≠ 0xFE) : Spoken j := by
  obtain ⟨rest, asks, e⟩ := h
  exact ⟨rest, asks, .inl ⟨e, id⟩⟩

theorem spoken_format9 {op : BitVec 3} {f : BitVec 1} {n : BitVec 2} (code : encode j = fmt9 a b op f n) {x : M Unit}
    (asks : ∃ rest, Asks rest ∧ x = (do sendHead j; rest)) (e : ∀ s, exec j s = performFpu j x s) : Spoken j := by
  obtain ⟨rest, ask, rfl⟩ := asks
  exact .plain ⟨rest, ask, e⟩ (by rw [slaveHead_fmt9 code]; decide)

theorem spoken_format11 {op : BitVec 4} (code : encode j = fmt11 a b op t 0xBE) {x : M Unit}
    (asks : ∃ rest, Asks rest ∧ x = (do sendHead j; rest)) (e : ∀ s, exec j s = performFpu j x s) : Spoken j := by
  obtain ⟨rest, ask, rfl⟩ := asks
  exact .plain ⟨rest, ask, e⟩ (by rw [slaveHead_format11 code]; decide)

theorem spoken_format12 {op : BitVec 4} (code : encode j = fmt11 a b op t 0xFE) {x : M Unit}
    (asks : ∃ rest, Asks rest ∧ x = (do needs381; sendHead j; rest)) (e : ∀ s, exec j s = performFpu j x s) :
    Spoken j := by
  obtain ⟨rest, ask, rfl⟩ := asks
  exact ⟨rest, ask, .inr ⟨e, slaveHead_format11 code⟩⟩

theorem asks_needs381 {x : M Unit} (asks : ∃ rest, Asks rest ∧ x = (do sendHead j; rest)) :
    ∃ rest, Asks rest ∧ (do needs381; x) = (do needs381; sendHead j; rest) := by
  obtain ⟨rest, ask, rfl⟩ := asks
  exact ⟨rest, ask, rfl⟩

end

/-- Every floating-point instruction asks the FPU. -/
theorem spoken {j : Instr} (h : isFloat j = true) : Spoken j := by
  cases j with
  | movif i t a b => exact .plain (asks_movif i t a b) (by rw [slaveHead_fmt9 rfl]; decide)
  | lfsr a => exact .plain (asks_lfsr a) (by rw [slaveHead_format9 rfl]; decide)
  | sfsr b => exact .plain (asks_sfsr b) (by rw [slaveHead_format9 rfl]; decide)
  | movlf a b => exact spoken_format9 rfl (asks_floatMove _ _ _ _ _ _) fun _ => rfl
  | movfl a b => exact spoken_format9 rfl (asks_floatMove _ _ _ _ _ _) fun _ => rfl
  | roundfi t i a b => exact spoken_format9 rfl (asks_floatToInt _ _ _ _ _ _) fun _ => rfl
  | truncfi t i a b => exact spoken_format9 rfl (asks_floatToInt _ _ _ _ _ _) fun _ => rfl
  | floorfi t i a b => exact spoken_format9 rfl (asks_floatToInt _ _ _ _ _ _) fun _ => rfl
  | addf t a b => exact spoken_format11 rfl (asks_floatRmw _ _ _ _ _) fun _ => rfl
  | subf t a b => exact spoken_format11 rfl (asks_floatRmw _ _ _ _ _) fun _ => rfl
  | mulf t a b => exact spoken_format11 rfl (asks_floatRmw _ _ _ _ _) fun _ => rfl
  | divf t a b => exact spoken_format11 rfl (asks_floatRmw _ _ _ _ _) fun _ => rfl
  | movf t a b => exact spoken_format11 rfl (asks_floatMove _ _ _ _ _ _) fun _ => rfl
  | negf t a b => exact spoken_format11 rfl (asks_floatMove _ _ _ _ _ _) fun _ => rfl
  | absf t a b => exact spoken_format11 rfl (asks_floatMove _ _ _ _ _ _) fun _ => rfl
  | cmpf t a b => exact .plain (asks_cmpf t a b) (by rw [slaveHead_format11 rfl]; decide)
  | polyf t a b => exact spoken_format12 rfl (asks_floatToF0 _ _ _ _ _) fun _ => rfl
  | dotf t a b => exact spoken_format12 rfl (asks_floatToF0 _ _ _ _ _) fun _ => rfl
  | scalbf t a b => exact spoken_format12 rfl (asks_needs381 (asks_floatRmw _ _ _ _ _)) fun _ => rfl
  | logbf t a b => exact spoken_format12 rfl (asks_needs381 (asks_floatMove _ _ _ _ _ _)) fun _ => rfl
  | _ => cases h

end Sys2Proof.Machine
end

section
/-! The first bus cycles of a floating-point instruction (47_floating_point.md R391 steps 1 and 2, 20_memory.md R104). -/
namespace Sys2Proof.Machine

open Sys2Proof.Safety

/-! ### The ID Byte and the Operation Word -/

/-- The cycles of the ID Byte and the Operation Word. -/
def headCycles (b0 b1 b2 : Byte) (user : Bool) : List PinEvent :=
  [.cycle ⟨.slaveId, true, 0, 1, b0.setWidth 16, false, false, user⟩,
    .cycle ⟨.slaveOperand, true, 0, 2, b1 ++ b2, false, false, user⟩]

theorem slaveCycle_apply {s : State} (hs : Quiet s) (st : BusStatus) (wr : Bool) (m : Seam) (bs : List Byte) :
    slaveCycle st wr m bs s = .ok () (s.withBus (s.logCycle st wr {} 0 bs).bus) := by
  rw [slaveCycle, bind_apply, between_quiet hs]
  exact congrArg (EStateM.Result.ok ()) (logCycle_quiet hs st wr {} 0 bs)

theorem bytesNat_one (x : Byte) : BitVec.ofNat 16 (bytesNat [x]) = x.setWidth 16 := by
  simp [bytesNat]

theorem bytesNat_two (x y : Byte) : BitVec.ofNat 16 (bytesNat [x, y]) = y ++ x := by
  apply BitVec.eq_of_toNat_eq
  have hx := x.isLt
  have hy := y.isLt
  rw [BitVec.toNat_append, ← Nat.shiftLeft_add_eq_or_of_lt x.isLt, Nat.shiftLeft_eq]
  simp only [bytesNat, BitVec.toNat_ofNat]
  omega

theorem sendHead_apply {j : Instr} {b0 b1 b2 : Byte} {rest : List Byte} {s : State} (hs : Quiet s)
    (code : encode j = b0 :: b1 :: b2 :: rest) :
    sendHead j s = .ok () (s.withBus (s.bus ++ headCycles b0 b1 b2 (s.flag .u))) := by
  have head : slaveHead j = (b0, b2 ++ b1) := by rw [slaveHead, code]
  have high : (b2 ++ b1 : Half).extractLsb' 8 8 = b2 := by
    refine BitVec.eq_of_getLsbD_eq fun k hk => ?_
    rw [BitVec.getLsbD_extractLsb', BitVec.getLsbD_append, if_neg (by omega), decide_eq_true hk, Bool.true_and,
      Nat.add_sub_cancel_left]
  have low : (b2 ++ b1 : Half).setWidth 8 = b1 := by
    have last := low_setWidth b2 b1 (Nat.le_refl _)
    rwa [BitVec.setWidth_eq] at last
  have op : slaveSend .slaveOperand true [(b2 ++ b1 : Half).extractLsb' 8 8, (b2 ++ b1 : Half).setWidth 8] =
      (do slaveCycle .slaveOperand true .apart [b2, b1]; return ()) := by
    rw [high, low]
    rfl
  have unfolded : sendHead j = (do
      slaveCycle .slaveId true .apart [b0]
      slaveCycle .slaveOperand true .apart [b2, b1]
      return ()) := by
    rw [sendHead, head]
    exact congrArg (fun x => (do slaveSend .slaveId true [b0]; x : M Unit)) op
  have quiet (b : List PinEvent) : Quiet (s.withBus b) := hs
  rw [unfolded, bind_apply, slaveCycle_apply hs]
  dsimp only
  rw [bind_apply, slaveCycle_apply (quiet _)]
  simp only [State.logCycle, bytesNat_one, bytesNat_two]
  exact congrArg (fun l => EStateM.Result.ok () (s.withBus l)) (List.append_assoc s.bus [_] [_])

/-! ### To the end of the instruction -/

theorem finish_of_reports {s0 t : State} {r : EStateM.Result Abort State Unit} (ht : Answers t)
    (h : (∃ a, r = .ok a t) ∨ r = .error (.trap .slave) t) : ∃ u, finish s0 r = .next u ∧ t.bus <+: u.bus := by
  rcases h with ⟨a, rfl⟩ | rfl
  · exact ⟨t, rfl, List.prefix_rfl⟩
  · obtain ⟨_, run⟩ := runs_takeTrap .slave s0 t ht
    obtain ⟨b, taken⟩ := run t.bus
    have taken : takeTrap .slave s0 t = .ok () ((t.trapped .slave s0).withBus b) := taken
    obtain ⟨-, l1, l2, e, bus, -⟩ := enters_takeTrap .slave s0 _ _ _ ht taken
    refine ⟨(t.trapped .slave s0).withBus b, ?_, ?_⟩
    · rw [finish, taken]
      rfl
    · rw [bus]
      exact List.prefix_append _ _

section

variable {j : Instr} {b0 b1 b2 : Byte} {bytes : List Byte} {s : State} {rest : M Unit}

/-- An instruction with an FPU attached. -/
theorem performSeq_spoken (hj : j.WF) (hs : Answers s) (code : encode j = b0 :: b1 :: b2 :: bytes) (asks : Asks rest)
    (present : s.fpu ≠ .absent) : ∃ t l, performSeq j (do sendHead j; rest) s = .next t ∧
      t.bus = s.begin.bus ++ (headCycles b0 b1 b2 (s.flag .u) ++ l) := by
  let s1 := s.begin.withBus (s.begin.bus ++ headCycles b0 b1 b2 (s.begin.flag .u))
  have answers : Answers s1 := answers_congr rfl hs
  have head : sendHead j s.begin = .ok () s1 := sendHead_apply hs.2 code
  obtain ⟨t, onward, ends⟩ := asks.present s1 answers present
  have body : (do (do sendHead j; rest); advance j) s.begin = (do rest; advance j) s1 := by
    rw [bind_apply, bind_apply, head, bind_apply]
  have whole : ∃ t', Answers t' ∧ t'.bus = t.bus ∧
      ((∃ a, (do rest; advance j) s1 = .ok a t') ∨ (do rest; advance j) s1 = .error (.trap .slave) t') := by
    rcases ends with ⟨a, e⟩ | e
    · exact ⟨{ t with pc := t.next j }, answers_congr rfl onward.answers, rfl, .inl ⟨(), by rw [bind_apply, e]; rfl⟩⟩
    · exact ⟨t, onward.answers, rfl, .inr (by rw [bind_apply, e])⟩
  obtain ⟨t', ht', bus, whole⟩ := whole
  obtain ⟨u, done, log⟩ := finish_of_reports (s0 := s) ht' whole
  obtain ⟨l, hl⟩ := onward.log.trans (bus ▸ log)
  have hj' : j.check = none := hj
  refine ⟨u, l, ?_, ?_⟩
  · rw [performSeq, perform, hj', body]
    exact done
  · have user : s.begin.flag .u = s.flag .u := by rw [State.begin_flag, if_neg (by decide)]
    rw [← hl, ← user, ← List.append_assoc]
    rfl

/-- An instruction without an FPU. -/
theorem performSeq_stuck (hj : j.WF) (hs : Answers s) (code : encode j = b0 :: b1 :: b2 :: bytes) (asks : Asks rest)
    (absent : s.fpu = .absent) : performSeq j (do sendHead j; rest) s = .fault .stuckOnSlave := by
  let s1 := s.begin.withBus (s.begin.bus ++ headCycles b0 b1 b2 (s.begin.flag .u))
  have answers : Answers s1 := answers_congr rfl hs
  have head : sendHead j s.begin = .ok () s1 := sendHead_apply hs.2 code
  obtain ⟨t, ht, stuck⟩ := asks.absent s1 answers absent
  have body : (do (do sendHead j; rest); advance j) s.begin = .error (.fault .stuckOnSlave) t := by
    rw [bind_apply, bind_apply, head]
    dsimp only
    rw [stuck]
  have hj' : j.check = none := hj
  rw [performSeq, perform, hj', body]
  exact if_neg (by rw [ht.2.2]; decide)

end

/-! ### Format 12 on an NS32081 -/

theorem performSeq_needs381 {j : Instr} {x : M Unit} {s : State} (h : s.fpu ≠ .ns32081) :
    performSeq j (do needs381; x) s = performSeq j x s := by
  have passes : needs381 s.begin = .ok () s.begin := by
    have other : s.begin.fpu ≠ .ns32081 := h
    rw [needs381, bind_apply]
    simp only [look, decide_eq_false other]
    rfl
  have body : (do (do needs381; x); advance j) s.begin = (do x; advance j) s.begin := by
    rw [bind_apply, bind_apply, passes, bind_apply]
  simp only [performSeq, perform, body]

theorem refuses_needs381 {s : State} (h : s.fpu = .ns32081) : Refuses needs381 s .format12OnNs32081 := by
  intro hs b
  have old : (s.withBus b).fpu = .ns32081 := h
  refine ⟨s.withBus b, answers_congr rfl hs, ?_⟩
  rw [needs381, bind_apply]
  simp only [look, decide_eq_true old]
  rfl

/-- Settles O38. -/
theorem floatProtocol : Obligations.FloatProtocol := by
  intro j s b0 b1 b2 bytes hs float hj on code
  have id : (slaveHead j).1 = b0 := by rw [slaveHead, code]
  obtain ⟨rest, asks, kinds⟩ := spoken float
  have sent (h : (slaveHead j).1 = 0xFE → s.fpu ≠ .ns32081) : exec j s = performSeq j (do sendHead j; rest) s := by
    rcases kinds with ⟨e, -⟩ | ⟨e, format12⟩
    · exact exec_of_performFpu on (e s)
    · exact (exec_of_performFpu on (e s)).trans (performSeq_needs381 (h format12))
  refine ⟨fun ready => ?_, fun absent => ?_, fun old format12 => ?_⟩
  · rw [sent fun format12 => by
      rcases ready.2 with e | ⟨-, other⟩
      · rw [e]; decide
      · exact absurd format12 other]
    exact performSeq_spoken hj hs code asks (fpu_present ready)
  · rw [sent fun _ => by rw [absent]; decide]
    exact performSeq_stuck hj hs code asks absent
  · rcases kinds with ⟨-, other⟩ | ⟨e, -⟩
    · exact absurd (id.trans format12) other
    · exact (exec_of_performFpu on (e s)).trans
        (performSeq_of_refuses hj hs (refuses_bind (refuses_needs381 (s := s.begin) old)))

end Sys2Proof.Machine
end

section
/-! Interruptible instructions (60_exceptions.md R516) and the string loop (44_strings.md R310). -/
namespace Sys2Proof.Machine

open Sys2Proof.Safety

/-! ### Passes -/

section

variable {done : State → Bool} {pass : M Bool} {n : Nat} {s t : State}

/-- With no passes left, the instruction is complete if nothing is left to do. -/
theorem runs_passes_zero (hb : ∀ b, done (s.withBus b) = done s) : Runs (passes done pass 0) s (done s) s :=
  runs_look done s hb

theorem runs_passes_done (hb : ∀ b, done (s.withBus b) = done s) (h : done s = true) :
    Runs (passes done pass n) s true s := by
  have stop := runs_look done s hb
  rw [h] at stop
  cases n with
  | zero => exact stop
  | succ n => exact runs_bind stop (runs_pure _ _)

theorem runs_passes_last (hb : ∀ b, done (s.withBus b) = done s) (h : done s = false) (run : Runs pass s true t) :
    Runs (passes done pass (n + 1)) s true t := by
  have go := runs_look done s hb
  rw [h] at go
  exact runs_bind go (runs_bind run (runs_pure _ _))

theorem runs_passes_next (hb : ∀ b, done (s.withBus b) = done s) (h : done s = false) (run : Runs pass s false t)
    {b : Bool} {u : State} (rest : Runs (passes done pass n) t b u) : Runs (passes done pass (n + 1)) s b u := by
  have go := runs_look done s hb
  rw [h] at go
  exact runs_bind go (runs_bind run rest)

end

/-- Passes through the states `f 0`, `f 1`, …, `f k`, none of which is the last. -/
theorem runs_passes_through {done : State → Bool} {pass : M Bool} (f : Nat → State) {k n : Nat} {b : Bool} {u : State}
    (hb : ∀ (s : State) (b : List PinEvent), done (s.withBus b) = done s)
    (h : ∀ m < k, done (f m) = false ∧ Runs pass (f m) false (f (m + 1)))
    (rest : Runs (passes done pass n) (f k) b u) : Runs (passes done pass (k + n)) (f 0) b u := by
  induction k generalizing f with
  | zero => rwa [Nat.zero_add]
  | succ k ih =>
    obtain ⟨go, run⟩ := h 0 (Nat.succ_pos k)
    rw [show k + 1 + n = k + n + 1 by omega]
    exact runs_passes_next (hb _) go run (ih (fun m => f (m + 1)) (fun m hm => h (m + 1) (Nat.succ_lt_succ hm)) rest)

/-- How many of its `count` passes an interruptible instruction makes. -/
def State.passBudget (s : State) (least count : Nat) : Nat :=
  match s.suspend with
  | some b => min (max b least) count
  | none => count

theorem State.passBudget_zero (s : State) (count : Nat) : s.passBudget 0 count = s.allowed count := by
  unfold State.passBudget State.allowed
  cases s.suspend <;> simp

theorem State.passBudget_one (s : State) (count : Nat) : s.passBudget 1 count = s.allowedBetween count := by
  unfold State.passBudget State.allowedBetween
  cases s.suspend <;> rfl

theorem State.passBudget_le (s : State) (least count : Nat) : s.passBudget least count ≤ count := by
  unfold State.passBudget
  cases s.suspend with
  | none => exact Nat.le_refl _
  | some b => exact Nat.min_le_right _ _

section

variable {i : Instr} {leave : State → State} {least count : Nat} {done : State → Bool} {pass : M Bool}
  {complete : M Unit} {s t u : State}

theorem interruptible_eq : interruptible i leave least count done pass complete = (do
    let n ← look fun s => s.passBudget least count
    if ← passes done pass n then
      complete
      advance i
    else
      change fun s => (leave s).jump s.pc) := rfl

theorem runs_interruptible_complete (h : Runs (passes done pass (s.passBudget least count)) s true t)
    (c : Runs complete t () u) : Runs (interruptible i leave least count done pass complete) s ()
        { u with pc := u.next i } := by
  rw [interruptible_eq]
  exact runs_bind (runs_look (fun s => s.passBudget least count) s fun _ => rfl) (runs_bind h (runs_bind c (runs_advance i u)))

theorem runs_interruptible_suspended (h : Runs (passes done pass (s.passBudget least count)) s false t)
    (hb : ∀ b, leave (t.withBus b) = (leave t).withBus b) (env : (leave t).env = t.env) :
    Runs (interruptible i leave least count done pass complete) s () ((leave t).jump t.pc) := by
  rw [interruptible_eq]
  refine runs_bind (runs_look (fun s => s.passBudget least count) s fun _ => rfl) (runs_bind h ?_)
  exact runs_change (fun s => (leave s).jump s.pc) t (fun b => by rw [hb]; rfl) env

end

/-! ### The string loop -/

theorem countDone_withBus (s : State) (b : List PinEvent) : countDone (s.withBus b) = countDone s := rfl

theorem countDone_eq (s : State) : countDone s = decide ((s.reg 0).toNat = 0) := by
  have zero : (s.reg 0 = 0) ↔ (s.reg 0).toNat = 0 := BitVec.toNat_eq.trans (by simp)
  unfold countDone
  rw [Bool.beq_eq_decide_eq]
  exact decide_eq_decide.mpr zero

theorem State.addReg_reg_same (s : State) (r : RegNo) (v : DWord) : (s.addReg r v).reg r = s.reg r + v :=
  State.setReg_reg_same s r _

theorem State.addReg_reg_other (s : State) {r q : RegNo} (v : DWord) (h : r ≠ q) : (s.addReg r v).reg q = s.reg q :=
  State.setReg_reg_other s r q _ h

/-- The registers after `k` passes. -/
theorem State.stepped_reg (s : State) (n : Nat) (o : StrOpts) (two : Bool) (k : Nat) :
    (s.stepped n o two k).reg 0 = s.reg 0 - BitVec.ofNat 32 k ∧
    (s.stepped n o two k).reg 1 = s.reg 1 + BitVec.ofNat 32 k * strStep n o ∧
    (s.stepped n o two k).reg 2 = (if two then s.reg 2 + BitVec.ofNat 32 k * strStep n o else s.reg 2) ∧
    ∀ r : RegNo, 3 ≤ r.toNat → (s.stepped n o two k).reg r = s.reg r := by
  unfold State.stepped
  cases two
  · refine ⟨?_, ?_, ?_, fun r hr => ?_⟩
    · simp only [Bool.false_eq_true, if_false]
      rw [State.addReg_reg_same, State.addReg_reg_other _ _ (by decide), BitVec.sub_eq_add_neg]
    · simp only [Bool.false_eq_true, if_false]
      rw [State.addReg_reg_other _ _ (by decide), State.addReg_reg_same]
    · simp only [Bool.false_eq_true, if_false]
      rw [State.addReg_reg_other _ _ (by decide), State.addReg_reg_other _ _ (by decide)]
    · have other (q : RegNo) (hq : q.toNat < 3) : q ≠ r := fun e => by subst e; omega
      simp only [Bool.false_eq_true, if_false]
      rw [State.addReg_reg_other _ _ (other 0 (by decide)), State.addReg_reg_other _ _ (other 1 (by decide))]
  · refine ⟨?_, ?_, ?_, fun r hr => ?_⟩
    · simp only [if_true]
      rw [State.addReg_reg_same, State.addReg_reg_other _ _ (by decide), State.addReg_reg_other _ _ (by decide),
        BitVec.sub_eq_add_neg]
    · simp only [if_true]
      rw [State.addReg_reg_other _ _ (by decide), State.addReg_reg_other _ _ (by decide), State.addReg_reg_same]
    · simp only [if_true]
      rw [State.addReg_reg_other _ _ (by decide), State.addReg_reg_same, State.addReg_reg_other _ _ (by decide)]
    · have other (q : RegNo) (hq : q.toNat < 3) : q ≠ r := fun e => by subst e; omega
      simp only [if_true]
      rw [State.addReg_reg_other _ _ (other 0 (by decide)), State.addReg_reg_other _ _ (other 2 (by decide)),
        State.addReg_reg_other _ _ (other 1 (by decide))]

theorem runs_strElement (n : Nat) (t : Bool) (o : StrOpts) (s : State) :
    Runs (strElement n t) s (s.element n t o 0) s := by
  have at_ : (s.reg 1 + BitVec.ofNat 32 0 * strStep n o).setWidth 24 = s.ptr 1 := by simp [State.ptr]
  unfold strElement State.element
  rw [at_]
  refine runs_bind (runs_look (fun s => s.ptr 1) s fun _ => rfl) (runs_bind (runs_readMem _ _ _ _ _) ?_)
  cases t with
  | false => exact runs_pure _ _
  | true =>
    exact runs_bind (runs_look (fun u => (u.reg 3 + (s.peek (s.ptr 1) n).setWidth 32).setWidth 24) s fun _ => rfl)
      (runs_bind (runs_readMem _ _ _ _ _) (runs_pure _ _))

section

variable {n : Nat} {t : Bool} {o : StrOpts} {two : Bool} {body : BitVec (8 * n) → M Bool} {s u : State}

/-- What follows the element in a pass (R310). -/
def strRest (n : Nat) (o : StrOpts) (two : Bool) (body : BitVec (8 * n) → M Bool) (v : BitVec (8 * n)) : M Bool := do
  let key ← look fun s => (s.reg 4).setWidth (8 * n)
  if strEnds o v key then
    change fun s => s.putFlag .f true
    return true
  else if ← body v then return true
  else
    change fun s => s.stepped n o two 1
    return false

theorem stepped_one (s : State) (n : Nat) (o : StrOpts) (two : Bool) : s.stepped n o two 1 =
    (let s := s.addReg 1 (strStep n o)
     let s := if two then s.addReg 2 (strStep n o) else s
     s.addReg 0 (-1)) := by
  have one : BitVec.ofNat 32 1 * strStep n o = strStep n o := BitVec.one_mul _
  unfold State.stepped
  rw [one]
  rfl

theorem strPass_eq : strPass n t o two body = (do strRest n o two body (← strElement n t)) := by
  unfold strPass strRest
  simp only [stepped_one]

theorem runs_strPass_ends (h : s.ends n t o 0 = true) : Runs (strPass n t o two body) s true (s.putFlag .f true) := by
  rw [strPass_eq]
  refine runs_bind (runs_strElement n t o s) (runs_bind (runs_look (fun s => (s.reg 4).setWidth (8 * n)) s fun _ => rfl) ?_)
  rw [State.ends] at h
  rw [if_pos h]
  exact runs_bind (runs_putFlag _ _ _) (runs_pure _ _)

theorem runs_strPass_last (h : s.ends n t o 0 = false) (run : Runs (body (s.element n t o 0)) s true u) :
    Runs (strPass n t o two body) s true u := by
  rw [strPass_eq]
  refine runs_bind (runs_strElement n t o s) (runs_bind (runs_look (fun s => (s.reg 4).setWidth (8 * n)) s fun _ => rfl) ?_)
  rw [State.ends] at h
  rw [h, if_neg Bool.false_ne_true]
  exact runs_bind run (runs_pure _ _)

theorem runs_strPass_next (h : s.ends n t o 0 = false) (run : Runs (body (s.element n t o 0)) s false u) :
    Runs (strPass n t o two body) s false (u.stepped n o two 1) := by
  rw [strPass_eq]
  refine runs_bind (runs_strElement n t o s) (runs_bind (runs_look (fun s => (s.reg 4).setWidth (8 * n)) s fun _ => rfl) ?_)
  rw [State.ends] at h
  rw [h, if_neg Bool.false_ne_true]
  refine runs_bind run (runs_bind (runs_change (fun s => s.stepped n o two 1) u (fun _ => ?_) ?_) (runs_pure _ _))
  · cases two <;> rfl
  · cases two <;> rfl

end

end Sys2Proof.Machine
end

section
/-! MOVSi and MOVST (44_strings.md R311, R312): what they store, and a suspended one resumed (R317). -/
namespace Sys2Proof.Machine

open Sys2Proof.Safety

/-! ### What the passes leave unchanged -/

theorem State.putFlag_same_flag (s : State) (q : PsrBit) (x : Bool) : (s.putFlag q x).flag q = x := by
  rw [State.putFlag_flag, if_pos rfl]

theorem State.stepped_pc (s : State) (n : Nat) (o : StrOpts) (two : Bool) (k : Nat) : (s.stepped n o two k).pc = s.pc := by
  cases two <;> rfl

theorem State.stepped_flag (s : State) (n : Nat) (o : StrOpts) (two : Bool) (k : Nat) (q : PsrBit) :
    (s.stepped n o two k).flag q = s.flag q := by
  cases two <;> rfl

section

variable (n : Nat) (t : Bool) (o : StrOpts)

theorem State.moved_ends {s : State} (k : Nat) (h : s.ends n t o 0 = true) :
    State.moved n t o (k + 1) s = s.putFlag .f true := if_pos h

theorem State.moved_next {s : State} (k : Nat) (h : s.ends n t o 0 = false) : State.moved n t o (k + 1) s =
    State.moved n t o k ((s.poke (s.ptr 2) n (s.element n t o 0)).stepped n o true 1) := if_neg (by simp [h])

theorem State.moved_pc (k : Nat) (s : State) : (State.moved n t o k s).pc = s.pc := by
  induction k generalizing s with
  | zero => rfl
  | succ k ih =>
    cases h : s.ends n t o 0 with
    | true => rw [State.moved_ends n t o k h]; rfl
    | false => rw [State.moved_next n t o k h, ih]; rfl

theorem State.moved_flag (k : Nat) (s : State) {q : PsrBit} (hq : q ≠ .f) :
    (State.moved n t o k s).flag q = s.flag q := by
  induction k generalizing s with
  | zero => rfl
  | succ k ih =>
    cases h : s.ends n t o 0 with
    | true =>
      rw [State.moved_ends n t o k h]
      rw [State.putFlag_flag, if_neg hq]
    | false =>
      rw [State.moved_next n t o k h, ih, State.stepped_flag]
      rfl

theorem State.moved_env (k : Nat) (s : State) : (State.moved n t o k s).env = s.env := by
  induction k generalizing s with
  | zero => rfl
  | succ k ih =>
    cases h : s.ends n t o 0 with
    | true => rw [State.moved_ends n t o k h]; rfl
    | false => rw [State.moved_next n t o k h, ih]; rfl

/-- What a pass that stores leaves in R0. -/
theorem State.moved_step_count {s : State} (h : s.reg 0 ≠ 0) (a : Addr) (v : BitVec (8 * n)) :
    ((((s.poke a n v).stepped n o true 1).reg 0).toNat) + 1 = (s.reg 0).toNat := by
  obtain ⟨r0, -⟩ := State.stepped_reg (s.poke a n v) n o true 1
  have same : (s.poke a n v).reg 0 = s.reg 0 := rfl
  have pos : (s.reg 0).toNat ≠ 0 := fun e => h (BitVec.eq_of_toNat_eq (by simpa using e))
  have one : (BitVec.ofNat 32 1).toNat = 1 := rfl
  rw [r0, same, BitVec.toNat_sub_of_le (by rw [BitVec.le_def, one]; omega), one]
  omega

end

/-! ### The passes -/

theorem runs_movsBody (n : Nat) (v : BitVec (8 * n)) (s : State) : Runs (movsBody n v) s false (s.poke (s.ptr 2) n v) :=
  runs_bind (runs_look (fun s => s.ptr 2) s fun _ => rfl) (runs_bind (runs_writeMem _ _ _ _ _) (runs_pure _ _))

/-- `k` passes of MOVS, and whether they complete it. -/
theorem runs_movsPasses (n : Nat) (t : Bool) (o : StrOpts) {k : Nat} {s : State} (clear : s.flag .f = false)
    (hk : k ≤ (s.reg 0).toNat) : Runs (passes countDone (strPass n t o true (movsBody n)) k) s
      (decide (k = (s.reg 0).toNat ∨ (State.moved n t o k s).flag .f = true)) (State.moved n t o k s) := by
  induction k generalizing s with
  | zero =>
    have stop := runs_passes_zero (pass := strPass n t o true (movsBody n)) (countDone_withBus s)
    have none_left : ((0 = (s.reg 0).toNat) ∨ (State.moved n t o 0 s).flag .f = true) ↔ (s.reg 0).toNat = 0 := by
      simp only [State.moved, clear, Bool.false_eq_true, or_false]
      exact eq_comm
    rw [countDone_eq, ← decide_eq_decide.mpr none_left] at stop
    exact stop
  | succ k ih =>
    have go : countDone s = false := by rw [countDone_eq]; exact decide_eq_false (by omega)
    cases h : s.ends n t o 0 with
    | true =>
      rw [State.moved_ends n t o k h, State.putFlag_same_flag, decide_eq_true (.inr rfl)]
      exact runs_passes_last (countDone_withBus s) go (runs_strPass_ends h)
    | false =>
      have left : s.reg 0 ≠ 0 := fun e => by rw [e] at hk; exact absurd hk (by simp)
      have count := State.moved_step_count n o left (s.ptr 2) (s.element n t o 0)
      have rest := ih (s := (s.poke (s.ptr 2) n (s.element n t o 0)).stepped n o true 1)
        ((State.stepped_flag _ _ _ _ _ _).trans clear) (by omega)
      have same : (k = ((((s.poke (s.ptr 2) n (s.element n t o 0)).stepped n o true 1).reg 0).toNat)) ↔
          k + 1 = (s.reg 0).toNat := by omega
      rw [State.moved_next n t o k h]
      simp only [same] at rest
      exact runs_passes_next (countDone_withBus s) go (runs_strPass_next h (runs_movsBody n _ s)) rest

/-- The state that MOVS is left in, to the end or suspended. -/
def State.movsLeft (s : State) (j : Instr) (n : Nat) (t : Bool) (o : StrOpts) : State :=
  let limit := s.allowed (s.reg 0).toNat
  let u := State.moved n t o limit (s.begin.putFlag .f false)
  if limit = (s.reg 0).toNat ∨ u.flag .f = true then { u with pc := s.next j } else (u.putFlag .p false).jump s.pc

theorem State.allowed_le (s : State) (count : Nat) : s.allowed count ≤ count := by
  rw [← State.passBudget_zero]
  exact State.passBudget_le _ _ _

theorem ends_movs {j : Instr} {n : Nat} {t : Bool} {o : StrOpts} {s : State}
    (e : exec j s = perform j (strRun j n t o true clearF (movsBody n)) s) (hj : j.WF) (hs : Answers s) :
    Ends j s (s.movsLeft j n t o) := by
  have clear : (s.begin.putFlag .f false).flag .f = false := State.putFlag_same_flag _ _ _
  have run := runs_movsPasses n t o (s := s.begin.putFlag .f false) clear (State.allowed_le s (s.reg 0).toNat)
  have budget : (s.begin.putFlag .f false).passBudget 0 (s.reg 0).toNat = s.allowed (s.reg 0).toNat :=
    State.passBudget_zero s _
  rw [← budget] at run
  have start {u : State} (h : Runs (interruptible j leaveString 0 (s.reg 0).toNat countDone
      (strPass n t o true (movsBody n)) (return ())) (s.begin.putFlag .f false) () u) :
      Runs (strRun j n t o true clearF (movsBody n)) s.begin () u :=
    runs_bind (runs_putFlag .f false s.begin)
      (runs_bind (runs_look (fun s => (s.reg 0).toNat) (s.begin.putFlag .f false) fun _ => rfl) h)
  have pc : (State.moved n t o (s.allowed (s.reg 0).toNat) (s.begin.putFlag .f false)).pc = s.pc :=
    State.moved_pc _ _ _ _ _
  unfold Ends State.movsLeft
  rw [e]
  dsimp only
  split
  · next h =>
    have h' : (s.begin.putFlag .f false).passBudget 0 (s.reg 0).toNat = ((s.begin.putFlag .f false).reg 0).toNat ∨
        (State.moved n t o ((s.begin.putFlag .f false).passBudget 0 (s.reg 0).toNat) (s.begin.putFlag .f false)).flag .f
          = true := by rw [budget]; exact h
    rw [decide_eq_true h'] at run
    have h := perform_of_runs hj hs (start (runs_interruptible_complete run (runs_pure () _)))
    rw [budget] at h
    unfold State.next at h ⊢
    rwa [pc] at h
  · next h =>
    have h' : ¬((s.begin.putFlag .f false).passBudget 0 (s.reg 0).toNat = ((s.begin.putFlag .f false).reg 0).toNat ∨
        (State.moved n t o ((s.begin.putFlag .f false).passBudget 0 (s.reg 0).toNat) (s.begin.putFlag .f false)).flag .f
          = true) := by rw [budget]; exact h
    rw [decide_eq_false h'] at run
    have h := perform_of_runs hj hs (start (runs_interruptible_suspended (leave := leaveString) run (fun _ => rfl) rfl))
    rw [budget, pc] at h
    exact h

/-! ### A suspended run resumed -/

/-- The state with its instruction queue, its bus log and its input for a suspension replaced: what MOVS does not use. -/
def State.requeued (s : State) (p : Option Nat) (q : List Byte) (a : Addr) (x : Bool) (b : List PinEvent) : State :=
  { s with suspend := p, queue := q, fetchPc := a, broken := x, bus := b }

section

variable (n : Nat) (t : Bool) (o : StrOpts) (k : Nat) (s : State)

theorem State.moved_requeued (p : Option Nat) (q : List Byte) (a : Addr) (x : Bool) (b : List PinEvent) :
    State.moved n t o k (s.requeued p q a x b) = (State.moved n t o k s).requeued p q a x b := by
  induction k generalizing s with
  | zero => rfl
  | succ k ih =>
    have same : (s.requeued p q a x b).ends n t o 0 = s.ends n t o 0 := by cases t <;> rfl
    have element : (s.requeued p q a x b).element n t o 0 = s.element n t o 0 := by cases t <;> rfl
    cases h : s.ends n t o 0 with
    | true =>
      rw [State.moved_ends n t o k h, State.moved_ends n t o k (same.trans h)]
      rfl
    | false =>
      rw [State.moved_next n t o k h, State.moved_next n t o k (same.trans h), element, ← ih]
      rfl

variable {k s}

/-- Until an option ends it, MOVS goes on where it was. -/
theorem State.moved_add (m : Nat) (h : (State.moved n t o k s).flag .f = false) :
    State.moved n t o (k + m) s = State.moved n t o m (State.moved n t o k s) := by
  induction k generalizing s with
  | zero => rw [Nat.zero_add]; rfl
  | succ k ih =>
    cases e : s.ends n t o 0 with
    | true =>
      rw [State.moved_ends n t o k e, State.putFlag_same_flag] at h
      cases h
    | false =>
      rw [State.moved_next n t o k e] at h ⊢
      rw [show k + 1 + m = k + m + 1 by omega, State.moved_next n t o (k + m) e]
      exact ih h

/-- Once an option ends it, MOVS does no more. -/
theorem State.moved_ended (m : Nat) (clear : s.flag .f = false) (h : (State.moved n t o k s).flag .f = true) :
    State.moved n t o (k + m) s = State.moved n t o k s := by
  induction k generalizing s with
  | zero =>
    have h : s.flag .f = true := h
    rw [clear] at h
    cases h
  | succ k ih =>
    rw [show k + 1 + m = k + m + 1 by omega]
    cases e : s.ends n t o 0 with
    | true => rw [State.moved_ends n t o k e, State.moved_ends n t o (k + m) e]
    | false =>
      rw [State.moved_next n t o k e] at h ⊢
      rw [State.moved_next n t o (k + m) e]
      exact ih ((State.stepped_flag _ _ _ _ _ _).trans clear) h

/-- R0 after at most `k` passes: less `k` unless an option ended the instruction, which then moved fewer elements. -/
theorem State.moved_count (clear : s.flag .f = false) (hk : k ≤ (s.reg 0).toNat) :
    if (State.moved n t o k s).flag .f = true then (s.reg 0).toNat < ((State.moved n t o k s).reg 0).toNat + k
    else ((State.moved n t o k s).reg 0).toNat + k = (s.reg 0).toNat := by
  induction k generalizing s with
  | zero =>
    rw [if_neg (by simp [State.moved, clear])]
    rfl
  | succ k ih =>
    cases e : s.ends n t o 0 with
    | true =>
      have same : (s.putFlag .f true).reg 0 = s.reg 0 := rfl
      rw [State.moved_ends n t o k e, if_pos (State.putFlag_same_flag _ _ _), same]
      omega
    | false =>
      have left : s.reg 0 ≠ 0 := fun e => by rw [e] at hk; exact absurd hk (by simp)
      have count := State.moved_step_count n o left (s.ptr 2) (s.element n t o 0)
      have rest := ih (s := (s.poke (s.ptr 2) n (s.element n t o 0)).stepped n o true 1)
        ((State.stepped_flag _ _ _ _ _ _).trans clear) (by omega)
      rw [State.moved_next n t o k e]
      split at rest
      · next h => rw [if_pos h]; omega
      · next h => rw [if_neg h]; omega

end

end Sys2Proof.Machine
end

section
/-! A suspended MOVSi or MOVST run again (44_strings.md R317, 60_exceptions.md R515 step 1a). -/
namespace Sys2Proof.Machine

open Sys2Proof.Safety

theorem psrPut_self (v : Half) (q : PsrBit) : psrPut v q (v.getLsbD q.pos) = v := by
  apply BitVec.eq_of_getLsbD_eq
  intro k _
  rw [psrPut_getLsbD]
  split
  · next e => rw [e]
  · rfl

/-- MOVS does not touch the queue, nor its input for a suspension. -/
theorem State.moved_queue (n : Nat) (t : Bool) (o : StrOpts) (k : Nat) (s : State) : State.moved n t o k s =
    (State.moved n t o k s).requeued s.suspend s.queue s.fetchPc s.broken s.bus :=
  State.moved_requeued n t o k s s.suspend s.queue s.fetchPc s.broken s.bus

/-- A suspended run starts again where it was, with an empty queue. -/
theorem State.resumed_eq {u : State} (f : u.flag .f = false) (p : u.flag .p = u.flag .t) (b : List PinEvent) :
    ({ (((u.putFlag .p false).jump u.pc).withBus b) with suspend := none } : State).begin.putFlag .f false =
      u.requeued none [] u.pc true (b ++ [.pfs]) := by
  have traced : (u.putFlag .p false).flag .t = u.flag .t := by rw [State.putFlag_flag, if_neg (by decide)]
  have flags : psrPut (psrPut (psrPut u.psr .p false) .p ((u.putFlag .p false).flag .t)) .f false = u.psr := by
    rw [psrPut_same, traced, ← p, ← f]
    exact (congrArg (fun v => psrPut v .f (u.flag .f)) (psrPut_self u.psr .p)).trans (psrPut_self u.psr .f)
  show { u.requeued none [] u.pc true (b ++ [.pfs]) with
    psr := psrPut (psrPut (psrPut u.psr .p false) .p ((u.putFlag .p false).flag .t)) .f false } = _
  rw [flags]
  rfl

theorem Agree.map {s t : State} (h : Agree s t) (f : State → State) (free : ∀ u b, f (u.withBus b) = (f u).withBus b) :
    Agree (f s) (f t) := by
  have e : f t = (f s).withBus t.bus := (congrArg f h).symm.trans (free s t.bus)
  rw [e]
  rfl

/-- MOVS counts down. -/
theorem State.moved_count_le (n : Nat) (t : Bool) (o : StrOpts) {k : Nat} {s : State} (hk : k ≤ (s.reg 0).toNat) :
    ((State.moved n t o k s).reg 0).toNat ≤ (s.reg 0).toNat := by
  induction k generalizing s with
  | zero => exact Nat.le_refl _
  | succ k ih =>
    cases e : s.ends n t o 0 with
    | true => exact Nat.le_of_eq (congrArg (fun s => (s.reg 0).toNat) (State.moved_ends n t o k e))
    | false =>
      have left : s.reg 0 ≠ 0 := fun e => by rw [e] at hk; exact absurd hk (by simp)
      have count := State.moved_step_count n o left (s.ptr 2) (s.element n t o 0)
      have rest := ih (s := (s.poke (s.ptr 2) n (s.element n t o 0)).stepped n o true 1) (by omega)
      rw [State.moved_next n t o k e]
      omega

/-! ### Where MOVS is left -/

section

variable {j : Instr} {n : Nat} {t : Bool} {o : StrOpts} {s : State} {k : Nat}

theorem State.movsLeft_free (h : s.suspend = none) : s.movsLeft j n t o =
    { State.moved n t o (s.reg 0).toNat (s.begin.putFlag .f false) with pc := s.next j } := by
  have limit : s.allowed (s.reg 0).toNat = (s.reg 0).toNat := by rw [State.allowed, h]
  rw [State.movsLeft, limit]
  exact if_pos (.inl rfl)

theorem State.allowed_some (h : s.suspend = some k) (hk : k < (s.reg 0).toNat) : s.allowed (s.reg 0).toNat = k := by
  rw [State.allowed, h]
  exact Nat.min_eq_left hk.le

theorem State.movsLeft_ended (h : s.suspend = some k) (hk : k < (s.reg 0).toNat)
    (f : (State.moved n t o k (s.begin.putFlag .f false)).flag .f = true) :
    s.movsLeft j n t o = { State.moved n t o k (s.begin.putFlag .f false) with pc := s.next j } := by
  rw [State.movsLeft, State.allowed_some h hk]
  exact if_pos (.inr f)

theorem State.movsLeft_suspended (h : s.suspend = some k) (hk : k < (s.reg 0).toNat)
    (f : (State.moved n t o k (s.begin.putFlag .f false)).flag .f = false) :
    s.movsLeft j n t o = ((State.moved n t o k (s.begin.putFlag .f false)).putFlag .p false).jump s.pc := by
  rw [State.movsLeft, State.allowed_some h hk]
  exact if_neg fun h => h.elim (Nat.ne_of_lt hk) (ne_true_of_eq_false f)

end

/-- MOVS suspended after `k` passes and run again. -/
theorem movs_resumes {j : Instr} {n : Nat} {t : Bool} {o : StrOpts} {s : State} {k : Nat}
    (e : ∀ s, exec j s = perform j (strRun j n t o true clearF (movsBody n)) s) (hj : j.WF) (hs : Answers s)
    (input : s.suspend = some k) (hk : k < (s.reg 0).toNat) :
    ∃ x v, exec j s = .next x ∧ exec j { s with suspend := none } = .next v ∧
      if (s.reg 0).toNat < (v.reg 0).toNat + k then Agree { x with suspend := none } v
      else x.pc = s.pc ∧ x.flag .p = false ∧ x.queue = [] ∧ (x.reg 0).toNat + k = (s.reg 0).toNat ∧
        ∃ u, exec j { x with suspend := none } = .next u ∧ Agree (u.jump u.pc) (v.jump v.pc) := by
  let s0 := s.begin.putFlag .f false
  let u := State.moved n t o k s0
  obtain ⟨m, whole⟩ := Nat.exists_eq_add_of_le hk.le
  have clear : s0.flag .f = false := State.putFlag_same_flag _ _ _
  have pc : u.pc = s.pc := State.moved_pc n t o k s0
  obtain ⟨x, ex, hx⟩ := ends_movs (e s) hj hs
  obtain ⟨v, ev, hv⟩ := ends_movs (e { s with suspend := none }) hj (answers_congr rfl hs)
  have all : ({ s with suspend := none } : State).movsLeft j n t o = { (State.moved n t o (k + m) s0).requeued none
      s.queue s.fetchPc s.broken s0.bus with pc := s.next j } := by
    rw [State.movsLeft_free rfl, ← State.moved_requeued, ← whole]
    rfl
  rw [all] at hv
  have count : if u.flag .f = true then (s.reg 0).toNat < (u.reg 0).toNat + k
      else (u.reg 0).toNat + k = (s.reg 0).toNat := State.moved_count n t o clear (s := s0) hk.le
  have left : v.reg 0 = (State.moved n t o (k + m) s0).reg 0 := agree_value hv (fun s => s.reg 0) fun _ _ => rfl
  refine ⟨x, v, ex, ev, ?_⟩
  cases f : u.flag .f with
  | true =>
    have same : State.moved n t o (k + m) s0 = u := State.moved_ended n t o m clear f
    have queue : u = u.requeued s.suspend s.queue s.fetchPc s.broken s0.bus := State.moved_queue n t o k s0
    rw [if_pos f] at count
    rw [same] at left hv
    rw [State.movsLeft_ended input hk f] at hx
    rw [left, if_pos count]
    have hx := Agree.map hx (fun s => { s with suspend := none }) fun _ _ => rfl
    refine Agree.trans hx (Agree.trans ?_ (Agree.symm hv))
    change Agree { u with pc := s.next j, suspend := none } _
    rw [queue]
    rfl
  | false =>
    have same : State.moved n t o (k + m) s0 = State.moved n t o m u := State.moved_add n t o m f
    rw [if_neg (by simp [f])] at count
    have rest : (u.reg 0).toNat = m := by omega
    have fewer : ((State.moved n t o m u).reg 0).toNat ≤ (u.reg 0).toNat := State.moved_count_le n t o rest.ge
    rw [same] at left hv
    rw [State.movsLeft_suspended input hk f, ← pc] at hx
    rw [left, if_neg (by omega)]
    have x0 : x.reg 0 = u.reg 0 := agree_value hx (fun s => s.reg 0) fun _ _ => rfl
    have xp : x.flag .p = false :=
      (agree_value hx (fun s => s.flag .p) fun _ _ => rfl).trans (State.putFlag_same_flag u .p false)
    have xpc : x.pc = u.pc := agree_value hx State.pc fun _ _ => rfl
    have xq : x.queue = [] := agree_value hx State.queue fun _ _ => rfl
    refine ⟨xpc.trans pc, xp, xq, by rw [x0]; exact count, ?_⟩
    have traced : u.flag .p = u.flag .t := by
      rw [State.moved_flag n t o k s0 (by decide), State.moved_flag n t o k s0 (by decide), State.putFlag_flag,
        State.putFlag_flag, State.begin_flag, State.begin_flag]
      rfl
    have again : (({ x with suspend := none } : State).begin.putFlag .f false) =
        u.requeued none [] u.pc true (x.bus ++ [.pfs]) := by
      have held : x = ((u.putFlag .p false).jump u.pc).withBus x.bus := hx.symm.symm ▸ rfl
      rw [held]
      exact State.resumed_eq f traced _
    have ht : Answers { x with suspend := none } := by
      have env : x.env = s.env := (agree_value hx State.env fun _ _ => rfl).trans (State.moved_env n t o k s0)
      exact answers_congr env hs
    obtain ⟨y, ey, hy⟩ := ends_movs (e { x with suspend := none }) hj ht
    have next : ({ x with suspend := none } : State).next j = s.next j :=
      congrArg (fun a => a + BitVec.ofNat 24 j.length) (xpc.trans pc)
    have togo : (({ x with suspend := none } : State).reg 0).toNat = m := (congrArg BitVec.toNat x0).trans rest
    rw [State.movsLeft_free rfl, togo, again, State.moved_requeued, next] at hy
    refine ⟨y, ey, ?_⟩
    have jumped := Agree.map hy (fun s => s.jump s.pc) fun _ _ => rfl
    refine Agree.trans jumped (Agree.trans ?_ (Agree.symm (Agree.map hv (fun s => s.jump s.pc) fun _ _ => rfl)))
    rfl

/-- Settles O20: until an option ends it, the passes made before and after the suspension are those of one run. -/
theorem moveStringResumes : Obligations.MoveStringResumes := by
  intro i o s k hs input hk j hj wf
  rcases List.mem_pair.mp hj with rfl | rfl
  · exact movs_resumes (fun _ => rfl) wf hs input hk
  · exact movs_resumes (fun _ => rfl) wf hs input hk

end Sys2Proof.Machine
end

section
/-! What accesses to memory, RAM, ROM or devices, leave unchanged, and what MOVSi and MOVST do (44_strings.md R310 to R312). -/
namespace Sys2Proof.Machine

open Sys2Proof.Safety

/-! ### Accesses -/

/-- The state `t` with the memory, the bus log and the free inputs of `s`: what an access to memory can change. -/
def State.accessedFrom (t s : State) : State :=
  { t with mem := s.mem, bus := s.bus, deviceReplies := s.deviceReplies, draws := s.draws }

/-- From `s` to `t` there are only accesses, and only the `n` bytes from `b` on can have been stored to. -/
def Accessed (b : Addr) (n : Nat) (s t : State) : Prop :=
  t.accessedFrom s = s ∧ ∀ a, Outside a b n → t.byteAt a = s.byteAt a

/-- With nothing between the bus cycles, a part that ends makes only accesses, which store at most to `n` bytes from `b`. -/
def Touches {α : Type} (b : Addr) (n : Nat) (x : M α) : Prop := ∀ s a t, Quiet s → x s = .ok a t → Accessed b n s t

theorem accessed_refl (b : Addr) (n : Nat) (s : State) : Accessed b n s s := ⟨rfl, fun _ _ => rfl⟩

theorem accessed_trans {b : Addr} {n m : Nat} {s t u : State} (h : Accessed b n s t)
    (k : Accessed (b + BitVec.ofNat 24 n) m t u) : Accessed b (n + m) s u := by
  obtain ⟨same, mem⟩ := h
  obtain ⟨same', mem'⟩ := k
  refine ⟨?_, fun a ha => ?_⟩
  · have : u.accessedFrom s = (u.accessedFrom t).accessedFrom s := rfl
    rw [this, same', same]
  · rw [outside_add] at ha
    exact (mem' a ha.2).trans (mem a ha.1)

theorem accessed_quiet {b : Addr} {n : Nat} {s t : State} (h : Accessed b n s t) (hs : Quiet s) : Quiet t := by
  have gaps : (t.accessedFrom s).gaps = s.gaps := congrArg State.gaps h.1
  have reset : (t.accessedFrom s).resetIn = s.resetIn := congrArg State.resetIn h.1
  exact ⟨gaps.trans hs.1, reset.trans hs.2⟩

section

variable {α β : Type} {b : Addr} {n m : Nat}

theorem touches_bind {x : M α} {f : α → M β} (h : Touches b n x) (k : ∀ a, Touches (b + BitVec.ofNat 24 n) m (f a)) :
    Touches b (n + m) (x >>= f) := by
  intro s c t hs e
  obtain ⟨a, u, hx, hf⟩ := bind_ok e
  have first := h s a u hs hx
  exact accessed_trans first (k a u c t (accessed_quiet first hs) hf)

/-- A part that stores nothing, and then another. -/
theorem touches_after {x : M α} {f : α → M β} (h : Touches b 0 x) (k : ∀ a, Touches b m (f a)) :
    Touches b m (x >>= f) := by
  have := touches_bind (m := m) h fun a => (by rw [BitVec.add_zero]; exact k a)
  rwa [Nat.zero_add] at this

/-- A part, and then another that stores nothing. -/
theorem touches_before {x : M α} {f : α → M β} (h : Touches b n x)
    (k : ∀ a, Touches (b + BitVec.ofNat 24 n) 0 (f a)) : Touches b n (x >>= f) := touches_bind h k

theorem touches_pure (a : α) : Touches b n (pure a : M α) := by
  intro s c t hs e
  cases e
  exact accessed_refl _ _ _

theorem touches_look {f : State → α} : Touches b n (look f) := by
  intro s c t hs e
  cases e
  exact accessed_refl _ _ _

theorem touches_settled {w : Nat} (v : BitVec w) : Touches b n (settled v) := by
  rw [settled_eq]
  exact touches_pure v

theorem touches_between (q : Seam) : Touches b n (between q) := by
  intro s a t hs h
  rw [between_quiet hs] at h
  cases h
  exact accessed_refl _ _ _

end

theorem accessed_answer (b a : Addr) (n : Nat) (s : State) : Accessed b 0 s (s.answer a n).2 := by
  have one (s : State) (a : Addr) : Accessed b 0 s (s.answerOne a).2 := by
    unfold State.answerOne State.deviceByte
    split
    · split <;> exact ⟨rfl, fun _ _ => rfl⟩
    · exact accessed_refl _ _ _
  induction n generalizing s a with
  | zero => exact accessed_refl _ _ _
  | succ n ih =>
    rw [answer_succ]
    have rest := ih (a + 1) (s.answerOne a).2
    exact accessed_trans (one s a) (by rwa [BitVec.add_zero])

theorem accessed_logCycle {b : Addr} {n : Nat} {s t : State} (hs : Quiet s) (h : Accessed b n s t) (st : BusStatus)
    (wr : Bool) (p : Pins) (a : Addr) (bs : List Byte) : Accessed b n s (t.logCycle st wr p a bs) := by
  rw [logCycle_quiet (accessed_quiet h hs)]
  exact h

theorem touches_readCycle (b : Addr) (st : BusStatus) (p : Pins) (q : Seam) (a : Addr) (n : Nat) :
    Touches b 0 (readCycle st p q a n) := by
  refine touches_after (touches_between q) fun _ => ?_
  intro s x t hs e
  obtain ⟨r, u, hr, e⟩ := bind_ok e
  cases hr
  dsimp only at e
  cases blocked : s.blocked a n with
  | some f => rw [blocked] at e; cases e
  | none =>
    rw [blocked] at e
    cases e
    exact accessed_logCycle hs (accessed_answer b a n s) _ _ _ _ _

theorem touches_readCycles (b : Addr) (st : BusStatus) (p : Pins) (q : Seam) (cs : List (Addr × Nat)) :
    Touches b 0 (readCycles st p q cs) := by
  induction cs generalizing q with
  | nil => exact touches_pure _
  | cons c cs ih =>
    exact touches_after (touches_readCycle _ _ _ _ _ _) fun _ => touches_after (ih _) fun _ => touches_pure _

theorem touches_readMem (b : Addr) (st : BusStatus) (a : Addr) (n : Nat) (p : Pins) : Touches b 0 (readMem st a n p) :=
  touches_after (touches_settled _) fun _ => touches_after (touches_readCycles _ _ _ _ _) fun _ =>
    touches_after (touches_readCycles _ _ _ _ _) fun _ => touches_settled _

theorem touches_writeCycle (p : Pins) (q : Seam) (a : Addr) (bs : List Byte) :
    Touches a bs.length (writeCycle p q a bs) := by
  refine touches_after (touches_between q) fun _ => ?_
  intro s x t hs e
  obtain ⟨r, u, hr, e⟩ := bind_ok e
  cases hr
  dsimp only at e
  cases blocked : s.blocked a bs.length with
  | some f => rw [blocked] at e; cases e
  | none =>
    rw [blocked] at e
    cases e
    exact accessed_logCycle (t := { s with mem := storeBytes s.storable s.mem a bs }) hs
      ⟨rfl, fun x hx => memGet_storeBytes_other _ _ _ _ _ hx⟩ _ _ _ _ _

theorem touches_writeCycles (p : Pins) (q : Seam) (a : Addr) (n : Nat) (bs : List Byte) (h : bs.length = n) :
    Touches a n (writeCycles p q (cyclesFrom a n) bs) := by
  induction a, n using cyclesFrom.induct generalizing q bs with
  | case1 a => exact touches_pure _
  | case2 a =>
    have all : bs.take 1 = bs := List.take_of_length_le h.le
    have cycle := touches_writeCycle p q a (bs.take 1)
    rw [all, h] at cycle
    exact touches_before (by rw [all]; exact cycle) fun _ => touches_pure _
  | case3 a n odd ih =>
    rw [cyclesFrom, if_pos odd, show n.succ.succ = 1 + (n + 1) by omega]
    have cycle := touches_writeCycle p q a (bs.take 1)
    rw [List.length_take, h, Nat.min_eq_left (by omega)] at cycle
    exact touches_bind cycle fun _ => ih .within (bs.drop 1) (by rw [List.length_drop, h]; omega)
  | case4 a n odd ih =>
    rw [cyclesFrom, if_neg odd, show n.succ.succ = 2 + n by omega]
    have cycle := touches_writeCycle p q a (bs.take 2)
    rw [List.length_take, h, Nat.min_eq_left (by omega)] at cycle
    exact touches_bind cycle fun _ => ih .within (bs.drop 2) (by rw [List.length_drop, h]; omega)

theorem writeMem_eq {w : Nat} (a : Addr) (n : Nat) (v : BitVec w) (p : Pins) : writeMem a n v p = (do
    writeCycles p (if p.lock then .interlocked else .apart) (cyclesFrom a (min n 4)) ((toBytes n v).take 4)
    writeCycles p .apart (cyclesFrom (a + 4) (n - 4)) ((toBytes n v).drop 4)) := by
  unfold writeMem
  rw [settled_eq, settled_eq]
  rfl

theorem touches_writeMem {w : Nat} (a : Addr) (n : Nat) (v : BitVec w) (p : Pins) : Touches a n (writeMem a n v p) := by
  have low := touches_writeCycles p (if p.lock then .interlocked else .apart) a (min n 4) ((toBytes n v).take 4)
    (by rw [List.length_take, toBytes_length, Nat.min_comm])
  have high := touches_writeCycles p .apart (a + 4) (n - 4) ((toBytes n v).drop 4)
    (by rw [List.length_drop, toBytes_length])
  rw [writeMem_eq]
  by_cases h : n ≤ 4
  · rw [Nat.min_eq_left h] at low ⊢
    rw [Nat.sub_eq_zero_of_le h]
    exact touches_before low fun _ => touches_pure _
  · have split : 4 + (n - 4) = n := by omega
    rw [Nat.min_eq_right (by omega)] at low ⊢
    have both := touches_bind low fun _ => high
    rwa [split] at both

/-! ### Elements moved -/

/-- States that have the same general registers, and the same of everything else. -/
theorem State.eq_of_reg {s t : State} (other : { t with regs := s.regs } = s) (r0 : t.reg 0 = s.reg 0)
    (r1 : t.reg 1 = s.reg 1) (r2 : t.reg 2 = s.reg 2) (r : ∀ q : RegNo, 3 ≤ q.toNat → t.reg q = s.reg q) : t = s := by
  have all (q : RegNo) : t.reg q = s.reg q := by
    by_cases h : 3 ≤ q.toNat
    · exact r q h
    · have : q = 0 ∨ q = 1 ∨ q = 2 := by bv_omega
      rcases this with rfl | rfl | rfl
      · exact r0
      · exact r1
      · exact r2
  have regs : t.regs = s.regs := Vector.ext fun i hi => by
    have h := all (BitVec.ofNat 3 i)
    simp only [State.reg, BitVec.toNat_ofNat, Nat.mod_eq_of_lt hi] at h
    exact h
  rw [← other, ← regs]

theorem State.stepped_zero (s : State) (n : Nat) (o : StrOpts) (two : Bool) : s.stepped n o two 0 = s := by
  obtain ⟨r0, r1, r2, r⟩ := State.stepped_reg s n o two 0
  refine State.eq_of_reg (by cases two <;> rfl) (r0.trans ?_) (r1.trans ?_) (r2.trans ?_) r
  · exact BitVec.sub_zero _
  · simp
  · simp

/-- Passes made after passes. -/
theorem State.stepped_stepped (s : State) (n : Nat) (o : StrOpts) (two : Bool) (k m : Nat) :
    (s.stepped n o two k).stepped n o two m = s.stepped n o two (k + m) := by
  obtain ⟨r0, r1, r2, r⟩ := State.stepped_reg (s.stepped n o two k) n o two m
  obtain ⟨r0', r1', r2', r'⟩ := State.stepped_reg s n o two k
  obtain ⟨r0'', r1'', r2'', r''⟩ := State.stepped_reg s n o two (k + m)
  have sum : BitVec.ofNat 32 (k + m) * strStep n o =
      BitVec.ofNat 32 k * strStep n o + BitVec.ofNat 32 m * strStep n o := by
    rw [BitVec.ofNat_add, BitVec.add_mul]
  refine State.eq_of_reg (by cases two <;> rfl) ?_ ?_ ?_ fun q hq => ?_
  · rw [r0, r0', r0'', BitVec.ofNat_add, sub_sub]
  · rw [r1, r1', r1'', sum, BitVec.add_assoc]
  · rw [r2, r2', r2'']
    cases two with
    | true => simp only [if_true, sum, BitVec.add_assoc]
    | false => simp only [Bool.false_eq_true, if_false]
  · rw [r q hq, r' q hq, r'' q hq]

theorem State.stepped_putFlag (s : State) (n : Nat) (o : StrOpts) (two : Bool) (k : Nat) (q : PsrBit) (x : Bool) :
    (s.stepped n o two k).putFlag q x = (s.putFlag q x).stepped n o two k := by
  cases two <;> rfl

theorem State.stepped_accessedFrom (s t : State) (n : Nat) (o : StrOpts) (two : Bool) (k : Nat) :
    (t.stepped n o two k).accessedFrom s = (t.accessedFrom s).stepped n o two k := by
  cases two <;> rfl

/-- From `s` to `t`, `k` elements of `n` bytes are moved, and perhaps F is written. -/
def ElementsMoved (n : Nat) (o : StrOpts) (k : Nat) (s t : State) : Prop :=
  k ≤ (s.reg 0).toNat ∧ (∃ x, t.accessedFrom s = (s.putFlag .f x).stepped n o true k) ∧
  ∀ a, (∀ m < k, Outside a ((s.reg 2 + BitVec.ofNat 32 m * strStep n o).setWidth 24) n) → t.byteAt a = s.byteAt a

theorem State.putFlag_self (s : State) (q : PsrBit) : s.putFlag q (s.flag q) = s := by
  show { s with psr := psrPut s.psr q (s.psr.getLsbD q.pos) } = s
  rw [psrPut_self]

theorem elementsMoved_refl (n : Nat) (o : StrOpts) (s : State) : ElementsMoved n o 0 s s := by
  refine ⟨Nat.zero_le _, ⟨s.flag .f, ?_⟩, fun _ _ => rfl⟩
  rw [State.putFlag_self, State.stepped_zero]
  rfl

theorem ElementsMoved.quiet {n : Nat} {o : StrOpts} {k : Nat} {s t : State} (h : ElementsMoved n o k s t) (hs : Quiet s) :
    Quiet t := by
  obtain ⟨-, ⟨x, same⟩, -⟩ := h
  have gaps : (t.accessedFrom s).gaps = ((s.putFlag .f x).stepped n o true k).gaps := congrArg State.gaps same
  have reset : (t.accessedFrom s).resetIn = ((s.putFlag .f x).stepped n o true k).resetIn := congrArg State.resetIn same
  exact ⟨gaps.trans hs.1, reset.trans hs.2⟩

theorem elementsMoved_ended {n : Nat} {o : StrOpts} {s u : State} {b : Addr} (h : Accessed b 0 s u) :
    ElementsMoved n o 0 s (u.putFlag .f true) := by
  obtain ⟨same, mem⟩ := h
  refine ⟨Nat.zero_le _, ⟨true, ?_⟩, fun a _ => mem a fun _ hk => absurd hk (Nat.not_lt_zero _)⟩
  rw [State.stepped_zero]
  exact congrArg (fun s => s.putFlag .f true) same

theorem elementsMoved_trans {n : Nat} {o : StrOpts} {k : Nat} {s u t : State} (h : ElementsMoved n o 1 s u)
    (h' : ElementsMoved n o k u t) : ElementsMoved n o (k + 1) s t := by
  obtain ⟨pos, ⟨x, same⟩, mem⟩ := h
  obtain ⟨le, ⟨y, same'⟩, mem'⟩ := h'
  obtain ⟨r0, -, r2, -⟩ := State.stepped_reg (s.putFlag .f x) n o true 1
  have u0 : u.reg 0 = s.reg 0 - 1 := (congrArg (fun s => s.reg 0) same).trans r0
  have u2 : u.reg 2 = s.reg 2 + strStep n o := by
    refine ((congrArg (fun s => s.reg 2) same).trans r2).trans ?_
    rw [if_pos rfl]
    exact congrArg (fun x => s.reg 2 + x) (BitVec.one_mul _)
  refine ⟨?_, ⟨y, ?_⟩, fun a ha => ?_⟩
  · rw [u0] at le
    bv_omega
  · have both : t.accessedFrom s = (t.accessedFrom u).accessedFrom s := rfl
    have flagged : (u.putFlag .f y).accessedFrom s = (u.accessedFrom s).putFlag .f y := rfl
    rw [both, same', State.stepped_accessedFrom, flagged, same]
    rw [State.stepped_putFlag, State.putFlag_same, State.stepped_stepped, Nat.add_comm]
  · refine (mem' a fun m hm => ?_).trans (mem a fun m hm => ?_)
    · have next := ha (m + 1) (by omega)
      have place : u.reg 2 + BitVec.ofNat 32 m * strStep n o = s.reg 2 + BitVec.ofNat 32 (m + 1) * strStep n o := by
        rw [u2, BitVec.ofNat_add, BitVec.add_mul, BitVec.add_assoc, BitVec.add_comm (strStep n o)]
        exact congrArg (fun x => s.reg 2 + (BitVec.ofNat 32 m * strStep n o + x)) (BitVec.one_mul _).symm
      rwa [place]
    · exact ha m (by omega)

theorem touches_strElement (b : Addr) (n : Nat) (t : Bool) : Touches b 0 (strElement n t) := by
  refine touches_after touches_look fun _ => touches_after (touches_readMem _ _ _ _ _) fun v => ?_
  cases t with
  | false => exact touches_pure _
  | true => exact touches_after touches_look fun _ => touches_after (touches_readMem _ _ _ _ _) fun _ => touches_pure _

theorem movsBody_ok {n : Nat} {v : BitVec (8 * n)} {s t : State} {b : Bool} (hs : Quiet s)
    (h : movsBody n v s = .ok b t) : b = false ∧ Accessed (s.ptr 2) n s t := by
  obtain ⟨a, u, look, h⟩ := bind_ok h
  cases look
  obtain ⟨r, w, write, h⟩ := bind_ok h
  cases h
  exact ⟨rfl, touches_writeMem _ _ _ _ s () t hs write⟩

/-- What a pass of MOVS does: it moves an element, or it is the last and moves none. -/
theorem movsPass_ok {n : Nat} {t : Bool} {o : StrOpts} {s u : State} {b : Bool} (hs : Quiet s) (count : s.reg 0 ≠ 0)
    (h : strPass n t o true (movsBody n) s = .ok b u) : ElementsMoved n o (if b then 0 else 1) s u := by
  rw [strPass_eq] at h
  obtain ⟨v, w, element, h⟩ := bind_ok h
  have read := touches_strElement (s.ptr 2) n t s v w hs element
  have quiet := accessed_quiet read hs
  obtain ⟨key, x, look, h⟩ := bind_ok h
  cases look
  split at h
  · cases h
    exact elementsMoved_ended read
  · obtain ⟨c, x, body, h⟩ := bind_ok h
    obtain ⟨rfl, write⟩ := movsBody_ok quiet body
    cases h
    have same : (w.accessedFrom s).ptr 2 = s.ptr 2 := congrArg (fun s => s.ptr 2) read.1
    have both : Accessed (s.ptr 2) n s x := by
      have := accessed_trans (m := n) read (by rw [BitVec.add_zero, ← same]; exact write)
      rwa [Nat.zero_add] at this
    obtain ⟨env, mem⟩ := both
    change ElementsMoved n o 1 s (x.stepped n o true 1)
    refine ⟨?_, ⟨s.flag .f, ?_⟩, fun a ha => ?_⟩
    · have : (s.reg 0).toNat ≠ 0 := fun e => count (BitVec.eq_of_toNat_eq e)
      omega
    · rw [State.putFlag_self, State.stepped_accessedFrom, env]
    · have first := ha 0 (by simp)
      have place : (s.reg 2 + BitVec.ofNat 32 0 * strStep n o).setWidth 24 = s.ptr 2 := by simp [State.ptr]
      rw [place] at first
      exact mem a first

theorem movsPasses_ok {n : Nat} {t : Bool} {o : StrOpts} {limit : Nat} {s u : State} {b : Bool} (hs : Quiet s)
    (h : passes countDone (strPass n t o true (movsBody n)) limit s = .ok b u) : ∃ k, ElementsMoved n o k s u := by
  induction limit generalizing s with
  | zero =>
    cases h
    exact ⟨0, elementsMoved_refl n o _⟩
  | succ limit ih =>
    obtain ⟨d, x, look, h⟩ := bind_ok h
    cases look
    split at h
    · cases h
      exact ⟨0, elementsMoved_refl n o _⟩
    · next go =>
      have count : s.reg 0 ≠ 0 := fun e => go (by rw [countDone, e]; rfl)
      obtain ⟨c, x, pass, h⟩ := bind_ok h
      have moved := movsPass_ok hs count pass
      split at h
      · next last =>
        cases h
        rw [last] at moved
        exact ⟨0, moved⟩
      · next more =>
        rw [if_neg more] at moved
        obtain ⟨k, rest⟩ := ih (moved.quiet hs) h
        exact ⟨k + 1, elementsMoved_trans moved rest⟩

end Sys2Proof.Machine
end

section
/-! MOVSi and MOVST (44_strings.md R310 to R312): every run of them. -/
namespace Sys2Proof.Machine

open Sys2Proof.Safety

/-! ### A part that raises no trap -/

/-- A part of an instruction that raises no trap. -/
def Untrapped {α : Type} (x : M α) : Prop := ∀ s k t, x s ≠ .error (.trap k) t

section

variable {α β : Type}

theorem Steady.untrapped {x : M α} (h : Steady x) : Untrapped x := fun s => (h s).2

theorem untrapped_bind {x : M α} {f : α → M β} (h : Untrapped x) (k : ∀ a, Untrapped (f a)) : Untrapped (x >>= f) := by
  intro s j t e
  rw [bind_apply] at e
  cases r : x s with
  | ok a u => rw [r] at e; exact k a u j t e
  | error a u => rw [r] at e; cases e; exact h s j t r

theorem untrapped_pure (a : α) : Untrapped (pure a : M α) := fun _ _ _ h => nomatch h

theorem untrapped_look (f : State → α) : Untrapped (look f) := fun _ _ _ h => nomatch h

theorem untrapped_change (f : State → State) : Untrapped (change f) := fun _ _ _ h => nomatch h

theorem untrapped_ite {c : Prop} [Decidable c] {x y : M α} (h : Untrapped x) (k : Untrapped y) :
    Untrapped (if c then x else y) := by split <;> assumption

end

theorem untrapped_passes {done : State → Bool} {pass : M Bool} (h : Untrapped pass) (n : Nat) :
    Untrapped (passes done pass n) := by
  induction n with
  | zero => exact untrapped_look _
  | succ n ih =>
    exact untrapped_bind (untrapped_look _) fun _ => untrapped_ite (untrapped_pure _) (untrapped_bind h fun _ =>
      untrapped_ite (untrapped_pure _) ih)

theorem untrapped_strRun {i : Instr} {n : Nat} {t : Bool} {o : StrOpts} {two : Bool} {start : State → State}
    {body : BitVec (8 * n) → M Bool} (h : ∀ v, Untrapped (body v)) : Untrapped (strRun i n t o two start body) := by
  have element : Untrapped (strElement n t) := by
    refine untrapped_bind (untrapped_look _) fun _ => untrapped_bind (steady_readMem _ _ _ _).untrapped fun _ => ?_
    exact untrapped_ite (untrapped_bind (untrapped_look _) fun _ => untrapped_bind (steady_readMem _ _ _ _).untrapped
      fun _ => untrapped_pure _) (untrapped_pure _)
  have pass : Untrapped (strPass n t o two body) :=
    untrapped_bind element fun v => untrapped_bind (untrapped_look _) fun _ =>
      untrapped_ite (untrapped_bind (untrapped_change _) fun _ => untrapped_pure _) (untrapped_bind (h v) fun _ =>
        untrapped_ite (untrapped_pure _) (untrapped_bind (untrapped_change _) fun _ => untrapped_pure _))
  refine untrapped_bind (untrapped_change _) fun _ => untrapped_bind (untrapped_look _) fun _ => ?_
  rw [interruptible_eq]
  exact untrapped_bind (untrapped_look _) fun _ => untrapped_bind (untrapped_passes pass _) fun _ =>
    untrapped_ite (untrapped_bind (untrapped_pure _) fun _ => untrapped_change _) (untrapped_change _)

/-- Where RSTI does not become active, an instruction without a trap that answers a next state has ended there. -/
theorem perform_next {i : Instr} {x : M Unit} {s t : State} (hs : s.resetIn = none) (within : Within x)
    (untrapped : Untrapped x) (h : perform i x s = .next t) : x s.begin = .ok () t := by
  obtain ⟨step, unreset⟩ := within s.begin
  have running : (after (x s.begin)).resetIn = none := step.running hs
  unfold perform at h
  split at h
  · simp [State.stop, hs] at h
  · cases e : x s.begin with
    | ok a u => rw [e] at h; cases h; rfl
    | error a u =>
      rw [e] at h running
      cases a with
      | trap k => exact absurd e (untrapped _ k u)
      | reset => exact absurd e (unreset hs u)
      | fault f => simp [finish, settle, State.stop, show u.resetIn = none from running] at h
      | refused r => simp [finish, settle, State.stop, show u.resetIn = none from running] at h

/-! ### A run of MOVS -/

/-- What a run of MOVS leaves: some elements moved, and then PC moved, or P clear and the queue discarded. -/
theorem movsRun_ok {j : Instr} {n : Nat} {t : Bool} {o : StrOpts} {s u : State} (hs : Quiet s)
    (h : strRun j n t o true clearF (movsBody n) s = .ok () u) : ∃ k v, ElementsMoved n o k (clearF s) v ∧
      (u = { v with pc := v.next j } ∨ u = (leaveString v).jump v.pc) := by
  obtain ⟨r, x, start, h⟩ := bind_ok h
  cases start
  obtain ⟨count, x, look, h⟩ := bind_ok h
  cases look
  rw [interruptible_eq] at h
  obtain ⟨budget, x, look, h⟩ := bind_ok h
  cases look
  obtain ⟨b, v, run, h⟩ := bind_ok h
  obtain ⟨k, moved⟩ := movsPasses_ok (s := clearF s) hs run
  refine ⟨k, v, moved, ?_⟩
  split at h
  · cases h
    exact .inl rfl
  · cases h
    exact .inr rfl

section

variable {n : Nat} {o : StrOpts} {k : Nat} {s v u : State} {j : Instr}

/-- The state with what a run of MOVS can change taken from `s`. -/
def State.besidesMovs (u s : State) : State :=
  { u with regs := s.regs, pc := s.pc, psr := s.psr, mem := s.mem, queue := s.queue, fetchPc := s.fetchPc,
           broken := s.broken, bus := s.bus, deviceReplies := s.deviceReplies, draws := s.draws }

theorem State.stepped_besidesMovs (two : Bool) :
    (v.stepped n o two k).besidesMovs s = v.besidesMovs s := by
  cases two <;> rfl

theorem State.putFlag_besidesMovs (v : State) (x : Bool) : (v.putFlag .f x).besidesMovs s = v.besidesMovs s := rfl

theorem State.begin_besidesMovs : (clearF s.begin).besidesMovs s = s := rfl

theorem besidesMovs_of_moved (h : ElementsMoved n o k (clearF s.begin) v)
    (ending : u = { v with pc := v.next j } ∨ u = (leaveString v).jump v.pc) : u.besidesMovs s = s := by
  obtain ⟨-, ⟨x, same⟩, -⟩ := h
  have drop : u.besidesMovs s = (v.accessedFrom (clearF s.begin)).besidesMovs s := by
    rcases ending with rfl | rfl
    · rfl
    · rfl
  rw [drop, same, State.stepped_besidesMovs]
  exact (State.putFlag_besidesMovs _ x).trans State.begin_besidesMovs

/-- The registers after a run of MOVS. -/
theorem reg_of_moved (h : ElementsMoved n o k (clearF s.begin) v)
    (ending : u = { v with pc := v.next j } ∨ u = (leaveString v).jump v.pc) :
    k ≤ (s.reg 0).toNat ∧ u.reg 0 = s.reg 0 - BitVec.ofNat 32 k ∧ u.reg 1 = s.reg 1 + BitVec.ofNat 32 k * strStep n o ∧
    u.reg 2 = s.reg 2 + BitVec.ofNat 32 k * strStep n o ∧ ∀ r : RegNo, 3 ≤ r.toNat → u.reg r = s.reg r := by
  obtain ⟨le, ⟨x, same⟩, -⟩ := h
  have reg (r : RegNo) : u.reg r = (((clearF s.begin).putFlag .f x).stepped n o true k).reg r := by
    rw [← same]
    rcases ending with rfl | rfl <;> rfl
  obtain ⟨r0, r1, r2, r⟩ := State.stepped_reg ((clearF s.begin).putFlag .f x) n o true k
  exact ⟨le, (reg 0).trans r0, (reg 1).trans r1, (reg 2).trans r2, fun q hq => (reg q).trans (r q hq)⟩

theorem flag_of_moved (h : ElementsMoved n o k (clearF s.begin) v)
    (ending : u = { v with pc := v.next j } ∨ u = (leaveString v).jump v.pc) {q : PsrBit} (hf : q ≠ .f) (hp : q ≠ .p) :
    u.flag q = s.flag q := by
  obtain ⟨-, ⟨x, same⟩, -⟩ := h
  have left : u.flag q = v.flag q := by
    rcases ending with rfl | rfl
    · rfl
    · exact (State.putFlag_flag v .p q false).trans (if_neg hp)
  have moved : v.flag q = (((clearF s.begin).putFlag .f x).stepped n o true k).flag q := by rw [← same]; rfl
  rw [left, moved, State.stepped_flag, State.putFlag_flag, if_neg hf, clearF, State.putFlag_flag, if_neg hf,
    State.begin_flag, if_neg hp]

/-- How many elements were moved is what R0 lost. -/
theorem count_of_moved (le : k ≤ (s.reg 0).toNat) (h : u.reg 0 = s.reg 0 - BitVec.ofNat 32 k) :
    (s.reg 0 - u.reg 0).toNat = k ∧ (u.reg 0).toNat ≤ (s.reg 0).toNat := by
  have small : k < 2 ^ 32 := lt_of_le_of_lt le (s.reg 0).isLt
  have lost : (BitVec.ofNat 32 k).toNat = k := by rw [BitVec.toNat_ofNat, Nat.mod_eq_of_lt small]
  rw [h]
  constructor
  · rw [sub_sub_cancel, lost]
  · rw [BitVec.toNat_sub_of_le (by rw [BitVec.le_def, lost]; exact le)]
    exact Nat.sub_le _ _

end

/-- What a run of MOVS leaves in the registers, the flags and memory. -/
def MovsKept (n : Nat) (o : StrOpts) (s t : State) : Prop :=
  let k := (s.reg 0 - t.reg 0).toNat
  let d := BitVec.ofNat 32 k * strStep n o
  (t.reg 0).toNat ≤ (s.reg 0).toNat ∧ t.reg 1 = s.reg 1 + d ∧ t.reg 2 = s.reg 2 + d ∧
  (∀ r : RegNo, 3 ≤ r.toNat → t.reg r = s.reg r) ∧ (∀ q : PsrBit, q ≠ .f → q ≠ .p → t.flag q = s.flag q) ∧
  t.sp0 = s.sp0 ∧ t.sp1 = s.sp1 ∧ t.fp = s.fp ∧ t.sb = s.sb ∧ t.modReg = s.modReg ∧ t.intbase = s.intbase ∧
  t.cfg = s.cfg ∧ t.fregs = s.fregs ∧ t.fsingles = s.fsingles ∧ t.fsr = s.fsr ∧
  ∀ a, (∀ m < k, Outside a ((s.reg 2 + BitVec.ofNat 32 m * strStep n o).setWidth 24) n) → t.byteAt a = s.byteAt a

theorem movs_kept {j : Instr} {n : Nat} {t : Bool} {o : StrOpts} {s u : State} (hs : Quiet s)
    (e : exec j s = perform j (strRun j n t o true clearF (movsBody n)) s) (h : exec j s = .next u) : MovsKept n o s u := by
  have within : Within (strRun j n t o true clearF (movsBody n)) :=
    within_strRun _ _ _ _ _ (fun _ => user_putFlag _ _ _ (by decide)) (within_movsBody _)
  have untrapped : Untrapped (strRun j n t o true clearF (movsBody n)) := untrapped_strRun fun v =>
    untrapped_bind (untrapped_look _) fun _ => untrapped_bind (steady_writeMem _ _ _ _).untrapped fun _ => untrapped_pure _
  rw [e] at h
  obtain ⟨k, v, moved, ending⟩ := movsRun_ok (s := s.begin) hs (perform_next hs.2 within untrapped h)
  obtain ⟨le, r0, r1, r2, r⟩ := reg_of_moved moved ending
  obtain ⟨count, fewer⟩ := count_of_moved le r0
  have rest := besidesMovs_of_moved moved ending
  have field {α : Type} (f : State → α) (same : f (u.besidesMovs s) = f u) : f u = f s := same.symm.trans (congrArg f rest)
  have mem : u.mem = v.mem := by rcases ending with rfl | rfl <;> rfl
  unfold MovsKept
  rw [count]
  refine ⟨fewer, r1, r2, r, fun q hf hp => flag_of_moved moved ending hf hp, field _ rfl, field _ rfl, field _ rfl,
    field _ rfl, field _ rfl, field _ rfl, field _ rfl, field _ rfl, field _ rfl, field _ rfl, fun a ha => ?_⟩
  obtain ⟨-, -, unchanged⟩ := moved
  have byte : u.byteAt a = v.byteAt a := by unfold State.byteAt; rw [mem]
  exact byte.trans (unchanged a ha)

/-- Settles O18: by induction on the passes made, of runs where memory answers and of any run that ends. -/
theorem moveString : Obligations.MoveString := by
  constructor
  · intro i o s hs done
    exact ⟨ends_movs rfl rfl hs, ends_movs rfl rfl hs⟩
  · intro i o s t hs kept
    exact ⟨movs_kept hs rfl, movs_kept hs rfl⟩

end Sys2Proof.Machine
end

section
/-! CMPSi, CMPST, SKPSi and SKPST (44_strings.md R313 to R316). -/
namespace Sys2Proof.Machine

open Sys2Proof.Safety

/-! ### Elements from pass to pass -/

section

variable (s : State) (n : Nat) (t : Bool) (o : StrOpts) (two : Bool) (k j : Nat)

theorem stepped_address (a d : DWord) :
    a + BitVec.ofNat 32 k * d + BitVec.ofNat 32 j * d = a + BitVec.ofNat 32 (k + j) * d := by
  rw [BitVec.ofNat_add, BitVec.add_mul, BitVec.add_assoc]

theorem State.stepped_peek (a : Addr) (m : Nat) : (s.stepped n o two k).peek a m = s.peek a m := by
  cases two <;> rfl

theorem State.element_stepped : (s.stepped n o two k).element n t o j = s.element n t o (k + j) := by
  obtain ⟨-, r1, -, r⟩ := State.stepped_reg s n o two k
  unfold State.element
  rw [r1, r 3 (by decide), stepped_address]
  simp only [State.stepped_peek]

theorem State.element2_stepped : (s.stepped n o true k).element2 n o j = s.element2 n o (k + j) := by
  obtain ⟨-, -, r2, -⟩ := State.stepped_reg s n o true k
  unfold State.element2
  rw [r2, if_pos rfl, stepped_address, State.stepped_peek]

theorem State.ends_stepped : (s.stepped n o two k).ends n t o j = s.ends n t o (k + j) := by
  obtain ⟨-, -, -, r⟩ := State.stepped_reg s n o two k
  unfold State.ends
  rw [r 4 (by decide), State.element_stepped]

theorem State.stepped_mem : (s.stepped n o two k).mem = s.mem := by
  cases two <;> rfl

variable {s n o two k}

/-- Whether anything is left after `k` passes. -/
theorem countDone_stepped (hk : k ≤ (s.reg 0).toNat) :
    countDone (s.stepped n o two k) = decide (k = (s.reg 0).toNat) := by
  obtain ⟨r0, -⟩ := State.stepped_reg s n o two k
  have small : k < 2 ^ 32 := lt_of_le_of_lt hk (s.reg 0).isLt
  have lost : (BitVec.ofNat 32 k).toNat = k := by rw [BitVec.toNat_ofNat, Nat.mod_eq_of_lt small]
  rw [countDone_eq, r0, BitVec.toNat_sub_of_le (by rw [BitVec.le_def, lost]; exact hk), lost]
  exact decide_eq_decide.mpr (by omega)

end

/-! ### A search -/

section

variable {n : Nat} {t : Bool} {o : StrOpts} {two : Bool} {body : BitVec (8 * n) → M Bool} {s : State} {k limit : Nat}

/-- The first `k` elements end nothing: the passes go on from there. -/
theorem runs_search {b : Bool} {u : State} (hk : k ≤ limit) (hl : limit ≤ (s.reg 0).toNat)
    (h : ∀ m < k, s.ends n t o m = false ∧
      Runs (body (s.element n t o m)) (s.stepped n o two m) false (s.stepped n o two m))
    (rest : Runs (passes countDone (strPass n t o two body) (limit - k)) (s.stepped n o two k) b u) :
    Runs (passes countDone (strPass n t o two body) limit) s b u := by
  have go : ∀ m < k, countDone (s.stepped n o two m) = false ∧
      Runs (strPass n t o two body) (s.stepped n o two m) false (s.stepped n o two (m + 1)) := by
    intro m hm
    obtain ⟨ends, run⟩ := h m hm
    rw [← State.stepped_stepped]
    rw [← Nat.add_zero m, ← State.ends_stepped s n t o two] at ends
    refine ⟨?_, runs_strPass_next ends ?_⟩
    · rw [countDone_stepped (by omega)]
      exact decide_eq_false (by omega)
    · rw [State.element_stepped]
      exact run
  have all := runs_passes_through (fun m => s.stepped n o two m) countDone_withBus go rest
  rw [Nat.add_sub_cancel' hk] at all
  have first : s.stepped n o two 0 = s := State.stepped_zero s n o two
  rw [first] at all
  exact all

/-- At the end of the count. -/
theorem search_done (hk : k = (s.reg 0).toNat) :
    Runs (passes countDone (strPass n t o two body) (limit - k)) (s.stepped n o two k) true (s.stepped n o two k) :=
  runs_passes_done (countDone_withBus _) (by rw [countDone_stepped hk.le]; exact decide_eq_true hk)

theorem search_go (hk : k < limit) (hl : limit ≤ (s.reg 0).toNat) : countDone (s.stepped n o two k) = false := by
  rw [countDone_stepped (by omega)]
  exact decide_eq_false (by omega)

/-- At an element that matches the option. -/
theorem search_ends (hk : k < limit) (hl : limit ≤ (s.reg 0).toNat) (h : s.ends n t o k = true) :
    Runs (passes countDone (strPass n t o two body) (limit - k)) (s.stepped n o two k) true
      ((s.putFlag .f true).stepped n o two k) := by
  rw [← State.stepped_putFlag, show limit - k = limit - k - 1 + 1 by omega]
  refine runs_passes_last (countDone_withBus _) (search_go hk hl) (runs_strPass_ends ?_)
  rw [State.ends_stepped]
  exact h

/-- At an element that `body` stops at. -/
theorem search_last {u : State} (hk : k < limit) (hl : limit ≤ (s.reg 0).toNat) (h : s.ends n t o k = false)
    (run : Runs (body (s.element n t o k)) (s.stepped n o two k) true u) :
    Runs (passes countDone (strPass n t o two body) (limit - k)) (s.stepped n o two k) true u := by
  rw [show limit - k = limit - k - 1 + 1 by omega]
  refine runs_passes_last (countDone_withBus _) (search_go hk hl) (runs_strPass_last ?_ ?_)
  · rw [State.ends_stepped]
    exact h
  · rw [State.element_stepped]
    exact run

/-- At the last pass before an interrupt. -/
theorem search_suspended (hk : k = limit) (hl : limit < (s.reg 0).toNat) :
    Runs (passes countDone (strPass n t o two body) (limit - k)) (s.stepped n o two k) false (s.stepped n o two k) := by
  have more : countDone (s.stepped n o two k) = false := by
    rw [countDone_stepped (by omega)]
    exact decide_eq_false (by omega)
  have stop := runs_passes_zero (pass := strPass n t o two body) (countDone_withBus (s.stepped n o two k))
  rw [more] at stop
  rw [hk, Nat.sub_self, ← hk]
  exact stop

end

/-! ### A string instruction that stores nothing -/

section

variable {j : Instr} {n m : Nat} {t : Bool} {o : StrOpts} {two : Bool} {start : State → State}
  {body : BitVec (8 * n) → M Bool} {s u : State}

theorem runs_strRun {v : State} (begun : Runs (change start) s.begin () (start s.begin))
    (r0 : (start s.begin).reg 0 = s.reg 0)
    (h : Runs (interruptible j leaveString 0 (s.reg 0).toNat countDone (strPass n t o two body) (return ()))
      (start s.begin) () v) : Runs (strRun j n t o two start body) s.begin () v := by
  refine runs_bind begun (runs_bind (runs_look (fun s => (s.reg 0).toNat) _ fun _ => rfl) ?_)
  rw [r0]
  exact h

/-- The passes complete the instruction. -/
theorem completes_strRun (e : exec j s = perform j (strRun j n t o two start body) s) (hj : j.WF) (hs : Answers s)
    (begun : Runs (change start) s.begin () (start s.begin)) (r0 : (start s.begin).reg 0 = s.reg 0)
    (input : (start s.begin).suspend = s.suspend)
    (h : Runs (passes countDone (strPass n t o two body) (s.allowed (s.reg 0).toNat)) (start s.begin) true u)
    (mem : u.mem = s.mem) (pc : u.pc = s.pc) : Completes j s { u with pc := s.next j } none m := by
  have budget : (start s.begin).passBudget 0 (s.reg 0).toNat = s.allowed (s.reg 0).toNat := by
    rw [State.passBudget_zero, State.allowed, State.allowed, input]
  rw [← budget] at h
  have next : u.next j = s.next j := by unfold State.next; rw [pc]
  have run := runs_strRun begun r0 (runs_interruptible_complete (i := j) (leave := leaveString) h (runs_pure () u))
  rw [next] at run
  exact completes_perform e hj hs run (frame_none mem m)

/-- An interrupt suspends the instruction. -/
theorem completes_strRun_suspended (e : exec j s = perform j (strRun j n t o two start body) s) (hj : j.WF)
    (hs : Answers s) (begun : Runs (change start) s.begin () (start s.begin)) (r0 : (start s.begin).reg 0 = s.reg 0)
    (input : (start s.begin).suspend = s.suspend)
    (h : Runs (passes countDone (strPass n t o two body) (s.allowed (s.reg 0).toNat)) (start s.begin) false u)
    (mem : u.mem = s.mem) (pc : u.pc = s.pc) : Completes j s ((u.putFlag .p false).jump s.pc) none m := by
  have budget : (start s.begin).passBudget 0 (s.reg 0).toNat = s.allowed (s.reg 0).toNat := by
    rw [State.passBudget_zero, State.allowed, State.allowed, input]
  rw [← budget] at h
  have run := runs_strRun begun r0
    (runs_interruptible_suspended (i := j) (leave := leaveString) (complete := return ()) h (fun _ => rfl) rfl)
  rw [pc] at run
  exact completes_perform e hj hs run (frame_none mem m)

end

end Sys2Proof.Machine
end

section
/-! How CMPSi, CMPST, SKPSi and SKPST end (44_strings.md R313 to R316). -/
namespace Sys2Proof.Machine

open Sys2Proof.Safety

/-! ### Skipping -/

/-- The elements, and where an option ends, depend on the general registers and memory. -/
theorem State.element_congr {s u : State} (regs : u.regs = s.regs) (mem : u.mem = s.mem) (n : Nat) (t : Bool)
    (o : StrOpts) (k : Nat) : u.element n t o k = s.element n t o k ∧ u.element2 n o k = s.element2 n o k ∧
      u.ends n t o k = s.ends n t o k := by
  have reg (r : RegNo) : u.reg r = s.reg r := by unfold State.reg; simp only [regs]
  have peek (a : Addr) (m : Nat) : u.peek a m = s.peek a m := peek_congr mem a m
  have same : u.element n t o k = s.element n t o k := by
    unfold State.element
    simp only [reg, peek]
  refine ⟨same, ?_, ?_⟩
  · rw [State.element2, State.element2, reg, peek]
  · rw [State.ends, State.ends, same, reg]

theorem State.ends_clearF (s : State) (n : Nat) (t : Bool) (o : StrOpts) (k : Nat) :
    (clearF s.begin).ends n t o k = s.ends n t o k :=
  (State.element_congr (State.putFlag_regs _ _ _) (State.putFlag_mem _ _ _) n t o k).2.2

section

variable {j : Instr} {n : Nat} {t : Bool} {o : StrOpts} {s : State}

theorem runs_skps {k : Nat} {b : Bool} {u : State} (hk : k ≤ s.allowed (s.reg 0).toNat)
    (h : ∀ m < k, s.ends n t o m = false)
    (rest : Runs (passes countDone (strPass n t o false (skpsBody n)) (s.allowed (s.reg 0).toNat - k))
      ((clearF s.begin).stepped n o false k) b u) :
    Runs (passes countDone (strPass n t o false (skpsBody n)) (s.allowed (s.reg 0).toNat)) (clearF s.begin) b u :=
  runs_search hk (State.allowed_le _ _)
    (fun m hm => ⟨(State.ends_clearF s n t o m).trans (h m hm), runs_pure _ _⟩) rest

/-- How SKPS ends, after `k` elements that match no option. -/
theorem completes_skps (e : exec j s = perform j (strRun j n t o false clearF (skpsBody n)) s) (hj : j.WF) (hs : Answers s) :
    let count := (s.reg 0).toNat
    let limit := s.allowed count
    ∀ k ≤ limit, (∀ m < k, s.ends n t o m = false) →
      let at_ (f : Bool) : State := (s.begin.putFlag .f f).stepped n o false k
      let ends (u : State) : Prop := Completes j s { u with pc := s.next j } none n
      (k = count → ends (at_ false)) ∧ (k < limit → s.ends n t o k = true → ends (at_ true)) ∧
      (k = limit → limit < count → Completes j s (((at_ false).putFlag .p false).jump s.pc) none n) := by
  intro count limit k hk before at_ ends
  have begun : Runs (change clearF) s.begin () (clearF s.begin) := runs_putFlag .f false s.begin
  have bound : limit ≤ count := State.allowed_le _ _
  have mem (f : Bool) : (at_ f).mem = s.mem := State.stepped_mem _ _ _ _ _
  have pc (f : Bool) : (at_ f).pc = s.pc := State.stepped_pc _ _ _ _ _
  refine ⟨fun last => ?_, fun more matched => ?_, fun last more => ?_⟩
  · exact completes_strRun e hj hs begun rfl rfl (runs_skps hk before (search_done last)) (mem false) (pc false)
  · have stop := search_ends (s := clearF s.begin) (body := skpsBody n) (two := false) more bound
        ((State.ends_clearF s n t o k).trans matched)
    have flags : (clearF s.begin).putFlag .f true = s.begin.putFlag .f true := State.putFlag_same _ _ _ _
    rw [flags] at stop
    exact completes_strRun e hj hs begun rfl rfl (runs_skps hk before stop) (mem true) (pc true)
  · exact completes_strRun_suspended e hj hs begun rfl rfl (runs_skps hk before (search_suspended last more))
      (mem false) (pc false)

end

/-! ### Comparing -/

theorem Runs.to_eq {α : Type} {x : M α} {s t u : State} {a : α} (h : Runs x s a t) (e : t = u) : Runs x s a u := e ▸ h

/-- The flags that a comparison of strings starts with (R313). -/
def equalF (s : State) : State := (clearF s).putEqual

theorem State.equalF_reg (s : State) (r : RegNo) : (equalF s.begin).reg r = s.reg r := by
  simp [equalF, clearF, State.putEqual]

theorem State.runs_equalF (s : State) : Runs (change equalF) s.begin () (equalF s.begin) :=
  runs_change equalF s.begin (fun _ => rfl) (by simp [equalF, clearF, State.putEqual, State.env])

theorem State.equalF_suspend (s : State) : (equalF s.begin).suspend = s.suspend := by
  simp [equalF, clearF, State.putEqual, State.begin]

theorem State.element_equalF (s : State) (n : Nat) (t : Bool) (o : StrOpts) (k : Nat) :
    (equalF s.begin).element n t o k = s.element n t o k ∧ (equalF s.begin).element2 n o k = s.element2 n o k ∧
      (equalF s.begin).ends n t o k = s.ends n t o k :=
  State.element_congr (s := s) (by simp [equalF, clearF, State.putEqual, State.begin])
    (by simp [equalF, clearF, State.putEqual]) n t o k

theorem State.equalF_eq (s : State) : equalF s =
    (((s.putFlag .f false).putFlag .z true).putFlag .n false).putFlag .l false := rfl

/-- An element that matches the option, after equal ones. -/
theorem State.putFlag_equalF (s : State) : (equalF s).putFlag .f true =
    (((s.putFlag .f true).putFlag .z true).putFlag .n false).putFlag .l false := by
  unfold equalF clearF State.putEqual
  rw [State.putFlag_comm _ (q := .l) (r := .f) (by decide), State.putFlag_comm _ (q := .n) (r := .f) (by decide),
    State.putFlag_comm _ (q := .z) (r := .f) (by decide), State.putFlag_same]

/-- An element that differs, after equal ones. -/
theorem State.putCompare_equalF {w : Nat} (s : State) {x y : BitVec w} (h : x ≠ y) : (equalF s).putCompare x y =
    (((s.putFlag .f false).putFlag .z false).putFlag .n (decide (y.toInt < x.toInt))).putFlag .l
      (decide (y.toNat < x.toNat)) := by
  rw [equalF, State.putEqual_putCompare, State.putCompare_eq, decide_eq_false h.symm]
  rfl

theorem State.stepped_putCompare {w : Nat} (s : State) (n : Nat) (o : StrOpts) (two : Bool) (k : Nat) (x y : BitVec w) :
    (s.stepped n o two k).putCompare x y = (s.putCompare x y).stepped n o two k := by
  unfold State.putCompare
  simp only [State.stepped_putFlag]

theorem element2_zero (s : State) (n : Nat) (o : StrOpts) : s.element2 n o 0 = s.peek (s.ptr 2) n := by
  simp [State.element2, State.ptr]

section

variable {n : Nat} {v : BitVec (8 * n)} {o : StrOpts} {s : State}

theorem runs_cmpsBody_equal (h : v = s.element2 n o 0) : Runs (cmpsBody n v) s false s := by
  rw [element2_zero] at h
  refine runs_bind (runs_look (fun s => s.ptr 2) s fun _ => rfl) (runs_bind (runs_readMem _ _ _ _ _) ?_)
  rw [if_pos h]
  exact runs_pure _ _

theorem runs_cmpsBody_differ (h : v ≠ s.element2 n o 0) :
    Runs (cmpsBody n v) s true (s.putCompare v (s.element2 n o 0)) := by
  rw [element2_zero] at h ⊢
  refine runs_bind (runs_look (fun s => s.ptr 2) s fun _ => rfl) (runs_bind (runs_readMem _ _ _ _ _) ?_)
  rw [if_neg h]
  exact runs_bind (runs_putCompare _ _ _) (runs_pure _ _)

end

section

variable {j : Instr} {n : Nat} {t : Bool} {o : StrOpts} {s : State}

theorem runs_cmps {k : Nat} {b : Bool} {u : State} (hk : k ≤ s.allowed (s.reg 0).toNat)
    (h : ∀ m < k, s.ends n t o m = false ∧ s.element n t o m = s.element2 n o m)
    (rest : Runs (passes countDone (strPass n t o true (cmpsBody n)) (s.allowed (s.reg 0).toNat - k))
      ((equalF s.begin).stepped n o true k) b u) :
    Runs (passes countDone (strPass n t o true (cmpsBody n)) (s.allowed (s.reg 0).toNat)) (equalF s.begin) b u := by
  refine runs_search hk (by rw [State.equalF_reg]; exact State.allowed_le _ _) (fun m hm => ?_) rest
  obtain ⟨unmatched, equal⟩ := h m hm
  obtain ⟨first, second, ends⟩ := State.element_equalF s n t o m
  refine ⟨ends.trans unmatched, runs_cmpsBody_equal (o := o) ?_⟩
  rw [State.element2_stepped, first, Nat.add_zero, second]
  exact equal

/-- How CMPS ends, after `k` elements that match no option and are equal to those of String 2. -/
theorem completes_cmps (e : exec j s = perform j (strRun j n t o true equalF (cmpsBody n)) s) (hj : j.WF) (hs : Answers s) :
    let count := (s.reg 0).toNat
    let limit := s.allowed count
    ∀ k ≤ limit, (∀ m < k, s.ends n t o m = false ∧ s.element n t o m = s.element2 n o m) →
      let x := s.element n t o k
      let y := s.element2 n o k
      let at_ (f z m l : Bool) : State := ((((s.begin.putFlag .f f).putFlag .z z).putFlag .n m).putFlag .l l).stepped
        n o true k
      let ends (u : State) : Prop := Completes j s { u with pc := s.next j } none n
      (k = count → ends (at_ false true false false)) ∧
      (k < limit → s.ends n t o k = true → ends (at_ true true false false)) ∧
      (k < limit → s.ends n t o k = false → x ≠ y →
        ends (at_ false false (decide (y.toInt < x.toInt)) (decide (y.toNat < x.toNat)))) ∧
      (k = limit → limit < count →
        Completes j s (((at_ false true false false).putFlag .p false).jump s.pc) none n) := by
  intro count limit k hk before x y at_ ends
  have begun : Runs (change equalF) s.begin () (equalF s.begin) := State.runs_equalF s
  have bound : limit ≤ count := State.allowed_le _ _
  have mem (f z m l : Bool) : (at_ f z m l).mem = s.mem := by
    simp only [at_, State.stepped_mem, State.putFlag_mem, State.begin_mem]
  have pc (f z m l : Bool) : (at_ f z m l).pc = s.pc := by
    simp only [at_, State.stepped_pc, State.putFlag_pc, State.begin_pc]
  have count' : ((equalF s.begin).reg 0).toNat = count := congrArg BitVec.toNat (s.equalF_reg 0)
  have equal : (equalF s.begin).stepped n o true k = at_ false true false false :=
    congrArg (fun s => s.stepped n o true k) (State.equalF_eq s.begin)
  obtain ⟨first, second, same⟩ := State.element_equalF s n t o k
  refine ⟨fun last => ?_, fun more matched => ?_, fun more unmatched differ => ?_, fun last more => ?_⟩
  · exact completes_strRun e hj hs begun (s.equalF_reg 0) s.equalF_suspend
        (runs_cmps hk before ((search_done (last.trans count'.symm)).to_eq equal)) (mem _ _ _ _) (pc _ _ _ _)
  · have stop := search_ends (s := equalF s.begin) (body := cmpsBody n) (two := true) more (bound.trans count'.ge)
        (same.trans matched)
    rw [State.putFlag_equalF] at stop
    exact completes_strRun e hj hs begun (s.equalF_reg 0) s.equalF_suspend (runs_cmps hk before stop) (mem _ _ _ _) (pc _ _ _ _)
  · have different : (equalF s.begin).element n t o k ≠ ((equalF s.begin).stepped n o true k).element2 n o 0 := by
      rw [State.element2_stepped, first, Nat.add_zero, second]
      exact differ
    have stop := search_last (s := equalF s.begin) (two := true) more (bound.trans count'.ge)
      (same.trans unmatched) (runs_cmpsBody_differ different)
    rw [State.element2_stepped, Nat.add_zero, State.stepped_putCompare, first, second,
      State.putCompare_equalF s.begin differ] at stop
    exact completes_strRun e hj hs begun (s.equalF_reg 0) s.equalF_suspend (runs_cmps hk before stop) (mem _ _ _ _) (pc _ _ _ _)
  · exact completes_strRun_suspended e hj hs begun (s.equalF_reg 0) s.equalF_suspend
        (runs_cmps hk before ((search_suspended last (more.trans_le count'.ge)).to_eq equal))
      (mem _ _ _ _) (pc _ _ _ _)

end

/-- Settles O19: the passes before the one that ends the instruction only step the pointers and the count. -/
theorem compareSkipString : Obligations.CompareSkipString := by
  constructor
  · intro i o s hs count limit done
    exact ⟨completes_cmps rfl rfl hs, completes_cmps rfl rfl hs⟩
  · intro i o s hs count limit done
    exact ⟨completes_skps rfl rfl hs, completes_skps rfl rfl hs⟩

end Sys2Proof.Machine
end

section
/-! MOVMPi and SBITPS (49_graphics.md R460, R475), and the passes of graphics instructions (R480). -/
namespace Sys2Proof.Machine

open Sys2Proof.Safety

/-! ### Passes that count a register down -/

section

variable {r : RegNo}

theorem countReg_eq (r : RegNo) (s : State) : (s.reg r == 0) = decide ((s.reg r).toNat = 0) := by
  have zero : (s.reg r = 0) ↔ (s.reg r).toNat = 0 := BitVec.toNat_eq.trans (by simp)
  rw [Bool.beq_eq_decide_eq]
  exact decide_eq_decide.mpr zero

theorem toNat_sub_one {x : DWord} (h : x.toNat ≠ 0) : (x + -1).toNat + 1 = x.toNat := by bv_omega

/-- `k` passes, each of which takes one from the count in register `r` and does what `g` says. -/
theorem runs_countdown {pass : M Bool} {f : Nat → State → State} {g : State → State} {inv : State → Prop}
    (none : ∀ s, f 0 s = s) (some : ∀ k s, f (k + 1) s = f k (g s)) (run : ∀ s, inv s → Runs pass s false (g s))
    (kept : ∀ s, inv s → inv (g s)) (lost : ∀ s, (g s).reg r = s.reg r + -1) {k : Nat} {s : State} (hs : inv s)
    (hk : k ≤ (s.reg r).toNat) :
    Runs (passes (fun s => s.reg r == 0) pass k) s (decide (k = (s.reg r).toNat)) (f k s) := by
  induction k generalizing s with
  | zero =>
    have stop := runs_passes_zero (pass := pass) (done := fun s => s.reg r == 0) (s := s) fun _ => rfl
    have zero : ((s.reg r).toNat = 0) ↔ (0 = (s.reg r).toNat) := eq_comm
    rw [countReg_eq, decide_eq_decide.mpr zero] at stop
    rw [none]
    exact stop
  | succ k ih =>
    have left : (s.reg r).toNat ≠ 0 := by omega
    have go : (s.reg r == 0) = false := by rw [countReg_eq]; exact decide_eq_false left
    have count := toNat_sub_one left
    rw [← lost s] at count
    have rest := ih (kept s hs) (by omega)
    have same : (k = ((g s).reg r).toNat) ↔ (k + 1 = (s.reg r).toNat) := by omega
    rw [decide_eq_decide.mpr same] at rest
    rw [some]
    exact runs_passes_next (fun _ => rfl) go (run s hs) rest

theorem State.allowedBetween_le (s : State) (count : Nat) : s.allowedBetween count ≤ count := by
  rw [← State.passBudget_one]
  exact State.passBudget_le _ _ _

/-- A graphics instruction whose passes complete it, or are suspended. -/
theorem runs_interruptible_between {i : Instr} {done : State → Bool} {pass : M Bool} {complete : M Unit} {count : Nat}
    {s t u : State} (h : Runs (passes done pass (s.allowedBetween count)) s (decide (s.allowedBetween count = count)) t)
    (c : Runs complete t () u) :
    Runs (interruptible i id 1 count done pass complete) s ()
      (if s.allowedBetween count = count then { u with pc := u.next i } else t.jump t.pc) := by
  split
  · next all =>
    rw [decide_eq_true all, ← State.passBudget_one] at h
    exact runs_interruptible_complete h c
  · next part =>
    rw [decide_eq_false part, ← State.passBudget_one] at h
    exact runs_interruptible_suspended (leave := id) h (fun _ => rfl) rfl

end

/-! ### What passes that store leave -/

/-- What a pass that steps register `r` by `step` and counts R2 down leaves in the registers. -/
theorem reg_stepCount (s : State) {r : RegNo} (h : r ≠ 2) (step : DWord) :
    ((s.addReg r step).addReg 2 (-1)).reg r = s.reg r + step ∧ ((s.addReg r step).addReg 2 (-1)).reg 2 = s.reg 2 + -1 ∧
    ∀ q : RegNo, q ≠ r → q ≠ 2 → ((s.addReg r step).addReg 2 (-1)).reg q = s.reg q := by
  refine ⟨?_, ?_, fun q hq h2 => ?_⟩
  · rw [State.addReg_reg_other _ _ h.symm, State.addReg_reg_same]
  · rw [State.addReg_reg_same, State.addReg_reg_other _ _ h]
  · rw [State.addReg_reg_other _ _ h2.symm, State.addReg_reg_other _ _ hq.symm]

/-- A pass steps register `r` by another and adds to the count in R2. -/
theorem runs_stepCount (r q : RegNo) (d : DWord) (s : State) :
    Runs (change fun s => (s.addReg r (s.reg q)).addReg 2 d) s () ((s.addReg r (s.reg q)).addReg 2 d) :=
  runs_change (fun s => (s.addReg r (s.reg q)).addReg 2 d) s (fun _ => rfl) rfl

/-- What `k` passes leave: register `r` has moved by `k` steps, R2 has lost `k`, and of memory only the `n` bytes from
`at_` of each value of `r` on can differ. -/
structure Filled (r : RegNo) (step : DWord) (at_ : DWord → DWord) (n k : Nat) (s t : State) : Prop where
  moved : t.reg r = s.reg r + BitVec.ofNat 32 k * step
  lost : t.reg 2 = s.reg 2 - BitVec.ofNat 32 k
  regs : ∀ q : RegNo, q ≠ r → q ≠ 2 → t.reg q = s.reg q
  psr : t.psr = s.psr
  sp0 : t.sp0 = s.sp0
  sp1 : t.sp1 = s.sp1
  pc : t.pc = s.pc
  mem : ∀ a, (∀ m < k, Outside a ((at_ (s.reg r + BitVec.ofNat 32 m * step)).setWidth 24) n) → t.byteAt a = s.byteAt a

theorem Filled.zero (r : RegNo) (step : DWord) (at_ : DWord → DWord) (n : Nat) (s : State) : Filled r step at_ n 0 s s where
  moved := by simp
  lost := by simp
  regs _ _ _ := rfl
  psr := rfl
  sp0 := rfl
  sp1 := rfl
  pc := rfl
  mem _ _ := rfl

/-- One pass and then `k` more. -/
theorem Filled.succ {r : RegNo} {step : DWord} {at_ : DWord → DWord} {n k : Nat} {s u t : State}
    (h : Filled r step at_ n 1 s u) (h' : Filled r step at_ n k u t) : Filled r step at_ n (k + 1) s t where
  moved := by
    rw [h'.moved, h.moved, Nat.add_comm, ← stepped_address]
  lost := by
    rw [h'.lost, h.lost, Nat.add_comm, BitVec.ofNat_add, sub_sub]
  regs q hq h2 := (h'.regs q hq h2).trans (h.regs q hq h2)
  psr := h'.psr.trans h.psr
  sp0 := h'.sp0.trans h.sp0
  sp1 := h'.sp1.trans h.sp1
  pc := h'.pc.trans h.pc
  mem a ha := by
    refine (h'.mem a fun m hm => ?_).trans (h.mem a fun m hm => ha m (by omega))
    have next := ha (1 + m) (by omega)
    rwa [h.moved, stepped_address]

section

variable {r : RegNo} {step : DWord} {at_ : DWord → DWord} {n : Nat} {s : State}

/-- A pass that stores `n` bytes at `at_` of register `r`, steps it and counts R2 down. -/
theorem Filled.one {w : Nat} (h : r ≠ 2) (v : BitVec w) (a : Addr) (place : a = (at_ (s.reg r)).setWidth 24) :
    Filled r step at_ n 1 s (((s.poke a n v).addReg r step).addReg 2 (-1)) := by
  obtain ⟨moved, lost, regs⟩ := reg_stepCount (s.poke a n v) h step
  have once : s.reg r + BitVec.ofNat 32 1 * step = s.reg r + step := congrArg (fun x => s.reg r + x) (BitVec.one_mul _)
  refine ⟨moved.trans once.symm, lost.trans (BitVec.sub_eq_add_neg _ _).symm, regs, rfl, rfl, rfl, rfl, fun x hx => ?_⟩
  have first := hx 0 (Nat.zero_lt_one)
  have same : s.reg r + BitVec.ofNat 32 0 * step = s.reg r := by simp
  rw [same, ← place] at first
  exact State.poke_byteAt_outside s a n v x first

theorem filled_passes {f : Nat → State → State} {g : State → State} {inv : State → Prop} (none : ∀ s, f 0 s = s)
    (some : ∀ k s, f (k + 1) s = f k (g s)) (kept : ∀ s, inv s → inv (g s))
    (one : ∀ s, inv s → Filled r step at_ n 1 s (g s)) (hs : inv s) (k : Nat) : Filled r step at_ n k s (f k s) := by
  induction k generalizing s with
  | zero => rw [none]; exact Filled.zero _ _ _ _ _
  | succ k ih => rw [some]; exact (one s hs).succ (ih (kept s hs))

/-- An instruction that counts R2 down and does nothing after its passes. -/
theorem ends_countdown {j : Instr} {pass : M Bool} {f : Nat → State → State} {g : State → State}
    (e : exec j s = perform j (do
      let count ← look fun s => (s.reg 2).toNat
      interruptible j id 1 count (fun s => s.reg 2 == 0) pass (return ())) s) (hj : j.WF) (hs : Answers s)
    (none : ∀ s, f 0 s = s) (some : ∀ k s, f (k + 1) s = f k (g s)) (run : ∀ s, Runs pass s false (g s))
    (lost : ∀ s, (g s).reg 2 = s.reg 2 + -1) (pc : (f (s.allowedBetween (s.reg 2).toNat) s.begin).pc = s.pc) :
    Ends j s (if s.allowedBetween (s.reg 2).toNat = (s.reg 2).toNat
      then { f (s.allowedBetween (s.reg 2).toNat) s.begin with pc := s.next j }
      else (f (s.allowedBetween (s.reg 2).toNat) s.begin).jump s.pc) := by
  have passes := runs_countdown (s := s.begin) (inv := fun _ => True) none some (fun s _ => run s) (fun _ _ => trivial)
    lost trivial (State.allowedBetween_le s (s.reg 2).toNat)
  have whole := runs_interruptible_between (i := j) (s := s.begin) passes (runs_pure () _)
  have next : (f (s.allowedBetween (s.reg 2).toNat) s.begin).next j = s.next j := by unfold State.next; rw [pc]
  rw [← next, ← pc]
  unfold Ends
  rw [e]
  exact perform_of_runs hj hs (runs_bind (runs_look (fun s => (s.reg 2).toNat) s.begin fun _ => rfl) whole)

end

/-! ### MOVMP -/

/-- One store of MOVMP. -/
def State.patternedOne (n : Nat) (s : State) : State := ((s.poke (s.ptr 0) n (s.reg 3)).addReg 0 (s.reg 1)).addReg 2 (-1)

theorem runs_movmpPass (n : Nat) (s : State) : Runs (movmpPass n) s false (s.patternedOne n) :=
  runs_bind (runs_look (fun s => s.ptr 0) s fun _ => rfl) (runs_bind (runs_look (fun s => s.reg 3) s fun _ => rfl)
    (runs_bind (runs_writeMem _ _ _ _ _) (runs_bind (runs_stepCount 0 1 (-1) _) (runs_pure _ _))))

theorem State.patterned_succ (n k : Nat) (s : State) :
    State.patterned n (k + 1) s = State.patterned n k (s.patternedOne n) := rfl

theorem exec_movmpi_eq (i : Size) (s : State) : exec (.movmpi i) s = perform (.movmpi i) (do
    let count ← look fun s => (s.reg 2).toNat
    interruptible (.movmpi i) id 1 count (fun s => s.reg 2 == 0) (movmpPass i.bytes) (return ())) s := rfl

theorem State.patternedOne_count (n : Nat) (s : State) : (s.patternedOne n).reg 2 = s.reg 2 + -1 := by
  obtain ⟨-, count, -⟩ := reg_stepCount (s.poke (s.ptr 0) n (s.reg 3)) (r := 0) (by decide) (s.reg 1)
  rw [State.patternedOne, count, State.poke_reg]

/-! ### SBITPS -/

/-- One bit of SBITPS. -/
def State.dottedOne (s : State) : State := ((s.bitSet (s.reg 0) (s.reg 1)).addReg 1 (s.reg 3)).addReg 2 (-1)

theorem runs_sbitpsPass (s : State) : Runs sbitpsPass s false s.dottedOne :=
  runs_bind (runs_look (fun s => bitAddr (s.reg 0) (s.reg 1)) s fun _ => rfl) (runs_bind (runs_readMem _ _ _ _ _)
    (runs_bind (runs_writeMem _ _ _ _ _) (runs_bind (runs_stepCount 1 3 (-1) _) (runs_pure _ _))))

/-- One byte is stored. -/
theorem State.bitSet_eq (s : State) (base off : DWord) : s.bitSet base off =
    s.poke ((base + BitVec.ofInt 32 (off.toInt.fdiv 8)).setWidth 24) 1
      (putBit (s.peek ((base + BitVec.ofInt 32 (off.toInt.fdiv 8)).setWidth 24) 1) (off.toInt % 8).toNat true) := by
  rw [State.bitSet, bitAddr_eq]

theorem State.dotted_succ (k : Nat) (s : State) : State.dotted (k + 1) s = State.dotted k s.dottedOne := rfl

theorem exec_sbitps_eq (s : State) : exec .sbitps s = perform .sbitps (do
    let count ← look fun s => (s.reg 2).toNat
    interruptible .sbitps id 1 count (fun s => s.reg 2 == 0) sbitpsPass (return ())) s := rfl

theorem State.dottedOne_count (s : State) : s.dottedOne.reg 2 = s.reg 2 + -1 := by
  obtain ⟨-, count, -⟩ := reg_stepCount (s.bitSet (s.reg 0) (s.reg 1)) (r := 1) (by decide) (s.reg 3)
  rw [State.dottedOne, count, State.bitSet_eq, State.poke_reg]

theorem filled_movmp (n k : Nat) (s : State) : Filled 0 (s.reg 1) id n k s (State.patterned n k s) := by
  refine filled_passes (g := State.patternedOne n) (inv := fun u => u.reg 1 = s.reg 1) (fun _ => rfl)
    (State.patterned_succ n) (fun u hu => ?_) (fun u hu => ?_) rfl k
  · obtain ⟨-, -, regs⟩ := reg_stepCount (u.poke (u.ptr 0) n (u.reg 3)) (r := 0) (by decide) (u.reg 1)
    exact (regs 1 (by decide) (by decide)).trans hu
  · rw [State.patternedOne, hu]
    exact Filled.one (by decide) _ _ rfl

theorem filled_sbitps (k : Nat) (s : State) :
    Filled 1 (s.reg 3) (fun x => s.reg 0 + BitVec.ofInt 32 (x.toInt.fdiv 8)) 1 k s (State.dotted k s) := by
  refine filled_passes (g := State.dottedOne) (inv := fun u => u.reg 0 = s.reg 0 ∧ u.reg 3 = s.reg 3) (fun _ => rfl)
    State.dotted_succ (fun u hu => ?_) (fun u hu => ?_) ⟨rfl, rfl⟩ k
  · obtain ⟨base, step⟩ := hu
    obtain ⟨-, -, regs⟩ := reg_stepCount (u.bitSet (u.reg 0) (u.reg 1)) (r := 1) (by decide) (u.reg 3)
    rw [State.bitSet_eq] at regs
    exact ⟨(regs 0 (by decide) (by decide)).trans base, (regs 3 (by decide) (by decide)).trans step⟩
  · obtain ⟨base, step⟩ := hu
    rw [State.dottedOne, base, step, State.bitSet_eq]
    exact Filled.one (by decide) _ _ rfl

/-- Settles O42: passes that each store at one place, step one register and count R2 down. -/
theorem patternFill : Obligations.PatternFill := by
  intro i s hs count k done
  have filled {r : RegNo} {step : DWord} {at_ : DWord → DWord} {n : Nat} {t : State} {j : Instr}
      (h : Filled r step at_ n k s.begin t) (ends : t.pc = s.pc → Ends j s (if k = count then { t with pc := s.next j }
        else t.jump s.pc)) : done j r step t at_ n :=
    ⟨ends h.pc, h.moved, h.lost, h.regs, h.psr, h.sp0, h.sp1, h.mem⟩
  constructor
  · exact filled (filled_movmp i.bytes k s.begin) fun pc => ends_countdown (exec_movmpi_eq i s) rfl hs (fun _ => rfl)
      (State.patterned_succ i.bytes) (runs_movmpPass i.bytes) (State.patternedOne_count i.bytes) pc
  · have dots := filled_sbitps k s.begin
    rw [State.begin_reg, State.begin_reg] at dots
    have ends (pc : (State.dotted k s.begin).pc = s.pc) := ends_countdown (f := State.dotted) (g := State.dottedOne)
      (exec_sbitps_eq s) rfl hs (fun _ => rfl) State.dotted_succ runs_sbitpsPass State.dottedOne_count pc
    have whole := filled dots ends
    exact whole

end Sys2Proof.Machine
end

section
/-! BITWT and SBITS (49_graphics.md R452, R470), and the range that BB instructions share with BITWT (R445). -/
namespace Sys2Proof.Machine

open Sys2Proof.Safety

/-! ### The range of a shift and a width -/

/-- A shift and a width that R445 defines. -/
def BbInside (s : State) (w : DWord) : Prop := w.toNat < 2 ^ 16 ∧ (s.reg 2).toNat ≤ 15

theorem bbOutside_iff (s : State) (w : DWord) :
    (decide (15 < (s.reg 2).toNat) || decide (2 ^ 16 ≤ w.toNat)) = true ↔ ¬BbInside s w := by
  rw [Bool.or_eq_true, decide_eq_true_iff, decide_eq_true_iff, BbInside]
  omega

theorem runs_bbInRange {w : DWord} {s : State} (h : BbInside s w ∨ s.operandPolicy = .free) :
    Runs (bbInRange w) s () s := by
  refine runs_bind (runs_look (fun s => decide (15 < (s.reg 2).toNat) || decide (2 ^ 16 ≤ w.toNat)) s fun _ => rfl) ?_
  split
  · next out => exact runs_refusable .bbRange (h.resolve_left ((bbOutside_iff s w).mp out))
  · exact runs_pure _ _

theorem refuses_bbInRange {w : DWord} {s : State} (h : ¬BbInside s w) (policy : s.operandPolicy = .refuse) :
    Refuses (bbInRange w) s .bbRange := by
  refine refuses_after (runs_look (fun s => decide (15 < (s.reg 2).toNat) || decide (2 ^ 16 ≤ w.toNat)) s fun _ => rfl) ?_
  rw [if_pos ((bbOutside_iff s w).mpr h)]
  exact refuses_refusable .bbRange policy

/-- The combined double-word; for a shift above 15 a free value. -/
theorem runs_bbResult (f : BbFun) (sh d : DWord) (x m : Half) (s : State) : ∃ (v : DWord) (k : Nat),
    (sh.toNat ≤ 15 → k = s.draws ∧
      v = bbCombine f d ((x &&& m).setWidth 32 <<< sh.toNat) (m.setWidth 32 <<< sh.toNat)) ∧
    Runs (bbResult f sh d x m) s v { s with draws := k } := by
  unfold bbResult
  by_cases h : sh.toNat ≤ 15
  · rw [if_pos h]
    exact ⟨_, s.draws, fun _ => ⟨rfl, rfl⟩, runs_pure _ _⟩
  · rw [if_neg h]
    exact ⟨_, _, fun k => absurd k h, runs_drawBits s 32⟩

/-! ### BITWT -/

theorem exec_bitwt_eq (s : State) : exec .bitwt s = performSeq .bitwt (do
    bbInRange 0
    let x : Half ← readMem .data (← look fun s => s.ptr 0) 2
    let a ← look fun s => s.ptr 1
    let d ← readMem .readRmw a 4
    let d' ← bbResult .or (← look fun s => s.reg 2) d x 0xFFFF
    writeMem a 4 d'
    change fun s => (s.addReg 0 2).addReg 1 2) s := rfl

/-- Two registers stepped by a constant. -/
theorem runs_stepBoth (d e : DWord) (s : State) :
    Runs (change fun s => (s.addReg 0 d).addReg 1 e) s () ((s.addReg 0 d).addReg 1 e) :=
  runs_change (fun s => (s.addReg 0 d).addReg 1 e) s (fun _ => rfl) rfl

theorem State.addReg_addReg (s : State) (d e : DWord) :
    (s.addReg 0 d).addReg 1 e = (s.setReg 0 (s.reg 0 + d)).setReg 1 (s.reg 1 + e) := by
  have other : (s.addReg 0 d).reg 1 = s.reg 1 := State.addReg_reg_other s d (by decide)
  rw [State.addReg, other]
  rfl

theorem completes_bitwt {s : State} (hs : Answers s) (h : (s.reg 2).toNat ≤ 15 ∨ s.operandPolicy = .free) :
    ∃ (d : DWord) (k : Nat), ((s.reg 2).toNat ≤ 15 → k = s.draws ∧ d = s.peek32 ((s.reg 1).setWidth 24) |||
      ((s.peek16 ((s.reg 0).setWidth 24)).setWidth 32 <<< (s.reg 2).toNat)) ∧
    Completes .bitwt s { (((s.begin.poke ((s.reg 1).setWidth 24) 4 d).setReg 0 (s.reg 0 + 2)).setReg 1 (s.reg 1 + 2)) with
      pc := s.next .bitwt, draws := k } (some ((s.reg 1).setWidth 24)) 4 := by
  obtain ⟨d, k, inside, run⟩ := runs_bbResult .or (s.begin.reg 2) (s.begin.peek (s.begin.ptr 1) 4)
    (s.begin.peek (s.begin.ptr 0) 2) 0xFFFF s.begin
  refine ⟨d, k, fun small => ?_, ?_⟩
  · obtain ⟨draws, value⟩ := inside small
    have full (x : Half) : x &&& 0xFFFF = x := BitVec.and_allOnes
    refine ⟨draws, value.trans ?_⟩
    rw [full]
    rfl
  · have stepped := runs_stepBoth 2 2 (({ s.begin with draws := k } : State).poke (s.begin.ptr 1) 4 d)
    rw [State.addReg_addReg] at stepped
    have range : Runs (bbInRange 0) s.begin () s.begin := runs_bbInRange (h.imp (fun small => ⟨by decide, small⟩) id)
    have frame : MemFrame s (({ s.begin with draws := k } : State).poke ((s.reg 1).setWidth 24) 4 d)
        (some ((s.reg 1).setWidth 24)) 4 := frame_poke (s := s) (t := { s.begin with draws := k }) rfl _ _ _
    have whole := completes_seq (exec_bitwt_eq s) rfl hs (runs_bind range
      (runs_bind (runs_look (fun s => s.ptr 0) _ fun _ => rfl) (runs_bind (runs_readMem _ _ _ _ _)
      (runs_bind (runs_look (fun s => s.ptr 1) _ fun _ => rfl) (runs_bind (runs_readMem _ _ _ _ _)
      (runs_bind (runs_look (fun s => s.reg 2) _ fun _ => rfl) (runs_bind run (runs_bind (runs_writeMem _ _ _ _ _)
      stepped)))))))) (frame_of_mem frame rfl) rfl
    exact whole

/-! ### SBITS -/

/-- What SBITS of at most 25 bits does. -/
def sbitsOr : M Unit := do
  change fun s => s.putFlag .f false
  let (a, k) ← look fun s => bitAddr (s.reg 0) (s.reg 1)
  let m ← readMem .data (← look fun s => (s.reg 3 + 4 * (s.reg 2 + BitVec.ofNat 32 (32 * k))).setWidth 24) 4
  let d ← readMem .readRmw a 4
  writeMem a 4 (d ||| m)

theorem exec_sbits_eq (s : State) : exec .sbits s = performSeq .sbits (do
    if ← look fun s => (25 : DWord).ult (s.reg 2) then
      change fun s => s.putFlag .f true
    else sbitsOr) s := rfl

/-- The place of a table entry (R470). -/
theorem sbitsEntry_eq (x y : DWord) (o : Int) : (x + 4 * (y + BitVec.ofNat 32 (32 * (o % 8).toNat)) : DWord) =
    x + BitVec.ofInt 32 (4 * (y.toNat + 32 * (o % 8))) := by
  have pos : 0 ≤ o % 8 := Int.emod_nonneg _ (by decide)
  obtain ⟨k, hk⟩ := Int.eq_ofNat_of_zero_le pos
  have whole : (4 * ((y.toNat : Int) + 32 * (k : Int))) = ((4 * (y.toNat + 32 * k) : Nat) : Int) := by push_cast; rfl
  have sum : BitVec.ofNat 32 (4 * (y.toNat + 32 * k)) = 4 * (y + BitVec.ofNat 32 (32 * k)) := by
    rw [BitVec.ofNat_mul, BitVec.ofNat_add, BitVec.ofNat_toNat, BitVec.setWidth_eq]
    rfl
  rw [hk, Int.toNat_natCast, whole, BitVec.ofInt_natCast, sum]

theorem ult_25 (x : DWord) : (25 : DWord).ult x = decide (25 < x.toNat) := by
  rw [BitVec.ult_eq_decide]
  rfl

theorem completes_sbits_long {s : State} (hs : Answers s) (h : 25 < (s.reg 2).toNat) :
    Completes .sbits s { (s.begin.putFlag .f true) with pc := s.next .sbits } none 0 := by
  refine completes_seq (exec_sbits_eq s) rfl hs
    (runs_bind (runs_look (fun s => (25 : DWord).ult (s.reg 2)) s.begin fun _ => rfl) ?_)
    (frame_none (by simp) 0) (by simp)
  rw [ult_25, State.begin_reg, if_pos (decide_eq_true h)]
  exact runs_putFlag _ _ _

theorem completes_sbits {s : State} (hs : Answers s) (h : (s.reg 2).toNat ≤ 25) :
    let o := (s.reg 1).toInt
    let e : Addr := (s.reg 0 + BitVec.ofInt 32 (o.fdiv 8)).setWidth 24
    let m := s.peek32 ((s.reg 3 + BitVec.ofInt 32 (4 * ((s.reg 2).toNat + 32 * (o % 8)))).setWidth 24)
    Completes .sbits s { ((s.begin.poke e 4 (s.peek32 e ||| m)).putFlag .f false) with pc := s.next .sbits } (some e) 4 := by
  intro o e m
  let u := s.begin.putFlag .f false
  have place : bitAddr (u.reg 0) (u.reg 1) = (e, (o % 8).toNat) := bitAddr_eq (s.reg 0) (s.reg 1)
  have entry : u.peek ((u.reg 3 + 4 * (u.reg 2 + BitVec.ofNat 32 (32 * (o % 8).toNat))).setWidth 24) 4 = m := by
    rw [sbitsEntry_eq]
    rfl
  have word : u.peek e 4 = s.peek32 e := rfl
  have run : Runs sbitsOr s.begin () (u.poke e 4 (s.peek32 e ||| m)) := by
    refine runs_bind (runs_putFlag .f false s.begin)
      (runs_bind (runs_look (fun s => bitAddr (s.reg 0) (s.reg 1)) u fun _ => rfl) ?_)
    rw [place]
    refine runs_bind (runs_look (fun s => (s.reg 3 + 4 * (s.reg 2 + BitVec.ofNat 32 (32 * (o % 8).toNat))).setWidth 24) u
      fun _ => rfl) (runs_bind (runs_readMem _ _ _ _ u) (runs_bind (runs_readMem _ _ _ _ u) ?_))
    rw [entry, word]
    exact runs_writeMem _ _ _ _ _
  refine completes_seq (t := u.poke e 4 (s.peek32 e ||| m)) (exec_sbits_eq s) rfl hs
    (runs_bind (runs_look (fun s => (25 : DWord).ult (s.reg 2)) s.begin fun _ => rfl) ?_)
    (frame_poke (by simp [u]) _ _ _) (by simp [u])
  rw [ult_25, State.begin_reg, if_neg (by rw [decide_eq_true_iff]; omega)]
  exact run

/-- Settles O40: a double-word read, ORed with a shifted word or a table entry, and stored. -/
theorem wordTransferSetString : Obligations.WordTransferSetString := by
  intro s hs a x inside
  refine ⟨fun out policy => ?_, fun h => completes_bitwt hs h, fun h => completes_sbits_long hs h,
    fun h => completes_sbits hs h⟩
  have range : Refuses (bbInRange 0) s.begin .bbRange := refuses_bbInRange (fun h => out h.2) policy
  rw [exec_bitwt_eq]
  exact performSeq_of_refuses rfl hs (refuses_bind range)

end Sys2Proof.Machine
end

section
/-! Bit-aligned block transfers (49_graphics.md R444 to R451): words, scan lines and blocks. -/
namespace Sys2Proof.Machine

open Sys2Proof.Safety

/-! ### What a block transfer leaves in the registers -/

/-- From `s` to `t`, R0 and R1 have moved by `d0` and `d1`, R3 has lost `k`, and besides them only memory and the supply
of free values can have changed. -/
structure Blitted (d0 d1 : DWord) (k : Nat) (s t : State) : Prop where
  r0 : t.reg 0 = s.reg 0 + d0
  r1 : t.reg 1 = s.reg 1 + d1
  r3 : t.reg 3 = s.reg 3 - BitVec.ofNat 32 k
  regs : ∀ q : RegNo, q ≠ 0 → q ≠ 1 → q ≠ 3 → t.reg q = s.reg q
  rest : { t with regs := s.regs, mem := s.mem, draws := s.draws } = s

namespace Blitted

theorem refl (s : State) : Blitted 0 0 0 s s where
  r0 := by simp
  r1 := by simp
  r3 := by simp
  regs _ _ _ _ := rfl
  rest := rfl

theorem trans {d0 d1 e0 e1 : DWord} {k m : Nat} {s u t : State} (h : Blitted d0 d1 k s u) (h' : Blitted e0 e1 m u t) :
    Blitted (d0 + e0) (d1 + e1) (k + m) s t where
  r0 := by rw [h'.r0, h.r0, BitVec.add_assoc]
  r1 := by rw [h'.r1, h.r1, BitVec.add_assoc]
  r3 := by rw [h'.r3, h.r3, BitVec.ofNat_add, sub_sub]
  regs q q0 q1 q3 := (h'.regs q q0 q1 q3).trans (h.regs q q0 q1 q3)
  rest := by
    have both : ({ t with regs := s.regs, mem := s.mem, draws := s.draws } : State) =
      { ({ t with regs := u.regs, mem := u.mem, draws := u.draws } : State) with
        regs := s.regs, mem := s.mem, draws := s.draws } := rfl
    rw [both, h'.rest, h.rest]

/-- Something of a state that a block transfer does not change. -/
theorem field {α : Type} {d0 d1 : DWord} {k : Nat} {s t : State} (h : Blitted d0 d1 k s t) (f : State → α)
    (same : f { t with regs := s.regs, mem := s.mem, draws := s.draws } = f t) : f t = f s :=
  same.symm.trans (congrArg f h.rest)

end Blitted

/-- Registers stepped: R0 and R1 by `d0` and `d1`, and R3 by `d3`. -/
theorem State.reg_stepLine (s : State) (d0 d1 d3 : DWord) :
    let t := ((s.addReg 0 d0).addReg 1 d1).addReg 3 d3
    t.reg 0 = s.reg 0 + d0 ∧ t.reg 1 = s.reg 1 + d1 ∧ t.reg 3 = s.reg 3 + d3 ∧
    ∀ q : RegNo, q ≠ 0 → q ≠ 1 → q ≠ 3 → t.reg q = s.reg q := by
  refine ⟨?_, ?_, ?_, fun q q0 q1 q3 => ?_⟩
  · rw [State.addReg_reg_other _ _ (by decide), State.addReg_reg_other _ _ (by decide), State.addReg_reg_same]
  · rw [State.addReg_reg_other _ _ (by decide), State.addReg_reg_same, State.addReg_reg_other _ _ (by decide)]
  · rw [State.addReg_reg_same, State.addReg_reg_other _ _ (by decide), State.addReg_reg_other _ _ (by decide)]
  · rw [State.addReg_reg_other _ _ q3.symm, State.addReg_reg_other _ _ q1.symm, State.addReg_reg_other _ _ q0.symm]

/-- Registers stepped: R0 and R1 by `d0` and `d1`. -/
theorem State.reg_stepBoth (s : State) (d0 d1 : DWord) :
    let t := (s.addReg 0 d0).addReg 1 d1
    t.reg 0 = s.reg 0 + d0 ∧ t.reg 1 = s.reg 1 + d1 ∧ ∀ q : RegNo, q ≠ 0 → q ≠ 1 → t.reg q = s.reg q := by
  refine ⟨?_, ?_, fun q q0 q1 => ?_⟩
  · rw [State.addReg_reg_other _ _ (by decide), State.addReg_reg_same]
  · rw [State.addReg_reg_same, State.addReg_reg_other _ _ (by decide)]
  · rw [State.addReg_reg_other _ _ q1.symm, State.addReg_reg_other _ _ q0.symm]

/-! ### A word of a scan line -/

section

variable {f : BbFun} {o : BbOpts} {s : State}

theorem blitted_word (d : DWord) (k : Nat) (step : DWord) :
    Blitted step step 0 s (((({ s with draws := k } : State).poke (s.ptr 1) 4 d).addReg 0 step).addReg 1 step) := by
  obtain ⟨r0, r1, regs⟩ := State.reg_stepBoth (({ s with draws := k } : State).poke (s.ptr 1) 4 d) step step
  refine ⟨r0, r1, ?_, fun q q0 q1 _ => regs q q0 q1, rfl⟩
  exact (regs 3 (by decide) (by decide)).trans (BitVec.sub_zero _).symm

theorem runs_bbWord (f : BbFun) (o : BbOpts) (first last : Bool) (s : State) : ∃ t, Runs (bbWord f o first last) s () t ∧
    Blitted (bbStep o) (bbStep o) 0 s t ∧
    ((s.reg 2).toNat ≤ 15 → t = s.bbWordOf f o first last ∧ t.draws = s.draws) := by
  let x := if o.inverted then ~~~s.peek16 (s.ptr 0) else s.peek16 (s.ptr 0)
  obtain ⟨d, k, inside, run⟩ := runs_bbResult f (s.reg 2) (s.peek (s.ptr 1) 4) x (bbMask s first last) s
  refine ⟨_, ?_, blitted_word d k (bbStep o), fun small => ?_⟩
  · exact runs_bind (runs_look (fun s => s.ptr 0) s fun _ => rfl) (runs_bind (runs_readMem _ _ _ _ s)
      (runs_bind (runs_look (fun s => bbMask s first last) s fun _ => rfl)
      (runs_bind (runs_look (fun s => s.ptr 1) s fun _ => rfl) (runs_bind (runs_readMem _ _ _ _ s)
      (runs_bind (runs_look (fun s => s.reg 2) s fun _ => rfl) (runs_bind run (runs_bind (runs_writeMem _ _ _ _ _)
      (runs_stepBoth (bbStep o) (bbStep o) _))))))))
  · obtain ⟨rfl, rfl⟩ := inside small
    exact ⟨rfl, rfl⟩

/-- One step and `k` steps more. -/
theorem one_step_more (d : DWord) (k : Nat) : d + BitVec.ofNat 32 k * d = BitVec.ofNat 32 (k + 1) * d := by
  rw [BitVec.ofNat_add, BitVec.add_mul, BitVec.add_comm]
  exact congrArg (fun x => BitVec.ofNat 32 k * d + x) (BitVec.one_mul d).symm

theorem blitted_next {d : DWord} {k : Nat} {s u t : State} (h : Blitted d d 0 s u)
    (h' : Blitted (BitVec.ofNat 32 k * d) (BitVec.ofNat 32 k * d) 0 u t) :
    Blitted (BitVec.ofNat 32 (k + 1) * d) (BitVec.ofNat 32 (k + 1) * d) 0 s t := by
  have both := h.trans h'
  rwa [one_step_more] at both

theorem runs_bbLine (f : BbFun) (o : BbOpts) (w k : Nat) (s : State) : ∃ t, Runs (bbLine f o w k) s () t ∧
    Blitted (BitVec.ofNat 32 k * bbStep o) (BitVec.ofNat 32 k * bbStep o) 0 s t ∧
    ((s.reg 2).toNat ≤ 15 → t = State.bbLineOf f o w k s ∧ t.draws = s.draws) := by
  induction k generalizing s with
  | zero =>
    refine ⟨s, runs_pure _ _, ?_, fun _ => ⟨rfl, rfl⟩⟩
    have zero : BitVec.ofNat 32 0 * bbStep o = 0 := BitVec.zero_mul
    rw [zero]
    exact Blitted.refl s
  | succ k ih =>
    obtain ⟨u, word, moved, inside⟩ := runs_bbWord f o (k + 1 = w) (k = 0) s
    obtain ⟨t, line, moved', inside'⟩ := ih u
    refine ⟨t, runs_bind word line, blitted_next moved moved', fun small => ?_⟩
    obtain ⟨one, draws⟩ := inside small
    have shift : u.reg 2 = s.reg 2 := moved.regs 2 (by decide) (by decide) (by decide)
    obtain ⟨many, draws'⟩ := inside' (by rwa [shift])
    exact ⟨by rw [many, one]; rfl, draws'.trans draws⟩

/-! ### Scan lines -/

/-- A scan line and the step to the next one. -/
def State.bbOne (f : BbFun) (o : BbOpts) (w : Nat) (s : State) : State :=
  let t := State.bbLineOf f o w w s
  ((t.addReg 0 (t.reg 6)).addReg 1 (t.reg 7)).addReg 3 (-1)

theorem State.bbBlockOf_succ (f : BbFun) (o : BbOpts) (w k : Nat) (s : State) :
    State.bbBlockOf f o w (k + 1) s = State.bbBlockOf f o w k (s.bbOne f o w) := rfl

/-- The step to the next scan line. -/
theorem runs_stepLine (d : DWord) (s : State) :
    Runs (change fun s => ((s.addReg 0 (s.reg 6)).addReg 1 (s.reg 7)).addReg 3 d) s ()
      (((s.addReg 0 (s.reg 6)).addReg 1 (s.reg 7)).addReg 3 d) :=
  runs_change (fun s => ((s.addReg 0 (s.reg 6)).addReg 1 (s.reg 7)).addReg 3 d) s (fun _ => rfl) rfl

theorem blitted_stepLine (s : State) (d0 d1 : DWord) : Blitted d0 d1 1 s (((s.addReg 0 d0).addReg 1 d1).addReg 3 (-1)) := by
  obtain ⟨r0, r1, r3, regs⟩ := State.reg_stepLine s d0 d1 (-1)
  exact ⟨r0, r1, r3.trans (BitVec.sub_eq_add_neg _ _).symm, regs, rfl⟩

/-- How far a scan line of `w` words moves a pointer. -/
def bbMove (o : BbOpts) (w : Nat) (warp : DWord) : DWord := BitVec.ofNat 32 w * bbStep o + warp

theorem runs_bbPass (f : BbFun) (o : BbOpts) (w : Nat) (s : State) : ∃ t, Runs (bbPass f o w) s false t ∧
    Blitted (bbMove o w (s.reg 6)) (bbMove o w (s.reg 7)) 1 s t ∧
    ((s.reg 2).toNat ≤ 15 → t = s.bbOne f o w ∧ t.draws = s.draws) := by
  obtain ⟨u, line, moved, inside⟩ := runs_bbLine f o w w s
  have warp0 : u.reg 6 = s.reg 6 := moved.regs 6 (by decide) (by decide) (by decide)
  have warp1 : u.reg 7 = s.reg 7 := moved.regs 7 (by decide) (by decide) (by decide)
  refine ⟨_, runs_bind line (runs_bind (runs_stepLine (-1) u) (runs_pure _ _)), ?_, fun small => ?_⟩
  · have both := moved.trans (blitted_stepLine u (u.reg 6) (u.reg 7))
    rwa [warp0, warp1] at both ⊢
  · obtain ⟨one, draws⟩ := inside small
    exact ⟨by rw [one]; rfl, draws⟩

theorem runs_bbPasses (f : BbFun) (o : BbOpts) (w : Nat) {k : Nat} {s : State} (hk : k ≤ (s.reg 3).toNat) :
    ∃ t, Runs (passes (fun s => s.reg 3 == 0) (bbPass f o w) k) s (decide (k = (s.reg 3).toNat)) t ∧
      Blitted (BitVec.ofNat 32 k * bbMove o w (s.reg 6)) (BitVec.ofNat 32 k * bbMove o w (s.reg 7)) k s t ∧
      ((s.reg 2).toNat ≤ 15 → t = State.bbBlockOf f o w k s ∧ t.draws = s.draws) := by
  induction k generalizing s with
  | zero =>
    have stop := runs_passes_zero (pass := bbPass f o w) (done := fun s => s.reg 3 == 0) (s := s) fun _ => rfl
    have zero : ((s.reg 3).toNat = 0) ↔ (0 = (s.reg 3).toNat) := eq_comm
    have still (d : DWord) : BitVec.ofNat 32 0 * d = 0 := BitVec.zero_mul
    rw [countReg_eq, decide_eq_decide.mpr zero] at stop
    rw [still, still]
    exact ⟨s, stop, Blitted.refl s, fun _ => ⟨rfl, rfl⟩⟩
  | succ k ih =>
    have left : (s.reg 3).toNat ≠ 0 := by omega
    have go : (s.reg 3 == 0) = false := by rw [countReg_eq]; exact decide_eq_false left
    have count := toNat_sub_one left
    obtain ⟨u, pass, moved, inside⟩ := runs_bbPass f o w s
    have lost : u.reg 3 = s.reg 3 + -1 := moved.r3.trans (BitVec.sub_eq_add_neg _ _)
    rw [← lost] at count
    obtain ⟨t, rest, moved', inside'⟩ := ih (s := u) (by omega)
    have same : (k = (u.reg 3).toNat) ↔ (k + 1 = (s.reg 3).toNat) := by omega
    rw [decide_eq_decide.mpr same] at rest
    refine ⟨t, runs_passes_next (fun _ => rfl) go pass rest, ?_, fun small => ?_⟩
    · have warp0 : u.reg 6 = s.reg 6 := moved.regs 6 (by decide) (by decide) (by decide)
      have warp1 : u.reg 7 = s.reg 7 := moved.regs 7 (by decide) (by decide) (by decide)
      have both := moved.trans moved'
      rw [warp0, warp1, one_step_more, one_step_more, Nat.add_comm 1 k] at both
      exact both
    · obtain ⟨one, draws⟩ := inside small
      have shift : u.reg 2 = s.reg 2 := moved.regs 2 (by decide) (by decide) (by decide)
      obtain ⟨many, draws'⟩ := inside' (by rwa [shift])
      exact ⟨by rw [many, one, State.bbBlockOf_succ], draws'.trans draws⟩

end

/-! ### A block transfer -/

/-- Where a block transfer starts: a width of 0 leaves no scan line. -/
def State.bbStart (s : State) (w : Nat) : State := if w = 0 then s.setReg 3 0 else s

/-- The scan lines of a block transfer of width `w`. -/
def bbLines (i : Instr) (f : BbFun) (o : BbOpts) (w : Nat) : M Unit := do
  let count ← look fun s => (s.reg 3).toNat
  interruptible i id 1 count (fun s => s.reg 3 == 0) (bbPass f o w)
    (change fun s => (s.putFlag .k false).putFlag .j false)

/-- A block transfer of width `w`, once its width is read. -/
def bbTransfer (i : Instr) (f : BbFun) (o : BbOpts) (w : Nat) : M Unit := do
  if w = 0 then change fun s => s.setReg 3 0 else pure ()
  bbLines i f o w

theorem bbRun_eq (i : Instr) (f : BbFun) (o : BbOpts) : bbRun i f o = (do
    if ← look fun s => s.flag .k || s.flag .j then abort (.refused .bbStateBits)
    else
      let w ← readMem .data (← look State.sp) 4
      bbInRange w
      bbTransfer i f o (bbWidth w)) := rfl

theorem runs_bbStart {i : Instr} {f : BbFun} {o : BbOpts} {w : Nat} {s t : State}
    (h : Runs (bbLines i f o w) (s.bbStart w) () t) : Runs (bbTransfer i f o w) s () t := by
  unfold State.bbStart at h
  unfold bbTransfer
  split
  · next zero =>
    rw [if_pos zero] at h
    exact runs_bind (runs_change (fun s => s.setReg 3 0) s (fun _ => rfl) rfl) h
  · next wide =>
    rwa [if_neg wide] at h

theorem runs_bbTransfer (i : Instr) (f : BbFun) (o : BbOpts) (w : Nat) (s : State) :
    let start := s.bbStart w
    let count := (start.reg 3).toNat
    let k := start.allowedBetween count
    ∃ t, Runs (bbTransfer i f o w) s () (if k = count
        then { ((t.putFlag .k false).putFlag .j false) with pc := t.next i } else t.jump t.pc) ∧
      Blitted (BitVec.ofNat 32 k * bbMove o w (start.reg 6)) (BitVec.ofNat 32 k * bbMove o w (start.reg 7)) k start t ∧
      ((start.reg 2).toNat ≤ 15 → t = State.bbBlockOf f o w k start ∧ t.draws = start.draws) := by
  intro start count k
  obtain ⟨t, passes, moved, inside⟩ := runs_bbPasses f o w (State.allowedBetween_le start count)
  refine ⟨t, ?_, moved, inside⟩
  have clear := runs_change (fun s => (s.putFlag .k false).putFlag .j false) t (fun _ => rfl) rfl
  exact runs_bbStart (runs_bind (runs_look (fun s => (s.reg 3).toNat) start fun _ => rfl)
    (runs_interruptible_between passes clear))

end Sys2Proof.Machine
end

section
/-! BBOR, BBAND, BBXOR, BBFOR and BBSTOD (49_graphics.md R444 to R451). -/
namespace Sys2Proof.Machine

open Sys2Proof.Safety

section

variable {j : Instr} {f : BbFun} {o : BbOpts} {s : State}

/-- With K and J clear, the width is read and checked. -/
theorem runs_bbRun {t : State} (k : s.flag .k = false) (j' : s.flag .j = false)
    (h : BbInside s (s.peek32 s.sp) ∨ s.operandPolicy = .free)
    (run : Runs (bbTransfer j f o (bbWidth (s.peek32 s.sp))) s.begin () t) : Runs (bbRun j f o) s.begin () t := by
  have flags : (s.begin.flag .k || s.begin.flag .j) = false := by
    rw [State.begin_flag, State.begin_flag, if_neg (by decide), if_neg (by decide), k, j']
    rfl
  have sp : s.begin.sp = s.sp := State.begin_sp s
  rw [bbRun_eq]
  refine runs_bind (runs_look (fun s => s.flag .k || s.flag .j) s.begin fun _ => rfl) ?_
  rw [flags, if_neg Bool.false_ne_true]
  refine runs_bind (runs_look State.sp s.begin fun _ => rfl) (runs_bind (runs_readMem _ _ _ _ _) ?_)
  rw [sp]
  exact runs_bind (runs_bbInRange h) run

theorem refuses_bbRun_flags (h : s.flag .k = true ∨ s.flag .j = true) : Refuses (bbRun j f o) s.begin .bbStateBits := by
  have flags : (s.begin.flag .k || s.begin.flag .j) = true := by
    rw [State.begin_flag, State.begin_flag, if_neg (by decide), if_neg (by decide)]
    exact Bool.or_eq_true_iff.mpr h
  rw [bbRun_eq]
  refine refuses_after (runs_look (fun s => s.flag .k || s.flag .j) s.begin fun _ => rfl) ?_
  rw [flags, if_pos rfl]
  exact fun hs b => ⟨s.begin.withBus b, answers_congr rfl hs, rfl⟩

theorem refuses_bbRun_range (k : s.flag .k = false) (j' : s.flag .j = false)
    (h : ¬BbInside s (s.peek32 s.sp)) (policy : s.operandPolicy = .refuse) : Refuses (bbRun j f o) s.begin .bbRange := by
  have flags : (s.begin.flag .k || s.begin.flag .j) = false := by
    rw [State.begin_flag, State.begin_flag, if_neg (by decide), if_neg (by decide), k, j']
    rfl
  have sp : s.begin.sp = s.sp := State.begin_sp s
  rw [bbRun_eq]
  refine refuses_after (runs_look (fun s => s.flag .k || s.flag .j) s.begin fun _ => rfl) ?_
  rw [flags, if_neg Bool.false_ne_true]
  refine refuses_after (runs_look State.sp s.begin fun _ => rfl) (refuses_after (runs_readMem _ _ _ _ _) ?_)
  rw [sp]
  exact refuses_bind (refuses_bbInRange h policy)

end

/-- The state after `k` scan lines of a width inside the range: the registers in closed form, memory `m`. -/
def State.bbRegs (s start : State) (o : BbOpts) (w k : Nat) : State :=
  let move (warp : DWord) : DWord := BitVec.ofNat 32 k * (bbStep o * BitVec.ofNat 32 w + warp)
  ((s.begin.setReg 3 (start.reg 3 - BitVec.ofNat 32 k)).setReg 0 (s.reg 0 + move (s.reg 6))).setReg 1
    (s.reg 1 + move (s.reg 7))

theorem State.bbRegs_reg (s start : State) (o : BbOpts) (w k : Nat) :
    (s.bbRegs start o w k).reg 0 = s.reg 0 + BitVec.ofNat 32 k * (bbStep o * BitVec.ofNat 32 w + s.reg 6) ∧
    (s.bbRegs start o w k).reg 1 = s.reg 1 + BitVec.ofNat 32 k * (bbStep o * BitVec.ofNat 32 w + s.reg 7) ∧
    (s.bbRegs start o w k).reg 3 = start.reg 3 - BitVec.ofNat 32 k ∧
    ∀ q : RegNo, q ≠ 0 → q ≠ 1 → q ≠ 3 → (s.bbRegs start o w k).reg q = s.reg q := by
  unfold State.bbRegs
  refine ⟨?_, ?_, ?_, fun q q0 q1 q3 => ?_⟩
  · rw [State.setReg_reg_other _ _ _ _ (by decide), State.setReg_reg_same]
  · rw [State.setReg_reg_same]
  · rw [State.setReg_reg_other _ _ _ _ (by decide), State.setReg_reg_other _ _ _ _ (by decide), State.setReg_reg_same]
  · rw [State.setReg_reg_other _ _ _ _ q1.symm, State.setReg_reg_other _ _ _ _ q0.symm,
      State.setReg_reg_other _ _ _ _ q3.symm, State.begin_reg]

theorem bbMove_eq (o : BbOpts) (w : Nat) (warp : DWord) : bbMove o w warp = bbStep o * BitVec.ofNat 32 w + warp := by
  rw [bbMove, BitVec.mul_comm]

theorem State.bbStart_reg (s : State) (w : Nat) {q : RegNo} (h : q ≠ 3) : (s.bbStart w).reg q = s.reg q := by
  unfold State.bbStart
  split
  · exact State.setReg_reg_other _ _ _ _ h.symm
  · rfl

theorem State.bbStart_rest (s : State) (w : Nat) (x : Vector DWord 8) (m : List Host.Cell) :
    ({ s.bbStart w with regs := x, mem := m } : State) = { s with regs := x, mem := m } := by
  unfold State.bbStart
  split <;> rfl

/-- The state after `k` scan lines of a width and a shift in range. -/
theorem eq_bbRegs {s t : State} {o : BbOpts} {w k : Nat}
    (moved : Blitted (BitVec.ofNat 32 k * bbMove o w ((s.begin.bbStart w).reg 6))
      (BitVec.ofNat 32 k * bbMove o w ((s.begin.bbStart w).reg 7)) k (s.begin.bbStart w) t)
    (draws : t.draws = (s.begin.bbStart w).draws) : t = { s.bbRegs (s.begin.bbStart w) o w k with mem := t.mem } := by
  have start {q : RegNo} (h : q ≠ 3) : (s.begin.bbStart w).reg q = s.reg q := State.bbStart_reg s.begin w h
  obtain ⟨r0, r1, r3, regs, rest⟩ := moved
  rw [start (by decide), start (by decide), bbMove_eq] at r0
  rw [start (by decide), start (by decide), bbMove_eq] at r1
  have other (x : Vector DWord 8) : ({ t with regs := x } : State) = { s.begin with regs := x, mem := t.mem } := by
    have kept := congrArg (fun u : State => ({ u with regs := x, mem := t.mem } : State)) rest
    rw [State.bbStart_rest, ← draws] at kept
    exact kept
  obtain ⟨b0, b1, b3, bs⟩ := State.bbRegs_reg s (s.begin.bbStart w) o w k
  have rest (q : RegNo) (q0 : q ≠ 0) (q1 : q ≠ 1) (q3 : q ≠ 3) :
      t.reg q = (s.bbRegs (s.begin.bbStart w) o w k).reg q :=
    (regs q q0 q1 q3).trans ((start q3).trans (bs q q0 q1 q3).symm)
  refine State.eq_of_reg (other _) (r0.trans b0.symm) (r1.trans b1.symm)
    (rest 2 (by decide) (by decide) (by decide)) fun q hq => ?_
  by_cases h3 : q = 3
  · subst h3
    exact r3.trans b3.symm
  · have apart (p : RegNo) (hp : p.toNat < 3) : q ≠ p := fun e => by subst e; omega
    exact rest q (apart 0 (by decide)) (apart 1 (by decide)) h3

theorem State.bbStart_pc (s : State) (w : Nat) : (s.bbStart w).pc = s.pc := by
  unfold State.bbStart
  split <;> rfl

theorem State.bbStart_suspend (s : State) (w : Nat) : (s.bbStart w).suspend = s.suspend := by
  unfold State.bbStart
  split <;> rfl

theorem State.bbStart_flag (s : State) (w : Nat) (q : PsrBit) : (s.bbStart w).flag q = s.flag q := by
  unfold State.bbStart
  split <;> rfl

/-- Where some scan lines are left, the width is not 0. -/
theorem State.bbStart_count {s : State} {w k : Nat} (h : k < ((s.bbStart w).reg 3).toNat) : (s.bbStart w).reg 3 = s.reg 3 := by
  unfold State.bbStart at h ⊢
  split at h
  · rw [State.setReg_reg_same] at h
    exact absurd h (Nat.not_lt_zero k)
  · next wide => rw [if_neg wide]

/-- An instruction that does not make all its passes is suspended by an input. -/
theorem allowedBetween_part {s : State} {count : Nat} (h : s.allowedBetween count ≠ count) :
    ∃ b, s.suspend = some b ∧ max b 1 < count ∧ s.allowedBetween count = max b 1 := by
  unfold State.allowedBetween at h ⊢
  cases input : s.suspend with
  | none => rw [input] at h; exact absurd rfl h
  | some b =>
    rw [input] at h
    dsimp only at h ⊢
    exact ⟨b, rfl, by omega, by omega⟩

section

variable {j : Instr} {f : BbFun} {o : BbOpts} {s : State}

/-- How a block transfer ends or is suspended. -/
theorem ends_bb (e : exec j s = perform j (bbRun j f o) s) (hj : j.WF) (hs : Answers s) (k : s.flag .k = false)
    (j' : s.flag .j = false) (h : BbInside s (s.peek32 s.sp) ∨ s.operandPolicy = .free) :
    let w := bbWidth (s.peek32 s.sp)
    let start := s.begin.bbStart w
    let count := (start.reg 3).toNat
    let k := s.allowedBetween count
    ∃ t, Ends j s (if k = count then { ((t.putFlag .k false).putFlag .j false) with pc := s.next j } else t.jump s.pc) ∧
      Blitted (BitVec.ofNat 32 k * bbMove o w (start.reg 6)) (BitVec.ofNat 32 k * bbMove o w (start.reg 7)) k start t ∧
      ((s.reg 2).toNat ≤ 15 → t = State.bbBlockOf f o w k start ∧ t.draws = start.draws) := by
  intro w start count lines
  have same : start.allowedBetween count = lines := by
    have suspend : start.suspend = s.suspend := State.bbStart_suspend s.begin w
    show start.allowedBetween count = s.allowedBetween count
    rw [State.allowedBetween, State.allowedBetween, suspend]
  obtain ⟨t, run, moved, inside⟩ := runs_bbTransfer j f o w s.begin
  have pc : t.pc = s.pc := (moved.field State.pc rfl).trans (State.bbStart_pc s.begin w)
  have next : t.next j = s.next j := by unfold State.next; rw [pc]
  have shift : start.reg 2 = s.reg 2 := State.bbStart_reg s.begin w (by decide)
  rw [same, next, pc] at run
  rw [same] at moved inside
  refine ⟨t, ?_, moved, fun small => inside (by rwa [shift])⟩
  unfold Ends
  rw [e]
  exact perform_of_runs hj hs (runs_bbRun k j' h run)

theorem bbWidth_eq {w : DWord} (h : w.toNat < 2 ^ 16) : bbWidth w = w.toNat := if_pos h

/-- With a width and a shift in range, a block transfer leaves what R445 says. -/
theorem ends_bb_inside (e : exec j s = perform j (bbRun j f o) s) (hj : j.WF) (hs : Answers s) (k : s.flag .k = false)
    (j' : s.flag .j = false) (h : BbInside s (s.peek32 s.sp)) :
    let w := (s.peek32 s.sp).toNat
    let start := s.begin.bbStart w
    let count := (start.reg 3).toNat
    let k := s.allowedBetween count
    let m := (State.bbBlockOf f o w k start).mem
    Ends j s (if k = count
      then { (((s.bbRegs start o w k).putFlag .k false).putFlag .j false) with mem := m, pc := s.next j }
      else { ((s.bbRegs start o w k).jump s.pc) with mem := m }) := by
  intro w start count lines m
  obtain ⟨t, ends, moved, inside⟩ := ends_bb e hj hs k j' (.inl h)
  obtain ⟨width, shift⟩ := h
  obtain ⟨block, draws⟩ := inside shift
  rw [bbWidth_eq width] at ends moved block draws
  have state := eq_bbRegs moved draws
  have mem : t.mem = m := congrArg State.mem block
  rw [mem] at state
  rw [state] at ends
  exact ends

/-- Outside the range, a block transfer that runs ends with R3 = 0, or is suspended after as many lines as R3 has lost. -/
theorem ends_bb_free (e : exec j s = perform j (bbRun j f o) s) (hj : j.WF) (hs : Answers s) (k : s.flag .k = false)
    (j' : s.flag .j = false) (policy : s.operandPolicy = .free) :
    ∃ u, exec j s = .next u ∧ u.flag .k = false ∧ u.flag .j = false ∧ ((u.pc = s.next j ∧ u.reg 3 = 0) ∨
      ∃ b, s.suspend = some b ∧ max b 1 < (s.reg 3).toNat ∧ u.pc = s.pc ∧ u.queue = [] ∧
        u.reg 3 = s.reg 3 - BitVec.ofNat 32 (max b 1)) := by
  obtain ⟨t, ⟨u, run, agree⟩, moved, -⟩ := ends_bb e hj hs k j' (.inr policy)
  refine ⟨u, run, ?_⟩
  have unchanged {q : PsrBit} (hq : q ≠ .p) : t.flag q = s.flag q := by
    rw [moved.field (fun s => s.flag q) rfl, State.bbStart_flag, State.begin_flag, if_neg hq]
  by_cases all : s.allowedBetween ((s.begin.bbStart (bbWidth (s.peek32 s.sp))).reg 3).toNat =
      ((s.begin.bbStart (bbWidth (s.peek32 s.sp))).reg 3).toNat
  · rw [if_pos all] at agree
    have flag (q : PsrBit) : u.flag q = ((t.putFlag .k false).putFlag .j false).flag q :=
      agree_value agree (fun s => s.flag q) fun _ _ => rfl
    have count : u.reg 3 = t.reg 3 := agree_value agree (fun s => s.reg 3) fun _ _ => rfl
    refine ⟨?_, (flag .j).trans (State.putFlag_same_flag _ _ _), .inl ⟨agree_value agree State.pc fun _ _ => rfl, ?_⟩⟩
    · rw [flag, State.putFlag_flag, if_neg (by decide), State.putFlag_same_flag]
    · rw [count, moved.r3, all, BitVec.ofNat_toNat, BitVec.setWidth_eq]
      exact BitVec.sub_self _
  · rw [if_neg all] at agree
    have flag (q : PsrBit) : u.flag q = t.flag q := agree_value agree (fun s => s.flag q) fun _ _ => rfl
    have count : u.reg 3 = t.reg 3 := agree_value agree (fun s => s.reg 3) fun _ _ => rfl
    obtain ⟨b, input, fewer, lines⟩ := allowedBetween_part all
    have same := State.bbStart_count fewer
    rw [same] at fewer
    refine ⟨(flag .k).trans ((unchanged (by decide)).trans k), (flag .j).trans ((unchanged (by decide)).trans j'),
      .inr ⟨b, input, fewer, agree_value agree State.pc fun _ _ => rfl, agree_value agree State.queue fun _ _ => rfl, ?_⟩⟩
    rw [count, moved.r3, lines, same]
    rfl

end

/-- Settles O39: scan line by scan line, the pointers move and R3 counts down; in range the words are those of R445. -/
theorem bitBlockTransfer : Obligations.BitBlockTransfer := by
  intro o s hs w inside start count k move regs done
  have settle {j : Instr} {f : BbFun} {o : BbOpts} (e : exec j s = perform j (bbRun j f o) s) (hj : j.WF) : done j f o := by
    refine ⟨fun flags => ?_, fun hk hj' => ⟨fun out policy => ?_, fun out policy => ends_bb_free e hj hs hk hj' policy,
      fun within => ends_bb_inside e hj hs hk hj' within⟩⟩
    · rw [e]
      exact perform_of_refuses hj hs (refuses_bbRun_flags flags)
    · rw [e]
      exact perform_of_refuses hj hs (refuses_bbRun_range hk hj' out policy)
  exact ⟨settle rfl rfl, settle rfl rfl, settle rfl rfl, settle rfl rfl, settle rfl rfl⟩

end Sys2Proof.Machine
end

section
/-! TBITS (49_graphics.md R465): its limits, its bits and its entry. -/
namespace Sys2Proof.Machine

open Sys2Proof.Safety

/-! ### Offsets below 2^31 -/

theorem msb_eq_false {x : DWord} (h : x.toNat < 2 ^ 31) : x.msb = false := by
  rw [BitVec.msb_eq_decide]
  exact decide_eq_false (by omega)

theorem offsetGe_eq {a b : DWord} (ha : a.toNat < 2 ^ 31) (hb : b.toNat < 2 ^ 31) :
    offsetGe a b = decide (b.toNat ≤ a.toNat) := by
  unfold offsetGe
  rw [msb_eq_false ha, msb_eq_false hb]
  exact BitVec.ule_eq_decide

/-- The byte of an offset below 2^31. -/
theorem tbitsByte_eq (base : DWord) {a : DWord} (h : a.toNat < 2 ^ 31) :
    (base + offsetByte a).setWidth 24 = base.setWidth 24 + BitVec.ofNat 24 (a.toNat / 8) := by
  have shift : offsetByte a = BitVec.ofNat 32 (a.toNat / 8) := by
    unfold offsetByte
    rw [msb_eq_false h]
    apply BitVec.eq_of_toNat_eq
    simp [Nat.shiftRight_eq_div_pow]
    omega
  rw [setWidth24_add, shift]
  congr 1
  apply BitVec.eq_of_toNat_eq
  simp

theorem tbitsBit_eq (a : DWord) : (a.setWidth 3).toNat = a.toNat % 8 := BitVec.toNat_setWidth _ _

/-! ### The entry -/

/-- A first entry that R465 does not define, or an offset that is negative. -/
theorem tbitsDefined_iff (s : State) (first : Bool) : ((first && s.reg 2 != 0) || (s.reg 1).msb || (s.reg 4).msb) = true ↔
    (first = true ∧ s.reg 2 ≠ 0) ∨ 2 ^ 31 ≤ (s.reg 1).toNat ∨ 2 ^ 31 ≤ (s.reg 4).toNat := by
  rw [BitVec.msb_eq_decide, BitVec.msb_eq_decide]
  simp only [Bool.or_eq_true, Bool.and_eq_true, bne_iff_ne, decide_eq_true_eq]
  exact or_assoc

theorem runs_tbitsDefined {s : State} {first : Bool} (h : ¬((first = true ∧ s.reg 2 ≠ 0) ∨ 2 ^ 31 ≤ (s.reg 1).toNat ∨
    2 ^ 31 ≤ (s.reg 4).toNat) ∨ s.operandPolicy = .free) : Runs (tbitsDefined first) s () s := by
  refine runs_bind (runs_look (fun s => (first && s.reg 2 != 0) || (s.reg 1).msb || (s.reg 4).msb) s fun _ => rfl) ?_
  split
  · next out => exact runs_refusable .tbitsEntry (h.resolve_left (not_not_intro ((tbitsDefined_iff s first).mp out)))
  · exact runs_pure _ _

theorem refuses_tbitsDefined {s : State} {first : Bool} (h : (first = true ∧ s.reg 2 ≠ 0) ∨ 2 ^ 31 ≤ (s.reg 1).toNat ∨
    2 ^ 31 ≤ (s.reg 4).toNat) (policy : s.operandPolicy = .refuse) : Refuses (tbitsDefined first) s .tbitsEntry := by
  refine refuses_after (runs_look (fun s => (first && s.reg 2 != 0) || (s.reg 1).msb || (s.reg 4).msb) s fun _ => rfl) ?_
  rw [if_pos ((tbitsDefined_iff s first).mpr h)]
  exact refuses_refusable .tbitsEntry policy

theorem State.entersTbits_iff (s : State) : s.entersTbits = true ↔ s.tbitsMark ∉ s.heldTbits := by
  unfold State.entersTbits
  rw [Bool.not_eq_true', ← Bool.not_eq_true, List.contains_iff_mem]

/-! ### The passes -/

section

variable {o : Bool} {s : State}

/-- What follows the test of a bit `x`. -/
def tbitsTested (o x : Bool) : M Bool := do
  change fun s => s.putFlag .f x
  if x ≠ o then
    change fun s => s.putFlag .l true
    return true
  else
    change fun s => (s.addReg 1 1).addReg 2 1
    return false

theorem tbitsPass_eq : tbitsPass o = (do
    let y ← readMem .data (← look fun s => (s.reg 0 + offsetByte (s.reg 1)).setWidth 24) 1
    let x ← look fun s => y.getLsbD ((s.reg 1).setWidth 3).toNat
    tbitsTested o x) := rfl

/-- The bit tested is the one at the offset in R1. -/
theorem runs_tbitsPass {b : Bool} {t : State} (small : (s.reg 1).toNat < 2 ^ 31)
    (h : Runs (tbitsTested o (s.runBit (s.reg 1).toNat)) s b t) : Runs (tbitsPass o) s b t := by
  have bit : (s.peek ((s.reg 0 + offsetByte (s.reg 1)).setWidth 24) 1).getLsbD ((s.reg 1).setWidth 3).toNat =
      s.runBit (s.reg 1).toNat := by
    rw [tbitsByte_eq _ small, tbitsBit_eq, State.peek_one]
    rfl
  rw [← bit] at h
  rw [tbitsPass_eq]
  exact runs_bind (runs_look (fun s => (s.reg 0 + offsetByte (s.reg 1)).setWidth 24) s fun _ => rfl)
    (runs_bind (runs_readMem _ _ _ _ s) (runs_bind (runs_look (fun u => (s.peek ((s.reg 0 + offsetByte
      (s.reg 1)).setWidth 24) 1).getLsbD ((u.reg 1).setWidth 3).toNat) s fun _ => rfl) h))

theorem runs_stepRun (d e : DWord) (s : State) :
    Runs (change fun s => (s.addReg 1 d).addReg 2 e) s () ((s.addReg 1 d).addReg 2 e) :=
  runs_change (fun s => (s.addReg 1 d).addReg 2 e) s (fun _ => rfl) rfl

/-- A pass that goes on: the bit is not the desired one. -/
theorem runs_tbitsPass_next (small : (s.reg 1).toNat < 2 ^ 31) (h : s.runBit (s.reg 1).toNat = o) :
    Runs (tbitsPass o) s false (((s.putFlag .f o).addReg 1 1).addReg 2 1) := by
  refine runs_tbitsPass small (runs_bind (runs_putFlag _ _ _) ?_)
  rw [if_neg (not_not_intro h), h]
  exact runs_bind (runs_stepRun 1 1 _) (runs_pure _ _)

/-- The desired bit. -/
theorem runs_tbitsPass_last (small : (s.reg 1).toNat < 2 ^ 31) (h : s.runBit (s.reg 1).toNat ≠ o) :
    Runs (tbitsPass o) s true ((s.putFlag .f (!o)).putFlag .l true) := by
  have bit : s.runBit (s.reg 1).toNat = !o := Bool.eq_not.mpr h
  refine runs_tbitsPass small (runs_bind (runs_putFlag _ _ _) ?_)
  rw [if_pos h, bit]
  exact runs_bind (runs_putFlag _ _ _) (runs_pure _ _)

end

/-! ### The end -/

section

variable {s : State}

theorem tbitsEnd_eq : tbitsEnd = (do
    let past ← look tbitsPast
    if ← look tbitsFull then
      let l ← if past then drawBool else pure true
      change fun s => s.putFlag .l l
    else if past then change fun s => s.putFlag .l false
    else pure ()) := rfl

/-- Below both limits, where the desired bit has ended the run. -/
theorem runs_tbitsEnd_found (full : tbitsFull s = false) (past : tbitsPast s = false) : Runs tbitsEnd s () s := by
  rw [tbitsEnd_eq]
  refine runs_bind (runs_look tbitsPast s fun _ => rfl) (runs_bind (runs_look tbitsFull s fun _ => rfl) ?_)
  rw [full, past, if_neg Bool.false_ne_true, if_neg Bool.false_ne_true]
  exact runs_pure _ _

theorem runs_tbitsEnd_past (full : tbitsFull s = false) (past : tbitsPast s = true) :
    Runs tbitsEnd s () (s.putFlag .l false) := by
  rw [tbitsEnd_eq]
  refine runs_bind (runs_look tbitsPast s fun _ => rfl) (runs_bind (runs_look tbitsFull s fun _ => rfl) ?_)
  rw [full, past, if_neg Bool.false_ne_true, if_pos rfl]
  exact runs_putFlag _ _ _

theorem runs_tbitsEnd_full (full : tbitsFull s = true) (past : tbitsPast s = false) :
    Runs tbitsEnd s () (s.putFlag .l true) := by
  rw [tbitsEnd_eq]
  refine runs_bind (runs_look tbitsPast s fun _ => rfl) (runs_bind (runs_look tbitsFull s fun _ => rfl) ?_)
  rw [full, past, if_pos rfl, if_neg Bool.false_ne_true]
  exact runs_bind (runs_pure _ _) (runs_putFlag _ _ _)

/-- At both limits L is free. -/
theorem runs_tbitsEnd_both (full : tbitsFull s = true) (past : tbitsPast s = true) : ∃ (l : Bool) (k : Nat),
    Runs tbitsEnd s () (({ s with draws := k } : State).putFlag .l l) := by
  refine ⟨(Config.freeBits s.draws).getLsbD 0, s.draws + 1, ?_⟩
  rw [tbitsEnd_eq]
  refine runs_bind (runs_look tbitsPast s fun _ => rfl) (runs_bind (runs_look tbitsFull s fun _ => rfl) ?_)
  rw [full, past, if_pos rfl, if_pos rfl]
  exact runs_bind (runs_drawBool s) (runs_putFlag _ _ _)

end

end Sys2Proof.Machine
end

section
/-! How TBITS ends or is suspended (49_graphics.md R465). -/
namespace Sys2Proof.Machine

open Sys2Proof.Safety

/-! ### The state after some bits -/

/-- The state of TBITS after `m` bits equal to the option, from the offset `a` and the run length `len` on. -/
def State.tbitsAt (s : State) (o : Bool) (a : Nat) (len : DWord) (m : Nat) : State :=
  ((s.setReg 1 (BitVec.ofNat 32 (a + m))).setReg 2 (len + BitVec.ofNat 32 m)).putFlag .f o

section

variable {s : State} {o : Bool} {a : Nat} {len : DWord} {m : Nat}

theorem State.tbitsAt_reg (s : State) (o : Bool) (a : Nat) (len : DWord) (m : Nat) :
    (s.tbitsAt o a len m).reg 1 = BitVec.ofNat 32 (a + m) ∧ (s.tbitsAt o a len m).reg 2 = len + BitVec.ofNat 32 m ∧
    ∀ q : RegNo, q ≠ 1 → q ≠ 2 → (s.tbitsAt o a len m).reg q = s.reg q := by
  unfold State.tbitsAt
  refine ⟨?_, ?_, fun q q1 q2 => ?_⟩
  · rw [State.putFlag_reg, State.setReg_reg_other _ _ _ _ (by decide), State.setReg_reg_same]
  · rw [State.putFlag_reg, State.setReg_reg_same]
  · rw [State.putFlag_reg, State.setReg_reg_other _ _ _ _ q2.symm, State.setReg_reg_other _ _ _ _ q1.symm]

/-- A general register other than R1 and R2 is R0 or one from R3 on. -/
theorem regNo_cases {q : RegNo} (h : 3 ≤ q.toNat) : q ≠ 1 ∧ q ≠ 2 :=
  ⟨fun e => by subst e; exact absurd h (by decide), fun e => by subst e; exact absurd h (by decide)⟩

theorem State.tbitsAt_next (s : State) (o : Bool) (a : Nat) (len : DWord) (m : Nat) :
    (((s.tbitsAt o a len m).putFlag .f o).addReg 1 1).addReg 2 1 = s.tbitsAt o a len (m + 1) := by
  obtain ⟨r1, r2, regs⟩ := State.tbitsAt_reg s o a len m
  obtain ⟨n1, n2, next⟩ := State.tbitsAt_reg s o a len (m + 1)
  have flag : (s.tbitsAt o a len m).putFlag .f o = s.tbitsAt o a len m := State.putFlag_same _ _ _ _
  have other (x : Vector DWord 8) : ({ ((s.tbitsAt o a len m).addReg 1 1).addReg 2 1 with regs := x } : State) =
      { s.tbitsAt o a len (m + 1) with regs := x } := rfl
  have kept {q : RegNo} (q1 : q ≠ 1) (q2 : q ≠ 2) :
      (((s.tbitsAt o a len m).addReg 1 1).addReg 2 1).reg q = (s.tbitsAt o a len (m + 1)).reg q := by
    rw [State.addReg_reg_other _ _ q2.symm, State.addReg_reg_other _ _ q1.symm, regs q q1 q2, next q q1 q2]
  rw [flag]
  refine State.eq_of_reg (other _) (kept (by decide) (by decide)) ?_ ?_ fun q hq => ?_
  · rw [State.addReg_reg_other _ _ (by decide), State.addReg_reg_same, r1, n1, ← Nat.add_assoc, BitVec.ofNat_add _ 1]
    rfl
  · rw [State.addReg_reg_same, State.addReg_reg_other _ _ (by decide), r2, n2, BitVec.ofNat_add m 1, BitVec.add_assoc]
    rfl
  · obtain ⟨q1, q2⟩ := regNo_cases hq
    exact kept q1 q2

theorem State.tbitsAt_runBit (s : State) (o : Bool) (a : Nat) (len : DWord) (m k : Nat) :
    (s.tbitsAt o a len m).runBit k = s.runBit k := by
  obtain ⟨-, -, regs⟩ := State.tbitsAt_reg s o a len m
  unfold State.runBit
  rw [regs 0 (by decide) (by decide)]
  rfl

theorem tbitsFull_at : tbitsFull (s.tbitsAt o a len m) = decide (len + BitVec.ofNat 32 m = s.reg 3) := by
  obtain ⟨-, r2, regs⟩ := State.tbitsAt_reg s o a len m
  rw [tbitsFull, r2, regs 3 (by decide) (by decide), Bool.beq_eq_decide_eq]

/-- The offset after `m` bits, below 2^31. -/
theorem offset_at (bound : (s.reg 4).toNat < 2 ^ 31) (h : a + m ≤ (s.reg 4).toNat) :
    ((s.tbitsAt o a len m).reg 1).toNat = a + m := by
  obtain ⟨r1, -, -⟩ := State.tbitsAt_reg s o a len m
  rw [r1, BitVec.toNat_ofNat]
  omega

theorem tbitsPast_at (bound : (s.reg 4).toNat < 2 ^ 31) (h : a + m ≤ (s.reg 4).toNat) :
    tbitsPast (s.tbitsAt o a len m) = decide (a + m = (s.reg 4).toNat) := by
  obtain ⟨-, -, regs⟩ := State.tbitsAt_reg s o a len m
  have place := offset_at (o := o) (len := len) bound h
  rw [tbitsPast, regs 4 (by decide) (by decide), offsetGe_eq (by rw [place]; omega) bound, place]
  exact decide_eq_decide.mpr (by omega)

end

/-! ### The search -/

section

variable {s : State} {o : Bool} {a : Nat} {len : DWord} {k n : Nat}

/-- `k` bits equal to the option, before any limit. -/
def TbitsRun (s : State) (o : Bool) (a : Nat) (len : DWord) (k : Nat) : Prop :=
  (s.reg 4).toNat < 2 ^ 31 ∧ a + k ≤ (s.reg 4).toNat ∧
  ∀ m < k, s.runBit (a + m) = o ∧ len + BitVec.ofNat 32 m ≠ s.reg 3

theorem tbitsAtLimit_at (bound : (s.reg 4).toNat < 2 ^ 31) (h : a + k ≤ (s.reg 4).toNat) :
    tbitsAtLimit (s.tbitsAt o a len k) =
      (decide (len + BitVec.ofNat 32 k = s.reg 3) || decide (a + k = (s.reg 4).toNat)) := by
  rw [tbitsAtLimit, tbitsFull_at, tbitsPast_at bound h]

theorem runs_tbitsPasses {b : Bool} {u : State} (h : TbitsRun s o a len k)
    (rest : Runs (passes tbitsAtLimit (tbitsPass o) n) (s.tbitsAt o a len k) b u) :
    Runs (passes tbitsAtLimit (tbitsPass o) (k + n)) (s.tbitsAt o a len 0) b u := by
  obtain ⟨bound, inside, equal⟩ := h
  refine runs_passes_through (fun m => s.tbitsAt o a len m) (fun _ _ => rfl) (fun m hm => ?_) rest
  obtain ⟨bit, short⟩ := equal m hm
  have place := offset_at (s := s) (o := o) (a := a) (len := len) (m := m) bound (by omega)
  constructor
  · rw [tbitsAtLimit_at bound (by omega), decide_eq_false short, decide_eq_false (by omega)]
    rfl
  · have pass := runs_tbitsPass_next (o := o) (s := s.tbitsAt o a len m) (by rw [place]; omega)
      (by rw [place, State.tbitsAt_runBit]; exact bit)
    rwa [State.tbitsAt_next] at pass

end

/-- The largest number of bits tested. -/
theorem passBudget_tbits {s : State} {k : Nat} (small : k < 2 ^ 31) (h : ∀ b ∈ s.suspend, k ≤ max b 1) :
    (∃ n, s.passBudget 1 tbitsBound = k + n) ∧
    ((∃ b, s.suspend = some b ∧ k = max b 1) → s.passBudget 1 tbitsBound = k) ∧
    (¬(∃ b, s.suspend = some b ∧ k = max b 1) → ∃ n, s.passBudget 1 tbitsBound = k + (n + 1)) := by
  unfold State.passBudget tbitsBound
  cases input : s.suspend with
  | none =>
    dsimp only
    refine ⟨⟨2 ^ 32 - k, by omega⟩, fun ⟨_, e, _⟩ => (nomatch e), fun _ => ⟨2 ^ 32 - k - 1, by omega⟩⟩
  | some b =>
    have le := h b (by rw [input]; rfl)
    dsimp only
    refine ⟨⟨min (max b 1) (2 ^ 32) - k, by omega⟩, ?_, fun free => ⟨min (max b 1) (2 ^ 32) - k - 1, ?_⟩⟩
    · rintro ⟨c, e, rfl⟩
      cases e
      omega
    · have : k ≠ max b 1 := fun e => free ⟨b, rfl, e⟩
      omega

/-- The search of TBITS. -/
def tbitsLoop (o : Bool) : M Unit := interruptible (.tbits o) leaveTbits 1 tbitsBound tbitsAtLimit (tbitsPass o) tbitsEnd

section

variable {s : State} {o : Bool} {a : Nat} {len : DWord} {k : Nat}

/-- At a limit the search ends. -/
theorem runs_tbitsLoop_limit {u : State} (h : TbitsRun s o a len k) (input : ∀ b ∈ s.suspend, k ≤ max b 1)
    (limit : tbitsAtLimit (s.tbitsAt o a len k) = true) (ending : Runs tbitsEnd (s.tbitsAt o a len k) () u) :
    Runs (tbitsLoop o) (s.tbitsAt o a len 0) () { u with pc := u.next (.tbits o) } := by
  have ⟨bound, inside, _⟩ := h
  obtain ⟨⟨n, budget⟩, -, -⟩ := passBudget_tbits (s := s.tbitsAt o a len 0) (k := k) (by omega) input
  refine runs_interruptible_complete ?_ ending
  rw [budget]
  exact runs_tbitsPasses h (runs_passes_done (fun _ => rfl) limit)

theorem State.tbitsAt_below (h : TbitsRun s o a len k) (full : len + BitVec.ofNat 32 k ≠ s.reg 3)
    (past : a + k < (s.reg 4).toNat) :
    tbitsFull (s.tbitsAt o a len k) = false ∧ tbitsPast (s.tbitsAt o a len k) = false ∧
      tbitsAtLimit (s.tbitsAt o a len k) = false := by
  obtain ⟨bound, inside, -⟩ := h
  have short : tbitsFull (s.tbitsAt o a len k) = false := by rw [tbitsFull_at]; exact decide_eq_false full
  have before : tbitsPast (s.tbitsAt o a len k) = false := by
    rw [tbitsPast_at bound inside]
    exact decide_eq_false (by omega)
  refine ⟨short, before, ?_⟩
  rw [tbitsAtLimit, short, before]
  rfl

/-- At the desired bit the search ends. -/
theorem runs_tbitsLoop_found (h : TbitsRun s o a len k) (input : ∀ b ∈ s.suspend, k ≤ max b 1)
    (free : ¬∃ b, s.suspend = some b ∧ k = max b 1) (full : len + BitVec.ofNat 32 k ≠ s.reg 3)
    (past : a + k < (s.reg 4).toNat) (found : s.runBit (a + k) ≠ o) :
    let u := ((s.tbitsAt o a len k).putFlag .f (!o)).putFlag .l true
    Runs (tbitsLoop o) (s.tbitsAt o a len 0) () { u with pc := u.next (.tbits o) } := by
  intro u
  obtain ⟨short, before, go⟩ := State.tbitsAt_below h full past
  have ⟨bound, inside, _⟩ := h
  obtain ⟨-, -, more⟩ := passBudget_tbits (s := s.tbitsAt o a len 0) (k := k) (by omega) input
  obtain ⟨n, budget⟩ := more free
  have place := offset_at (s := s) (o := o) (a := a) (len := len) (m := k) bound inside
  have pass := runs_tbitsPass_last (o := o) (s := s.tbitsAt o a len k) (by rw [place]; omega)
    (by rw [place, State.tbitsAt_runBit]; exact found)
  refine runs_interruptible_complete ?_ (runs_tbitsEnd_found (s := u) short before)
  rw [budget]
  exact runs_tbitsPasses h (runs_passes_last (fun _ => rfl) go pass)

/-- Before the next bit the search is suspended. -/
theorem runs_tbitsLoop_held (h : TbitsRun s o a len k) (input : ∀ b ∈ s.suspend, k ≤ max b 1)
    (held : ∃ b, s.suspend = some b ∧ k = max b 1) (full : len + BitVec.ofNat 32 k ≠ s.reg 3)
    (past : a + k < (s.reg 4).toNat) : Runs (tbitsLoop o) (s.tbitsAt o a len 0) ()
      ((leaveTbits (s.tbitsAt o a len k)).jump (s.tbitsAt o a len k).pc) := by
  obtain ⟨-, -, go⟩ := State.tbitsAt_below h full past
  have ⟨bound, inside, _⟩ := h
  obtain ⟨-, whole, -⟩ := passBudget_tbits (s := s.tbitsAt o a len 0) (k := k) (by omega) input
  have stop := runs_passes_zero (pass := tbitsPass o) (done := tbitsAtLimit) (s := s.tbitsAt o a len k) fun _ => rfl
  rw [go] at stop
  refine runs_interruptible_suspended ?_ (fun _ => rfl) rfl
  rw [whole held]
  exact runs_tbitsPasses (n := 0) h stop

end

/-! ### The entry -/

/-- TBITS below its offset limit. -/
def tbitsSearch (o first : Bool) : M Unit := do
  change fun s => s.putFlag .f o
  if first && !Config.tbitsAccumulates then change fun s => s.setReg 2 0 else pure ()
  tbitsLoop o

/-- TBITS once its operands are found defined. -/
def tbitsEntered (o first : Bool) : M Unit := do
  change resumeTbits
  if ← look tbitsPast then
    change fun s => (s.putFlag .f o).putFlag .l false
    advance (.tbits o)
  else tbitsSearch o first

theorem exec_tbits_eq (o : Bool) (s : State) : exec (.tbits o) s = perform (.tbits o) (do
    let first ← look State.entersTbits
    tbitsDefined first
    tbitsEntered o first) s := rfl

/-- The run length that TBITS starts from. -/
def State.tbitsFrom (s : State) (first : Bool) : DWord := if first && !Config.tbitsAccumulates then 0 else s.reg 2

/-- Before the first bit. -/
theorem eq_tbitsAt_zero {s t : State} {o : Bool} {len : DWord}
    (other : ∀ x : Vector DWord 8, ({ t with regs := x } : State) = { s.putFlag .f o with regs := x })
    (r2 : t.reg 2 = len) (regs : ∀ q : RegNo, q ≠ 2 → t.reg q = s.reg q) : t = s.tbitsAt o (s.reg 1).toNat len 0 := by
  obtain ⟨a1, a2, as⟩ := State.tbitsAt_reg s o (s.reg 1).toNat len 0
  have kept {q : RegNo} (q1 : q ≠ 1) (q2 : q ≠ 2) : t.reg q = (s.tbitsAt o (s.reg 1).toNat len 0).reg q :=
    (regs q q2).trans (as q q1 q2).symm
  refine State.eq_of_reg (other _) (kept (by decide) (by decide)) ?_ ?_ fun q hq => ?_
  · rw [a1, Nat.add_zero, BitVec.ofNat_toNat, BitVec.setWidth_eq]
    exact regs 1 (by decide)
  · rw [a2, r2]
    exact (BitVec.add_zero len).symm
  · obtain ⟨q1, q2⟩ := regNo_cases hq
    exact kept q1 q2

theorem runs_tbitsSearch {s t : State} {o first : Bool}
    (h : Runs (tbitsLoop o) (s.tbitsAt o (s.reg 1).toNat (s.tbitsFrom first) 0) () t) : Runs (tbitsSearch o first) s () t := by
  unfold tbitsSearch
  unfold State.tbitsFrom at h
  refine runs_bind (runs_putFlag .f o s) ?_
  split
  · next zero =>
    have start : (s.putFlag .f o).setReg 2 0 = s.tbitsAt o (s.reg 1).toNat 0 0 :=
      eq_tbitsAt_zero (fun _ => rfl) (State.setReg_reg_same _ _ _)
        fun q hq => (State.setReg_reg_other _ _ _ _ hq.symm).trans (State.putFlag_reg _ _ _ _)
    rw [if_pos zero, ← start] at h
    exact runs_bind (runs_change (fun s => s.setReg 2 0) (s.putFlag .f o) (fun _ => rfl) rfl) h
  · next same =>
    have start : s.putFlag .f o = s.tbitsAt o (s.reg 1).toNat (s.reg 2) 0 :=
      eq_tbitsAt_zero (fun _ => rfl) (State.putFlag_reg _ _ _ _) fun q _ => State.putFlag_reg _ _ _ _
    rw [if_neg same, ← start] at h
    exact h

end Sys2Proof.Machine
end

section
/-! What TBITS leaves (49_graphics.md R465). -/
namespace Sys2Proof.Machine

open Sys2Proof.Safety

section

variable {s : State} {o : Bool}

/-- The state in which TBITS has taken its mark away. -/
def State.tbitsStart (s : State) : State := { s.begin with heldTbits := s.heldTbits.erase ⟨s.pc, s.reg 1, s.reg 2⟩ }

theorem runs_resumeTbits (s : State) : Runs (change resumeTbits) s.begin () s.tbitsStart :=
  runs_change resumeTbits s.begin (fun _ => rfl) rfl

theorem entersTbits_begin (s : State) : s.begin.entersTbits = true ↔ (⟨s.pc, s.reg 1, s.reg 2⟩ : TbitsMark) ∉ s.heldTbits :=
  State.entersTbits_iff s.begin

/-- A first entry with R2 not 0. -/
def TbitsFresh (s : State) : Prop := (⟨s.pc, s.reg 1, s.reg 2⟩ : TbitsMark) ∉ s.heldTbits ∧ s.reg 2 ≠ 0

theorem tbitsUndefined_iff (s : State) : ((s.begin.entersTbits = true ∧ s.reg 2 ≠ 0) ∨ 2 ^ 31 ≤ (s.reg 1).toNat ∨
    2 ^ 31 ≤ (s.reg 4).toNat) ↔ (TbitsFresh s ∨ 2 ^ 31 ≤ (s.reg 1).toNat ∨ 2 ^ 31 ≤ (s.reg 4).toNat) := by
  rw [entersTbits_begin]
  rfl

/-- An entry that R465 defines, or that operandPolicy lets run. -/
theorem completes_tbits {t : State} (hs : Answers s) (r1 : (s.reg 1).toNat < 2 ^ 31) (r4 : (s.reg 4).toNat < 2 ^ 31)
    (fresh : TbitsFresh s → s.operandPolicy = .free) (run : Runs (tbitsEntered o s.begin.entersTbits) s.begin () t)
    (mem : t.mem = s.mem) : Completes (.tbits o) s t none 0 := by
  have defined : Runs (tbitsDefined s.begin.entersTbits) s.begin () s.begin := by
    refine runs_tbitsDefined ?_
    by_cases h : TbitsFresh s
    · exact .inr (fresh h)
    · refine .inl fun undefined => ?_
      rcases (tbitsUndefined_iff s).mp undefined with f | f | f
      · exact h f
      · omega
      · omega
  exact completes_perform (exec_tbits_eq o s) rfl hs
    (runs_bind (runs_look State.entersTbits s.begin fun _ => rfl) (runs_bind defined run)) (frame_none mem 0)

theorem tbitsPast_start (r1 : (s.reg 1).toNat < 2 ^ 31) (r4 : (s.reg 4).toNat < 2 ^ 31) :
    tbitsPast s.tbitsStart = decide ((s.reg 4).toNat ≤ (s.reg 1).toNat) := offsetGe_eq r1 r4

theorem runs_tbitsFlags (o : Bool) (s : State) : Runs (change fun s => (s.putFlag .f o).putFlag .l false) s ()
    ((s.putFlag .f o).putFlag .l false) :=
  runs_change (fun s => (s.putFlag .f o).putFlag .l false) s (fun _ => rfl) rfl

/-- At an offset that is not below its limit. -/
theorem runs_tbitsEntered_past {first : Bool} (h : tbitsPast s.tbitsStart = true) : Runs (tbitsEntered o first) s.begin ()
    { ((s.tbitsStart.putFlag .f o).putFlag .l false) with pc := s.next (.tbits o) } := by
  have next : ((s.tbitsStart.putFlag .f o).putFlag .l false).next (.tbits o) = s.next (.tbits o) := by
    have pc : ((s.tbitsStart.putFlag .f o).putFlag .l false).pc = s.pc := rfl
    unfold State.next
    rw [pc]
  have past := runs_advance (.tbits o) ((s.tbitsStart.putFlag .f o).putFlag .l false)
  rw [next] at past
  refine runs_bind (runs_resumeTbits s) (runs_bind (runs_look tbitsPast s.tbitsStart fun _ => rfl) ?_)
  rw [if_pos h]
  exact runs_bind (runs_tbitsFlags o s.tbitsStart) past

theorem runs_tbitsEntered_search {first : Bool} {t : State} (h : tbitsPast s.tbitsStart = false)
    (run : Runs (tbitsLoop o) (s.tbitsStart.tbitsAt o (s.reg 1).toNat (s.tbitsStart.tbitsFrom first) 0) () t) :
    Runs (tbitsEntered o first) s.begin () t := by
  refine runs_bind (runs_resumeTbits s) (runs_bind (runs_look tbitsPast s.tbitsStart fun _ => rfl) ?_)
  rw [if_neg (by rw [h]; exact Bool.false_ne_true)]
  exact runs_tbitsSearch run

/-- The run length that TBITS starts from is R2, or 0 at a first entry with another. -/
theorem tbitsFrom_cases (s : State) : s.tbitsStart.tbitsFrom s.begin.entersTbits = s.reg 2 ∨
    TbitsFresh s ∧ s.tbitsStart.tbitsFrom s.begin.entersTbits = 0 := by
  unfold State.tbitsFrom
  split
  · next h =>
    by_cases zero : s.reg 2 = 0
    · exact .inl zero.symm
    · exact .inr ⟨⟨(entersTbits_begin s).mp (Bool.and_eq_true_iff.mp h).1, zero⟩, rfl⟩
  · exact .inl rfl

/-- The mark of a TBITS suspended after `k` bits. -/
theorem State.tbitsMark_at (u : State) (a : Nat) (len : DWord) (k : Nat) :
    (u.tbitsAt o a len k).tbitsMark = ⟨u.pc, BitVec.ofNat 32 (a + k), len + BitVec.ofNat 32 k⟩ := by
  obtain ⟨r1, r2, -⟩ := State.tbitsAt_reg u o a len k
  rw [State.tbitsMark, r1, r2]
  rfl

end

/-- Settles O43: bits equal to the option pass by, until a limit, the desired bit or an interrupt. -/
theorem testBitString : Obligations.TestBitString := by
  intro o s hs j r1 r4 mark fresh start
  refine ⟨fun undefined policy => ?_, fun small1 small4 defined => ⟨fun past => ?_, fun below => ?_⟩⟩
  · have refuses : Refuses (tbitsDefined s.begin.entersTbits) s.begin .tbitsEntry :=
      refuses_tbitsDefined ((tbitsUndefined_iff s).mpr undefined) policy
    show exec (.tbits o) s = _
    rw [exec_tbits_eq]
    exact perform_of_refuses rfl hs (refuses_after (runs_look State.entersTbits s.begin fun _ => rfl) (refuses_bind refuses))
  · have atLimit : tbitsPast s.tbitsStart = true := by
      rw [tbitsPast_start small1 small4]
      exact decide_eq_true past
    exact completes_tbits hs small1 small4 defined (runs_tbitsEntered_past atLimit) rfl
  · have go : tbitsPast s.tbitsStart = false := by
      rw [tbitsPast_start small1 small4]
      exact decide_eq_false (by omega)
    refine ⟨s.tbitsStart.tbitsFrom s.begin.entersTbits, tbitsFrom_cases s, ?_⟩
    intro k input inside equal a len full at_ ends held
    have run : TbitsRun s.tbitsStart o r1 (s.tbitsStart.tbitsFrom s.begin.entersTbits) k := ⟨small4, inside, equal⟩
    have complete {t : State} (mem : t.mem = s.mem) (h : Runs (tbitsLoop o) (s.tbitsStart.tbitsAt o r1
        (s.tbitsStart.tbitsFrom s.begin.entersTbits) 0) () t) : Completes j s t none 0 :=
      completes_tbits hs small1 small4 defined (runs_tbitsEntered_search go h) mem
    have fullAt : tbitsFull (at_ o) = decide full := tbitsFull_at
    have pastAt : tbitsPast (at_ o) = decide (r1 + k = r4) := tbitsPast_at small4 inside
    have limit (h : full ∨ r1 + k = r4) : tbitsAtLimit (at_ o) = true := by
      rw [tbitsAtLimit, fullAt, pastAt]
      simpa using h
    refine ⟨fun f p => ?_, fun f p => ?_, fun f p => ?_, fun f p free found => ?_, fun f p hold => ?_⟩
    · have ending := runs_tbitsEnd_full (s := at_ o) (fullAt.trans (decide_eq_true f))
          (pastAt.trans (decide_eq_false (by omega)))
      exact complete rfl (runs_tbitsLoop_limit run input (limit (.inl f)) ending)
    · have ending := runs_tbitsEnd_past (s := at_ o) (fullAt.trans (decide_eq_false f)) (pastAt.trans (decide_eq_true p))
      exact complete rfl (runs_tbitsLoop_limit run input (limit (.inr p)) ending)
    · obtain ⟨l, n, ending⟩ := runs_tbitsEnd_both (s := at_ o) (fullAt.trans (decide_eq_true f))
        (pastAt.trans (decide_eq_true p))
      exact ⟨l, n, complete rfl (runs_tbitsLoop_limit run input (limit (.inl f)) ending)⟩
    · have flag : (at_ o).putFlag .f (!o) = at_ (!o) := State.putFlag_same _ _ _ _
      have ending : Runs (tbitsLoop o) (s.tbitsStart.tbitsAt o r1 (s.tbitsStart.tbitsFrom s.begin.entersTbits) 0) ()
          { ((at_ o).putFlag .f (!o)).putFlag .l true with
            pc := (((at_ o).putFlag .f (!o)).putFlag .l true).next (.tbits o) } :=
        runs_tbitsLoop_found run input free f p found
      rw [flag] at ending
      exact complete rfl ending
    · have ending := runs_tbitsLoop_held run input hold f p
      rw [leaveTbits, State.tbitsMark_at] at ending
      exact complete rfl ending

end Sys2Proof.Machine
end

section
/-! EXTBLT (49_graphics.md R453 to R456): words and scan lines. The word that the BPU drives depends on the bus log. -/
namespace Sys2Proof.Machine

open Sys2Proof.Safety

/-! ### Parts that depend on the bus log -/

/-- Where memory answers, `x` runs from `s` to some state for which `p` holds. -/
def Leads {α : Type} (x : M α) (s : State) (p : α → State → Prop) : Prop :=
  Answers s → ∃ a t, x s = .ok a t ∧ Answers t ∧ p a t

section

variable {α β : Type} {x : M α} {f : α → M β} {s : State} {p : α → State → Prop} {q : β → State → Prop}

theorem leads_bind (h : Leads x s p) (k : ∀ a t, p a t → Leads (f a) t q) : Leads (x >>= f) s q := by
  intro hs
  obtain ⟨a, t, run, ht, holds⟩ := h hs
  obtain ⟨b, u, run', hu, holds'⟩ := k a t holds ht
  exact ⟨b, u, by rw [bind_apply, run]; exact run', hu, holds'⟩

theorem leads_of_runs {a : α} {t : State} (h : Runs x s a t) (k : ∀ b, p a (t.withBus b)) : Leads x s p := by
  intro hs
  obtain ⟨ht, run⟩ := h hs
  obtain ⟨b, e⟩ := run s.bus
  exact ⟨a, t.withBus b, e, answers_congr rfl ht, k b⟩

/-- A part that runs whatever the bus log is, and then one that depends on it. -/
theorem leads_after {a : α} {t : State} (h : Runs x s a t) (k : ∀ b, Leads (f a) (t.withBus b) q) :
    Leads (x >>= f) s q := by
  refine leads_bind (p := fun c u => c = a ∧ ∃ b, u = t.withBus b) (leads_of_runs h fun b => ⟨rfl, b, rfl⟩) ?_
  rintro c u ⟨rfl, b, rfl⟩
  exact k b

theorem leads_look {g : State → α} {f : α → M β} (h : Leads (f (g s)) s q) : Leads (look g >>= f) s q := h

theorem leads_change {g : State → State} {f : Unit → M β} (env : (g s).env = s.env) (h : Leads (f ()) (g s) q) :
    Leads (change g >>= f) s q :=
  leads_bind (p := fun _ t => t = g s) (fun hs => ⟨(), g s, rfl, answers_congr env hs, rfl⟩)
    (fun a t e => by subst e; exact h)

theorem leads_pure {a : α} (h : p a s) : Leads (pure a) s p := fun hs => ⟨a, s, rfl, hs, h⟩

theorem leads_mono {p' : α → State → Prop} (h : Leads x s p) (k : ∀ a t, p a t → p' a t) : Leads x s p' := by
  intro hs
  obtain ⟨a, t, run, ht, holds⟩ := h hs
  exact ⟨a, t, run, ht, k a t holds⟩

end

/-! ### What EXTBLT leaves -/

/-- From `s` to `t`, R0 and R1 have moved by `d0` and `d1`, R3 has lost `k`, memory differs at most where `apart` does not
hold, and besides them only R5, the supply of free values and the bus log can have changed. -/
structure ExtMoved (d0 d1 : DWord) (k : Nat) (apart : Addr → Prop) (s t : State) : Prop where
  r0 : t.reg 0 = s.reg 0 + d0
  r1 : t.reg 1 = s.reg 1 + d1
  r3 : t.reg 3 = s.reg 3 - BitVec.ofNat 32 k
  regs : ∀ q : RegNo, q ≠ 0 → q ≠ 1 → q ≠ 3 → q ≠ 5 → t.reg q = s.reg q
  rest : { t with regs := s.regs, mem := s.mem, draws := s.draws, bus := s.bus } = s
  mem : ∀ a, apart a → t.byteAt a = s.byteAt a

namespace ExtMoved

theorem trans {d0 d1 e0 e1 : DWord} {k m : Nat} {p q : Addr → Prop} {s u t : State} (h : ExtMoved d0 d1 k p s u)
    (h' : ExtMoved e0 e1 m q u t) : ExtMoved (d0 + e0) (d1 + e1) (k + m) (fun a => p a ∧ q a) s t where
  r0 := by rw [h'.r0, h.r0, BitVec.add_assoc]
  r1 := by rw [h'.r1, h.r1, BitVec.add_assoc]
  r3 := by rw [h'.r3, h.r3, BitVec.ofNat_add, sub_sub]
  regs x x0 x1 x3 x5 := (h'.regs x x0 x1 x3 x5).trans (h.regs x x0 x1 x3 x5)
  rest := by
    have both : ({ t with regs := s.regs, mem := s.mem, draws := s.draws, bus := s.bus } : State) =
      { ({ t with regs := u.regs, mem := u.mem, draws := u.draws, bus := u.bus } : State) with
        regs := s.regs, mem := s.mem, draws := s.draws, bus := s.bus } := rfl
    rw [both, h'.rest, h.rest]
  mem a ha := (h'.mem a ha.2).trans (h.mem a ha.1)

theorem mono {d0 d1 : DWord} {k : Nat} {p p' : Addr → Prop} {s t : State} (h : ExtMoved d0 d1 k p s t)
    (sub : ∀ a, p' a → p a) : ExtMoved d0 d1 k p' s t := { h with mem := fun a ha => h.mem a (sub a ha) }

/-- Something of a state that EXTBLT does not change. -/
theorem field {α : Type} {d0 d1 : DWord} {k : Nat} {p : Addr → Prop} {s t : State} (h : ExtMoved d0 d1 k p s t)
    (f : State → α) (same : f { t with regs := s.regs, mem := s.mem, draws := s.draws, bus := s.bus } = f t) : f t = f s :=
  same.symm.trans (congrArg f h.rest)

theorem withBus {d0 d1 : DWord} {k : Nat} {p : Addr → Prop} {s t : State} (h : ExtMoved d0 d1 k p s t)
    (b : List PinEvent) : ExtMoved d0 d1 k p s (t.withBus b) := ⟨h.r0, h.r1, h.r3, h.regs, h.rest, h.mem⟩

theorem refl (s : State) : ExtMoved 0 0 0 (fun _ => True) s s where
  r0 := by simp
  r1 := by simp
  r3 := by simp
  regs _ _ _ _ _ := rfl
  rest := rfl
  mem _ _ := rfl

end ExtMoved

/-- Registers stepped: R0 and R1 by `d0` and `d1`, and R5 by `d5`. -/
theorem State.reg_stepWord (s : State) (d0 d1 d5 : DWord) :
    let t := ((s.addReg 0 d0).addReg 1 d1).addReg 5 d5
    t.reg 0 = s.reg 0 + d0 ∧ t.reg 1 = s.reg 1 + d1 ∧ t.reg 5 = s.reg 5 + d5 ∧
    ∀ q : RegNo, q ≠ 0 → q ≠ 1 → q ≠ 5 → t.reg q = s.reg q := by
  refine ⟨?_, ?_, ?_, fun q q0 q1 q5 => ?_⟩
  · rw [State.addReg_reg_other _ _ (by decide), State.addReg_reg_other _ _ (by decide), State.addReg_reg_same]
  · rw [State.addReg_reg_other _ _ (by decide), State.addReg_reg_same, State.addReg_reg_other _ _ (by decide)]
  · rw [State.addReg_reg_same, State.addReg_reg_other _ _ (by decide), State.addReg_reg_other _ _ (by decide)]
  · rw [State.addReg_reg_other _ _ q5.symm, State.addReg_reg_other _ _ q1.symm, State.addReg_reg_other _ _ q0.symm]

/-! ### A word -/

theorem runs_extRead (a : Addr) (s : State) : Runs (extRead a) s () s :=
  runs_bind (runs_readMem _ _ _ _ _) (runs_pure _ _)

/-- The word that is stored: a free value, or what the BPU drives. -/
theorem leads_extWord (s : State) : Leads extWord s fun _ t => ∃ (d : Nat) (b : List PinEvent),
    t = ({ s with draws := d } : State).withBus b := by
  refine leads_look ?_
  split
  · exact leads_of_runs (runs_drawBits s 16) fun b => ⟨_, b, rfl⟩
  · exact fun hs => ⟨_, s, rfl, hs, s.draws, s.bus, rfl⟩

theorem leads_extWrite (a : Addr) (s : State) : Leads (extWrite a) s fun _ t => ∃ (v : Half) (d : Nat) (b : List PinEvent),
    t = (({ s with draws := d } : State).poke a 2 v).withBus b := by
  refine leads_bind (leads_extWord s) ?_
  rintro v t ⟨d, b, rfl⟩
  exact leads_of_runs (runs_writeMem a 2 v { bpu := true } _) fun b => ⟨v, d, b, rfl⟩

/-- One word of a scan line. -/
def extOne : M Unit := do
  extRead (← look fun s => s.ptr 0)
  extRead (← look fun s => s.ptr 1)
  extWrite (← look fun s => s.ptr 1)
  change fun s => ((s.addReg 0 (s.reg 4)).addReg 1 (s.reg 4)).addReg 5 (-2)

theorem extLine_succ (k : Nat) : extLine (k + 1) = (do extOne; extLine k) := by
  rw [extLine, extOne]
  simp only [bind_assoc]

theorem runs_stepWord (d : DWord) (s : State) : Runs (change fun s => ((s.addReg 0 (s.reg 4)).addReg 1 (s.reg 4)).addReg 5 d)
    s () (((s.addReg 0 (s.reg 4)).addReg 1 (s.reg 4)).addReg 5 d) :=
  runs_change (fun s => ((s.addReg 0 (s.reg 4)).addReg 1 (s.reg 4)).addReg 5 d) s (fun _ => rfl) rfl

theorem extMoved_word (s : State) (v : Half) (d : Nat) (b : List PinEvent) (e : DWord) :
    let u := (({ s with draws := d } : State).poke (s.ptr 1) 2 v).withBus b
    let t := ((u.addReg 0 (s.reg 4)).addReg 1 (s.reg 4)).addReg 5 e
    ExtMoved (s.reg 4) (s.reg 4) 0 (fun a => Outside a (s.ptr 1) 2) s t ∧ t.reg 5 = s.reg 5 + e := by
  intro u t
  obtain ⟨r0, r1, r5, regs⟩ := State.reg_stepWord u (s.reg 4) (s.reg 4) e
  refine ⟨⟨r0, r1, ?_, fun q q0 q1 _ q5 => regs q q0 q1 q5, rfl, fun a ha => ?_⟩, r5⟩
  · exact (regs 3 (by decide) (by decide) (by decide)).trans (BitVec.sub_zero _).symm
  · exact State.poke_byteAt_outside s (s.ptr 1) 2 v a ha

theorem State.withBus_reg (s : State) (b : List PinEvent) (r : RegNo) : (s.withBus b).reg r = s.reg r := rfl

/-- A word stored, whatever the bus log is. -/
theorem leads_extWrite_any (s : State) (b : List PinEvent) (a : Addr) : Leads (extWrite a) (s.withBus b)
    fun _ t => ∃ (v : Half) (d : Nat) (e : List PinEvent), t = (({ s with draws := d } : State).poke a 2 v).withBus e := by
  refine leads_mono (leads_extWrite a (s.withBus b)) ?_
  rintro - t ⟨v, d, e, rfl⟩
  exact ⟨v, d, e, rfl⟩

/-- The two words read and the one stored. -/
theorem leads_extTransfer (s : State) : Leads (do
      extRead (← look fun s => s.ptr 0)
      extRead (← look fun s => s.ptr 1)
      extWrite (← look fun s => s.ptr 1)) s fun _ t => ∃ (v : Half) (d : Nat) (e : List PinEvent),
    t = (({ s with draws := d } : State).poke (s.ptr 1) 2 v).withBus e := by
  have second (b : List PinEvent) : Runs (extRead (s.ptr 1)) (s.withBus b) () (s.withBus b) := runs_extRead _ _
  exact leads_look (leads_after (runs_extRead (s.ptr 0) s) fun b => leads_look (leads_after (second b) fun b' =>
    leads_look (leads_extWrite_any s b' (s.ptr 1))))

theorem extOne_eq : extOne = (do
    (do
      extRead (← look fun s => s.ptr 0)
      extRead (← look fun s => s.ptr 1)
      extWrite (← look fun s => s.ptr 1))
    change fun s => ((s.addReg 0 (s.reg 4)).addReg 1 (s.reg 4)).addReg 5 (-2)) := by
  rw [extOne]
  simp only [bind_assoc]

theorem leads_extOne (s : State) : Leads extOne s fun _ t =>
    ExtMoved (s.reg 4) (s.reg 4) 0 (fun a => Outside a (s.ptr 1) 2) s t ∧ t.reg 5 = s.reg 5 + -2 := by
  rw [extOne_eq]
  refine leads_bind (leads_extTransfer s) ?_
  rintro - u ⟨v, d, e, stored⟩
  obtain ⟨moved, r5⟩ := extMoved_word s v d e (-2)
  have step := runs_stepWord (-2) u
  have r4 : u.reg 4 = s.reg 4 := by rw [stored, State.withBus_reg, State.poke_reg]; rfl
  rw [r4] at step
  rw [← stored] at moved r5
  exact leads_of_runs step fun b => ⟨moved.withBus b, (State.withBus_reg _ b 5).trans r5⟩

/-- The words of a scan line: `k` words from the destination pointer on, `r4` apart. -/
def ApartFrom (p r4 : DWord) (k : Nat) (a : Addr) : Prop :=
  ∀ m < k, Outside a ((p + BitVec.ofNat 32 m * r4).setWidth 24) 2

theorem ApartFrom.first {p r4 : DWord} {k : Nat} {a : Addr} (h : ApartFrom p r4 (k + 1) a) : Outside a (p.setWidth 24) 2 := by
  have first := h 0 (Nat.succ_pos k)
  have here : p + BitVec.ofNat 32 0 * r4 = p := by simp
  rwa [here] at first

theorem ApartFrom.next {p r4 : DWord} {k : Nat} {a : Addr} (h : ApartFrom p r4 (k + 1) a) : ApartFrom (p + r4) r4 k a := by
  intro m hm
  have next := h (m + 1) (by omega)
  rwa [← one_step_more, ← BitVec.add_assoc] at next

theorem leads_extLine (k : Nat) (s : State) : Leads (extLine k) s fun _ t =>
    ExtMoved (BitVec.ofNat 32 k * s.reg 4) (BitVec.ofNat 32 k * s.reg 4) 0 (ApartFrom (s.reg 1) (s.reg 4) k) s t ∧
      t.reg 5 = s.reg 5 - 2 * BitVec.ofNat 32 k := by
  induction k generalizing s with
  | zero =>
    have still : BitVec.ofNat 32 0 * s.reg 4 = 0 := BitVec.zero_mul
    refine leads_pure ⟨?_, (BitVec.sub_zero _).symm⟩
    rw [still]
    exact (ExtMoved.refl s).mono fun _ _ => trivial
  | succ k ih =>
    rw [extLine_succ]
    refine leads_bind (leads_extOne s) ?_
    rintro - u ⟨moved, r5⟩
    refine leads_mono (ih u) ?_
    rintro - t ⟨moved', r5'⟩
    have r4 : u.reg 4 = s.reg 4 := moved.regs 4 (by decide) (by decide) (by decide) (by decide)
    have both := moved.trans moved'
    rw [r4, one_step_more, moved.r1] at both
    refine ⟨both.mono fun a ha => ⟨ha.first, ha.next⟩, ?_⟩
    have two : (2 : DWord) * BitVec.ofNat 32 1 = 2 := rfl
    rw [r5', r5, BitVec.ofNat_add, mul_add, two]
    ring

/-! ### A scan line -/

/-- The first source word, read unless L is set. -/
def extAhead : M Unit := do
  if ← look fun s => s.flag .l then pure ()
  else
    extRead (← look fun s => s.ptr 0)
    change fun s => s.addReg 0 (s.reg 4)

/-- The words of a scan line and the step to the next one. -/
def extRest : M Bool := do
  extLine (← look extWords)
  change fun s => ((s.addReg 0 (s.reg 6)).addReg 1 (s.reg 7)).addReg 3 (-1)
  return false

theorem extPass_eq : extPass = (do
    change fun s => s.setReg 5 (s.reg 2)
    extAhead
    extRest) := by
  unfold extPass extAhead extRest
  simp only [bind_assoc]
  refine congrArg _ (funext fun _ => congrArg _ (funext fun l => ?_))
  split
  · rfl
  · simp only [bind_assoc]

end Sys2Proof.Machine
end

section
/-! EXTBLT (49_graphics.md R453 to R456): its scan lines. -/
namespace Sys2Proof.Machine

open Sys2Proof.Safety

/-! ### A scan line -/

/-- How far a scan line moves R0 (R454): the source word read ahead unless L is set counts. -/
def State.extMove0 (s : State) : DWord :=
  BitVec.ofNat 32 (extWords s + if s.flag .l then 0 else 1) * s.reg 4 + s.reg 6

/-- How far a scan line moves R1 (R454). -/
def State.extMove1 (s : State) : DWord := BitVec.ofNat 32 (extWords s) * s.reg 4 + s.reg 7

theorem extWords_congr {s t : State} (r2 : t.reg 2 = s.reg 2) (r4 : t.reg 4 = s.reg 4) : extWords t = extWords s := by
  unfold extWords extStepOk
  rw [r2, r4]

section

variable (s : State)

theorem extMoved_setReg (v : DWord) : ExtMoved 0 0 0 (fun _ => True) s (s.setReg 5 v) where
  r0 := (State.setReg_reg_other s 5 0 v (by decide)).trans (BitVec.add_zero _).symm
  r1 := (State.setReg_reg_other s 5 1 v (by decide)).trans (BitVec.add_zero _).symm
  r3 := (State.setReg_reg_other s 5 3 v (by decide)).trans (BitVec.sub_zero _).symm
  regs _ _ _ _ q5 := State.setReg_reg_other s 5 _ v q5.symm
  rest := rfl
  mem _ _ := rfl

theorem extMoved_addReg (v : DWord) : ExtMoved v 0 0 (fun _ => True) s (s.addReg 0 v) where
  r0 := State.addReg_reg_same s 0 v
  r1 := (State.addReg_reg_other s v (by decide)).trans (BitVec.add_zero _).symm
  r3 := (State.addReg_reg_other s v (by decide)).trans (BitVec.sub_zero _).symm
  regs _ q0 _ _ _ := State.addReg_reg_other s v q0.symm
  rest := rfl
  mem _ _ := rfl

theorem extMoved_stepLine (d0 d1 : DWord) :
    ExtMoved d0 d1 1 (fun _ => True) s (((s.addReg 0 d0).addReg 1 d1).addReg 3 (-1)) := by
  obtain ⟨r0, r1, r3, regs⟩ := State.reg_stepLine s d0 d1 (-1)
  exact ⟨r0, r1, r3.trans (BitVec.sub_eq_add_neg _ _).symm, fun q q0 q1 q3 _ => regs q q0 q1 q3, rfl, fun _ _ => rfl⟩

theorem runs_addReg (r q : RegNo) : Runs (change fun s => s.addReg r (s.reg q)) s () (s.addReg r (s.reg q)) :=
  runs_change (fun s => s.addReg r (s.reg q)) s (fun _ => rfl) rfl

/-- The source word read ahead. -/
theorem leads_extAhead : Leads extAhead s fun _ t =>
    ExtMoved (BitVec.ofNat 32 (if s.flag .l then 0 else 1) * s.reg 4) 0 0 (fun _ => True) s t ∧ t.reg 5 = s.reg 5 := by
  refine leads_look ?_
  cases l : s.flag .l with
  | true =>
    have still : BitVec.ofNat 32 0 * s.reg 4 = 0 := BitVec.zero_mul
    rw [if_pos rfl, if_pos rfl, still]
    exact leads_pure ⟨ExtMoved.refl s, rfl⟩
  | false =>
    have once : BitVec.ofNat 32 1 * s.reg 4 = s.reg 4 := BitVec.one_mul _
    have run : Runs (do
        extRead (← look fun s => s.ptr 0)
        change fun s => s.addReg 0 (s.reg 4)) s () (s.addReg 0 (s.reg 4)) :=
      runs_bind (runs_look (fun s => s.ptr 0) s fun _ => rfl) (runs_bind (runs_extRead _ _) (runs_addReg s 0 4))
    rw [if_neg Bool.false_ne_true, if_neg Bool.false_ne_true, once]
    exact leads_of_runs run fun b => ⟨(extMoved_addReg s (s.reg 4)).withBus b,
      (State.withBus_reg _ b 5).trans (State.addReg_reg_other s (s.reg 4) (by decide))⟩

theorem leads_extRest : Leads extRest s fun b t => b = false ∧
    ExtMoved (BitVec.ofNat 32 (extWords s) * s.reg 4 + s.reg 6) s.extMove1 1 (ApartFrom (s.reg 1) (s.reg 4) (extWords s)) s t ∧
    t.reg 5 = s.reg 5 - 2 * BitVec.ofNat 32 (extWords s) := by
  refine leads_look (leads_bind (leads_extLine (extWords s) s) ?_)
  rintro - u ⟨moved, r5⟩
  have r6 : u.reg 6 = s.reg 6 := moved.regs 6 (by decide) (by decide) (by decide) (by decide)
  have r7 : u.reg 7 = s.reg 7 := moved.regs 7 (by decide) (by decide) (by decide) (by decide)
  have whole := moved.trans (extMoved_stepLine u (u.reg 6) (u.reg 7))
  have run : Runs (do
      change fun s => ((s.addReg 0 (s.reg 6)).addReg 1 (s.reg 7)).addReg 3 (-1)
      return false) u false (((u.addReg 0 (u.reg 6)).addReg 1 (u.reg 7)).addReg 3 (-1)) :=
    runs_bind (runs_stepLine (-1) u) (runs_pure _ _)
  rw [r6, r7] at whole run
  obtain ⟨-, -, -, regs⟩ := State.reg_stepLine u (s.reg 6) (s.reg 7) (-1)
  refine leads_of_runs run fun b => ⟨rfl, (whole.withBus b).mono fun a ha => ⟨ha, trivial⟩, ?_⟩
  exact (State.withBus_reg _ b 5).trans ((regs 5 (by decide) (by decide) (by decide)).trans r5)

/-- A scan line of EXTBLT. -/
theorem leads_extPass : Leads extPass s fun b t => b = false ∧
    ExtMoved s.extMove0 s.extMove1 1 (ApartFrom (s.reg 1) (s.reg 4) (extWords s)) s t ∧
    t.reg 5 = s.reg 2 - 2 * BitVec.ofNat 32 (extWords s) := by
  rw [extPass_eq]
  have width := extMoved_setReg s (s.reg 2)
  refine leads_change (g := fun s => s.setReg 5 (s.reg 2)) rfl (leads_bind (leads_extAhead (s.setReg 5 (s.reg 2))) ?_)
  rintro - u ⟨ahead, r5⟩
  refine leads_mono (leads_extRest u) ?_
  rintro b t ⟨go, line, r5'⟩
  have start := width.trans ahead
  have same {q : RegNo} (q0 : q ≠ 0) (q1 : q ≠ 1) (q3 : q ≠ 3) (q5 : q ≠ 5) : u.reg q = s.reg q :=
    start.regs q q0 q1 q3 q5
  have r4 : (s.setReg 5 (s.reg 2)).reg 4 = s.reg 4 := State.setReg_reg_other s 5 4 _ (by decide)
  have four : u.reg 4 = s.reg 4 := same (by decide) (by decide) (by decide) (by decide)
  have words : extWords u = extWords s := extWords_congr (same (by decide) (by decide) (by decide) (by decide)) four
  have one : u.reg 1 = s.reg 1 := start.r1.trans (BitVec.add_zero _)
  have move1 : u.extMove1 = s.extMove1 := by
    rw [State.extMove1, State.extMove1, words, four, same (q := 7) (by decide) (by decide) (by decide) (by decide)]
  have move0 (c : Nat) : 0 + BitVec.ofNat 32 c * s.reg 4 + (BitVec.ofNat 32 (extWords s) * s.reg 4 + s.reg 6) =
      BitVec.ofNat 32 (extWords s + c) * s.reg 4 + s.reg 6 := by
    rw [BitVec.ofNat_add]
    ring
  have whole := start.trans line
  rw [words, four, one, move1, r4, same (q := 6) (by decide) (by decide) (by decide) (by decide), move0] at whole
  refine ⟨go, ?_, ?_⟩
  · have move : (0 : DWord) + 0 + s.extMove1 = s.extMove1 := by ring
    rw [move, State.setReg_flag] at whole
    exact whole.mono fun a ha => ⟨⟨trivial, trivial⟩, ha⟩
  · rw [r5', r5, State.setReg_reg_same, words]

end

/-! ### Scan lines -/

section

variable {s : State}

/-- The words of `k` scan lines. -/
def ApartLines (s : State) (k : Nat) (a : Addr) : Prop :=
  ∀ i < k, ApartFrom (s.reg 1 + BitVec.ofNat 32 i * s.extMove1) (s.reg 4) (extWords s) a

/-- What scan lines leave for the next one as it was. -/
theorem ExtMoved.same_moves {d0 d1 : DWord} {k : Nat} {p : Addr → Prop} {t : State} (h : ExtMoved d0 d1 k p s t) :
    t.reg 2 = s.reg 2 ∧ t.reg 4 = s.reg 4 ∧ extWords t = extWords s ∧ t.extMove0 = s.extMove0 ∧ t.extMove1 = s.extMove1 := by
  have r2 : t.reg 2 = s.reg 2 := h.regs 2 (by decide) (by decide) (by decide) (by decide)
  have r4 : t.reg 4 = s.reg 4 := h.regs 4 (by decide) (by decide) (by decide) (by decide)
  have r6 : t.reg 6 = s.reg 6 := h.regs 6 (by decide) (by decide) (by decide) (by decide)
  have r7 : t.reg 7 = s.reg 7 := h.regs 7 (by decide) (by decide) (by decide) (by decide)
  have l : t.flag .l = s.flag .l := h.field (fun s => s.flag .l) rfl
  have words := extWords_congr r2 r4
  refine ⟨r2, r4, words, ?_, ?_⟩
  · rw [State.extMove0, State.extMove0, words, r4, r6, l]
  · rw [State.extMove1, State.extMove1, words, r4, r7]

theorem leads_extPasses {k : Nat} (hk : k ≤ (s.reg 3).toNat) :
    Leads (passes (fun s => s.reg 3 == 0) extPass k) s fun b t => b = decide (k = (s.reg 3).toNat) ∧
      ExtMoved (BitVec.ofNat 32 k * s.extMove0) (BitVec.ofNat 32 k * s.extMove1) k (ApartLines s k) s t ∧
      t.reg 5 = (if k = 0 then s.reg 5 else s.reg 2 - 2 * BitVec.ofNat 32 (extWords s)) := by
  induction k generalizing s with
  | zero =>
    have stop := runs_passes_zero (pass := extPass) (done := fun s => s.reg 3 == 0) (s := s) fun _ => rfl
    have zero : ((s.reg 3).toNat = 0) ↔ (0 = (s.reg 3).toNat) := eq_comm
    have still (d : DWord) : BitVec.ofNat 32 0 * d = 0 := BitVec.zero_mul
    rw [countReg_eq, decide_eq_decide.mpr zero] at stop
    rw [still, still]
    exact leads_of_runs stop fun b =>
      ⟨rfl, ((ExtMoved.refl s).mono fun _ _ => trivial).withBus b, rfl⟩
  | succ k ih =>
    have left : (s.reg 3).toNat ≠ 0 := by omega
    have go : (s.reg 3 == 0) = false := by rw [countReg_eq]; exact decide_eq_false left
    have count := toNat_sub_one left
    refine leads_look ?_
    rw [go, if_neg Bool.false_ne_true]
    refine leads_bind (leads_extPass s) ?_
    rintro b u ⟨rfl, moved, r5⟩
    rw [if_neg Bool.false_ne_true]
    have lost : u.reg 3 = s.reg 3 + -1 := moved.r3.trans (BitVec.sub_eq_add_neg _ _)
    rw [← lost] at count
    refine leads_mono (ih (s := u) (by omega)) ?_
    rintro b t ⟨complete, moved', r5'⟩
    obtain ⟨r2, r4, words, move0, move1⟩ := moved.same_moves
    have same : (k = (u.reg 3).toNat) ↔ (k + 1 = (s.reg 3).toNat) := by omega
    rw [decide_eq_decide.mpr same] at complete
    refine ⟨complete, ?_, ?_⟩
    · have both := moved.trans moved'
      rw [move0, move1, one_step_more, one_step_more, Nat.add_comm 1 k] at both
      refine both.mono fun a ha => ⟨?_, fun i hi => ?_⟩
      · have first := ha 0 (Nat.succ_pos k)
        have here : s.reg 1 + BitVec.ofNat 32 0 * s.extMove1 = s.reg 1 := by simp
        rwa [here] at first
      · have next := ha (i + 1) (by omega)
        rw [← one_step_more, ← BitVec.add_assoc, ← moved.r1] at next
        rw [words, r4, move1]
        exact next
    · rw [if_neg (Nat.succ_ne_zero k), r5', r2, words, r5, ite_self]

end

end Sys2Proof.Machine
end

section
/-! EXTBLT (49_graphics.md R453 to R456): how it ends, is suspended or is refused. -/
namespace Sys2Proof.Machine

open Sys2Proof.Safety

/-! ### What is refused -/

theorem extStepOk_iff (s : State) : extStepOk s = true ↔ s.reg 4 = 2 ∨ s.reg 4 = -2 := by
  simp only [extStepOk, Bool.or_eq_true, beq_iff_eq]

section

variable {s : State}

/-- The check of the increment. -/
def extStepDefined : M Unit := do
  if ← look extStepOk then pure () else refusable .extbltStep

theorem refusable_free (r : Refusal) (free : s.operandPolicy = .free) : refusable r s = .ok () s := by
  rw [refusable_apply, free]

theorem extStepDefined_ok (h : (s.reg 4 = 2 ∨ s.reg 4 = -2) ∨ s.operandPolicy = .free) : extStepDefined s = .ok () s := by
  show (if extStepOk s = true then pure () else refusable .extbltStep : M Unit) s = _
  split
  · rfl
  · next bad => exact refusable_free .extbltStep (h.resolve_left fun ok => bad ((extStepOk_iff s).mpr ok))

/-- Nothing changes while the operands are checked. -/
theorem extDefined_ok (h : s.bpu = .attached ∧ (s.reg 4 = 2 ∨ s.reg 4 = -2) ∨ s.operandPolicy = .free) :
    extDefined s = .ok () s := by
  have step := extStepDefined_ok (h.imp And.right id)
  show (if (s.bpu == .absent) = true then (do refusable .bpuAbsent; extStepDefined) else extStepDefined : M Unit) s = _
  split
  · next absent =>
    have free : s.operandPolicy = .free := by
      refine h.resolve_left fun ⟨attached, _⟩ => ?_
      rw [attached] at absent
      cases absent
    rw [bind_apply, refusable_free .bpuAbsent free]
    exact step
  · exact step

theorem refuses_extDefined_bpu (policy : s.operandPolicy = .refuse) (absent : s.bpu = .absent) :
    Refuses extDefined s .bpuAbsent := by
  refine refuses_after (runs_look (fun s => s.bpu == .absent) s fun _ => rfl) ?_
  rw [if_pos (by rw [absent]; rfl)]
  exact refuses_bind (refuses_refusable .bpuAbsent policy)

theorem refuses_extDefined_step (policy : s.operandPolicy = .refuse) (attached : s.bpu = .attached)
    (h : ¬(s.reg 4 = 2 ∨ s.reg 4 = -2)) : Refuses extDefined s .extbltStep := by
  refine refuses_after (runs_look (fun s => s.bpu == .absent) s fun _ => rfl) ?_
  rw [if_neg (by rw [attached]; decide)]
  refine refuses_after (runs_look extStepOk s fun _ => rfl) ?_
  rw [if_neg (fun ok => h ((extStepOk_iff s).mp ok))]
  exact refuses_refusable .extbltStep policy

end

/-! ### The instruction -/

/-- The end of EXTBLT: B is cleared, and R2 and R5 are free values. -/
def extEnd : M Unit := do
  let x ← drawBits 32
  let y ← drawBits 32
  change fun s => ((s.putFlag .b false).setReg 2 x).setReg 5 y

/-- EXTBLT once its operands are found defined. -/
def extRun : M Unit := do
  change fun s => s.putFlag .b true
  let count ← look fun s => (s.reg 3).toNat
  interruptible .extblt id 1 count (fun s => s.reg 3 == 0) extPass extEnd

theorem exec_extblt_eq (s : State) : exec .extblt s = perform .extblt (do
    extDefined
    extRun) s := rfl

theorem runs_extEnd (s : State) : ∃ (x y : DWord) (d : Nat),
    Runs extEnd s () (((({ s with draws := d } : State).putFlag .b false).setReg 2 x).setReg 5 y) := by
  have free (x y : DWord) (u : State) : Runs (change fun s => ((s.putFlag .b false).setReg 2 x).setReg 5 y) u ()
      (((u.putFlag .b false).setReg 2 x).setReg 5 y) :=
    runs_change (fun s => ((s.putFlag .b false).setReg 2 x).setReg 5 y) u (fun _ => rfl) rfl
  exact ⟨_, _, _, runs_bind (runs_drawBits s 32) (runs_bind (runs_drawBits { s with draws := s.draws + 1 } 32)
    (free _ _ { s with draws := s.draws + 1 + 1 }))⟩

/-- What EXTBLT leaves, by the scan lines made. -/
def ExtLeft (s u : State) : Prop :=
  let count := (s.reg 3).toNat
  let k := s.allowedBetween count
  let start := s.begin.putFlag .b true
  ∃ t, ExtMoved (BitVec.ofNat 32 k * start.extMove0) (BitVec.ofNat 32 k * start.extMove1) k (ApartLines start k) start t ∧
    t.reg 5 = (if k = 0 then start.reg 5 else start.reg 2 - 2 * BitVec.ofNat 32 (extWords start)) ∧
    if k = count then ∃ (x y : DWord) (d : Nat), Agree u { (((({ t with draws := d } : State).putFlag .b false).setReg 2
      x).setReg 5 y) with pc := s.next .extblt }
    else Agree u (t.jump s.pc)

theorem leads_extRun (s : State) : Leads extRun s.begin fun _ u => ExtLeft s u := by
  have count : (s.begin.putFlag .b true).reg 3 = s.reg 3 := State.putFlag_reg _ _ _ _
  have budget : (s.begin.putFlag .b true).passBudget 1 (s.reg 3).toNat = s.allowedBetween (s.reg 3).toNat :=
    State.passBudget_one s _
  refine leads_change (g := fun s => s.putFlag .b true) rfl (leads_look ?_)
  rw [count, interruptible_eq]
  refine leads_look ?_
  rw [budget]
  refine leads_bind (leads_extPasses (by rw [count]; exact State.allowedBetween_le _ _)) ?_
  rintro b t ⟨rfl, moved, r5⟩
  have pc : t.pc = s.pc := moved.field State.pc rfl
  have next : t.next .extblt = s.next .extblt := by unfold State.next; rw [pc]
  rw [count]
  split
  · next all =>
    obtain ⟨x, y, d, ending⟩ := runs_extEnd t
    have later : ((((({ t with draws := d } : State).putFlag .b false).setReg 2 x).setReg 5 y).next .extblt) =
        s.next .extblt := next
    have past := runs_advance .extblt (((({ t with draws := d } : State).putFlag .b false).setReg 2 x).setReg 5 y)
    rw [later] at past
    have run : Runs (do extEnd; advance .extblt) t () _ := runs_bind ending past
    refine leads_of_runs run fun b => ⟨t, moved, r5, ?_⟩
    rw [if_pos (of_decide_eq_true all)]
    exact ⟨x, y, d, rfl⟩
  · next part =>
    have suspend := runs_change (fun s => (id s).jump s.pc) t (fun _ => rfl) rfl
    refine leads_of_runs suspend fun b => ⟨t, moved, r5, ?_⟩
    rw [if_neg (fun all => part (decide_eq_true all)), ← pc]
    rfl

end Sys2Proof.Machine
end

section
/-! EXTBLT (49_graphics.md R453 to R456): the state it leaves. -/
namespace Sys2Proof.Machine

open Sys2Proof.Safety

section

variable {s t : State} {d0 d1 : DWord} {k : Nat} {p : Addr → Prop}

/-- The pointers and the count after `k` scan lines that move them by `d0` and `d1`. -/
def State.extLines (s : State) (k : Nat) (d0 d1 : DWord) : State :=
  ((s.begin.setReg 0 (s.reg 0 + BitVec.ofNat 32 k * d0)).setReg 1 (s.reg 1 + BitVec.ofNat 32 k * d1)).setReg 3
    (s.reg 3 - BitVec.ofNat 32 k)

theorem State.extLines_reg (s : State) (k : Nat) (d0 d1 : DWord) :
    (s.extLines k d0 d1).reg 0 = s.reg 0 + BitVec.ofNat 32 k * d0 ∧
    (s.extLines k d0 d1).reg 1 = s.reg 1 + BitVec.ofNat 32 k * d1 ∧
    (s.extLines k d0 d1).reg 3 = s.reg 3 - BitVec.ofNat 32 k ∧
    ∀ q : RegNo, q ≠ 0 → q ≠ 1 → q ≠ 3 → (s.extLines k d0 d1).reg q = s.reg q := by
  unfold State.extLines
  refine ⟨?_, ?_, ?_, fun q q0 q1 q3 => ?_⟩
  · rw [State.setReg_reg_other _ _ _ _ (by decide), State.setReg_reg_other _ _ _ _ (by decide), State.setReg_reg_same]
  · rw [State.setReg_reg_other _ _ _ _ (by decide), State.setReg_reg_same]
  · rw [State.setReg_reg_same]
  · rw [State.setReg_reg_other _ _ _ _ q3.symm, State.setReg_reg_other _ _ _ _ q1.symm,
      State.setReg_reg_other _ _ _ _ q0.symm, State.begin_reg]

/-- A state with R5, memory, the supply of free values and the bus log of `t`. -/
def State.extFrom (u t : State) : State :=
  { u.setReg 5 (t.reg 5) with mem := t.mem, draws := t.draws, bus := t.bus }

/-- The state after `k` scan lines. -/
theorem eq_extLines (moved : ExtMoved (BitVec.ofNat 32 k * d0) (BitVec.ofNat 32 k * d1) k p (s.begin.putFlag .b true) t) :
    t = ((s.extLines k d0 d1).putFlag .b true).extFrom t := by
  obtain ⟨r0, r1, r3, regs, rest, -⟩ := moved
  obtain ⟨l0, l1, l3, ls⟩ := State.extLines_reg s k d0 d1
  have other (x : Vector DWord 8) : ({ t with regs := x } : State) =
      { (s.begin.putFlag .b true) with regs := x, mem := t.mem, draws := t.draws, bus := t.bus } := by
    have same := congrArg (fun u : State => ({ u with regs := x, mem := t.mem, draws := t.draws, bus := t.bus } : State)) rest
    exact same
  have kept {q : RegNo} (q5 : q ≠ 5) : (((s.extLines k d0 d1).putFlag .b true).extFrom t).reg q = (s.extLines k d0 d1).reg q :=
    State.setReg_reg_other _ _ _ _ q5.symm
  have rest {q : RegNo} (q0 : q ≠ 0) (q1 : q ≠ 1) (q3 : q ≠ 3) :
      t.reg q = (((s.extLines k d0 d1).putFlag .b true).extFrom t).reg q := by
    by_cases q5 : q = 5
    · subst q5
      exact (State.setReg_reg_same ((s.extLines k d0 d1).putFlag .b true) 5 (t.reg 5)).symm
    · rw [kept q5, ls q q0 q1 q3]
      exact regs q q0 q1 q3 q5
  refine State.eq_of_reg (other _) ?_ ?_ (rest (by decide) (by decide) (by decide)) fun q hq => ?_
  · rw [kept (by decide), l0]
    exact r0
  · rw [kept (by decide), l1]
    exact r1
  · by_cases q3 : q = 3
    · subst q3
      rw [kept (by decide), l3]
      exact r3
    · have apart (r : RegNo) (hr : r.toNat < 3) : q ≠ r := fun e => by subst e; omega
      exact rest (apart 0 (by decide)) (apart 1 (by decide)) q3

end

/-- R2 and R5 written: what R5 was does not matter. -/
theorem State.setReg_two_five (s : State) (v x y : DWord) :
    ((s.setReg 5 v).setReg 2 x).setReg 5 y = (s.setReg 2 x).setReg 5 y := by
  have reg (q : RegNo) : (((s.setReg 5 v).setReg 2 x).setReg 5 y).reg q = ((s.setReg 2 x).setReg 5 y).reg q := by
    by_cases q5 : q = 5
    · rw [q5, State.setReg_reg_same, State.setReg_reg_same]
    · rw [State.setReg_reg_other _ _ _ _ (Ne.symm q5), State.setReg_reg_other _ 5 q y (Ne.symm q5)]
      by_cases q2 : q = 2
      · rw [q2, State.setReg_reg_same, State.setReg_reg_same]
      · rw [State.setReg_reg_other _ _ _ _ (Ne.symm q2), State.setReg_reg_other _ _ _ _ (Ne.symm q5),
          State.setReg_reg_other _ _ _ _ (Ne.symm q2)]
  exact State.eq_of_reg rfl (reg 0) (reg 1) (reg 2) fun q _ => reg q

/-- The end of EXTBLT after scan lines. -/
theorem State.extFrom_end (u t : State) (d : Nat) (x y : DWord) (a : Addr) :
    Agree { (((({ (u.putFlag .b true).extFrom t with draws := d } : State).putFlag .b false).setReg 2 x).setReg 5 y)
        with pc := a }
      { (((u.putFlag .b false).setReg 2 x).setReg 5 y) with mem := t.mem, pc := a, draws := d } := by
  have flags : ((u.putFlag .b true).setReg 5 (t.reg 5)).putFlag .b false = (u.putFlag .b false).setReg 5 (t.reg 5) :=
    congrArg (fun u : State => u.setReg 5 (t.reg 5)) (State.putFlag_same u .b true false)
  have whole : ((((u.putFlag .b true).setReg 5 (t.reg 5)).putFlag .b false).setReg 2 x).setReg 5 y =
      ((u.putFlag .b false).setReg 2 x).setReg 5 y := by rw [flags, State.setReg_two_five]
  exact congrArg (fun u : State => ({ u with mem := t.mem, pc := a, draws := d, bus := u.bus } : State)) whole

/-! ### The statement -/

section

variable {s : State}

/-- The words of a scan line, by the increment. -/
theorem extWords_start (s : State) : extWords (s.begin.putFlag .b true) =
    if s.reg 4 = 2 ∨ s.reg 4 = -2 then (((s.reg 2).toInt + 1) / 2).toNat else Config.extbltWords (s.reg 2) (s.reg 4) := by
  have same : extWords (s.begin.putFlag .b true) = extWords s := extWords_congr (State.putFlag_reg _ _ _ _)
      (State.putFlag_reg _ _ _ _)
  rw [same, extWords]
  by_cases h : s.reg 4 = 2 ∨ s.reg 4 = -2
  · rw [if_pos h, if_pos ((extStepOk_iff s).mpr h)]
  · rw [if_neg h, if_neg fun ok => h ((extStepOk_iff s).mp ok)]

theorem extMove0_start (s : State) : (s.begin.putFlag .b true).extMove0 =
    BitVec.ofNat 32 (extWords (s.begin.putFlag .b true) + if s.flag .l then 0 else 1) * s.reg 4 + s.reg 6 := by
  have l : (s.begin.putFlag .b true).flag .l = s.flag .l := by
    rw [State.putFlag_flag, if_neg (by decide), State.begin_flag, if_neg (by decide)]
  rw [State.extMove0, l, State.putFlag_reg, State.putFlag_reg]
  rfl

theorem extMove1_start (s : State) : (s.begin.putFlag .b true).extMove1 =
    BitVec.ofNat 32 (extWords (s.begin.putFlag .b true)) * s.reg 4 + s.reg 7 := by
  rw [State.extMove1, State.putFlag_reg, State.putFlag_reg]
  rfl

/-- EXTBLT that is not refused, by its scan lines. -/
theorem next_extblt (hs : Answers s) (h : s.bpu = .attached ∧ (s.reg 4 = 2 ∨ s.reg 4 = -2) ∨ s.operandPolicy = .free) :
    ∃ u, exec .extblt s = .next u ∧ ExtLeft s u := by
  obtain ⟨r, u, run, -, left⟩ := leads_extRun s (answers_congr rfl hs)
  have whole : (do extDefined; extRun) s.begin = .ok () u := by
    rw [bind_apply, extDefined_ok (s := s.begin) h]
    exact run
  refine ⟨u, ?_, left⟩
  have wf : (Instr.extblt).check = none := rfl
  simp only [exec_extblt_eq, perform, wf, whole, finish, settle]

end

/-- Settles O41: scan line by scan line, the pointers move, R3 counts down, and only destination words are stored to. -/
theorem externalBlockTransfer : Obligations.ExternalBlockTransfer := by
  intro s hs r4 defined w first line0 line1 count k lines width
  refine ⟨fun policy absent => ?_, fun policy attached bad => ?_, fun h => ?_⟩
  · rw [exec_extblt_eq]
    exact perform_of_refuses rfl hs (refuses_bind (refuses_extDefined_bpu policy absent))
  · rw [exec_extblt_eq]
    exact perform_of_refuses rfl hs (refuses_bind (refuses_extDefined_step policy attached bad))
  · obtain ⟨u, run, t, moved, r5, ending⟩ := next_extblt hs h
    have words : extWords (s.begin.putFlag .b true) = w := extWords_start s
    have move0 : (s.begin.putFlag .b true).extMove0 = line0 := by rw [extMove0_start, words]
    have move1 : (s.begin.putFlag .b true).extMove1 = line1 := by rw [extMove1_start, words]
    have frame : ∀ a, (∀ i < k, ∀ n < w, Outside a ((s.reg 1 + BitVec.ofNat 32 i * line1 +
        BitVec.ofNat 32 n * r4).setWidth 24) 2) → memGet t.mem a.toNat = s.byteAt a := by
      intro a ha
      refine (moved.mem a fun i hi => ?_).trans rfl
      rw [words, move1]
      exact ha i hi
    rw [move0, move1] at moved
    have state := eq_extLines moved
    split at ending
    · next all =>
      obtain ⟨x, y, d, agree⟩ := ending
      refine ⟨x, y, t.mem, d, ⟨u, run, ?_⟩, frame⟩
      rw [if_pos all]
      rw [state] at agree
      exact Agree.trans agree (State.extFrom_end (s.extLines k line0 line1) t d x y (s.next .extblt))
    · next part =>
      refine ⟨0, 0, t.mem, t.draws, ⟨u, run, ?_⟩, frame⟩
      obtain ⟨b, -, -, passes⟩ := allowedBetween_part part
      have some : s.allowedBetween (s.reg 3).toNat ≠ 0 := by omega
      have left : t.reg 5 = width := by
        rw [r5, if_neg some, words, State.putFlag_reg]
        rfl
      rw [if_neg part]
      rw [state, State.extFrom, left] at ending
      exact Agree.trans ending rfl

end Sys2Proof.Machine
end
